-- ==== Sys2Proof/Word.lean ====
section
/-! DEFINITION. The word types of TR1-SC (spec/10_state.md section 2, spec/20_memory.md R60, R64). -/

namespace Sys2Proof

/-- One byte of the address space (20_memory.md R68). -/
abbrev Byte := BitVec 8

/-- One 64-bit word: a register, a bus datum, a buffer entry (20_memory.md R64). -/
abbrev Word := BitVec 64

/-- A 24-bit byte address of the host's address space (20_memory.md R60). -/
abbrev Addr := BitVec 24

/-- An IEEE 754 binary64, held as its bit pattern (00_scope.md R15, 20_memory.md R68). -/
abbrev F64 := BitVec 64

end Sys2Proof
end

