-- ==== Sys2Proof/Syntax.lean ====
section
/-! DEFINITION. The 22 commands of spec/opcode_table.json (30_encoding.md R90), the fields of the one command
format C (R86), and the closed set of schemes (00_scope.md R3). -/

namespace Sys2Proof

/-- The commands, one constructor per row of the opcode table. FORM of GRAYGEN is the only operand field a
command word carries (30_encoding.md R86, R88). -/
inductive Instr where
  | nop
  | sreset
  | bits2sym
  | sym2dec
  | sym2bits
  | graygen (form : Bool)
  | lcencNrz
  | lcencMan
  | lcencAmi
  | modpAsk
  | modpFsk
  | modpPsk
  | modpQpsk
  | modpQam16
  | synLevel
  | synPulse
  | synCarrier
  | noise
  | tx
  | dictbuild
  | detect
  | rx
  deriving DecidableEq, Repr

/-- The fields of a 64-bit CMD write in format C (30_encoding.md R85, R86). -/
structure CommandFields where
  /-- bits [7:0] -/
  opcode : Byte
  /-- bit [8] -/
  form : Bool
  /-- RSV, bits [31:9] -/
  rsv : BitVec 23
  /-- bits [63:32] of the CMD write -/
  upper : BitVec 32
  deriving DecidableEq, Repr

/-- The three line codes (00_scope.md R3, 10_state.md R23). -/
inductive LineCode where
  | nrz
  | man
  | ami
  deriving DecidableEq, Repr

/-- The five carrier modulations (00_scope.md R3, 10_state.md R23). -/
inductive Modulation where
  | ask
  | fsk
  | psk
  | qpsk
  | qam16
  deriving DecidableEq, Repr

/-- A scheme: `isLine` and `isCarrier` of 00_scope.md R17 are the two constructors. -/
inductive Scheme where
  | line (code : LineCode)
  | carrier (modulation : Modulation)
  deriving DecidableEq, Repr

end Sys2Proof
end

