-- ==== Sys2Proof/Config.lean ====
section
/-! DEFINITION. What the implementation fixes (00_scope.md R11) and the free values: constants without a body, of
which nothing can be proved but their type. -/

namespace Sys2Proof.Config

/-! ### Parameters with the values this hardware takes (00_scope.md R11; log entry 19) -/

def maxBps : Nat := 8
def bitDepth : Nat := 4096
def symDepth : Nat := 4096
def decDepth : Nat := 4096
def grayDepth : Nat := 256
def levelDepth : Nat := 8192
def paramDepth : Nat := 4096
def sampleDepth : Nat := 65536
def dictDepth : Nat := 65536
/-- HARMONICS of the pulse synthesizer (00_scope.md R11, 44_pulse_noise.md R158). -/
def harmonics : Nat := 8
/-- PI, the binary64 nearest π (00_scope.md R15). -/
def pi : F64 := 0x400921FB54442D18#64

/-! ### Configuration functions (00_scope.md R11, R15; 93_implementation_defined.md I17; log entry 7) -/

/-- SIN, a total binary64 function of which nothing is assumed. -/
opaque sin : F64 → F64
/-- COS, a total binary64 function of which nothing is assumed. -/
opaque cos : F64 → F64
/-- ATAN2, a total function of two binary64s of which nothing is assumed. -/
opaque atan2 : F64 → F64 → F64

/-! ### Free values -/

/-- The binary64 operations that can yield a NaN (46_system.md R193). -/
inductive FloatOp where
  | add
  | sub
  | mul
  | div
  | sqrt
  deriving DecidableEq, Repr

/-- A NaN: any sign, any non-zero fraction (fraction 0 stands for 1, so that every value of the type is a NaN and
every NaN pattern is a value). -/
structure NaNPattern where
  sign : Bool
  fraction : BitVec 52
  deriving DecidableEq, Repr, Inhabited

/-- The binary64 of a NaN pattern. -/
def NaNPattern.toBits (p : NaNPattern) : F64 :=
  BitVec.ofBool p.sign ++ (2047#11 ++ (if p.fraction = 0 then 1#52 else p.fraction))

/-- DESIGN CHOICE (log entry 6): the sign and payload of the NaN that an operation yields on two operands are a free
value (46_system.md R193, 93_implementation_defined.md I16), a function of the operation and its operands, as
45_transceiver.md R182 makes every command a function of its inputs. -/
opaque nanResult : FloatOp → F64 → F64 → NaNPattern

/-- A finite binary64: sign, biased exponent below 2047, fraction (44_pulse_noise.md R164). -/
structure FiniteF64 where
  sign : Bool
  exponent : Fin 2047
  fraction : BitVec 52
  deriving DecidableEq, Repr, Inhabited

/-- The binary64 of a finite value. -/
def FiniteF64.toBits (d : FiniteF64) : F64 :=
  BitVec.ofBool d.sign ++ (BitVec.ofNat 11 d.exponent.val ++ d.fraction)

/-- NOISE_STREAM: the draws of the noise port, each any finite binary64 (44_pulse_noise.md R164, 60_exceptions.md
R220, 93_implementation_defined.md U7; log entry 8). -/
opaque noiseStream : Nat → FiniteF64

/-- What a host read of the running command's write set gives (70_reset_and_hazards.md R240,
93_implementation_defined.md I2; log entry 9). -/
opaque busyRead : Nat → Word

end Sys2Proof.Config
end

