-- ==== Sys2Proof/Machine/State.lean ====
section
/-! DEFINITION. The state of TR1-SC as plain data (10_state.md, 20_memory.md R61), the reasons a step can stop, and
the state after hardware reset (70_reset_and_hazards.md R230). -/

namespace Sys2Proof.Machine

/-! ### Names of the address map -/

/-- The eight buffer memories (10_state.md R42). -/
inductive MemId where
  | bit
  | sym
  | dec
  | gray
  | level
  | param
  | sample
  | dict
  deriving DecidableEq, Repr

/-- The registers of 10_state.md section 2. -/
inductive RegId where
  | id
  | ctrl
  | sps
  | peakV
  | carrierF
  | sampleRate
  | noiseSigma
  | cmd
  | status
  | nBits
  | nSym
  | nLevel
  | nParam
  | nSample
  | nDec
  | grayN
  | dictN
  | dictLen
  deriving DecidableEq, Repr

/-! ### Why a step stops -/

/-- The machine stops with a fault. -/
inductive Fault where
  /-- Raised by a command, or by a host read, that reads word `index` of a buffer memory while a byte of it has not
  been written since hardware reset: 70_reset_and_hazards.md R232 and 93_implementation_defined.md I1 make it a
  fault. SAFE: the hardware goes on with an unspecified value. -/
  | unwrittenEntry (mem : MemId) (index : Nat)
  deriving DecidableEq, Repr

/-- A step with no meaning. -/
inductive Refusal where
  /-- Raised by no arm of this model: every command of the opcode table has its meaning. SAFE: it stops. -/
  | notModelled (mnemonic : String)
  deriving DecidableEq, Repr

/-- The error codes of 60_exceptions.md R200 a command can complete with. -/
inductive ErrCode where
  | illegalCmd
  | cfgScheme
  | cfgBps
  | cfgSps
  | cfgBlock
  | cfgRate
  | dataRange
  | capacity
  deriving DecidableEq, Repr

/-- Why a command's pseudocode ends early: `raise Error(code)` (60_exceptions.md R201), or a read of an unwritten
entry (70_reset_and_hazards.md R232). -/
inductive Stop where
  | error (code : ErrCode)
  | fault (reason : Fault)
  deriving DecidableEq, Repr

/-! ### Parts of the state -/

/-- The Bipolar alternation register, one of +1 and -1 (10_state.md R51). -/
inductive Sign where
  | pos
  | neg
  deriving DecidableEq, Repr

/-- DICT_KEY: the configuration the dictionary was built for (10_state.md R52). -/
structure DictKey where
  scheme : Scheme
  width : Nat
  sps : BitVec 32
  peakV : F64
  carrierF : F64
  sampleRate : F64
  deriving DecidableEq, Repr

/-- What the command engine holds while BUSY = 1: the accepted word and the snapshot of the configuration and count
registers taken at acceptance (10_state.md R53; commands read these copies, log entry 16). -/
structure Snapshot where
  word : Word
  ctrl : Word
  sps : BitVec 32
  peakV : F64
  carrierF : F64
  sampleRate : F64
  noiseSigma : F64
  nBits : Word
  nSym : Word
  nLevel : Word
  nParam : Word
  nSample : Word
  deriving DecidableEq, Repr

/-- One access at the host port, or a hardware reset by the platform (70_reset_and_hazards.md R248). `size` is the
width in bytes (20_memory.md R64-R66). -/
inductive BusAccess where
  | read (size : Nat) (addr : Addr)
  | write (size : Nat) (addr : Addr) (value : Word)
  | hwReset
  deriving DecidableEq, Repr

/-- A pending access. `early` says that it arrives before the command running at that moment has completed; with no
command running it makes no difference (log entry 2). -/
structure HostEvent where
  early : Bool
  access : BusAccess
  deriving DecidableEq, Repr

/-- The response of a bus access (20_memory.md R65-R67); `none` before the first one. -/
inductive Response where
  | none
  /-- a write was performed, dropped or ignored -/
  | done
  /-- a read, with its data -/
  | data (value : Word)
  /-- a bus error; the data of a read is 0 with it -/
  | busError
  deriving DecidableEq, Repr

/-- The buffer memories as (byte address, byte) pairs at the addresses of 20_memory.md R61, addresses strictly
rising. -/
abbrev Memory := List Host.Cell

/-- The state of TR1-SC. -/
structure State where
  /-- CTRL (10_state.md R22); its reserved bits are 0. -/
  ctrl : Word
  /-- SPS, bits [31:0] (R24). -/
  sps : BitVec 32
  /-- PEAK_V (R25). -/
  peakV : F64
  /-- CARRIER_F (R26). -/
  carrierF : F64
  /-- SAMPLE_RATE (R27). -/
  sampleRate : F64
  /-- NOISE_SIGMA (R28). -/
  noiseSigma : F64
  /-- CMD: the last accepted command word (R29). -/
  cmd : Word
  /-- STATUS.BUSY (R30). -/
  busy : Bool
  /-- STATUS.DONE (R31). -/
  done : Bool
  /-- STATUS.ERR (R32). -/
  err : Bool
  /-- STATUS.OVR (R33). -/
  ovr : Bool
  /-- STATUS.DICT_VALID (R34). -/
  dictValid : Bool
  /-- AMI_SIGN (R51), shown as STATUS.AMI_NEG (R35). -/
  amiSign : Sign
  /-- STATUS.GRAY_FORM (R36). -/
  grayForm : Bool
  /-- STATUS.ERRCODE (R37). -/
  errCode : Byte
  /-- STATUS.LAST_OP (R37). -/
  lastOp : Byte
  /-- N_BITS (R38). -/
  nBits : Word
  /-- N_SYM (R38). -/
  nSym : Word
  /-- N_LEVEL (R38). -/
  nLevel : Word
  /-- N_PARAM (R38). -/
  nParam : Word
  /-- N_SAMPLE (R38). -/
  nSample : Word
  /-- N_DEC (R39). -/
  nDec : Word
  /-- GRAY_N (R40). -/
  grayN : Word
  /-- DICT_N (R41). -/
  dictN : Word
  /-- DICT_LEN (R41). -/
  dictLen : Word
  /-- DICT_KEY (R52). -/
  dictKey : DictKey
  /-- The engine's accepted word and snapshot (R53). -/
  snap : Snapshot
  /-- The buffer memories (R42). -/
  mem : Memory
  /-- Pending host accesses and resets, oldest first (20_memory.md R72; the model's own field, log entry 1). -/
  host : List HostEvent
  /-- The response of the last bus access (the model's own field, log entry 15). -/
  response : Response
  /-- Draws lined up at the noise port (60_exceptions.md R220; the model's own field, log entry 8). -/
  noiseQueue : List Config.FiniteF64
  /-- Draws taken so far (the model's own field, log entry 8). -/
  noiseTaken : Nat
  /-- Unspecified reads answered so far (the model's own field, log entry 9). -/
  freeReads : Nat
  deriving DecidableEq, Repr

/-- The state after hardware reset (70_reset_and_hazards.md R230, 10_state.md R57). DESIGN CHOICE where the spec gives
no value: DICT_KEY (log entry 4), the engine's word and snapshot (log entry 3), and the model's own fields (log
entries 1, 8, 9, 15). -/
def State.reset : State where
  ctrl := 0x0000000000041100#64
  sps := 16#32
  peakV := 0x3FF0000000000000#64
  carrierF := 0x3FF0000000000000#64
  sampleRate := 0x4030000000000000#64
  noiseSigma := 0#64
  cmd := 0#64
  busy := false
  done := false
  err := false
  ovr := false
  dictValid := false
  amiSign := .pos
  grayForm := false
  errCode := 0#8
  lastOp := 0#8
  nBits := 0#64
  nSym := 0#64
  nLevel := 0#64
  nParam := 0#64
  nSample := 0#64
  nDec := 0#64
  grayN := 0#64
  dictN := 0#64
  dictLen := 0#64
  dictKey :=
    { scheme := .line .nrz, width := 0, sps := 0#32, peakV := 0#64, carrierF := 0#64, sampleRate := 0#64 }
  snap :=
    { word := 0#64, ctrl := 0x0000000000041100#64, sps := 16#32, peakV := 0x3FF0000000000000#64
      carrierF := 0x3FF0000000000000#64, sampleRate := 0x4030000000000000#64, noiseSigma := 0#64
      nBits := 0#64, nSym := 0#64, nLevel := 0#64, nParam := 0#64, nSample := 0#64 }
  mem := []
  host := []
  response := .none
  noiseQueue := []
  noiseTaken := 0
  freeReads := 0

end Sys2Proof.Machine
end

