-- ==== Sys2Proof/Machine/Ops.lean ====
section
/-! DEFINITION. The named operations over memory and state: bytes, words and entries of the buffer memories
(20_memory.md R61, R68, R71), completion and error completion of a command (60_exceptions.md R201, R209), acceptance
(R208), noise draws (R220). -/

namespace Sys2Proof.Machine

/-! ### Bytes -/

/-- What an address that is not listed reads as: no value. Memory is unspecified after reset
(70_reset_and_hazards.md R232), so reading a byte that nothing has written is no read of a number (log entries 5
and 12). -/
def Memory.unlisted : Option Byte := none

/-- The byte at an address. -/
def Memory.readByte : Memory → Nat → Option Byte
  | [], _ => Memory.unlisted
  | c :: cs, a => if c.1 = a then some c.2 else Memory.readByte cs a

/-- Bytes at consecutive addresses from `a`. -/
def cellsFrom : Nat → List Byte → Memory
  | _, [] => []
  | a, b :: bs => (a, b) :: cellsFrom (a + 1) bs

/-- The memory with the bytes `bs` stored from address `a` on. -/
def Memory.writeBytes (m : Memory) (a : Nat) (bs : List Byte) : Memory :=
  m.filter (fun c => c.1 < a) ++ (cellsFrom a bs ++ m.filter (fun c => a + bs.length ≤ c.1))

/-- The canonical form: addresses strictly rising. (An unlisted address reads as no value, so no entry can repeat
it.) -/
def Memory.wf : Memory → Bool
  | [] => true
  | [_] => true
  | c :: d :: cs => decide (c.1 < d.1) && Memory.wf (d :: cs)

/-! ### Words: little-endian (20_memory.md R68; DEDUCED for the inside of the machine, log entry 11) -/

/-- The `n` bytes at `a` as a number, the byte at the lowest address least significant. -/
def Memory.readLE (m : Memory) : Nat → Nat → Option Nat
  | 0, _ => some 0
  | n + 1, a =>
    match m.readByte a, Memory.readLE m n (a + 1) with
    | some b, some r => some (b.toNat + 256 * r)
    | _, _ => none

/-- The `n` low bytes of a number, least significant first. -/
def bytesLE : Nat → Nat → List Byte
  | 0, _ => []
  | n + 1, v => BitVec.ofNat 8 v :: bytesLE n (v / 256)

/-- The 64-bit word at a byte address, if all its bytes have been written. -/
def Memory.readWord (m : Memory) (a : Nat) : Option Word := (m.readLE 8 a).map (BitVec.ofNat 64)

/-! ### Entries of the buffer memories (20_memory.md R61, R71) -/

/-- The first byte address of a memory's window (R61). -/
def MemId.base : MemId → Nat
  | .bit => 0x010000
  | .sym => 0x020000
  | .dec => 0x030000
  | .gray => 0x040000
  | .level => 0x050000
  | .param => 0x060000
  | .sample => 0x100000
  | .dict => 0x200000

/-- How many 64-bit words of a window hold entries: its depth, three words a triple for PARAM_MEM (R61). -/
def MemId.words : MemId → Nat
  | .bit => Config.bitDepth
  | .sym => Config.symDepth
  | .dec => Config.decDepth
  | .gray => Config.grayDepth
  | .level => Config.levelDepth
  | .param => 3 * Config.paramDepth
  | .sample => Config.sampleDepth
  | .dict => Config.dictDepth

/-- The byte address of word `i` of a memory: `base + 8·i` (R61). -/
def MemId.addr (id : MemId) (i : Nat) : Nat := id.base + 8 * i

/-- Word `i` of a memory; the fault of 70_reset_and_hazards.md R232 if a byte of it was never written (log entry 5). -/
def readEntry (id : MemId) (i : Nat) (m : Memory) : Except Fault Word :=
  match m.readWord (id.addr i) with
  | some w => .ok w
  | none => .error (.unwrittenEntry id i)

/-- Words `i, i+1, …` of a memory, `n` of them, in index order. -/
def readEntries (id : MemId) (m : Memory) : Nat → Nat → Except Fault (List Word)
  | 0, _ => .ok []
  | n + 1, i =>
    match readEntry id i m with
    | .error f => .error f
    | .ok w =>
      match readEntries id m n (i + 1) with
      | .error f => .error f
      | .ok ws => .ok (w :: ws)

/-- The memory with the words `ws` stored at entries `i, i+1, …`. -/
def writeEntries (id : MemId) (i : Nat) (ws : List Word) (m : Memory) : Memory :=
  m.writeBytes (id.addr i) (ws.flatMap (fun w => bytesLE 8 w.toNat))

/-! ### Ending a command -/

/-- The codes of 60_exceptions.md R200. -/
def ErrCode.code : ErrCode → Byte
  | .illegalCmd => 0x01#8
  | .cfgScheme => 0x02#8
  | .cfgBps => 0x03#8
  | .cfgSps => 0x04#8
  | .cfgBlock => 0x05#8
  | .cfgRate => 0x06#8
  | .dataRange => 0x07#8
  | .capacity => 0x08#8

/-- Error completion, the machine's one way to take an exception (60_exceptions.md R201, R211): the cause goes to
ERRCODE, ERR and DONE are set, BUSY is cleared, and nothing else changes. -/
def raiseError (code : ErrCode) (s : State) : State :=
  { s with errCode := code.code, err := true, busy := false, done := true }

/-- Successful completion (60_exceptions.md R209). -/
def complete (s : State) : State := { s with busy := false, done := true }

/-- The end of a command that started in `s`: all of its writes, or none of them and an error code (60_exceptions.md
R210), or the fault of an unwritten read. -/
def finish (s : State) (r : Except Stop State) : Host.Outcome State Fault Refusal :=
  match r with
  | .ok t => .next (complete t)
  | .error (.error code) => .next (raiseError code s)
  | .error (.fault f) => .fault f

/-- The host's acknowledgement of an error, the counterpart of a return (60_exceptions.md R212): clearing ERR clears
ERRCODE with it (10_state.md R37, R59). -/
def clearError (s : State) : State := { s with err := false, errCode := 0#8 }

/-! ### Acceptance (60_exceptions.md R208, 10_state.md R53) -/

/-- The accepted word and the configuration and count registers as they stand (10_state.md R53). -/
def takeSnapshot (v : Word) (s : State) : Snapshot where
  word := v
  ctrl := s.ctrl
  sps := s.sps
  peakV := s.peakV
  carrierF := s.carrierF
  sampleRate := s.sampleRate
  noiseSigma := s.noiseSigma
  nBits := s.nBits
  nSym := s.nSym
  nLevel := s.nLevel
  nParam := s.nParam
  nSample := s.nSample

/-- The register writes of acceptance: CMD, DONE, ERR, ERRCODE, LAST_OP, BUSY and the snapshot (60_exceptions.md
R208). -/
def latchCommand (v : Word) (s : State) : State :=
  { s with
    cmd := v
    done := false
    err := false
    errCode := 0#8
    lastOp := v.extractLsb' 0 8
    busy := true
    snap := takeSnapshot v s }

/-! ### The noise port (60_exceptions.md R220, 44_pulse_noise.md R164) -/

/-- The `i`-th draw from now on: from the draws lined up, then from the free stream. -/
def drawAt (s : State) (i : Nat) : F64 :=
  match s.noiseQueue[i]? with
  | some d => d.toBits
  | none => (Config.noiseStream (s.noiseTaken + i)).toBits

/-- The next `n` draws, in index order. -/
def draws (n : Nat) (s : State) : List F64 := (List.range n).map (drawAt s)

/-- The state after `n` draws were taken. -/
def takeDraws (n : Nat) (s : State) : State :=
  { s with noiseQueue := s.noiseQueue.drop n, noiseTaken := s.noiseTaken + n }

end Sys2Proof.Machine
end

