-- ==== Sys2Proof/Machine/System.lean ====
section
/-! DEFINITION. System commands: NOP, SRESET (46_system.md). -/

namespace Sys2Proof.Machine

/-- NOP: nothing but its completion (46_system.md R190). -/
def execNop (s : State) : Host.Outcome State Fault Refusal := finish s (.ok s)

/-- The registers SRESET writes (46_system.md R191, 90_conflicts.md C12); every other piece of state is kept. -/
def softReset (s : State) : State :=
  { s with
    ctrl := 0x0000000000041100#64
    sps := 16#32
    peakV := 0x3FF0000000000000#64
    carrierF := 0x3FF0000000000000#64
    sampleRate := 0x4030000000000000#64
    noiseSigma := 0#64
    nBits := 0#64
    nSym := 0#64
    nLevel := 0#64
    nParam := 0#64
    nSample := 0#64
    amiSign := .pos
    dictValid := false
    ovr := false }

/-- SRESET (46_system.md R191). -/
def execSreset (s : State) : Host.Outcome State Fault Refusal := finish s (.ok (softReset s))

end Sys2Proof.Machine
end

