-- ==== Sys2Proof/Machine/Binary64.lean ====
section
/-! DEFINITION. IEEE 754 binary64 arithmetic on bit patterns, round to nearest even, computed exactly on integers and
rounded once (00_scope.md R15, 46_system.md R193). -/

namespace Sys2Proof.Machine

open Sys2Proof.Config (FloatOp)

/-! ### Fields and classes -/

/-- The sign bit. -/
def F64.sign (x : F64) : Bool := x.getLsbD 63

/-- The 11-bit biased exponent. -/
def F64.expField (x : F64) : Nat := x.toNat / 2 ^ 52 % 2 ^ 11

/-- The 52-bit fraction. -/
def F64.fracField (x : F64) : Nat := x.toNat % 2 ^ 52

/-- The pattern without its sign, which orders the magnitudes. -/
def F64.magnitude (x : F64) : Nat := x.toNat % 2 ^ 63

def F64.isNaN (x : F64) : Bool := F64.expField x == 2047 && F64.fracField x != 0

def F64.isInf (x : F64) : Bool := F64.expField x == 2047 && F64.fracField x == 0

def F64.isFinite (x : F64) : Bool := F64.expField x != 2047

def F64.isZero (x : F64) : Bool := F64.magnitude x == 0

/-- The integer significand of a finite value (subnormals have no hidden bit). -/
def F64.significand (x : F64) : Nat :=
  if F64.expField x = 0 then F64.fracField x else F64.fracField x + 2 ^ 52

/-- The exponent of a finite value's last place: the value is (-1)^sign * significand * 2^scale. -/
def F64.scale (x : F64) : Int := (max (F64.expField x) 1 : Nat) - 1075

/-! ### Building and rounding -/

/-- A sign and a magnitude pattern. -/
def F64.ofMagnitude (negative : Bool) (mag : Nat) : F64 :=
  BitVec.ofNat 64 (mag + if negative then 2 ^ 63 else 0)

/-- The magnitude pattern of infinity. -/
def F64.infMagnitude : Nat := 2047 * 2 ^ 52

/-- `m / 2^k` rounded to the nearest integer, ties to even. -/
def shiftRightNearestEven (m k : Nat) : Nat :=
  let d := m / 2 ^ k
  let r := m % 2 ^ k
  if 2 ^ k < 2 * r || (2 ^ k == 2 * r && d % 2 == 1) then d + 1 else d

/-- The magnitude pattern nearest to `m * 2^e` for `m > 0`, ties to even, gradual underflow, overflow to infinity
(R193). The last place is 2^q with q at least -1074; a significand that rounds up to 2^53 carries into the
exponent field by the addition. -/
def F64.roundMagnitude (m : Nat) (e : Int) : Nat :=
  let q : Int := max ((Nat.log2 m : Int) + e - 52) (-1074)
  let sig := if q ≤ e then m * 2 ^ (e - q).toNat else shiftRightNearestEven m (q - e).toNat
  min ((q + 1074).toNat * 2 ^ 52 + sig) F64.infMagnitude

/-- ± m * 2^e rounded to binary64. -/
def F64.round (negative : Bool) (m : Nat) (e : Int) : F64 :=
  if m = 0 then F64.ofMagnitude negative 0 else F64.ofMagnitude negative (F64.roundMagnitude m e)

/-- `f64(n)` of an integer (R15); zero gives +0.0. -/
def F64.ofInt (n : Int) : F64 := F64.round (n < 0) n.natAbs 0

/-- `f64(n)` of a natural number. -/
def F64.ofNat (n : Nat) : F64 := F64.ofInt n

/-- The NaN of an operation: sign and payload free (R193, log entry 6). -/
def F64.nan (op : FloatOp) (x y : F64) : F64 := (Config.nanResult op x y).toBits

/-- -x: the sign bit flipped. -/
def F64.negate (x : F64) : F64 := x ^^^ 0x8000000000000000#64

/-! ### Operations -/

/-- A finite value as an integer number of units 2^e, for e at most its scale. -/
def F64.unitsAt (x : F64) (e : Int) : Int :=
  let u : Int := F64.significand x * 2 ^ (F64.scale x - e).toNat
  if F64.sign x then -u else u

/-- The sum of two finite values. An exact zero sum is -0.0 only when both are negative. -/
def F64.addFinite (x y : F64) : F64 :=
  let e := min (F64.scale x) (F64.scale y)
  let v := F64.unitsAt x e + F64.unitsAt y e
  if v = 0 then F64.ofMagnitude (F64.sign x && F64.sign y) 0 else F64.round (v < 0) v.natAbs e

/-- `x + y` (R15, R193). -/
def F64.add (x y : F64) : F64 :=
  if F64.isNaN x || F64.isNaN y then F64.nan .add x y
  else if F64.isInf x then
    if F64.isInf y && F64.sign x != F64.sign y then F64.nan .add x y else x
  else if F64.isInf y then y
  else F64.addFinite x y

/-- `x - y` (R15, R193). -/
def F64.sub (x y : F64) : F64 :=
  if F64.isNaN x || F64.isNaN y then F64.nan .sub x y
  else if F64.isInf x then
    if F64.isInf y && F64.sign x == F64.sign y then F64.nan .sub x y else x
  else if F64.isInf y then F64.negate y
  else F64.addFinite x (F64.negate y)

/-- `x × y` (R15, R193). -/
def F64.mul (x y : F64) : F64 :=
  let negative := F64.sign x != F64.sign y
  if F64.isNaN x || F64.isNaN y then F64.nan .mul x y
  else if F64.isInf x || F64.isInf y then
    if F64.isZero x || F64.isZero y then F64.nan .mul x y else F64.ofMagnitude negative F64.infMagnitude
  else F64.round negative (F64.significand x * F64.significand y) (F64.scale x + F64.scale y)

/-- Bits kept below the binary point of an integer quotient, enough for one correct rounding. -/
def quotientGuard : Nat := 118

/-- `x ÷ y` (R15, R193). The quotient keeps at least 65 bits and a sticky last bit, so that it rounds as the exact
quotient does. -/
def F64.div (x y : F64) : F64 :=
  let negative := F64.sign x != F64.sign y
  if F64.isNaN x || F64.isNaN y then F64.nan .div x y
  else if F64.isInf x then
    if F64.isInf y then F64.nan .div x y else F64.ofMagnitude negative F64.infMagnitude
  else if F64.isInf y then F64.ofMagnitude negative 0
  else if F64.isZero y then
    if F64.isZero x then F64.nan .div x y else F64.ofMagnitude negative F64.infMagnitude
  else
    let n := F64.significand x * 2 ^ quotientGuard
    let d := F64.significand y
    let sticky := if n % d = 0 then 0 else 1
    F64.round negative (2 * (n / d) + sticky) (F64.scale x - F64.scale y - quotientGuard - 1)

/-- The integer square root of `n` found bit by bit: `r` so far, `i` bits still to try. -/
def isqrtFrom (n : Nat) : Nat → Nat → Nat
  | 0, r => r
  | i + 1, r => isqrtFrom n i (if (r + 2 ^ i) * (r + 2 ^ i) ≤ n then r + 2 ^ i else r)

/-- The integer square root, rounded down. -/
def isqrt (n : Nat) : Nat := isqrtFrom n (Nat.log2 n / 2 + 1) 0

/-- `SQRT`, correctly rounded (R15): the root keeps at least 64 bits and a sticky last bit. -/
def F64.sqrt (x : F64) : F64 :=
  if F64.isNaN x then F64.nan .sqrt x x
  else if F64.isZero x then x
  else if F64.sign x then F64.nan .sqrt x x
  else if F64.isInf x then x
  else
    let odd := F64.scale x % 2 == 1
    let m := if odd then 2 * F64.significand x else F64.significand x
    let e := if odd then F64.scale x - 1 else F64.scale x
    let n := m * 2 ^ 128
    let r := isqrt n
    let sticky := if r * r = n then 0 else 1
    F64.round false (2 * r + sticky) (e / 2 - 64 - 1)

/-- The position of a non-NaN value in the order of the reals; both zeros at 0. -/
def F64.orderKey (x : F64) : Int := if F64.sign x then -(F64.magnitude x : Int) else F64.magnitude x

/-- `x < y`: ordered, false when either is a NaN, +0.0 and -0.0 equal (R193). -/
def F64.lt (x y : F64) : Bool :=
  !F64.isNaN x && !F64.isNaN y && decide (F64.orderKey x < F64.orderKey y)

/-! ### Constants of the pseudocode -/

def F64.zero : F64 := 0x0000000000000000#64
def F64.one : F64 := 0x3FF0000000000000#64
def F64.two : F64 := 0x4000000000000000#64
def F64.three : F64 := 0x4008000000000000#64
def F64.deg180 : F64 := 0x4066800000000000#64
def F64.deg360 : F64 := 0x4076800000000000#64

end Sys2Proof.Machine
end

