-- ==== Sys2Proof/Machine/Operands.lean ====
section
/-! DEFINITION. The implicit operands of the commands (30_encoding.md R88): the configuration fields of the snapshot
(10_state.md R22, R53), the effective width (00_scope.md R17), the checks (60_exceptions.md R203), the input buffers
and the output buffers with their count registers (20_memory.md R74). -/

namespace Sys2Proof.Machine

/-! ### Configuration fields -/

/-- CTRL.SCHEME, bits [3:0] (10_state.md R22). -/
def Snapshot.schemeCode (c : Snapshot) : Nat := (c.ctrl.extractLsb' 0 4).toNat

/-- CTRL.BPS, bits [11:8]. -/
def Snapshot.bps (c : Snapshot) : Nat := (c.ctrl.extractLsb' 8 4).toNat

/-- CTRL.IDEAL, bit [12]. -/
def Snapshot.ideal (c : Snapshot) : Bool := c.ctrl.getLsbD 12

/-- CTRL.PULSE_BLOCK, bits [23:16]. -/
def Snapshot.pulseBlock (c : Snapshot) : Nat := (c.ctrl.extractLsb' 16 8).toNat

/-- The scheme codes (10_state.md R23); codes 8-15 name no scheme. -/
def schemeOfCode (n : Nat) : Option Scheme :=
  match n with
  | 0 => some (.line .nrz)
  | 1 => some (.line .man)
  | 2 => some (.line .ami)
  | 3 => some (.carrier .ask)
  | 4 => some (.carrier .fsk)
  | 5 => some (.carrier .psk)
  | 6 => some (.carrier .qpsk)
  | 7 => some (.carrier .qam16)
  | _ => none

/-- `Lsym(scheme, w)`: line levels per symbol, or one carrier block (00_scope.md R17). -/
def levelsPerSymbol : Scheme → Nat → Nat
  | .line .nrz, w => w
  | .line .man, w => 2 * w
  | .line .ami, w => 2 * w
  | .carrier _, _ => 1

/-! ### Checks (60_exceptions.md R203) -/

/-- The scheme of CTRL.SCHEME: the first check of `cfgW`. -/
def cfgScheme (c : Snapshot) : Except Stop Scheme :=
  match schemeOfCode c.schemeCode with
  | some sch => .ok sch
  | none => .error (.error .cfgScheme)

/-- `cfgW` of a named scheme: the effective width. -/
def cfgW (c : Snapshot) : Scheme → Except Stop Nat
  | .carrier .qpsk => .ok 2
  | .carrier .qam16 => .ok 4
  | _ => if c.bps < 1 || Config.maxBps < c.bps then .error (.error .cfgBps) else .ok c.bps

/-- `needSPS()`. -/
def needSps (c : Snapshot) : Except Stop Unit :=
  if c.sps = 0 then .error (.error .cfgSps) else .ok ()

/-- `needBlock()`. -/
def needBlock (c : Snapshot) : Except Stop Unit :=
  if c.pulseBlock = 0 then .error (.error .cfgBlock) else .ok ()

/-- SAMPLE_RATE is finite and > 0. -/
def Snapshot.rateLegal (c : Snapshot) : Bool := F64.isFinite c.sampleRate && F64.lt F64.zero c.sampleRate

/-- `needRate()`. -/
def needRate (c : Snapshot) : Except Stop Unit :=
  if c.rateLegal then .ok () else .error (.error .cfgRate)

/-- `needRange(w)` on the input symbols. -/
def needRange (w : Nat) (syms : List Nat) : Except Stop Unit :=
  if syms.any (fun s => 2 ^ w - 1 < s) then .error (.error .dataRange) else .ok ()

/-- `needCap(n, DEPTH)`. -/
def needCap (n depth : Nat) : Except Stop Unit :=
  if depth < n then .error (.error .capacity) else .ok ()

/-- A check made only under a condition. -/
def whenNeeded (b : Bool) (check : Except Stop Unit) : Except Stop Unit := if b then check else .ok ()

/-! ### Input buffers -/

/-- Words 0..n-1 of a memory, as a command reads them. -/
def inputWords (id : MemId) (n : Nat) (s : State) : Except Stop (List Word) :=
  match readEntries id s.mem n 0 with
  | .ok ws => .ok ws
  | .error f => .error (.fault f)

/-- BIT_MEM[0..n-1] (10_state.md R43). -/
def inputBits (n : Nat) (s : State) : Except Stop (List Bool) :=
  (inputWords .bit n s).map (List.map (fun w => w.getLsbD 0))

/-- SYM_MEM[0..n-1], unsigned (R44). -/
def inputSyms (n : Nat) (s : State) : Except Stop (List Nat) :=
  (inputWords .sym n s).map (List.map BitVec.toNat)

/-- LEVEL_MEM[0..n-1], two's complement (R47). -/
def inputLevels (n : Nat) (s : State) : Except Stop (List Int) :=
  (inputWords .level n s).map (List.map BitVec.toInt)

/-- A parameter triple (R48). -/
structure Triple where
  amp : F64
  freq : F64
  phase : F64
  deriving DecidableEq, Repr

/-- Three words a triple, in the order AMP, FREQ, PHASE (20_memory.md R61). -/
def triplesOfWords : List Word → List Triple
  | a :: f :: p :: ws => ⟨a, f, p⟩ :: triplesOfWords ws
  | _ => []

/-- The words of a triple. -/
def Triple.words (t : Triple) : List Word := [t.amp, t.freq, t.phase]

/-- PARAM_MEM[0..n-1]. -/
def inputParams (n : Nat) (s : State) : Except Stop (List Triple) :=
  (inputWords .param (3 * n) s).map triplesOfWords

/-- SAMPLE_MEM[0..n-1] (R49). -/
def inputSamples (n : Nat) (s : State) : Except Stop (List F64) := inputWords .sample n s

/-- DICT_MEM[0..n-1] (R50). -/
def inputDict (n : Nat) (s : State) : Except Stop (List F64) := inputWords .dict n s

/-! ### Output buffers -/

/-- A bit as a buffer entry (10_state.md R43). -/
def wordOfBit (b : Bool) : Word := if b then 1#64 else 0#64

/-- A count as a register value. -/
def countWord (n : Nat) : Word := BitVec.ofNat 64 n

/-- The memory with an output buffer written from entry 0. -/
def State.store (s : State) (id : MemId) (ws : List Word) : State := { s with mem := writeEntries id 0 ws s.mem }

/-- BIT_MEM[0..] and N_BITS. -/
def storeBits (bits : List Bool) (s : State) : State :=
  { s.store .bit (bits.map wordOfBit) with nBits := countWord bits.length }

/-- SYM_MEM[0..] and N_SYM. -/
def storeSyms (syms : List Nat) (s : State) : State :=
  { s.store .sym (syms.map (BitVec.ofNat 64)) with nSym := countWord syms.length }

/-- DEC_MEM[0..] and N_DEC. -/
def storeDecs (decs : List F64) (s : State) : State :=
  { s.store .dec decs with nDec := countWord decs.length }

/-- GRAY_MEM[0..], GRAY_N and STATUS.GRAY_FORM. -/
def storeGray (form : Bool) (table : List Word) (s : State) : State :=
  { s.store .gray table with grayN := countWord table.length, grayForm := form }

/-- LEVEL_MEM[0..] and N_LEVEL. -/
def storeLevels (levels : List Int) (s : State) : State :=
  { s.store .level (levels.map (BitVec.ofInt 64)) with nLevel := countWord levels.length }

/-- PARAM_MEM[0..] and N_PARAM. -/
def storeParams (params : List Triple) (s : State) : State :=
  { s.store .param (params.flatMap Triple.words) with nParam := countWord params.length }

/-- SAMPLE_MEM[0..] and N_SAMPLE. -/
def storeSamples (samples : List F64) (s : State) : State :=
  { s.store .sample samples with nSample := countWord samples.length }

end Sys2Proof.Machine
end

