-- ==== Sys2Proof/Machine/SymbolMapper.lean ====
section
/-! DEFINITION. The Symbol Mapper: BITS2SYM, SYM2DEC, SYM2BITS (40_symbol_mapper.md). -/

namespace Sys2Proof.Machine

/-- Items `k·len .. k·len + len − 1` of a list. -/
def chunk {α : Type} (len k : Nat) (l : List α) : List α := (l.drop (k * len)).take len

/-- The component bits of a symbol of width `w`, most significant first (00_scope.md R14). -/
def symbolBits (w s : Nat) : List Bool := (List.range w).map (fun i => s.testBit (w - 1 - i))

/-- `s <- 2*s + b` over the component bits, from 0 (40_symbol_mapper.md R100). -/
def bitsValue (bits : List Bool) : Nat := bits.foldl (fun s b => 2 * s + b.toNat) 0

/-- The `n` symbols of width `w` at the front of a bit sequence (R100). -/
def groupBits (w n : Nat) (bits : List Bool) : List Nat :=
  (List.range n).map (fun k => bitsValue (chunk w k bits))

/-- The normalized decimal `dec(s, w)` (00_scope.md R17, 40_symbol_mapper.md R102, R103). -/
def normalized (w s : Nat) : F64 := F64.div (F64.ofNat s) (F64.ofNat (2 ^ w - 1))

/-- BITS2SYM (40_symbol_mapper.md R100). -/
def execBits2Sym (s : State) : Host.Outcome State Fault Refusal :=
  finish s do
    let sch ← cfgScheme s.snap
    let w ← cfgW s.snap sch
    let n := s.snap.nBits.toNat / w
    needCap n Config.symDepth
    let bits ← inputBits (n * w) s
    pure (storeSyms (groupBits w n bits) s)

/-- SYM2DEC (40_symbol_mapper.md R102). -/
def execSym2Dec (s : State) : Host.Outcome State Fault Refusal :=
  finish s do
    let sch ← cfgScheme s.snap
    let w ← cfgW s.snap sch
    let n := s.snap.nSym.toNat
    let syms ← inputSyms n s
    needRange w syms
    needCap n Config.decDepth
    pure (storeDecs (syms.map (normalized w)) s)

/-- SYM2BITS (40_symbol_mapper.md R104). -/
def execSym2Bits (s : State) : Host.Outcome State Fault Refusal :=
  finish s do
    let sch ← cfgScheme s.snap
    let w ← cfgW s.snap sch
    let n := s.snap.nSym.toNat
    let syms ← inputSyms n s
    needRange w syms
    needCap (n * w) Config.bitDepth
    pure (storeBits (syms.flatMap (symbolBits w)) s)

end Sys2Proof.Machine
end

