-- ==== Sys2Proof/Machine/LineCoder.lean ====
section
/-! DEFINITION. The Line Coder state machine: LCENC.NRZ, LCENC.MAN, LCENC.AMI (42_line_coder.md). -/

namespace Sys2Proof.Machine

/-- The level of an alternation sign. -/
def Sign.level : Sign → Int
  | .pos => 1
  | .neg => -1

/-- `−sign`. -/
def Sign.flip : Sign → Sign
  | .pos => .neg
  | .neg => .pos

/-- NRZ-Polar: bit 1 gives +1, bit 0 gives −1 (42_line_coder.md R121). -/
def nrzLevels (bits : List Bool) : List Int := bits.map (fun b => if b then 1 else -1)

/-- Manchester: the bit XOR the two-phase clock, 1 in the even slot and 0 in the odd slot (R123, R124). -/
def manLevels (bits : List Bool) : List Int :=
  bits.flatMap (fun b => [if b ^^ true then 1 else 0, if b ^^ false then 1 else 0])

/-- The Bipolar state machine over component bits: the levels, and the state it is left in (R125). -/
def amiRun : Sign → List Bool → List Int × Sign
  | sign, [] => ([], sign)
  | sign, b :: bs =>
    let r := amiRun (if b then sign.flip else sign) bs
    ((if b then sign.level else 0) :: 0 :: r.1, r.2)

/-- The level block of one symbol; the Bipolar register starts every symbol at +1 (R120, R126, R129). -/
def symbolLevels (code : LineCode) (w s : Nat) : List Int :=
  match code with
  | .nrz => nrzLevels (symbolBits w s)
  | .man => manLevels (symbolBits w s)
  | .ami => (amiRun .pos (symbolBits w s)).1

/-- The levels of a sequence of symbols, block by block (R120). -/
def lineLevels (code : LineCode) (w : Nat) (syms : List Nat) : List Int := syms.flatMap (symbolLevels code w)

/-- AMI_SIGN after a sequence of symbols: that of the last symbol, unchanged when there is none (R127). -/
def amiSignAfter (w : Nat) (syms : List Nat) (before : Sign) : Sign :=
  syms.foldl (fun _ s => (amiRun .pos (symbolBits w s)).2) before

/-- The body of a line coder: LEVEL_MEM, N_LEVEL, and AMI_SIGN for Bipolar (R121, R123, R127). -/
def storeLineCode (code : LineCode) (w : Nat) (syms : List Nat) (s : State) : State :=
  let t := storeLevels (lineLevels code w syms) s
  match code with
  | .ami => { t with amiSign := amiSignAfter w syms s.amiSign }
  | .nrz => t
  | .man => t

/-- The common frame of the line coders (R120, R121, R123, R127). -/
def encodeLine (code : LineCode) (s : State) : Host.Outcome State Fault Refusal :=
  finish s do
    let w ← cfgW s.snap (.line code)
    let n := s.snap.nSym.toNat
    let syms ← inputSyms n s
    needRange w syms
    needCap (n * levelsPerSymbol (.line code) w) Config.levelDepth
    pure (storeLineCode code w syms s)

/-- LCENC.NRZ (42_line_coder.md R121). -/
def execLcencNrz (s : State) : Host.Outcome State Fault Refusal := encodeLine .nrz s

/-- LCENC.MAN (42_line_coder.md R123). -/
def execLcencMan (s : State) : Host.Outcome State Fault Refusal := encodeLine .man s

/-- LCENC.AMI (42_line_coder.md R127). -/
def execLcencAmi (s : State) : Host.Outcome State Fault Refusal := encodeLine .ami s

end Sys2Proof.Machine
end

