-- ==== Sys2Proof/Machine/GrayTable.lean ====
section
/-! DEFINITION. The Gray table generator: GRAYGEN (41_gray_table.md). -/

namespace Sys2Proof.Machine

/-- `gray(i) = i XOR (i >> 1)` (41_gray_table.md R110). -/
def gray (i : Nat) : Nat := i ^^^ (i >>> 1)

/-- `gidx(s) = s XOR (s >> 1) XOR … XOR (s >> (w−1))` (41_gray_table.md R112). -/
def grayIndex (w s : Nat) : Nat := (List.range w).foldl (fun acc j => acc ^^^ (s >>> j)) 0

/-- Entry `i` of the Gray table of width `w` in either form (41_gray_table.md R114). -/
def grayEntry (form : Bool) (w i : Nat) : Word :=
  if form then normalized w (gray i) else BitVec.ofNat 64 (gray i)

/-- GRAYGEN (41_gray_table.md R114). -/
def execGraygen (form : Bool) (s : State) : Host.Outcome State Fault Refusal :=
  finish s do
    let sch ← cfgScheme s.snap
    let w ← cfgW s.snap sch
    needCap (2 ^ w) Config.grayDepth
    pure (storeGray form ((List.range (2 ^ w)).map (grayEntry form w)) s)

end Sys2Proof.Machine
end

