-- ==== Sys2Proof/Machine/ModulationMapper.lean ====
section
/-! DEFINITION. The modulation parameter generators and the carrier synthesizer: MODP.ASK, MODP.FSK, MODP.PSK,
MODP.QPSK, MODP.QAM16, SYN.CARRIER (43_modulation.md). -/

namespace Sys2Proof.Machine

/-! ### Parameter maps -/

/-- `(dec(s, w), 1.0, 0.0)` (43_modulation.md R136). -/
def askTriple (w s : Nat) : Triple := ⟨normalized w s, F64.one, F64.zero⟩

/-- `(1.0, 1.0 + dec(s, w), 0.0)` (R137). -/
def fskTriple (w s : Nat) : Triple := ⟨F64.one, F64.add F64.one (normalized w s), F64.zero⟩

/-- `(1.0, 1.0, f64(gidx(s)) × (360.0 ÷ f64(2^w)))` (R138). -/
def pskTriple (w s : Nat) : Triple :=
  ⟨F64.one, F64.one, F64.mul (F64.ofNat (grayIndex w s)) (F64.div F64.deg360 (F64.ofNat (2 ^ w)))⟩

/-- `H = 1.0 ÷ SQRT(2.0)` (R140). -/
def qamHigh : F64 := F64.div F64.one (F64.sqrt F64.two)

/-- `L = 1.0 ÷ (3.0 × SQRT(2.0))` (R140). -/
def qamLow : F64 := F64.div F64.one (F64.mul F64.three (F64.sqrt F64.two))

/-- `LV = [−H, −L, +L, +H]` (R140). -/
def qamLevel (i : Nat) : F64 :=
  match i with
  | 0 => F64.negate qamHigh
  | 1 => F64.negate qamLow
  | 2 => qamLow
  | _ => qamHigh

/-- `(ATAN2(Q, I) × 180.0) ÷ PI`, and 360.0 more when that is negative (R141). -/
def qamPhase (i q : F64) : F64 :=
  let p := F64.div (F64.mul (Config.atan2 q i) F64.deg180) Config.pi
  if F64.lt p F64.zero then F64.add p F64.deg360 else p

/-- The 16-QAM map: column selects I, row selects Q (R140, R141). -/
def qamTriple (s : Nat) : Triple :=
  let i := qamLevel (grayIndex 2 (s % 4))
  let q := qamLevel (grayIndex 2 (s / 4))
  ⟨F64.sqrt (F64.add (F64.mul i i) (F64.mul q q)), F64.one, qamPhase i q⟩

/-- `map_scheme(s, w)` (R135-R141). QPSK is the PSK map at w = 2 (R139). -/
def symbolTriple (m : Modulation) (w s : Nat) : Triple :=
  match m with
  | .ask => askTriple w s
  | .fsk => fskTriple w s
  | .psk => pskTriple w s
  | .qpsk => pskTriple 2 s
  | .qam16 => qamTriple s

/-- The common frame of the MODP commands (R135). -/
def mapParams (m : Modulation) (s : State) : Host.Outcome State Fault Refusal :=
  finish s do
    let w ← cfgW s.snap (.carrier m)
    let n := s.snap.nSym.toNat
    let syms ← inputSyms n s
    needRange w syms
    needCap n Config.paramDepth
    pure (storeParams (syms.map (symbolTriple m w)) s)

/-- MODP.ASK (43_modulation.md R136). -/
def execModpAsk (s : State) : Host.Outcome State Fault Refusal := mapParams .ask s

/-- MODP.FSK (43_modulation.md R137). -/
def execModpFsk (s : State) : Host.Outcome State Fault Refusal := mapParams .fsk s

/-- MODP.PSK (43_modulation.md R138). -/
def execModpPsk (s : State) : Host.Outcome State Fault Refusal := mapParams .psk s

/-- MODP.QPSK (43_modulation.md R139). -/
def execModpQpsk (s : State) : Host.Outcome State Fault Refusal := mapParams .qpsk s

/-- MODP.QAM16 (43_modulation.md R141). -/
def execModpQam16 (s : State) : Host.Outcome State Fault Refusal := mapParams .qam16 s

/-! ### Carrier synthesizer -/

/-- `t = f64(m) ÷ SAMPLE_RATE`, restarting at every symbol (43_modulation.md R143). -/
def localTime (c : Snapshot) (m : Nat) : F64 := F64.div (F64.ofNat m) c.sampleRate

/-- The argument of SIN in the written order (R144). -/
def carrierArg (c : Snapshot) (p : Triple) (m : Nat) : F64 :=
  F64.add
    (F64.mul (F64.mul (F64.mul (F64.mul F64.two Config.pi) p.freq) c.carrierF) (localTime c m))
    (F64.mul p.phase (F64.div Config.pi F64.deg180))

/-- Sample `m` of a carrier symbol (R144). -/
def carrierSample (c : Snapshot) (p : Triple) (m : Nat) : F64 :=
  F64.mul (F64.mul p.amp c.peakV) (Config.sin (carrierArg c p m))

/-- The SPS samples of one carrier symbol (R143). -/
def carrierBlock (c : Snapshot) (p : Triple) : List F64 := (List.range c.sps.toNat).map (carrierSample c p)

/-- The carrier waveform of a sequence of triples (R145). -/
def carrierWave (c : Snapshot) (params : List Triple) : List F64 := params.flatMap (carrierBlock c)

/-- SYN.CARRIER (43_modulation.md R145). -/
def execSynCarrier (s : State) : Host.Outcome State Fault Refusal :=
  finish s do
    needSps s.snap
    needRate s.snap
    let n := s.snap.nParam.toNat
    needCap (n * s.snap.sps.toNat) Config.sampleDepth
    let params ← inputParams n s
    pure (storeSamples (carrierWave s.snap params) s)

end Sys2Proof.Machine
end

