-- ==== Sys2Proof/Machine/PulseNoise.lean ====
section
/-! DEFINITION. Level synthesis, Fourier pulse synthesis and noise: SYN.LEVEL, SYN.PULSE, NOISE
(44_pulse_noise.md). -/

namespace Sys2Proof.Machine

/-! ### Levels to voltages -/

/-- `f64(LEVEL[j]) × PEAK_V` (44_pulse_noise.md R155). -/
def levelVoltage (c : Snapshot) (level : Int) : F64 := F64.mul (F64.ofInt level) c.peakV

/-- Each level as a run of SPS equal samples (R156). -/
def levelWave (c : Snapshot) (levels : List Int) : List F64 :=
  levels.flatMap (fun l => List.replicate c.sps.toNat (levelVoltage c l))

/-- SYN.LEVEL (44_pulse_noise.md R156). -/
def execSynLevel (s : State) : Host.Outcome State Fault Refusal :=
  finish s do
    needSps s.snap
    let n := s.snap.nLevel.toNat
    needCap (n * s.snap.sps.toNat) Config.sampleDepth
    let levels ← inputLevels n s
    pure (storeSamples (levelWave s.snap levels) s)

/-! ### Fourier pulse synthesis (R157, R158) -/

/-- `(2.0 × PI) × f64(h)`. -/
def harmonicTurn (h : Nat) : F64 := F64.mul (F64.mul F64.two Config.pi) (F64.ofNat h)

/-- `(((2.0 × PI) × f64(h)) × f64(a)) ÷ f64(b)`: the angles th0, th1 and ph of R158. -/
def harmonicAngle (h a b : Nat) : F64 := F64.div (F64.mul (harmonicTurn h) (F64.ofNat a)) (F64.ofNat b)

/-- `s0 <- s0 + v[j]`, from 0.0. -/
def voltageSum (v : List F64) : F64 := v.foldl F64.add F64.zero

/-- `a0 <- (2.0 ÷ f64(M)) × s0`. -/
def fourierMean (v : List F64) : F64 := F64.mul (F64.div F64.two (F64.ofNat v.length)) (voltageSum v)

/-- `A[h]`: the sum over the block's levels, divided by `PI × f64(h)`. -/
def fourierCos (v : List F64) (h : Nat) : F64 :=
  F64.div
    (v.zipIdx.foldl
      (fun acc x => F64.add acc (F64.mul x.1
        (F64.sub (Config.sin (harmonicAngle h (x.2 + 1) v.length)) (Config.sin (harmonicAngle h x.2 v.length)))))
      F64.zero)
    (F64.mul Config.pi (F64.ofNat h))

/-- `B[h]`. -/
def fourierSin (v : List F64) (h : Nat) : F64 :=
  F64.div
    (v.zipIdx.foldl
      (fun acc x => F64.add acc (F64.mul x.1
        (F64.sub (Config.cos (harmonicAngle h x.2 v.length)) (Config.cos (harmonicAngle h (x.2 + 1) v.length)))))
      F64.zero)
    (F64.mul Config.pi (F64.ofNat h))

/-- The harmonics 1..8. -/
def harmonicNumbers : List Nat := (List.range Config.harmonics).map (· + 1)

/-- Sample `m` of a block of `N` samples: the partial sum in the written order. -/
def pulseSample (v : List F64) (total m : Nat) : F64 :=
  harmonicNumbers.foldl
    (fun x h =>
      F64.add (F64.add x (F64.mul (fourierCos v h) (Config.cos (harmonicAngle h m total))))
        (F64.mul (fourierSin v h) (Config.sin (harmonicAngle h m total))))
    (F64.div (fourierMean v) F64.two)

/-- The `M·SPS` samples of a block of M levels. -/
def pulseBlockWave (c : Snapshot) (block : List Int) : List F64 :=
  (List.range (block.length * c.sps.toNat)).map
    (pulseSample (block.map (levelVoltage c)) (block.length * c.sps.toNat))

/-- Consecutive blocks of `p` items, the last one shorter if need be (R157); `fuel` bounds the number of blocks. -/
def splitBlocks {α : Type} (p : Nat) : Nat → List α → List (List α)
  | 0, _ => []
  | fuel + 1, l => if l.isEmpty then [] else l.take p :: splitBlocks p fuel (l.drop p)

/-- The pulse-shaped waveform of a level sequence: "blocks are concatenated" (R157, R158). -/
def pulseWave (c : Snapshot) (levels : List Int) : List F64 :=
  (splitBlocks c.pulseBlock levels.length levels).flatMap (pulseBlockWave c)

/-- SYN.PULSE (44_pulse_noise.md R158). -/
def execSynPulse (s : State) : Host.Outcome State Fault Refusal :=
  finish s do
    needSps s.snap
    needBlock s.snap
    let n := s.snap.nLevel.toNat
    needCap (n * s.snap.sps.toNat) Config.sampleDepth
    let levels ← inputLevels n s
    pure (storeSamples (pulseWave s.snap levels) s)

/-! ### Noise -/

/-- `SAMPLE[i] + NOISE_SIGMA × z` for each sample and its draw (44_pulse_noise.md R163). -/
def noisySamples (sigma : F64) (samples zs : List F64) : List F64 :=
  List.zipWith (fun x z => F64.add x (F64.mul sigma z)) samples zs

/-- The body of NOISE on samples that stand in SAMPLE_MEM: one draw a sample, N_SAMPLE unchanged (R163, 60_exceptions.md
R220). -/
def applyNoise (c : Snapshot) (samples : List F64) (s : State) : State :=
  takeDraws samples.length
    (s.store .sample (noisySamples c.noiseSigma samples (draws samples.length s)))

/-- NOISE (44_pulse_noise.md R163). -/
def execNoise (s : State) : Host.Outcome State Fault Refusal :=
  finish s do
    let samples ← inputSamples s.snap.nSample.toNat s
    pure (applyNoise s.snap samples s)

end Sys2Proof.Machine
end

