-- ==== Sys2Proof/Machine/Transceiver.lean ====
section
/-! DEFINITION. Transmitter, waveform dictionary and minimum-distance detector: TX, DICTBUILD, DETECT, RX
(45_transceiver.md). -/

namespace Sys2Proof.Machine

/-! ### Transmitter -/

/-- `isLine(scheme)` (00_scope.md R17). -/
def schemeIsLine : Scheme → Bool
  | .line _ => true
  | .carrier _ => false

/-- The capacity of the stage between symbols and samples (45_transceiver.md R170). -/
def needStageCap (sch : Scheme) (n w : Nat) : Except Stop Unit :=
  match sch with
  | .line _ => needCap (n * levelsPerSymbol sch w) Config.levelDepth
  | .carrier _ => needCap n Config.paramDepth

/-- The body of LCENC or MODP for a scheme (R170-R172). -/
def storeStage (sch : Scheme) (w : Nat) (syms : List Nat) (s : State) : State :=
  match sch with
  | .line code => storeLineCode code w syms s
  | .carrier m => storeParams (syms.map (symbolTriple m w)) s

/-- The waveform TX synthesizes before noise: SYN.LEVEL or SYN.PULSE for a line code, SYN.CARRIER for a carrier
(R171, R172). -/
def transmitWave (c : Snapshot) (sch : Scheme) (w : Nat) (syms : List Nat) : List F64 :=
  match sch with
  | .line code =>
    if c.ideal then levelWave c (lineLevels code w syms) else pulseWave c (lineLevels code w syms)
  | .carrier m => carrierWave c (syms.map (symbolTriple m w))

/-- NOISE as the last stage of TX, outside ideal mode only (44_pulse_noise.md R162, 45_transceiver.md R170). -/
def noiseUnlessIdeal (c : Snapshot) (wave : List F64) (s : State) : State :=
  if c.ideal then s else applyNoise c wave s

/-- The checks of TX, in its order: the scheme, the width and the number of symbols (R170). -/
def transmitPlan (c : Snapshot) : Except Stop (Scheme × Nat × Nat) := do
  let sch ← cfgScheme c
  let w ← cfgW c sch
  needSps c
  whenNeeded (schemeIsLine sch && !c.ideal) (needBlock c)
  whenNeeded (!schemeIsLine sch) (needRate c)
  let n := c.nBits.toNat / w
  needCap n Config.symDepth
  needStageCap sch n w
  needCap (n * levelsPerSymbol sch w * c.sps.toNat) Config.sampleDepth
  pure (sch, w, n)

/-- TX (45_transceiver.md R170). The stages pass their lists on (log entry 13). -/
def execTx (s : State) : Host.Outcome State Fault Refusal :=
  finish s do
    let (sch, w, n) ← transmitPlan s.snap
    let bits ← inputBits (n * w) s
    let syms := groupBits w n bits
    let wave := transmitWave s.snap sch w syms
    pure (noiseUnlessIdeal s.snap wave (storeSamples wave (storeStage sch w syms (storeSyms syms s))))

/-! ### Waveform dictionary -/

/-- DICT_LEN: `Lsym(scheme, w) * SPS` (45_transceiver.md R173, R174). -/
def entryLength (c : Snapshot) (sch : Scheme) (w : Nat) : Nat := levelsPerSymbol sch w * c.sps.toNat

/-- Dictionary entry `s`: the noiseless ideal waveform of the one-symbol message (R173). -/
def dictEntry (c : Snapshot) (sch : Scheme) (w s : Nat) : List F64 :=
  match sch with
  | .line code => levelWave c (symbolLevels code w s)
  | .carrier m => carrierBlock c (symbolTriple m w s)

/-- The samples of all 2^w entries (R174). -/
def dictionary (c : Snapshot) (sch : Scheme) (w : Nat) : List F64 :=
  (List.range (2 ^ w)).flatMap (dictEntry c sch w)

/-- The key of the current configuration (10_state.md R52). -/
def configKey (c : Snapshot) (sch : Scheme) (w : Nat) : DictKey where
  scheme := sch
  width := w
  sps := c.sps
  peakV := c.peakV
  carrierF := c.carrierF
  sampleRate := c.sampleRate

/-- The body of DICTBUILD (45_transceiver.md R174). -/
def buildDict (c : Snapshot) (sch : Scheme) (w : Nat) (s : State) : State :=
  { s.store .dict (dictionary c sch w) with
    dictN := countWord (2 ^ w)
    dictLen := countWord (entryLength c sch w)
    dictKey := configKey c sch w
    dictValid := true }

/-- The checks DICTBUILD and DETECT share (R174, R177): the scheme and the width. -/
def dictPlan (c : Snapshot) : Except Stop (Scheme × Nat) := do
  let sch ← cfgScheme c
  let w ← cfgW c sch
  needSps c
  whenNeeded (!schemeIsLine sch) (needRate c)
  needCap (2 ^ w * entryLength c sch w) Config.dictDepth
  pure (sch, w)

/-- DICTBUILD (45_transceiver.md R174). -/
def execDictbuild (s : State) : Host.Outcome State Fault Refusal :=
  finish s do
    let (sch, w) ← dictPlan s.snap
    pure (buildDict s.snap sch w s)

/-- The dictionary in DICT_MEM is the one of this configuration (R176). -/
def dictCurrent (c : Snapshot) (sch : Scheme) (w : Nat) (s : State) : Bool :=
  s.dictValid && decide (s.dictKey = configKey c sch w)

/-- `ensureDict()` (R176). -/
def ensureDict (c : Snapshot) (sch : Scheme) (w : Nat) (s : State) : State :=
  if dictCurrent c sch w s then s else buildDict c sch w s

/-! ### Minimum-distance detector -/

/-- `dist`: the sum of squared differences, in ascending order from 0.0 (R177). -/
def distance (window entry : List F64) : F64 :=
  (window.zip entry).foldl
    (fun acc p => F64.add acc (F64.mul (F64.sub p.1 p.2) (F64.sub p.1 p.2))) F64.zero

/-- The symbol of the earliest smallest distance, replaced only on a strictly smaller one (R177, 60_exceptions.md
R225). -/
def nearest (entry : Nat → List F64) (count : Nat) (window : List F64) : Nat :=
  ((List.range (count - 1)).foldl
    (fun best i =>
      let d := distance window (entry (i + 1))
      if F64.lt d best.2 then (i + 1, d) else best)
    (0, distance window (entry 0))).1

/-- The checks of DETECT, in its order: the scheme, the width and the number of windows (R177, R178). -/
def detectPlan (c : Snapshot) : Except Stop (Scheme × Nat × Nat) := do
  let (sch, w) ← dictPlan c
  let windows := c.nSample.toNat / entryLength c sch w
  needCap windows Config.symDepth
  pure (sch, w, windows)

/-- DICT_MEM as the detector reads it: every entry, when there is a window to compare. -/
def detectorEntries (c : Snapshot) (sch : Scheme) (w windows : Nat) (s : State) : Except Stop (List F64) :=
  if windows = 0 then .ok [] else inputDict (2 ^ w * entryLength c sch w) s

/-- The detected symbols of a sample buffer against a dictionary (R177, R178). -/
def detectSymbols (len count windows : Nat) (samples dict : List F64) : List Nat :=
  (List.range windows).map (fun k => nearest (fun s => chunk len s dict) count (chunk len k samples))

/-- The body of DETECT: the dictionary ensured, the symbols detected (R177). -/
def detectBody (c : Snapshot) (sch : Scheme) (w windows : Nat) (s : State) : Except Stop (State × List Nat) := do
  let t := ensureDict c sch w s
  let len := entryLength c sch w
  let samples ← inputSamples (windows * len) t
  let dict ← detectorEntries c sch w windows t
  pure (t, detectSymbols len (2 ^ w) windows samples dict)

/-- DETECT (45_transceiver.md R177). -/
def execDetect (s : State) : Host.Outcome State Fault Refusal :=
  finish s do
    let (sch, w, windows) ← detectPlan s.snap
    let (t, syms) ← detectBody s.snap sch w windows s
    pure (storeSyms syms t)

/-- RX (45_transceiver.md R180). -/
def execRx (s : State) : Host.Outcome State Fault Refusal :=
  finish s do
    let (sch, w, windows) ← detectPlan s.snap
    needCap (windows * w) Config.bitDepth
    let (t, syms) ← detectBody s.snap sch w windows s
    pure (storeBits (syms.flatMap (symbolBits w)) (storeSyms syms t))

end Sys2Proof.Machine
end

