-- ==== Sys2Proof/Machine/Dispatch.lean ====
section
/-! DEFINITION. The meaning of every command: one arm per constructor of Instr (30_encoding.md R90). -/

namespace Sys2Proof.Machine

def exec (i : Instr) (s : State) : Host.Outcome State Fault Refusal :=
  match i with
  | .nop => Sys2Proof.Machine.execNop s
  | .sreset => Sys2Proof.Machine.execSreset s
  | .bits2sym => Sys2Proof.Machine.execBits2Sym s
  | .sym2dec => Sys2Proof.Machine.execSym2Dec s
  | .sym2bits => Sys2Proof.Machine.execSym2Bits s
  | .graygen form => Sys2Proof.Machine.execGraygen form s
  | .lcencNrz => Sys2Proof.Machine.execLcencNrz s
  | .lcencMan => Sys2Proof.Machine.execLcencMan s
  | .lcencAmi => Sys2Proof.Machine.execLcencAmi s
  | .modpAsk => Sys2Proof.Machine.execModpAsk s
  | .modpFsk => Sys2Proof.Machine.execModpFsk s
  | .modpPsk => Sys2Proof.Machine.execModpPsk s
  | .modpQpsk => Sys2Proof.Machine.execModpQpsk s
  | .modpQam16 => Sys2Proof.Machine.execModpQam16 s
  | .synLevel => Sys2Proof.Machine.execSynLevel s
  | .synPulse => Sys2Proof.Machine.execSynPulse s
  | .synCarrier => Sys2Proof.Machine.execSynCarrier s
  | .noise => Sys2Proof.Machine.execNoise s
  | .tx => Sys2Proof.Machine.execTx s
  | .dictbuild => Sys2Proof.Machine.execDictbuild s
  | .detect => Sys2Proof.Machine.execDetect s
  | .rx => Sys2Proof.Machine.execRx s

end Sys2Proof.Machine
end

