-- ==== Sys2Proof/WellFormed.lean ====
section
/-! DEFINITION. Legality of a command word, check by check (30_encoding.md R87, R91). -/

namespace Sys2Proof

/-- The 22 OPCODE values of 30_encoding.md R90. -/
def legalOpcodes : List Nat :=
  [0x00, 0x01] ++ [0x10, 0x11, 0x12, 0x18] ++ [0x20, 0x21, 0x22] ++ [0x30, 0x31, 0x32, 0x33, 0x34] ++
    [0x40, 0x41, 0x42, 0x48] ++ [0x50, 0x51, 0x52, 0x53]

/-- Bits [63:32] of the CMD write are 0 (R85, R87). -/
def CommandFields.upperClear (f : CommandFields) : Bool := f.upper == 0

/-- RSV, bits [31:9], is 0 (R86, R87). -/
def CommandFields.rsvClear (f : CommandFields) : Bool := f.rsv == 0

/-- OPCODE is one of the 22 values (R87, R91). -/
def CommandFields.opcodeListed (f : CommandFields) : Bool := legalOpcodes.contains f.opcode.toNat

/-- FORM is 0 unless OPCODE is GRAYGEN's 0x18 (R86, R87). -/
def CommandFields.formAllowed (f : CommandFields) : Bool := !f.form || f.opcode.toNat == 0x18

/-- "A command word is legal exactly when ..." (30_encoding.md R87). -/
def CommandFields.wellFormed (f : CommandFields) : Bool :=
  f.upperClear && f.rsvClear && f.opcodeListed && f.formAllowed

end Sys2Proof
end

