-- ==== Sys2Proof/Decode.lean ====
section
/-! DEFINITION. Decoding and encoding of command words (30_encoding.md R85-R91). Decoding is total on every 64-bit
value written to CMD and rejects by name. -/

namespace Sys2Proof

/-- Why a CMD value is no command; each is ILLEGAL_CMD to the machine (30_encoding.md R87, R91). -/
inductive DecodeError where
  /-- bits [63:32] are not 0 -/
  | upperBits
  /-- RSV, bits [31:9], is not 0 -/
  | reservedBits
  /-- OPCODE is none of the 22 values -/
  | reservedOpcode
  /-- FORM = 1 on a command other than GRAYGEN -/
  | formBit
  deriving DecidableEq, Repr

/-- The fields of a value written to CMD (30_encoding.md R86). -/
def fieldsOf (v : Word) : CommandFields where
  opcode := v.extractLsb' 0 8
  form := v.getLsbD 8
  rsv := v.extractLsb' 9 23
  upper := v.extractLsb' 32 32

/-- The opcode map (30_encoding.md R90); GRAYGEN stands with FORM as given. -/
def instrOfOpcode (op : Nat) (form : Bool) : Option Instr :=
  match op with
  | 0x00 => some .nop
  | 0x01 => some .sreset
  | 0x10 => some .bits2sym
  | 0x11 => some .sym2dec
  | 0x12 => some .sym2bits
  | 0x18 => some (.graygen form)
  | 0x20 => some .lcencNrz
  | 0x21 => some .lcencMan
  | 0x22 => some .lcencAmi
  | 0x30 => some .modpAsk
  | 0x31 => some .modpFsk
  | 0x32 => some .modpPsk
  | 0x33 => some .modpQpsk
  | 0x34 => some .modpQam16
  | 0x40 => some .synLevel
  | 0x41 => some .synPulse
  | 0x42 => some .synCarrier
  | 0x48 => some .noise
  | 0x50 => some .tx
  | 0x51 => some .dictbuild
  | 0x52 => some .detect
  | 0x53 => some .rx
  | _ => none

/-- Whether the command has a FORM operand: GRAYGEN alone (30_encoding.md R86). -/
def Instr.hasForm : Instr → Bool
  | .graygen _ => true
  | .nop | .sreset | .bits2sym | .sym2dec | .sym2bits | .lcencNrz | .lcencMan | .lcencAmi | .modpAsk
  | .modpFsk | .modpPsk | .modpQpsk | .modpQam16 | .synLevel | .synPulse | .synCarrier | .noise | .tx
  | .dictbuild | .detect | .rx => false

/-- The command a value written to CMD stands for, or why it stands for none (30_encoding.md R87, R91). -/
def decode (v : Word) : Except DecodeError Instr :=
  let f := fieldsOf v
  if f.upper ≠ 0 then .error .upperBits
  else if f.rsv ≠ 0 then .error .reservedBits
  else
    match instrOfOpcode f.opcode.toNat f.form with
    | none => .error .reservedOpcode
    | some i => if f.form && !i.hasForm then .error .formBit else .ok i

/-- The command word of an instruction, zero-extended to the CMD write (30_encoding.md R90, R94). -/
def encode : Instr → Word
  | .nop => 0x00#64
  | .sreset => 0x01#64
  | .bits2sym => 0x10#64
  | .sym2dec => 0x11#64
  | .sym2bits => 0x12#64
  | .graygen form => if form then 0x118#64 else 0x18#64
  | .lcencNrz => 0x20#64
  | .lcencMan => 0x21#64
  | .lcencAmi => 0x22#64
  | .modpAsk => 0x30#64
  | .modpFsk => 0x31#64
  | .modpPsk => 0x32#64
  | .modpQpsk => 0x33#64
  | .modpQam16 => 0x34#64
  | .synLevel => 0x40#64
  | .synPulse => 0x41#64
  | .synCarrier => 0x42#64
  | .noise => 0x48#64
  | .tx => 0x50#64
  | .dictbuild => 0x51#64
  | .detect => 0x52#64
  | .rx => 0x53#64

/-- An opcode-table word as the value of a CMD write: the word in the low bits, every bit above `nbits` 0
(30_encoding.md R85). -/
def commandValue (nbits w : Nat) : Word := BitVec.ofNat 64 (w % 2 ^ nbits)

/-- The instruction the decoder reads from an opcode-table word (none for a value wider than the CMD write). -/
def decodeTableWord (nbits w : Nat) : Option Instr :=
  if w % 2 ^ nbits < 2 ^ 64 then
    match decode (commandValue nbits w) with
    | .ok i => some i
    | .error _ => none
  else none

end Sys2Proof
end

