-- ==== Sys2Proof/Machine/Flags.lean ====
section
/-! DEFINITION. Every flag of STATUS (10_state.md R30-R37, R59) and the interrupt level (60_exceptions.md R214). -/

namespace Sys2Proof.Machine

/-- STATUS.AMI_NEG, the view of AMI_SIGN (10_state.md R35). -/
def State.amiNeg (s : State) : Bool :=
  match s.amiSign with
  | .pos => false
  | .neg => true

/-- A flag as a number at bit `i` of a word. -/
def flagAt (b : Bool) (i : Nat) : Word := if b then 1#64 <<< i else 0#64

/-- The STATUS word (10_state.md section 3). Bits 7 and [63:24] read 0. -/
def State.status (s : State) : Word :=
  flagAt s.busy 0 ||| flagAt s.done 1 ||| flagAt s.err 2 ||| flagAt s.ovr 3 ||| flagAt s.dictValid 4 |||
    flagAt s.amiNeg 5 ||| flagAt s.grayForm 6 ||| (s.errCode.setWidth 64 <<< 8) ||| (s.lastOp.setWidth 64 <<< 16)

/-- A host write to STATUS: write one to clear DONE, ERR (and ERRCODE with it), OVR (10_state.md R59). -/
def writeStatus (v : Word) (s : State) : State :=
  let s1 := if v.getLsbD 1 then { s with done := false } else s
  let s2 := if v.getLsbD 2 then clearError s1 else s1
  if v.getLsbD 3 then { s2 with ovr := false } else s2

/-- CTRL.IRQ_EN (10_state.md R22). -/
def State.irqEn (s : State) : Bool := s.ctrl.getLsbD 13

/-- The interrupt output: `irq = CTRL.IRQ_EN AND STATUS.DONE` (60_exceptions.md R214). -/
def State.irq (s : State) : Bool := s.irqEn && s.done

end Sys2Proof.Machine
end

