-- ==== Sys2Proof/Machine/HostBus.lean ====
section
/-! DEFINITION. The host bus: the address map, reads, writes, acceptance of command words, the running command's
write set, hardware reset (20_memory.md R60-R74, 10_state.md R21-R59, 60_exceptions.md R208, 70_reset_and_hazards.md
R230, R240, R241). -/

namespace Sys2Proof.Machine

/-! ### Address map (20_memory.md R60, R61, R64) -/

/-- What an access reaches. -/
inductive Target where
  /-- a register, or a reserved word of the register window -/
  | register (r : Option RegId)
  /-- word `index` of a buffer memory -/
  | entry (mem : MemId) (index : Nat)
  /-- nothing: a bus error (20_memory.md R67) -/
  | invalid
  deriving DecidableEq, Repr

/-- The registers in the order of their offsets 0x00, 0x08, … (10_state.md section 2). -/
def registerMap : List RegId :=
  [.id, .ctrl, .sps, .peakV, .carrierF, .sampleRate, .noiseSigma, .cmd, .status,
    .nBits, .nSym, .nLevel, .nParam, .nSample, .nDec, .grayN, .dictN, .dictLen]

/-- The memory whose window holds an address (R61). -/
def windowOf (a : Nat) : Option MemId :=
  if a < 0x010000 then none
  else if a < 0x020000 then some .bit
  else if a < 0x030000 then some .sym
  else if a < 0x040000 then some .dec
  else if a < 0x050000 then some .gray
  else if a < 0x060000 then some .level
  else if a < 0x100000 then some .param
  else if a < 0x200000 then some .sample
  else if a < 0x300000 then some .dict
  else none

/-- The target of an access of `size` bytes at `addr`: 64 bits wide, 8-byte aligned, inside the register window or
among the valid entries of a memory window (R61, R64, R65). DEDUCED: an address from 0x000100 to 0x00FFFF lies in no
window and is a bus error (log entry 10). -/
def busTarget (size : Nat) (addr : Addr) : Target :=
  let a := addr.toNat
  if size ≠ 8 ∨ a % 8 ≠ 0 then .invalid
  else if a < 0x100 then .register registerMap[a / 8]?
  else
    match windowOf a with
    | none => .invalid
    | some id => if (a - id.base) / 8 < id.words then .entry id ((a - id.base) / 8) else .invalid

/-! ### Registers -/

/-- The constant of ID (10_state.md R21). -/
def idValue : Word := 0x5452315343000001#64

/-- The value a host read of a register returns (10_state.md R21-R41). -/
def readRegister (r : RegId) (s : State) : Word :=
  match r with
  | .id => idValue
  | .ctrl => s.ctrl
  | .sps => s.sps.setWidth 64
  | .peakV => s.peakV
  | .carrierF => s.carrierF
  | .sampleRate => s.sampleRate
  | .noiseSigma => s.noiseSigma
  | .cmd => s.cmd
  | .status => s.status
  | .nBits => s.nBits
  | .nSym => s.nSym
  | .nLevel => s.nLevel
  | .nParam => s.nParam
  | .nSample => s.nSample
  | .nDec => s.nDec
  | .grayN => s.grayN
  | .dictN => s.dictN
  | .dictLen => s.dictLen

/-- The bits of CTRL that store what is written: SCHEME, BPS, IDEAL, IRQ_EN, PULSE_BLOCK (10_state.md R22). -/
def ctrlMask : Word := 0x0000000000FF3F0F#64

/-- `min(v, DEPTH)`, the WARL clamp of the count registers (10_state.md R38). -/
def clampCount (v : Word) (depth : Nat) : Word := countWord (min v.toNat depth)

/-- Acceptance of a value written to CMD while BUSY = 0: the register writes, then at once ILLEGAL_CMD when the word is
no command (60_exceptions.md R202, R208; 30_encoding.md R87). -/
def acceptCommand (v : Word) (s : State) : State :=
  match decode v with
  | .ok _ => latchCommand v s
  | .error _ => raiseError .illegalCmd (latchCommand v s)

/-- A host write to a register while BUSY = 0; STATUS at any time (20_memory.md R66, 10_state.md R58). -/
def writeRegister (r : RegId) (v : Word) (s : State) : State :=
  match r with
  | .id => s
  | .ctrl => { s with ctrl := v &&& ctrlMask }
  | .sps => { s with sps := v.setWidth 32 }
  | .peakV => { s with peakV := v }
  | .carrierF => { s with carrierF := v }
  | .sampleRate => { s with sampleRate := v }
  | .noiseSigma => { s with noiseSigma := v }
  | .cmd => acceptCommand v s
  | .status => writeStatus v s
  | .nBits => { s with nBits := clampCount v Config.bitDepth }
  | .nSym => { s with nSym := clampCount v Config.symDepth }
  | .nLevel => { s with nLevel := clampCount v Config.levelDepth }
  | .nParam => { s with nParam := clampCount v Config.paramDepth }
  | .nSample => { s with nSample := clampCount v Config.sampleDepth }
  | .nDec => s
  | .grayN => s
  | .dictN => s
  | .dictLen => s

/-! ### Memories -/

/-- Whether the host may write a memory (10_state.md R42, 20_memory.md R61). -/
def MemId.hostWritable : MemId → Bool
  | .bit | .sym | .level | .param | .sample => true
  | .dec | .gray | .dict => false

/-- What a memory stores of a host-written value: BIT_MEM keeps bit 0 (10_state.md R43). -/
def storedValue (id : MemId) (v : Word) : Word :=
  match id with
  | .bit => wordOfBit (v.getLsbD 0)
  | .sym | .dec | .gray | .level | .param | .sample | .dict => v

/-- A host write to a memory entry while BUSY = 0: stored, or ignored in a read-only memory (20_memory.md R66). -/
def writeMemory (id : MemId) (index : Nat) (v : Word) (s : State) : State :=
  if id.hostWritable then { s with mem := writeEntries id index [storedValue id v] s.mem } else s

/-- What a host read of a memory entry returns: a BIT_MEM bit zero-extended (10_state.md R43), the word otherwise. -/
def loadedValue (id : MemId) (w : Word) : Word :=
  match id with
  | .bit => wordOfBit (w.getLsbD 0)
  | .sym | .dec | .gray | .level | .param | .sample | .dict => w

/-! ### The running command's write set (20_memory.md R74; taken as whole memories, log entry 9) -/

/-- The scheme and width of a legal configuration. -/
def configured (c : Snapshot) : Option (Scheme × Nat) :=
  match cfgScheme c with
  | .ok sch =>
    match cfgW c sch with
    | .ok w => some (sch, w)
    | .error _ => none
  | .error _ => none

/-- Whether CTRL.SCHEME of the snapshot names a line code, or a carrier. -/
def snapIsLine (c : Snapshot) : Bool :=
  match schemeOfCode c.schemeCode with
  | some sch => schemeIsLine sch
  | none => false

def snapIsCarrier (c : Snapshot) : Bool :=
  match schemeOfCode c.schemeCode with
  | some sch => !schemeIsLine sch
  | none => false

/-- Whether DETECT or RX, once its checks have passed, finds a dictionary that is not the configuration's
(45_transceiver.md R176). -/
def rebuildsDict (s : State) : Bool :=
  match configured s.snap with
  | some (sch, w) => !dictCurrent s.snap sch w s
  | none => false

/-- Whether the command is going to end with an error (60_exceptions.md R201; acceptance cleared ERR, R208). What a
command does is fixed at acceptance (20_memory.md R78), so this is its outcome in the state as it stands. -/
def endsInError (i : Instr) (s : State) : Bool :=
  match exec i s with
  | .next t => t.err
  | .fault _ => false
  | .refused _ => false

/-- The memories in a command's row of R74. -/
def rowMemory (i : Instr) (s : State) (id : MemId) : Bool :=
  match i with
  | .nop | .sreset => false
  | .bits2sym => id == .sym
  | .sym2dec => id == .dec
  | .sym2bits => id == .bit
  | .graygen _ => id == .gray
  | .lcencNrz | .lcencMan | .lcencAmi => id == .level
  | .modpAsk | .modpFsk | .modpPsk | .modpQpsk | .modpQam16 => id == .param
  | .synLevel | .synPulse | .synCarrier | .noise => id == .sample
  | .tx => id == .sym || id == .sample || (snapIsLine s.snap && id == .level) ||
      (snapIsCarrier s.snap && id == .param)
  | .dictbuild => id == .dict
  | .detect => id == .sym || (rebuildsDict s && id == .dict)
  | .rx => id == .sym || id == .bit || (rebuildsDict s && id == .dict)

/-- The registers in a command's row of R74, STATUS apart: a read of STATUS always returns the current STATUS
(70_reset_and_hazards.md R240). -/
def rowRegister (i : Instr) (s : State) (r : RegId) : Bool :=
  match i with
  | .nop | .noise => false
  | .sreset =>
    r == .ctrl || r == .sps || r == .peakV || r == .carrierF || r == .sampleRate || r == .noiseSigma ||
      r == .nBits || r == .nSym || r == .nLevel || r == .nParam || r == .nSample
  | .bits2sym => r == .nSym
  | .sym2dec => r == .nDec
  | .sym2bits => r == .nBits
  | .graygen _ => r == .grayN
  | .lcencNrz | .lcencMan | .lcencAmi => r == .nLevel
  | .modpAsk | .modpFsk | .modpPsk | .modpQpsk | .modpQam16 => r == .nParam
  | .synLevel | .synPulse | .synCarrier => r == .nSample
  | .tx => r == .nSym || r == .nSample || (snapIsLine s.snap && r == .nLevel) ||
      (snapIsCarrier s.snap && r == .nParam)
  | .dictbuild => r == .dictN || r == .dictLen
  | .detect => r == .nSym || (rebuildsDict s && (r == .dictN || r == .dictLen))
  | .rx => r == .nSym || r == .nBits || (rebuildsDict s && (r == .dictN || r == .dictLen))

/-- The memories in the write set of a command: its row, and nothing when it ends with an error (R74). -/
def writesMemory (i : Instr) (s : State) (id : MemId) : Bool := rowMemory i s id && !endsInError i s

/-- The registers in the write set of a command, STATUS apart. -/
def writesRegister (i : Instr) (s : State) (r : RegId) : Bool := rowRegister i s r && !endsInError i s

/-- The command the engine is running, if any. -/
def runningCommand (s : State) : Option Instr :=
  if s.busy then
    match decode s.snap.word with
    | .ok i => some i
    | .error _ => none
  else none

/-- The target lies in the running command's write set. -/
def inWriteSet (t : Target) (s : State) : Bool :=
  match runningCommand s with
  | none => false
  | some i =>
    match t with
    | .register (some r) => writesRegister i s r
    | .register none => false
    | .entry id _ => writesMemory i s id
    | .invalid => false

/-! ### Accesses -/

/-- The state with a bus response. -/
def State.respond (s : State) (r : Response) : State := { s with response := r }

/-- The data of a response; "a read returns 0 with the error response" (20_memory.md R67). -/
def Response.readData : Response → Option Word
  | .data v => some v
  | .busError => some 0#64
  | .done => Option.none
  | .none => Option.none

/-- `HostRead` (20_memory.md R65). A read in the running command's write set returns a free value (R240, log entry 9);
a read of an entry never written is a fault (R232). Nothing else of the state changes (R70). -/
def hostRead (size : Nat) (addr : Addr) (s : State) : Host.Outcome State Fault Refusal :=
  let t := busTarget size addr
  if inWriteSet t s then
    .next { s.respond (.data (Config.busyRead s.freeReads)) with freeReads := s.freeReads + 1 }
  else
    match t with
    | .invalid => .next (s.respond .busError)
    | .register none => .next (s.respond (.data 0#64))
    | .register (some r) => .next (s.respond (.data (readRegister r s)))
    | .entry id i =>
      match readEntry id i s.mem with
      | .ok w => .next (s.respond (.data (loadedValue id w)))
      | .error f => .fault f

/-- The effect of a valid host write (20_memory.md R66): STATUS always, anything else dropped while BUSY = 1 with OVR
set (70_reset_and_hazards.md R241). -/
def writeTarget (t : Target) (v : Word) (s : State) : State :=
  match t with
  | .register (some .status) => writeRegister .status v s
  | .register (some r) => if s.busy then { s with ovr := true } else writeRegister r v s
  | .register none => if s.busy then { s with ovr := true } else s
  | .entry id i => if s.busy then { s with ovr := true } else writeMemory id i v s
  | .invalid => s

/-- `HostWrite` (20_memory.md R66). -/
def hostWrite (size : Nat) (addr : Addr) (v : Word) (s : State) : State :=
  match busTarget size addr with
  | .invalid => s.respond .busError
  | t => (writeTarget t v s).respond .done

/-- Hardware reset (70_reset_and_hazards.md R230). What is outside the machine stays: the host's pending accesses and
the noise port, and the count of unspecified reads (log entry 14). -/
def hardwareReset (s : State) : State :=
  { State.reset with
    host := s.host
    noiseQueue := s.noiseQueue
    noiseTaken := s.noiseTaken
    freeReads := s.freeReads }

/-- One event at the host port (70_reset_and_hazards.md R248). -/
def busAccess (e : BusAccess) (s : State) : Host.Outcome State Fault Refusal :=
  match e with
  | .read size addr => hostRead size addr s
  | .write size addr v => .next (hostWrite size addr v s)
  | .hwReset => .next (hardwareReset s)

/-! ### The command engine -/

/-- Whether the next pending access arrives before the running command completes. -/
def hostGoesFirst (s : State) : Bool :=
  match s.host with
  | [] => false
  | e :: _ => e.early

/-- The pending accesses with the oldest one made to wait for the running command. -/
def deferHost (host : List HostEvent) : List HostEvent :=
  match host with
  | [] => []
  | e :: es => { e with early := false } :: es

end Sys2Proof.Machine
end

