-- ==== Sys2Proof/Machine/Step.lean ====
section
/-! DEFINITION. One step of TR1-SC: one pending host access, or the running command from acceptance to completion
(20_memory.md R72, R73; 60_exceptions.md R208; 70_reset_and_hazards.md R247). -/

namespace Sys2Proof.Machine

/-- The engine's step: the accepted word runs to completion; a word that is no command completes with ILLEGAL_CMD
(60_exceptions.md R202; acceptance never leaves one running, log entry 17). -/
def engineStep (s : State) : Host.Outcome State Fault Refusal :=
  match decode s.snap.word with
  | .ok i => exec i s
  | .error _ => .next (raiseError .illegalCmd s)

/-- The host's step: the oldest pending access; with none pending the machine waits (70_reset_and_hazards.md R231;
log entry 20). -/
def hostStep (s : State) : Host.Outcome State Fault Refusal :=
  match s.host with
  | [] => .next s
  | e :: es => busAccess e.access { s with host := es }

/-- One step. While BUSY = 1 the running command completes next unless the oldest pending access arrives before that
(log entry 2). -/
def step (s : State) : Host.Outcome State Fault Refusal :=
  if s.busy && !hostGoesFirst s then engineStep s else hostStep s

/-- The state in which the command word `w` has just been accepted and completes next: acceptance as 60_exceptions.md
R208 describes it (log entry 1). -/
def State.withFetchWord (s : State) (nbits w : Nat) : State :=
  { latchCommand (commandValue nbits w) s with host := deferHost s.host }

end Sys2Proof.Machine
end

