-- ==== Sys2Proof/Safety.lean ====
section
/-! DEFINITION. The words the statements use: what a buffer holds, what a command leaves unchanged, the invariants of
the machine, and the spec's tables restated as data. -/

namespace Sys2Proof.Machine

/-! ### Buffers and frames -/

/-- Word `i` of a memory, if every byte of it has been written. -/
def State.entry (s : State) (id : MemId) (i : Nat) : Option Word := s.mem.readWord (id.addr i)

/-- Words 0..n-1 of a memory are `f 0, f 1, …`, each of them written. -/
def State.Entries (s : State) (id : MemId) (n : Nat) (f : Nat → Word) : Prop := ∀ i, i < n → s.entry id i = some (f i)

/-- The words 0, 1, … of a memory are `ws`, each of them written. -/
def State.Holds (s : State) (id : MemId) (ws : List Word) : Prop :=
  ∀ i (h : i < ws.length), s.mem.readWord (id.addr i) = some ws[i]

/-- Every byte outside the listed outputs (a memory and how many of its words, from word 0 on) reads in `t` as it does
in `s`. -/
def Kept (s t : State) (out : List (MemId × Nat)) : Prop :=
  ∀ a, (∀ p ∈ out, ¬ (p.1.addr 0 ≤ a ∧ a < p.1.addr p.2)) → t.mem.readByte a = s.mem.readByte a

/-- Words 0..n-1 of a memory have been written. -/
def State.Written (s : State) (id : MemId) (n : Nat) : Prop := ∀ k, k < n → (s.entry id k).isSome

/-- The counts of the snapshot are at most the depths (10_state.md R38). -/
structure Snapshot.CountsLegal (c : Snapshot) : Prop where
  nBits : c.nBits.toNat ≤ Config.bitDepth
  nSym : c.nSym.toNat ≤ Config.symDepth
  nLevel : c.nLevel.toNat ≤ Config.levelDepth
  nParam : c.nParam.toNat ≤ Config.paramDepth
  nSample : c.nSample.toNat ≤ Config.sampleDepth

/-! ### Widths and inputs -/

/-- `W(scheme, bps)` of a scheme code (00_scope.md R17): QPSK is code 6, QAM16 code 7 (10_state.md R23). -/
def effectiveWidth (code bps : Nat) : Nat := if code = 6 then 2 else if code = 7 then 4 else bps

/-- CTRL.SCHEME names `sch`, and its effective width `w` is legal (00_scope.md R17, 10_state.md R23). -/
structure Snapshot.Configured (c : Snapshot) (sch : Scheme) (w : Nat) : Prop where
  scheme : schemeOfCode c.schemeCode = some sch
  width : w = effectiveWidth c.schemeCode c.bps
  range : 1 ≤ w ∧ w ≤ Config.maxBps

/-- BIT_MEM[0..n-1] holds the bits `bit 0, bit 1, …` (10_state.md R43). -/
def State.Bits (s : State) (n : Nat) (bit : Nat → Bool) : Prop := s.Entries .bit n (fun j => wordOfBit (bit j))

/-- SYM_MEM[0..n-1] holds the symbols `sym 0, sym 1, …`, each of width `w` (10_state.md R44). -/
def State.Symbols (s : State) (n w : Nat) (sym : Nat → Nat) : Prop :=
  s.Entries .sym n (fun k => BitVec.ofNat 64 (sym k)) ∧ ∀ k, k < n → sym k < 2 ^ w

/-! ### Symbols -/

/-- `bit_i(s) = (s >> (w−1−i)) & 1` (00_scope.md R14). -/
def componentBit (w s i : Nat) : Nat := s / 2 ^ (w - 1 - i) % 2

/-- `Σ bit_i·2^(w−1−i)` over `w` bits (00_scope.md R14, 40_symbol_mapper.md R102). -/
def weightedSum (w : Nat) (bit : Nat → Bool) : Nat :=
  ((List.range w).map (fun i => (bit i).toNat * 2 ^ (w - 1 - i))).sum

/-- How many of the component bits 0..i-1 of a symbol of width `w` are 1. -/
def onesBefore (w s i : Nat) : Nat := ((List.range i).map (componentBit w s)).sum

/-- Symbol `k` of a bit sequence grouped by `w` (40_symbol_mapper.md R100). -/
def groupedSymbol (w : Nat) (bit : Nat → Bool) (k : Nat) : Nat := weightedSum w (fun i => bit (k * w + i))

/-! ### Levels (42_line_coder.md) -/

/-- Level `p` of the block of one symbol: R121; R123 (`b XOR 1`, `b XOR 0`); R127 (the sign starts at +1 and flips
after every 1). -/
def slotLevel (code : LineCode) (w s p : Nat) : Int :=
  match code with
  | .nrz => if componentBit w s p = 1 then 1 else -1
  | .man => if p % 2 = 0 then 1 - componentBit w s (p / 2) else componentBit w s (p / 2)
  | .ami => if p % 2 = 0 then (-1) ^ onesBefore w s (p / 2) * componentBit w s (p / 2) else 0

/-- LEVEL[j] of a message: symbol k occupies LEVEL[k·L .. k·L + L − 1] (R120). -/
def messageLevel (code : LineCode) (w : Nat) (sym : Nat → Nat) (j : Nat) : Int :=
  slotLevel code w (sym (j / levelsPerSymbol (.line code) w)) (j % levelsPerSymbol (.line code) w)

/-- AMI_SIGN after `n` symbols: −1 exactly when the last one has an odd number of 1 bits, unchanged when n = 0
(R127). -/
def messageSign (w n : Nat) (sym : Nat → Nat) (before : Sign) : Sign :=
  if n = 0 then before else if onesBefore w (sym (n - 1)) w % 2 = 1 then .neg else .pos

/-! ### Samples (43_modulation.md, 44_pulse_noise.md) -/

/-- Word `r` of a triple: AMP, FREQ, PHASE (20_memory.md R61). -/
def Triple.word (p : Triple) (r : Nat) : Word := if r = 0 then p.amp else if r = 1 then p.freq else p.phase

/-- `SAMPLE[j*S + m] <- f64(LEVEL[j]) × PEAK_V` (44_pulse_noise.md R156). -/
def heldSample (c : Snapshot) (level : Nat → Int) (x : Nat) : F64 :=
  F64.mul (F64.ofInt (level (x / c.sps.toNat))) c.peakV

/-- `acc <- acc + f(i)` for i = 0..n-1, from 0.0. -/
def f64Sum (n : Nat) (f : Nat → F64) : F64 := (List.range n).foldl (fun acc i => F64.add acc (f i)) F64.zero

/-- The first level of the block that sample `x` belongs to: j0 of 44_pulse_noise.md R158. -/
def blockStart (c : Snapshot) (x : Nat) : Nat := x / (c.pulseBlock * c.sps.toNat) * c.pulseBlock

/-- `M <- min(P, nL - j0)` (R158). -/
def blockLevels (c : Snapshot) (nL x : Nat) : Nat := min c.pulseBlock (nL - blockStart c x)

/-- `v[j] <- f64(LEVEL[j0 + j]) × PEAK_V` (R158). -/
def blockVoltage (c : Snapshot) (level : Nat → Int) (x j : Nat) : F64 :=
  F64.mul (F64.ofInt (level (blockStart c x + j))) c.peakV

/-- `(((2.0 × PI) × f64(h)) × f64(a)) ÷ f64(b)` (R158). -/
def turns (h a b : Nat) : F64 :=
  F64.div (F64.mul (F64.mul (F64.mul F64.two Config.pi) (F64.ofNat h)) (F64.ofNat a)) (F64.ofNat b)

/-- `A[h]` (R158). -/
def blockCos (M h : Nat) (v : Nat → F64) : F64 :=
  F64.div
    (f64Sum M (fun j => F64.mul (v j) (F64.sub (Config.sin (turns h (j + 1) M)) (Config.sin (turns h j M)))))
    (F64.mul Config.pi (F64.ofNat h))

/-- `B[h]` (R158). -/
def blockSin (M h : Nat) (v : Nat → F64) : F64 :=
  F64.div
    (f64Sum M (fun j => F64.mul (v j) (F64.sub (Config.cos (turns h j M)) (Config.cos (turns h (j + 1) M)))))
    (F64.mul Config.pi (F64.ofNat h))

/-- Sample `m` of a block of `M` levels and `N` samples: `x <- (x + A[h] × COS(ph)) + B[h] × SIN(ph)` for h = 1..8,
from `a0 ÷ 2.0` (R158). -/
def seriesSample (M N m : Nat) (v : Nat → F64) : F64 :=
  (List.range 8).foldl
    (fun x h => F64.add (F64.add x (F64.mul (blockCos M (h + 1) v) (Config.cos (turns (h + 1) m N))))
      (F64.mul (blockSin M (h + 1) v) (Config.sin (turns (h + 1) m N))))
    (F64.div (F64.mul (F64.div F64.two (F64.ofNat M)) (f64Sum M v)) F64.two)

/-- Sample `x` of the pulse-shaped waveform of `nL` levels (R157, R158). -/
def shapedSample (c : Snapshot) (nL : Nat) (level : Nat → Int) (x : Nat) : F64 :=
  seriesSample (blockLevels c nL x) (blockLevels c nL x * c.sps.toNat) (x - blockStart c x * c.sps.toNat)
    (blockVoltage c level x)

/-- `(AMP × PEAK_V) × SIN(arg)` with `arg = (((2.0 × PI) × FREQ) × CARRIER_F) × t + PHASE × (PI ÷ 180.0)` and
`t = f64(m) ÷ SAMPLE_RATE` (43_modulation.md R143-R145). -/
def toneSample (c : Snapshot) (p : Triple) (m : Nat) : F64 :=
  F64.mul (F64.mul p.amp c.peakV)
    (Config.sin
      (F64.add
        (F64.mul (F64.mul (F64.mul (F64.mul F64.two Config.pi) p.freq) c.carrierF) (F64.div (F64.ofNat m) c.sampleRate))
        (F64.mul p.phase (F64.div Config.pi F64.deg180))))

/-- Sample `x` of TX's waveform before noise, for `n` symbols (45_transceiver.md R170-R172). -/
def messageSample (c : Snapshot) (sch : Scheme) (w n : Nat) (sym : Nat → Nat) (x : Nat) : F64 :=
  match sch with
  | .line code =>
    if c.ideal then heldSample c (messageLevel code w sym) x
    else shapedSample c (n * levelsPerSymbol (.line code) w) (messageLevel code w sym) x
  | .carrier m => toneSample c (symbolTriple m w (sym (x / c.sps.toNat))) (x % c.sps.toNat)

/-- Sample `j` of dictionary entry `s` (45_transceiver.md R173). -/
def canonicalSample (c : Snapshot) (sch : Scheme) (w s j : Nat) : F64 :=
  match sch with
  | .line code => heldSample c (slotLevel code w s) j
  | .carrier m => toneSample c (symbolTriple m w s) j

/-- Lsym(scheme, W)·SPS (10_state.md R41, 45_transceiver.md R178). -/
def windowLength (c : Snapshot) (sch : Scheme) (w : Nat) : Nat := levelsPerSymbol sch w * c.sps.toNat

/-- The symbol detected in window `k` of the samples `x 0, x 1, …` (45_transceiver.md R177, R178): the detector's choice
among the canonical waveforms. -/
def detectedSymbol (c : Snapshot) (sch : Scheme) (w : Nat) (x : Nat → F64) (k : Nat) : Nat :=
  nearest (fun s => (List.range (windowLength c sch w)).map (canonicalSample c sch w s)) (2 ^ w)
    ((List.range (windowLength c sch w)).map (fun j => x (k * windowLength c sch w + j)))

/-! ### Errors (60_exceptions.md R200, R203, R207) -/

/-- Some input symbol exceeds 2^w − 1 (R205). -/
def symbolAbove (w : Nat) (s : State) : Bool :=
  (List.range s.snap.nSym.toNat).any fun k =>
    match s.entry .sym k with
    | some v => decide (2 ^ w - 1 < v.toNat)
    | none => false

/-- Lsym of a scheme code (00_scope.md R17). -/
def levelsOfCode (code w : Nat) : Nat := if code = 0 then w else if code ≤ 2 then 2 * w else 1

/-- SAMPLE_RATE is not (finite and > 0). -/
def rateIllegal (c : Snapshot) : Bool := !(F64.isFinite c.sampleRate && F64.lt F64.zero c.sampleRate)

/-- The conditions of the errors a command can raise, in the order of its pseudocode, each with its code. -/
def errorConditions (i : Instr) (s : State) : List (ErrCode × Bool) :=
  let c := s.snap
  let code := c.schemeCode
  let w := effectiveWidth code c.bps
  let bpsIllegal : Bool := decide (c.bps < 1) || decide (Config.maxBps < c.bps)
  let scheme : List (ErrCode × Bool) :=
    [(.cfgScheme, decide (7 < code)), (.cfgBps, decide (code ≠ 6) && decide (code ≠ 7) && bpsIllegal)]
  let opcodeWidth : List (ErrCode × Bool) := [(.cfgBps, bpsIllegal)]
  let sps : List (ErrCode × Bool) := [(.cfgSps, decide (c.sps = 0))]
  let rateIfCarrier : List (ErrCode × Bool) := [(.cfgRate, decide (2 < code) && rateIllegal c)]
  let range (w : Nat) : List (ErrCode × Bool) := [(.dataRange, symbolAbove w s)]
  let cap (n depth : Nat) : List (ErrCode × Bool) := [(.capacity, decide (depth < n))]
  let block (needed : Bool) : List (ErrCode × Bool) := [(.cfgBlock, needed && decide (c.pulseBlock = 0))]
  let len := levelsOfCode code w * c.sps.toNat
  let detector :=
    [scheme, sps, rateIfCarrier, cap (2 ^ w * len) Config.dictDepth, cap (c.nSample.toNat / len) Config.symDepth]
  let stage := if code ≤ 2 then cap (c.nBits.toNat / w * levelsOfCode code w) Config.levelDepth
    else cap (c.nBits.toNat / w) Config.paramDepth
  match i with
  | .nop | .sreset | .noise => []
  | .bits2sym => [scheme, cap (c.nBits.toNat / w) Config.symDepth].flatten
  | .sym2dec => [scheme, range w, cap c.nSym.toNat Config.decDepth].flatten
  | .sym2bits => [scheme, range w, cap (c.nSym.toNat * w) Config.bitDepth].flatten
  | .graygen _ => [scheme, cap (2 ^ w) Config.grayDepth].flatten
  | .lcencNrz => [opcodeWidth, range c.bps, cap (c.nSym.toNat * c.bps) Config.levelDepth].flatten
  | .lcencMan | .lcencAmi =>
    [opcodeWidth, range c.bps, cap (c.nSym.toNat * (2 * c.bps)) Config.levelDepth].flatten
  | .modpAsk | .modpFsk | .modpPsk => [opcodeWidth, range c.bps, cap c.nSym.toNat Config.paramDepth].flatten
  | .modpQpsk => [range 2, cap c.nSym.toNat Config.paramDepth].flatten
  | .modpQam16 => [range 4, cap c.nSym.toNat Config.paramDepth].flatten
  | .synLevel => [sps, cap (c.nLevel.toNat * c.sps.toNat) Config.sampleDepth].flatten
  | .synPulse => [sps, block true, cap (c.nLevel.toNat * c.sps.toNat) Config.sampleDepth].flatten
  | .synCarrier =>
    [sps, [(.cfgRate, rateIllegal c)], cap (c.nParam.toNat * c.sps.toNat) Config.sampleDepth].flatten
  | .tx =>
    [scheme, sps, block (decide (code ≤ 2) && !c.ideal), rateIfCarrier, cap (c.nBits.toNat / w) Config.symDepth, stage,
      cap (c.nBits.toNat / w * levelsOfCode code w * c.sps.toNat) Config.sampleDepth].flatten
  | .dictbuild => [scheme, sps, rateIfCarrier, cap (2 ^ w * len) Config.dictDepth].flatten
  | .detect => detector.flatten
  | .rx => (detector ++ [cap (c.nSample.toNat / len * w) Config.bitDepth]).flatten

/-- The code a command reports: the first whose condition holds (R207). -/
def firstError (i : Instr) (s : State) : Option ErrCode := ((errorConditions i s).find? (·.2)).map (·.1)

/-- The commands that read SYM_MEM, whose every symbol the range check looks at (R205). -/
def readsSymbols : Instr → Bool
  | .sym2dec | .sym2bits | .lcencNrz | .lcencMan | .lcencAmi | .modpAsk | .modpFsk | .modpPsk | .modpQpsk | .modpQam16 =>
    true
  | .nop | .sreset | .bits2sym | .graygen _ | .synLevel | .synPulse | .synCarrier | .noise | .tx | .dictbuild | .detect
  | .rx => false

/-- The buffer words a command reads when its checks pass: a memory and how many of its words, from word 0 on
(20_memory.md R74, R80). The dictionary, which DETECT and RX read, is built when it is not there. -/
def inputsOf (i : Instr) (c : Snapshot) : List (MemId × Nat) :=
  let w := effectiveWidth c.schemeCode c.bps
  let len := levelsOfCode c.schemeCode w * c.sps.toNat
  match i with
  | .nop | .sreset | .graygen _ | .dictbuild => []
  | .bits2sym | .tx => [(.bit, c.nBits.toNat / w * w)]
  | .sym2dec | .sym2bits | .lcencNrz | .lcencMan | .lcencAmi | .modpAsk | .modpFsk | .modpPsk | .modpQpsk | .modpQam16 =>
    [(.sym, c.nSym.toNat)]
  | .synLevel | .synPulse => [(.level, c.nLevel.toNat)]
  | .synCarrier => [(.param, 3 * c.nParam.toNat)]
  | .noise => [(.sample, c.nSample.toNat)]
  | .detect | .rx => [(.sample, c.nSample.toNat / len * len)]

/-- The words a command reads have been written. -/
def State.InputsWritten (s : State) (i : Instr) : Prop := ∀ p ∈ inputsOf i s.snap, s.Written p.1 p.2

/-! ### Commands in sequence -/

/-- The state in which the next command has just been accepted with the same word, the registers as they stand
(60_exceptions.md R208, 10_state.md R53). -/
def nextCommand (s : State) : State :=
  { s with busy := true, done := false, snap := takeSnapshot s.snap.word s }

/-- Commands run one after the other. -/
def runCommands : List Instr → State → Host.Outcome State Fault Refusal
  | [], s => .next s
  | i :: is, s =>
    match exec i (nextCommand s) with
    | .next t => runCommands is t
    | .fault f => .fault f
    | .refused r => .refused r

/-- The command whose body follows BITS2SYM in TX: the line coder or the parameter generator of the scheme
(45_transceiver.md R170). -/
def mapperOf : Scheme → Instr
  | .line .nrz => .lcencNrz
  | .line .man => .lcencMan
  | .line .ami => .lcencAmi
  | .carrier .ask => .modpAsk
  | .carrier .fsk => .modpFsk
  | .carrier .psk => .modpPsk
  | .carrier .qpsk => .modpQpsk
  | .carrier .qam16 => .modpQam16

/-- The synthesis command of TX (R171, R172). -/
def synthesizerOf (ideal : Bool) : Scheme → Instr
  | .line _ => if ideal then .synLevel else .synPulse
  | .carrier _ => .synCarrier

/-- The commands whose bodies TX runs (R170). -/
def transmitStages (sch : Scheme) (ideal : Bool) : List Instr :=
  [.bits2sym, mapperOf sch, synthesizerOf ideal sch] ++ if ideal then [] else [Instr.noise]

/-! ### Addresses (10_state.md section 2, 20_memory.md R61) -/

/-- The byte offset of a register. -/
def RegId.offset : RegId → Nat
  | .id => 0x00
  | .ctrl => 0x08
  | .sps => 0x10
  | .peakV => 0x18
  | .carrierF => 0x20
  | .sampleRate => 0x28
  | .noiseSigma => 0x30
  | .cmd => 0x38
  | .status => 0x40
  | .nBits => 0x48
  | .nSym => 0x50
  | .nLevel => 0x58
  | .nParam => 0x60
  | .nSample => 0x68
  | .nDec => 0x70
  | .grayN => 0x78
  | .dictN => 0x80
  | .dictLen => 0x88

/-- The bus address of a register. -/
def RegId.busAddr (r : RegId) : Addr := BitVec.ofNat 24 r.offset

/-- The bus address of word `i` of a memory. -/
def MemId.busAddr (id : MemId) (i : Nat) : Addr := BitVec.ofNat 24 (id.addr i)

/-- The last byte address of a window. -/
def MemId.last : MemId → Nat
  | .bit => 0x01FFFF
  | .sym => 0x02FFFF
  | .dec => 0x03FFFF
  | .gray => 0x04FFFF
  | .level => 0x05FFFF
  | .param => 0x0FFFFF
  | .sample => 0x1FFFFF
  | .dict => 0x2FFFFF

/-! ### Real values of binary64s (00_scope.md R15, 46_system.md R193) -/

/-- The value of a finite binary64. -/
def F64.value (x : F64) : ℚ := (if F64.sign x then -1 else 1) * F64.significand x * (2 : ℚ) ^ F64.scale x

/-- `r` is `v` rounded to nearest, ties to even: below the overflow threshold a finite value than which no finite value
is nearer, its last bit 0 if another is as near; from the threshold on the infinity of `v`'s sign. -/
def RoundsTo (v : ℝ) (r : F64) : Prop :=
  if |v| < 2 ^ 1024 - 2 ^ 970 then
    F64.isFinite r = true ∧
      ∀ y : F64, F64.isFinite y = true →
        |(F64.value r : ℝ) - v| ≤ |(F64.value y : ℝ) - v| ∧
          (|(F64.value r : ℝ) - v| = |(F64.value y : ℝ) - v| → F64.value y = F64.value r ∨ F64.fracField r % 2 = 0)
  else F64.isInf r = true ∧ (F64.sign r = true ↔ v < 0)

/-! ### The 16-QAM constellation (43_modulation.md R140, R141) -/

/-- `LV = [−H, −L, +L, +H]`. -/
def qamComponent (i : Nat) : F64 :=
  if i = 0 then 0xBFE6A09E667F3BCC#64
  else if i = 1 then 0xBFCE2B7DDDFEFA65#64
  else if i = 2 then 0x3FCE2B7DDDFEFA65#64
  else 0x3FE6A09E667F3BCC#64

/-- A row or column 0 or 3 is outer: corner cells are outer in both, inner cells in none. -/
def qamAmplitude (r c : Nat) : F64 :=
  if (r = 0 ∨ r = 3) ∧ (c = 0 ∨ c = 3) then 0x3FEFFFFFFFFFFFFF#64
  else if (r = 0 ∨ r = 3) ∨ (c = 0 ∨ c = 3) then 0x3FE7D9F4CF754634#64
  else 0x3FD5555555555554#64

/-- `p <- (ATAN2(Q, I) × 180.0) ÷ PI`, and p + 360.0 when p < 0.0. -/
def degreesOf (q i : F64) : F64 :=
  let p := F64.div (F64.mul (Config.atan2 q i) F64.deg180) Config.pi
  if F64.lt p F64.zero then F64.add p F64.deg360 else p

/-! ### Invariants -/

/-- Registers stay legal: reserved bits of CTRL read 0 (10_state.md R22, R58), ERRCODE follows ERR (R37, R200), every
count is at most its depth (R38, 70_reset_and_hazards.md R246). -/
structure State.RegistersLegal (s : State) : Prop where
  ctrlReserved : s.ctrl &&& ~~~ctrlMask = 0
  noError : s.err = false → s.errCode = 0
  someError : s.err = true → 1 ≤ s.errCode.toNat ∧ s.errCode.toNat ≤ 8
  nBits : s.nBits.toNat ≤ Config.bitDepth
  nSym : s.nSym.toNat ≤ Config.symDepth
  nLevel : s.nLevel.toNat ≤ Config.levelDepth
  nParam : s.nParam.toNat ≤ Config.paramDepth
  nSample : s.nSample.toNat ≤ Config.sampleDepth
  nDec : s.nDec.toNat ≤ Config.decDepth
  grayN : s.grayN.toNat ≤ Config.grayDepth
  dict : s.dictN.toNat * s.dictLen.toNat ≤ Config.dictDepth

/-- The engine's state is what acceptance left: while BUSY = 1 no completion flag is set, the word is a command and
the snapshot equals the registers (10_state.md R30-R32, R53; 60_exceptions.md R208); LAST_OP is always CMD[7:0]
(R37). -/
structure State.EngineLegal (s : State) : Prop where
  flags : s.busy = true → s.done = false ∧ s.err = false
  legal : s.busy = true → ∃ i, decode s.cmd = .ok i
  snapshot : s.busy = true → s.snap = takeSnapshot s.cmd s
  lastOp : s.lastOp = s.cmd.extractLsb' 0 8

/-- The memory keeps its form: addresses strictly rising, only valid entries listed (20_memory.md R61), entries
written whole (R69), BIT_MEM words 0 or 1 (10_state.md R43). -/
structure State.MemoryLegal (s : State) : Prop where
  wf : s.mem.wf = true
  mapped : ∀ c ∈ s.mem, ∃ (id : MemId) (i : Nat), i < id.words ∧ id.addr i ≤ c.1 ∧ c.1 < id.addr i + 8
  whole : ∀ (id : MemId) (i x : Nat), i < id.words → id.addr i ≤ x → x < id.addr i + 8 →
    (s.mem.readByte x).isSome → (s.mem.readWord (id.addr i)).isSome
  bits : ∀ (i : Nat) (v : Word), i < Config.bitDepth → s.mem.readWord (MemId.bit.addr i) = some v → v = 0 ∨ v = 1

/-- A configuration with the members of a dictionary key, all else 0. -/
def DictKey.snapshot (k : DictKey) : Snapshot where
  word := 0
  ctrl := 0
  sps := k.sps
  peakV := k.peakV
  carrierF := k.carrierF
  sampleRate := k.sampleRate
  noiseSigma := 0
  nBits := 0
  nSym := 0
  nLevel := 0
  nParam := 0
  nSample := 0

/-- The dictionary of a key: a pure function of the key (20_memory.md R79, 45_transceiver.md R176). -/
def DictKey.samples (k : DictKey) : List F64 := dictionary k.snapshot k.scheme k.width

/-- While DICT_VALID = 1, DICT_MEM, DICT_N and DICT_LEN are those of DICT_KEY (10_state.md R34, R41, R50, R52;
20_memory.md R79). -/
structure State.DictionaryLegal (s : State) : Prop where
  samples : s.dictValid = true → s.Holds .dict s.dictKey.samples
  count : s.dictValid = true → s.dictN = countWord (2 ^ s.dictKey.width)
  length : s.dictValid = true →
    s.dictLen = countWord (levelsPerSymbol s.dictKey.scheme s.dictKey.width * s.dictKey.sps.toNat)
  fits : s.dictValid = true → s.dictKey.samples.length ≤ Config.dictDepth

/-- Every invariant of the machine. -/
structure State.Legal (s : State) : Prop where
  registers : s.RegistersLegal
  engine : s.EngineLegal
  memory : s.MemoryLegal
  dictionary : s.DictionaryLegal

/-! ### Tables of the spec -/

/-- Which command can raise which code: the marks x and c of 60_exceptions.md R204 (the codes 0x02 to 0x08;
ILLEGAL_CMD is decided at acceptance). -/
def mayRaise : Instr → List ErrCode
  | .nop | .sreset | .noise => []
  | .bits2sym | .graygen _ => [.cfgScheme, .cfgBps, .capacity]
  | .sym2dec | .sym2bits => [.cfgScheme, .cfgBps, .dataRange, .capacity]
  | .lcencNrz | .lcencMan | .lcencAmi => [.cfgBps, .dataRange, .capacity]
  | .modpAsk | .modpFsk | .modpPsk => [.cfgBps, .dataRange, .capacity]
  | .modpQpsk | .modpQam16 => [.dataRange, .capacity]
  | .synLevel => [.cfgSps, .capacity]
  | .synPulse => [.cfgSps, .cfgBlock, .capacity]
  | .synCarrier => [.cfgSps, .cfgRate, .capacity]
  | .tx => [.cfgScheme, .cfgBps, .cfgSps, .cfgBlock, .cfgRate, .capacity]
  | .dictbuild | .detect | .rx => [.cfgScheme, .cfgBps, .cfgSps, .cfgRate, .capacity]

/-- The dictionary is not the one of the running command's configuration, so DETECT and RX rebuild it: DICT_VALID = 0, or
DICT_KEY differs in one of its members (10_state.md R52, 20_memory.md R79). -/
def dictionaryStale (s : State) : Bool :=
  !(s.dictValid &&
    (schemeOfCode s.snap.schemeCode == some s.dictKey.scheme) &&
    (effectiveWidth s.snap.schemeCode s.snap.bps == s.dictKey.width) &&
    (s.snap.sps == s.dictKey.sps) && (s.snap.peakV == s.dictKey.peakV) &&
    (s.snap.carrierF == s.dictKey.carrierF) && (s.snap.sampleRate == s.dictKey.sampleRate))

/-- The registers of each command's row in the write column of 20_memory.md R74, STATUS apart. -/
def writtenRegisters (i : Instr) (s : State) : List RegId :=
  match i with
  | .nop | .noise => []
  | .sreset =>
    [.ctrl, .sps, .peakV, .carrierF, .sampleRate, .noiseSigma, .nBits, .nSym, .nLevel, .nParam, .nSample]
  | .bits2sym => [.nSym]
  | .sym2dec => [.nDec]
  | .sym2bits => [.nBits]
  | .graygen _ => [.grayN]
  | .lcencNrz | .lcencMan | .lcencAmi => [.nLevel]
  | .modpAsk | .modpFsk | .modpPsk | .modpQpsk | .modpQam16 => [.nParam]
  | .synLevel | .synPulse | .synCarrier => [.nSample]
  | .tx => if s.snap.schemeCode ≤ 2 then [.nSym, .nLevel, .nSample] else [.nSym, .nParam, .nSample]
  | .dictbuild => [.dictN, .dictLen]
  | .detect => if dictionaryStale s then [.nSym, .dictN, .dictLen] else [.nSym]
  | .rx => if dictionaryStale s then [.nSym, .nBits, .dictN, .dictLen] else [.nSym, .nBits]

/-- The memories of each command's row in the write column of R74. -/
def writtenMemories (i : Instr) (s : State) : List MemId :=
  match i with
  | .nop | .sreset => []
  | .bits2sym => [.sym]
  | .sym2dec => [.dec]
  | .sym2bits => [.bit]
  | .graygen _ => [.gray]
  | .lcencNrz | .lcencMan | .lcencAmi => [.level]
  | .modpAsk | .modpFsk | .modpPsk | .modpQpsk | .modpQam16 => [.param]
  | .synLevel | .synPulse | .synCarrier | .noise => [.sample]
  | .tx => if s.snap.schemeCode ≤ 2 then [.sym, .level, .sample] else [.sym, .param, .sample]
  | .dictbuild => [.dict]
  | .detect => if dictionaryStale s then [.sym, .dict] else [.sym]
  | .rx => if dictionaryStale s then [.sym, .bit, .dict] else [.sym, .bit]

/-- The command is going to end with an error, so that it writes only STATUS (60_exceptions.md R201). -/
def EndsWithError (i : Instr) (s : State) : Prop := ∃ t, exec i s = .next t ∧ t.err = true

end Sys2Proof.Machine
end

