-- ==== Sys2Proof/Certificates/Slice0/Obligations.lean ====
section
/-! DEFINITION. The statements about the machine that the provers prove. -/

open Sys2Proof Sys2Proof.Machine

/-! ### Encoding -/

/-- The word of every row of the opcode map decodes to its command (30_encoding.md R90, R94). -/
def Obligations.OpcodeMapDecodes : Prop :=
  decode 0x00#64 = .ok .nop ∧ decode 0x01#64 = .ok .sreset ∧
  decode 0x10#64 = .ok .bits2sym ∧ decode 0x11#64 = .ok .sym2dec ∧ decode 0x12#64 = .ok .sym2bits ∧
  decode 0x18#64 = .ok (.graygen false) ∧ decode 0x118#64 = .ok (.graygen true) ∧
  decode 0x20#64 = .ok .lcencNrz ∧ decode 0x21#64 = .ok .lcencMan ∧ decode 0x22#64 = .ok .lcencAmi ∧
  decode 0x30#64 = .ok .modpAsk ∧ decode 0x31#64 = .ok .modpFsk ∧ decode 0x32#64 = .ok .modpPsk ∧
  decode 0x33#64 = .ok .modpQpsk ∧ decode 0x34#64 = .ok .modpQam16 ∧
  decode 0x40#64 = .ok .synLevel ∧ decode 0x41#64 = .ok .synPulse ∧ decode 0x42#64 = .ok .synCarrier ∧
  decode 0x48#64 = .ok .noise ∧
  decode 0x50#64 = .ok .tx ∧ decode 0x51#64 = .ok .dictbuild ∧ decode 0x52#64 = .ok .detect ∧ decode 0x53#64 = .ok .rx

/-- A value written to CMD is a command exactly when bits [63:9] are 0, OPCODE is one of the 22 values and FORM is 0 but
for GRAYGEN; any other value is accepted and completes at once with ILLEGAL_CMD, writing nothing else
(30_encoding.md R87, 60_exceptions.md R208). That the engine's snapshot takes an illegal word too is the model's choice
(log entry 17), and so is the response of the access (log entry 15). -/
def Obligations.IllegalCommandWordsRejected : Prop :=
  ∀ (v : Word) (s : State), s.busy = false →
    ((∃ i, decode v = .ok i) ↔
      (v.toNat / 2 ^ 9 = 0 ∧
        v.toNat % 256 ∈ [0x00, 0x01, 0x10, 0x11, 0x12, 0x18, 0x20, 0x21, 0x22, 0x30, 0x31, 0x32, 0x33, 0x34, 0x40, 0x41,
          0x42, 0x48, 0x50, 0x51, 0x52, 0x53] ∧
        (v.toNat / 2 ^ 8 % 2 = 1 → v.toNat % 256 = 0x18))) ∧
    ((¬ ∃ i, decode v = .ok i) →
      hostWrite 8 RegId.cmd.busAddr v s =
        { s with
          cmd := v, lastOp := v.extractLsb' 0 8, snap := takeSnapshot v s, response := .done
          busy := false, done := true, err := true, errCode := 0x01#8 })

/-- Decoding and encoding agree in both directions, over all 2^64 values (30_encoding.md R85, R86, R90). -/
def Obligations.DecodeEncodeAgree : Prop :=
  (∀ i : Instr, decode (encode i) = .ok i) ∧ ∀ (v : Word) (i : Instr), decode v = .ok i → v = encode i

/-! ### Steps -/

/-- A step runs the decoded command: while a command runs and no pending access arrives first, the step is exactly
`exec` of the command the accepted word decodes to; there is no program counter to move. -/
def Obligations.StepRunsDecodedCommand : Prop :=
  ∀ (s : State) (i : Instr), s.busy = true → (∀ e es, s.host = e :: es → e.early = false) →
    decode s.snap.word = .ok i → step s = exec i s

/-- A step performs the oldest pending access when the engine is idle or the access arrives before completion; with
nothing pending an idle machine keeps its state (20_memory.md R72, 70_reset_and_hazards.md R231). The queue and
`early` are the model's choice (log entries 1, 2). -/
def Obligations.StepPerformsHostAccess : Prop :=
  (∀ (s : State) (e : HostEvent) (es : List HostEvent), s.host = e :: es → (s.busy = false ∨ e.early = true) →
    step s = busAccess e.access { s with host := es }) ∧
  ∀ s : State, s.host = [] → s.busy = false → step s = .next s

/-- A table word placed by `withFetchWord` is what the next step runs (log entry 1). -/
def Obligations.FetchedWordRuns : Prop :=
  ∀ (s : State) (nbits w : Nat) (i : Instr), decodeTableWord nbits w = some i →
    step (s.withFetchWord nbits w) = exec i (s.withFetchWord nbits w)

/-- Acceptance (60_exceptions.md R208): a command word written to CMD while BUSY = 0 sets CMD, DONE, ERR, ERRCODE,
LAST_OP, BUSY and the snapshot and nothing else, and the rule of its opcode runs; an illegal word raises ILLEGAL_CMD. -/
def Obligations.AcceptanceOfCommandWord : Prop :=
  ∀ (v : Word) (s : State), s.busy = false →
    (∀ i, decode v = .ok i →
      hostWrite 8 RegId.cmd.busAddr v s =
        { s with
          cmd := v, done := false, err := false, errCode := 0#8, lastOp := v.extractLsb' 0 8, busy := true
          snap := takeSnapshot v s, response := .done } ∧
      ((∀ e es, s.host = e :: es → e.early = false) →
        step (hostWrite 8 RegId.cmd.busAddr v s) = exec i (hostWrite 8 RegId.cmd.busAddr v s))) ∧
    (∀ x, decode v = .error x →
      hostWrite 8 RegId.cmd.busAddr v s =
        { s with
          cmd := v, lastOp := v.extractLsb' 0 8, snap := takeSnapshot v s, response := .done
          busy := false, done := true, err := true, errCode := 0x01#8 })

/-! ### Errors, completion, faults -/

/-- A command ends with all of its writes, or with an error code and nothing changed but STATUS (60_exceptions.md R201,
R210); no command is refused. -/
def Obligations.ErrorsAreAllOrNothing : Prop :=
  ∀ (i : Instr) (s : State),
    (∀ t, exec i s = .next t →
      (∃ c : ErrCode, t = { s with errCode := c.code, err := true, busy := false, done := true }) ∨
        (t.busy = false ∧ t.done = true ∧ t.err = s.err ∧ t.errCode = s.errCode)) ∧
    ∀ r, exec i s ≠ .refused r

/-- No command raises a code that the table of 60_exceptions.md R204 marks as never raised by it. -/
def Obligations.OnlyListedErrorsRaised : Prop :=
  ∀ (i : Instr) (s t : State), s.err = false → exec i s = .next t → t.err = true →
    ∃ c ∈ mayRaise i, t = { s with errCode := c.code, err := true, busy := false, done := true }

/-- A command reports the first condition of its pseudocode that holds, which is the smallest code whose condition
holds; when none holds it completes without an error (60_exceptions.md R203, R205-R207, R209). A configuration error
needs nothing of the memory; a DATA_RANGE error, and a CAPACITY error behind a range check, need the symbols that check
looks at; a completion needs the words the command reads (log entry 5). A valid dictionary is that of its key. -/
def Obligations.FirstFailingCheckReported : Prop :=
  ∀ (i : Instr) (s : State), s.DictionaryLegal →
    ((errorConditions i s).map (·.1.code.toNat)).Pairwise (· ≤ ·) ∧
    (∀ c, firstError i s = some c →
      (c = .dataRange ∨ c = .capacity → readsSymbols i = true → s.Written .sym s.snap.nSym.toNat) →
      exec i s = .next { s with errCode := c.code, err := true, busy := false, done := true }) ∧
    (firstError i s = none → s.InputsWritten i →
      ∃ t, exec i s = .next t ∧ t.busy = false ∧ t.done = true ∧ t.err = s.err ∧ t.errCode = s.errCode)

/-- The one fault of a step is a read, by a command or by the host, of an entry not written since hardware reset
(70_reset_and_hazards.md R232, 93_implementation_defined.md I1), and a host read of such an entry faults. -/
def Obligations.FaultsAreUnwrittenReads : Prop :=
  (∀ (s : State) (f : Fault), step s = .fault f → ∃ id k, f = .unwrittenEntry id k ∧ s.entry id k = none) ∧
  (∀ (s : State) (r : Refusal), step s ≠ .refused r) ∧
  ∀ (s : State) (id : MemId) (k : Nat), s.busy = false → k < id.words → s.entry id k = none →
    hostRead 8 (id.busAddr k) s = .fault (.unwrittenEntry id k)

/-! ### What no command changes -/

/-- A command writes only its write set (20_memory.md R74): registers and memories outside its row, and the rest of the
state that the table does not name for it, are unchanged; DETECT and RX write the dictionary only when they rebuild it.
(The counts of the snapshot are at most the depths in every state that keeps `State.Legal`.) -/
def Obligations.CommandsWriteOnlyTheirWriteSet : Prop :=
  ∀ (i : Instr) (s t : State), s.snap.CountsLegal → exec i s = .next t →
    (∀ r : RegId, r ≠ .status → r ∉ writtenRegisters i s → readRegister r t = readRegister r s) ∧
    (∀ id : MemId, id ∉ writtenMemories i s →
      ∀ a, id.addr 0 ≤ a → a < id.addr id.words → t.mem.readByte a = s.mem.readByte a) ∧
    (i ≠ .lcencAmi → i ≠ .tx → i ≠ .sreset → t.amiSign = s.amiSign) ∧
    (i ≠ .dictbuild → (i = .detect ∨ i = .rx → dictionaryStale s = false) → t.dictKey = s.dictKey) ∧
    (i ≠ .dictbuild → (i = .detect ∨ i = .rx → dictionaryStale s = false) → i ≠ .sreset → t.dictValid = s.dictValid) ∧
    ((∀ form, i ≠ .graygen form) → t.grayForm = s.grayForm) ∧
    (i ≠ .sreset → t.ovr = s.ovr) ∧
    (i ≠ .noise → i ≠ .tx → t.noiseQueue = s.noiseQueue ∧ t.noiseTaken = s.noiseTaken) ∧
    t.lastOp = s.lastOp ∧ t.snap = s.snap ∧ t.host = s.host ∧ t.response = s.response ∧ t.freeReads = s.freeReads

/-- No command's output depends on AMI_SIGN (70_reset_and_hazards.md R235): with another sign a command ends in the same
state, in which AMI_SIGN is the same or is the one it started with. -/
def Obligations.AmiSignIsNoInput : Prop :=
  ∀ (i : Instr) (s : State) (sign : Sign),
    (∀ t, exec i s = .next t →
      ∃ sign', exec i { s with amiSign := sign } = .next { t with amiSign := sign' } ∧
        (sign' = t.amiSign ∨ (sign' = sign ∧ t.amiSign = s.amiSign))) ∧
    ∀ f, exec i s = .fault f → exec i { s with amiSign := sign } = .fault f

/-- Between builds nothing writes DICT_MEM (45_transceiver.md R175): a step that changes a byte of it runs DICTBUILD, or
runs DETECT or RX when the dictionary is not the configuration's, or performs a hardware reset. Which of them a step does,
a pending access says (log entry 2). -/
def Obligations.DictionaryWrittenOnlyByBuilds : Prop :=
  ∀ (s t : State) (a : Nat), s.Legal → step s = .next t → MemId.dict.addr 0 ≤ a → a < MemId.dict.addr MemId.dict.words →
    t.mem.readByte a ≠ s.mem.readByte a →
    (s.busy = true ∧ (∀ e es, s.host = e :: es → e.early = false) ∧
        ∃ i, decode s.snap.word = .ok i ∧ exec i s = .next t ∧
          (i = .dictbuild ∨ ((i = .detect ∨ i = .rx) ∧ dictionaryStale s = true))) ∨
      ∃ e es, s.host = e :: es ∧ (s.busy = false ∨ e.early = true) ∧ e.access = .hwReset

/-- Draws are taken only by NOISE and by TX with IDEAL = 0, exactly the N_SAMPLE the command ends with, and none by a
command that ends with an error; every draw is finite (60_exceptions.md R220, 44_pulse_noise.md R164). The queue and
the count of draws are the model's own fields (log entry 8). -/
def Obligations.NoiseDrawsTaken : Prop :=
  (∀ (s : State) (i : Nat), F64.isFinite (drawAt s i) = true) ∧
  ∀ (i : Instr) (s t : State), s.snap = takeSnapshot s.snap.word s → s.err = false → exec i s = .next t →
    (t.err = false ∧ (i = .noise ∨ (i = .tx ∧ s.snap.ideal = false)) →
      t.noiseTaken = s.noiseTaken + t.nSample.toNat ∧ t.noiseQueue = s.noiseQueue.drop t.nSample.toNat) ∧
    (t.err = true ∨ (i ≠ .noise ∧ (i = .tx → s.snap.ideal = true)) →
      t.noiseTaken = s.noiseTaken ∧ t.noiseQueue = s.noiseQueue)

/-! ### System commands -/

/-- NOP does nothing but complete (46_system.md R190). -/
def Obligations.NopCompletes : Prop :=
  ∀ s : State, exec .nop s = .next { s with busy := false, done := true }

/-- SRESET writes exactly the registers of 46_system.md R191 and completes. -/
def Obligations.SresetCompletes : Prop :=
  ∀ s : State, exec .sreset s = .next
    { s with
      ctrl := 0x0000000000041100#64, sps := 16#32, peakV := 0x3FF0000000000000#64, carrierF := 0x3FF0000000000000#64
      sampleRate := 0x4030000000000000#64, noiseSigma := 0#64, nBits := 0#64, nSym := 0#64, nLevel := 0#64
      nParam := 0#64, nSample := 0#64, amiSign := .pos, dictValid := false, ovr := false
      busy := false, done := true }

/-! ### Symbol Mapper and Gray table -/

/-- BITS2SYM (40_symbol_mapper.md R100): SYM[k] is the sum of its w bits, the first with weight 2^(w−1); the remainder
is dropped. -/
def Obligations.BitsToSymbolsCompletes : Prop :=
  ∀ (s : State) (sch : Scheme) (w n : Nat) (bit : Nat → Bool),
    s.snap.Configured sch w → n = s.snap.nBits.toNat / w → n ≤ Config.symDepth → s.Bits (n * w) bit →
    ∃ t, exec .bits2sym s = .next t ∧
      t = { s with mem := t.mem, nSym := BitVec.ofNat 64 n, busy := false, done := true } ∧
      t.Entries .sym n (fun k => BitVec.ofNat 64 (groupedSymbol w bit k)) ∧ Kept s t [(.sym, n)]

/-- SYM2DEC (40_symbol_mapper.md R102): DEC[k] is f64(SYM[k]) ÷ f64(2^w − 1). -/
def Obligations.SymbolsToDecimalsCompletes : Prop :=
  ∀ (s : State) (sch : Scheme) (w n : Nat) (sym : Nat → Nat),
    s.snap.Configured sch w → n = s.snap.nSym.toNat → n ≤ Config.decDepth → s.Symbols n w sym →
    ∃ t, exec .sym2dec s = .next t ∧
      t = { s with mem := t.mem, nDec := BitVec.ofNat 64 n, busy := false, done := true } ∧
      t.Entries .dec n (fun k => F64.div (F64.ofNat (sym k)) (F64.ofNat (2 ^ w - 1))) ∧ Kept s t [(.dec, n)]

/-- SYM2BITS (40_symbol_mapper.md R104): BIT[k·w + i] is component bit i of SYM[k]. -/
def Obligations.SymbolsToBitsCompletes : Prop :=
  ∀ (s : State) (sch : Scheme) (w n : Nat) (sym : Nat → Nat),
    s.snap.Configured sch w → n = s.snap.nSym.toNat → n * w ≤ Config.bitDepth → s.Symbols n w sym →
    ∃ t, exec .sym2bits s = .next t ∧
      t = { s with mem := t.mem, nBits := BitVec.ofNat 64 (n * w), busy := false, done := true } ∧
      t.Entries .bit (n * w) (fun j => BitVec.ofNat 64 (componentBit w (sym (j / w)) (j % w))) ∧
      Kept s t [(.bit, n * w)]

/-- GRAYGEN in both forms (41_gray_table.md R110, R114). -/
def Obligations.GrayTableCompletes : Prop :=
  ∀ (s : State) (sch : Scheme) (w : Nat) (form : Bool), s.snap.Configured sch w →
    ∃ t, exec (.graygen form) s = .next t ∧
      t = { s with
            mem := t.mem, grayN := BitVec.ofNat 64 (2 ^ w), grayForm := form, busy := false, done := true } ∧
      t.Entries .gray (2 ^ w) (fun i =>
        if form then F64.div (F64.ofNat (i ^^^ (i / 2))) (F64.ofNat (2 ^ w - 1)) else BitVec.ofNat 64 (i ^^^ (i / 2))) ∧
      Kept s t [(.gray, 2 ^ w)]

/-- A symbol is the sum of its component bits with weights 2^(w−1−i) (00_scope.md R14), for every width. -/
def Obligations.SymbolIsSumOfComponentBits : Prop :=
  (∀ w s : Nat, s < 2 ^ w →
    ((List.range w).map (fun i => componentBit w s i * 2 ^ (w - 1 - i))).sum = s ∧
      symbolBits w s = (List.range w).map (fun i => decide (componentBit w s i = 1))) ∧
  ∀ (w : Nat) (bit : Nat → Bool), weightedSum w bit < 2 ^ w ∧
    ∀ i, i < w → componentBit w (weightedSum w bit) i = (bit i).toNat

/-- Adjacent entries of the Gray table differ in exactly one bit; the wraparound pair is (2^(w−1), 0)
(41_gray_table.md R111). -/
def Obligations.GrayNeighboursDifferInOneBit : Prop :=
  (∀ w i : Nat, i + 1 < 2 ^ w → ∃ b, b < w ∧ gray i ^^^ gray (i + 1) = 2 ^ b) ∧
  ∀ w : Nat, 0 < w → gray (2 ^ w - 1) = 2 ^ (w - 1) ∧ gray 0 = 0

/-- `gidx` is the inverse of `gray` on 0..2^w − 1, a bijection (41_gray_table.md R112). -/
def Obligations.GrayIndexInvertsGray : Prop :=
  ∀ w s : Nat, s < 2 ^ w →
    grayIndex w s < 2 ^ w ∧ gray (grayIndex w s) = s ∧ gray s < 2 ^ w ∧ ∀ i, i < 2 ^ w → gray i = s → i = grayIndex w s

/-- BITS2SYM then SYM2BITS leaves whole groups of bits as they were, and SYM2BITS then BITS2SYM leaves in-range symbols
as they were (40_symbol_mapper.md R101). The second pair needs the bits to fit: with n·w above BIT_DEPTH, SYM2BITS ends
with CAPACITY (R104, FirstFailingCheckReported), which R101 does not say. -/
def Obligations.MapperRoundTrip : Prop :=
  (∀ (s : State) (sch : Scheme) (w n : Nat) (bit : Nat → Bool),
    (takeSnapshot 0#64 s).Configured sch w → s.nBits = BitVec.ofNat 64 (n * w) → n * w ≤ Config.bitDepth →
    s.Bits (n * w) bit →
    ∃ t u, exec .bits2sym (latchCommand 0x10#64 s) = .next t ∧ exec .sym2bits (latchCommand 0x12#64 t) = .next u ∧
      u.nBits = s.nBits ∧ u.Bits (n * w) bit) ∧
  ∀ (s : State) (sch : Scheme) (w n : Nat) (sym : Nat → Nat),
    (takeSnapshot 0#64 s).Configured sch w → s.nSym = BitVec.ofNat 64 n → n ≤ Config.symDepth →
    n * w ≤ Config.bitDepth → s.Symbols n w sym →
    ∃ t u, exec .sym2bits (latchCommand 0x12#64 s) = .next t ∧ exec .bits2sym (latchCommand 0x10#64 t) = .next u ∧
      u.nSym = s.nSym ∧ u.Symbols n w sym

/-! ### Line coders -/

/-- LCENC.NRZ (42_line_coder.md R121): bit 1 gives +1, bit 0 gives −1; AMI_SIGN is not touched. -/
def Obligations.NrzCoderCompletes : Prop :=
  ∀ (s : State) (w n : Nat) (sym : Nat → Nat),
    w = s.snap.bps → 1 ≤ w → w ≤ 8 → n = s.snap.nSym.toNat → n * w ≤ Config.levelDepth → s.Symbols n w sym →
    ∃ t, exec .lcencNrz s = .next t ∧
      t = { s with mem := t.mem, nLevel := BitVec.ofNat 64 (n * w), busy := false, done := true } ∧
      t.Entries .level (n * w) (fun j => if componentBit w (sym (j / w)) (j % w) = 1 then 1#64 else -1#64) ∧
      Kept s t [(.level, n * w)]

/-- LCENC.MAN (42_line_coder.md R123): the bit XOR 1 in the even slot, the bit in the odd slot. -/
def Obligations.ManchesterCoderCompletes : Prop :=
  ∀ (s : State) (w n : Nat) (sym : Nat → Nat),
    w = s.snap.bps → 1 ≤ w → w ≤ 8 → n = s.snap.nSym.toNat → n * (2 * w) ≤ Config.levelDepth → s.Symbols n w sym →
    ∃ t, exec .lcencMan s = .next t ∧
      t = { s with mem := t.mem, nLevel := BitVec.ofNat 64 (n * (2 * w)), busy := false, done := true } ∧
      (∀ k i, k < n → i < w →
        t.entry .level (k * (2 * w) + 2 * i) = some (BitVec.ofNat 64 (1 - componentBit w (sym k) i)) ∧
        t.entry .level (k * (2 * w) + 2 * i + 1) = some (BitVec.ofNat 64 (componentBit w (sym k) i))) ∧
      Kept s t [(.level, n * (2 * w))]

/-- LCENC.AMI (42_line_coder.md R125-R127): a 1 gives the sign, which starts every symbol at +1 and flips after each 1;
odd slots are 0; AMI_SIGN ends at −1 exactly when the last symbol has an odd number of 1 bits. -/
def Obligations.BipolarCoderCompletes : Prop :=
  ∀ (s : State) (w n : Nat) (sym : Nat → Nat),
    w = s.snap.bps → 1 ≤ w → w ≤ 8 → n = s.snap.nSym.toNat → n * (2 * w) ≤ Config.levelDepth → s.Symbols n w sym →
    ∃ t, exec .lcencAmi s = .next t ∧
      t = { s with
            mem := t.mem, nLevel := BitVec.ofNat 64 (n * (2 * w)), busy := false, done := true
            amiSign :=
              if n = 0 then s.amiSign else if onesBefore w (sym (n - 1)) w % 2 = 1 then .neg else .pos } ∧
      (∀ k i, k < n → i < w →
        t.entry .level (k * (2 * w) + 2 * i) = some
          (if componentBit w (sym k) i = 0 then 0#64 else if onesBefore w (sym k) i % 2 = 0 then 1#64 else -1#64) ∧
        t.entry .level (k * (2 * w) + 2 * i + 1) = some 0#64) ∧
      Kept s t [(.level, n * (2 * w))]

/-! ### Modulation mapper and carrier -/

/-- MODP.ASK (43_modulation.md R135, R136): (dec(s, w), 1.0, 0.0). -/
def Obligations.AskMapperCompletes : Prop :=
  ∀ (s : State) (w n : Nat) (sym : Nat → Nat),
    w = s.snap.bps → 1 ≤ w → w ≤ 8 → n = s.snap.nSym.toNat → n ≤ Config.paramDepth → s.Symbols n w sym →
    ∃ t, exec .modpAsk s = .next t ∧
      t = { s with mem := t.mem, nParam := BitVec.ofNat 64 n, busy := false, done := true } ∧
      (∀ k, k < n →
        t.entry .param (3 * k) = some (F64.div (F64.ofNat (sym k)) (F64.ofNat (2 ^ w - 1))) ∧
        t.entry .param (3 * k + 1) = some 0x3FF0000000000000#64 ∧ t.entry .param (3 * k + 2) = some 0#64) ∧
      Kept s t [(.param, 3 * n)]

/-- MODP.FSK (43_modulation.md R135, R137): (1.0, 1.0 + dec(s, w), 0.0). -/
def Obligations.FskMapperCompletes : Prop :=
  ∀ (s : State) (w n : Nat) (sym : Nat → Nat),
    w = s.snap.bps → 1 ≤ w → w ≤ 8 → n = s.snap.nSym.toNat → n ≤ Config.paramDepth → s.Symbols n w sym →
    ∃ t, exec .modpFsk s = .next t ∧
      t = { s with mem := t.mem, nParam := BitVec.ofNat 64 n, busy := false, done := true } ∧
      (∀ k, k < n →
        t.entry .param (3 * k) = some 0x3FF0000000000000#64 ∧
        t.entry .param (3 * k + 1) =
          some (F64.add 0x3FF0000000000000#64 (F64.div (F64.ofNat (sym k)) (F64.ofNat (2 ^ w - 1)))) ∧
        t.entry .param (3 * k + 2) = some 0#64) ∧
      Kept s t [(.param, 3 * n)]

/-- MODP.PSK (43_modulation.md R135, R138): (1.0, 1.0, f64(gidx(s)) × (360.0 ÷ f64(2^w))), gidx(s) the position of s in
the Gray table (41_gray_table.md R112). -/
def Obligations.PskMapperCompletes : Prop :=
  ∀ (s : State) (w n : Nat) (sym : Nat → Nat),
    w = s.snap.bps → 1 ≤ w → w ≤ 8 → n = s.snap.nSym.toNat → n ≤ Config.paramDepth → s.Symbols n w sym →
    ∃ t, exec .modpPsk s = .next t ∧
      t = { s with mem := t.mem, nParam := BitVec.ofNat 64 n, busy := false, done := true } ∧
      (∀ k, k < n →
        t.entry .param (3 * k) = some 0x3FF0000000000000#64 ∧ t.entry .param (3 * k + 1) = some 0x3FF0000000000000#64 ∧
        ∀ g, g < 2 ^ w → g ^^^ (g / 2) = sym k →
          t.entry .param (3 * k + 2) =
            some (F64.mul (F64.ofNat g) (F64.div 0x4076800000000000#64 (F64.ofNat (2 ^ w))))) ∧
      Kept s t [(.param, 3 * n)]

/-- MODP.QPSK (43_modulation.md R139): phases 0, 90, 270, 180 for symbols 0, 1, 2, 3, whatever CTRL.BPS holds. -/
def Obligations.QpskMapperCompletes : Prop :=
  ∀ (s : State) (n : Nat) (sym : Nat → Nat),
    n = s.snap.nSym.toNat → n ≤ Config.paramDepth → s.Symbols n 2 sym →
    ∃ t, exec .modpQpsk s = .next t ∧
      t = { s with mem := t.mem, nParam := BitVec.ofNat 64 n, busy := false, done := true } ∧
      (∀ k, k < n →
        t.entry .param (3 * k) = some 0x3FF0000000000000#64 ∧ t.entry .param (3 * k + 1) = some 0x3FF0000000000000#64 ∧
        t.entry .param (3 * k + 2) = some
          (if sym k = 0 then 0#64 else if sym k = 1 then 0x4056800000000000#64
            else if sym k = 2 then 0x4070E00000000000#64 else 0x4066800000000000#64)) ∧
      Kept s t [(.param, 3 * n)]

/-- MODP.QAM16 (43_modulation.md R140, R141): the symbol in row r and column c of the table T[r][c] = 4·gray(r) + gray(c)
has the amplitude of its cell, frequency 1.0, and the phase of (I, Q) = (LV[c], LV[r]) in degrees. -/
def Obligations.QamMapperCompletes : Prop :=
  (∀ x : Nat, x < 16 → ∃ r c, r < 4 ∧ c < 4 ∧ x = 4 * gray r + gray c) ∧
  ∀ (s : State) (n : Nat) (sym : Nat → Nat),
    n = s.snap.nSym.toNat → n ≤ Config.paramDepth → s.Symbols n 4 sym →
    ∃ t, exec .modpQam16 s = .next t ∧
      t = { s with mem := t.mem, nParam := BitVec.ofNat 64 n, busy := false, done := true } ∧
      (∀ k r c, k < n → r < 4 → c < 4 → sym k = 4 * gray r + gray c →
        t.entry .param (3 * k) = some (qamAmplitude r c) ∧ t.entry .param (3 * k + 1) = some 0x3FF0000000000000#64 ∧
        t.entry .param (3 * k + 2) = some (degreesOf (qamComponent r) (qamComponent c))) ∧
      Kept s t [(.param, 3 * n)]

/-- Parameter ranges (43_modulation.md R142) that do not depend on ATAN2: amplitudes in [0, 1], frequencies in [1, 2], and
the phases of the PSK map in [0, 360). -/
def Obligations.ParametersInRange : Prop :=
  ∀ (m : Modulation) (w s : Nat), w ≤ 8 → s < 2 ^ (if m = .qam16 then 4 else if m = .qpsk then 2 else w) →
    0 < w →
    let p := symbolTriple m w s
    F64.lt p.amp F64.zero = false ∧ F64.lt F64.one p.amp = false ∧ F64.isFinite p.amp = true ∧
      F64.lt p.freq F64.one = false ∧ F64.lt F64.two p.freq = false ∧ F64.isFinite p.freq = true ∧
      (m ≠ .qam16 → F64.lt p.phase F64.zero = false ∧ F64.lt p.phase F64.deg360 = true)

/-- SYN.CARRIER (43_modulation.md R143-R145): sample m of symbol k is (AMP × PEAK_V) × SIN(arg) at local time
m ÷ SAMPLE_RATE. -/
def Obligations.CarrierSynthesizerCompletes : Prop :=
  ∀ (s : State) (n : Nat) (p : Nat → Triple),
    s.snap.sps ≠ 0 → F64.isFinite s.snap.sampleRate = true → F64.lt F64.zero s.snap.sampleRate = true →
    n = s.snap.nParam.toNat → n * s.snap.sps.toNat ≤ Config.sampleDepth →
    s.Entries .param (3 * n) (fun j => (p (j / 3)).word (j % 3)) →
    ∃ t, exec .synCarrier s = .next t ∧
      t = { s with
            mem := t.mem, nSample := BitVec.ofNat 64 (n * s.snap.sps.toNat), busy := false, done := true } ∧
      t.Entries .sample (n * s.snap.sps.toNat)
        (fun x => toneSample s.snap (p (x / s.snap.sps.toNat)) (x % s.snap.sps.toNat)) ∧
      Kept s t [(.sample, n * s.snap.sps.toNat)]

/-! ### Levels, pulses, noise -/

/-- SYN.LEVEL (44_pulse_noise.md R155, R156): each level as SPS samples f64(LEVEL[j]) × PEAK_V. -/
def Obligations.LevelSynthesizerCompletes : Prop :=
  ∀ (s : State) (n : Nat) (level : Nat → Int),
    s.snap.sps ≠ 0 → n = s.snap.nLevel.toNat → n * s.snap.sps.toNat ≤ Config.sampleDepth →
    (∀ j, j < n → -2 ^ 63 ≤ level j ∧ level j < 2 ^ 63) → s.Entries .level n (fun j => BitVec.ofInt 64 (level j)) →
    ∃ t, exec .synLevel s = .next t ∧
      t = { s with
            mem := t.mem, nSample := BitVec.ofNat 64 (n * s.snap.sps.toNat), busy := false, done := true } ∧
      t.Entries .sample (n * s.snap.sps.toNat)
        (fun x => F64.mul (F64.ofInt (level (x / s.snap.sps.toNat))) s.snap.peakV) ∧
      Kept s t [(.sample, n * s.snap.sps.toNat)]

/-- SYN.PULSE (44_pulse_noise.md R157, R158): every sample is the eight-harmonic partial sum of its block, in the written
order, the last block over its own span. -/
def Obligations.PulseSynthesizerCompletes : Prop :=
  ∀ (s : State) (n : Nat) (level : Nat → Int),
    s.snap.sps ≠ 0 → s.snap.pulseBlock ≠ 0 → n = s.snap.nLevel.toNat →
    n * s.snap.sps.toNat ≤ Config.sampleDepth →
    (∀ j, j < n → -2 ^ 63 ≤ level j ∧ level j < 2 ^ 63) → s.Entries .level n (fun j => BitVec.ofInt 64 (level j)) →
    ∃ t, exec .synPulse s = .next t ∧
      t = { s with
            mem := t.mem, nSample := BitVec.ofNat 64 (n * s.snap.sps.toNat), busy := false, done := true } ∧
      t.Entries .sample (n * s.snap.sps.toNat) (shapedSample s.snap n level) ∧
      Kept s t [(.sample, n * s.snap.sps.toNat)]

/-- NOISE (44_pulse_noise.md R163): SAMPLE[i] + NOISE_SIGMA × z for the i-th draw z; N_SAMPLE unchanged. It holds for
every sequence of draws. -/
def Obligations.NoiseCompletes : Prop :=
  ∀ (s : State) (n : Nat) (x : Nat → F64),
    n = s.snap.nSample.toNat → n ≤ Config.sampleDepth → s.Entries .sample n x →
    ∃ t, exec .noise s = .next t ∧
      t = { s with
            mem := t.mem, noiseQueue := s.noiseQueue.drop n, noiseTaken := s.noiseTaken + n
            busy := false, done := true } ∧
      t.Entries .sample n (fun i => F64.add (x i) (F64.mul s.snap.noiseSigma (drawAt s i))) ∧
      Kept s t [(.sample, n)]

/-! ### Transmitter and receiver -/

/-- TX (45_transceiver.md R170-R172): the symbols, the levels or the parameter triples, and the samples, with one noise
draw a sample outside ideal mode. -/
def Obligations.TransmitCompletes : Prop :=
  ∀ (s : State) (sch : Scheme) (w n L N : Nat) (bit : Nat → Bool),
    s.snap.Configured sch w → s.snap.sps ≠ 0 →
    (∀ code, sch = .line code → s.snap.ideal = false → s.snap.pulseBlock ≠ 0) →
    (∀ m, sch = .carrier m →
      F64.isFinite s.snap.sampleRate = true ∧ F64.lt F64.zero s.snap.sampleRate = true) →
    n = s.snap.nBits.toNat / w → L = n * levelsPerSymbol sch w → N = L * s.snap.sps.toNat →
    n ≤ Config.symDepth → (∀ code, sch = .line code → L ≤ Config.levelDepth) →
    (∀ m, sch = .carrier m → n ≤ Config.paramDepth) → N ≤ Config.sampleDepth → s.Bits (n * w) bit →
    let sym := groupedSymbol w bit
    ∃ t, exec .tx s = .next t ∧
      t.Entries .sym n (fun k => BitVec.ofNat 64 (sym k)) ∧
      t.Entries .sample N (fun x =>
        if s.snap.ideal then messageSample s.snap sch w n sym x
        else F64.add (messageSample s.snap sch w n sym x) (F64.mul s.snap.noiseSigma (drawAt s x))) ∧
      (∀ code, sch = .line code →
        t = { s with
              mem := t.mem, nSym := BitVec.ofNat 64 n, nLevel := BitVec.ofNat 64 L, nSample := BitVec.ofNat 64 N
              amiSign := if code = .ami then messageSign w n sym s.amiSign else s.amiSign
              noiseQueue := if s.snap.ideal then s.noiseQueue else s.noiseQueue.drop N
              noiseTaken := if s.snap.ideal then s.noiseTaken else s.noiseTaken + N
              busy := false, done := true } ∧
        t.Entries .level L (fun j => BitVec.ofInt 64 (messageLevel code w sym j)) ∧
        Kept s t [(.sym, n), (.level, L), (.sample, N)]) ∧
      ∀ m, sch = .carrier m →
        t = { s with
              mem := t.mem, nSym := BitVec.ofNat 64 n, nParam := BitVec.ofNat 64 n, nSample := BitVec.ofNat 64 N
              noiseQueue := if s.snap.ideal then s.noiseQueue else s.noiseQueue.drop N
              noiseTaken := if s.snap.ideal then s.noiseTaken else s.noiseTaken + N
              busy := false, done := true } ∧
        t.Entries .param (3 * n) (fun j => (symbolTriple m w (sym (j / 3))).word (j % 3)) ∧
        Kept s t [(.sym, n), (.param, 3 * n), (.sample, N)]

/-- TX leaves what the commands of its stages leave, run one by one (45_transceiver.md R170): BITS2SYM, the line coder or
parameter generator, the synthesizer, and NOISE outside ideal mode. Each stage runs with TX's accepted word, CMD and
LAST_OP as they stand, its snapshot taken anew from the registers (`nextCommand`). -/
def Obligations.TransmitRunsItsStages : Prop :=
  ∀ (s t : State) (sch : Scheme),
    s.snap = takeSnapshot s.snap.word s → schemeOfCode s.snap.schemeCode = some sch → s.err = false →
    exec .tx s = .next t → t.err = false →
    ∃ u, runCommands (transmitStages sch s.snap.ideal) s = .next u ∧ t = { u with snap := s.snap }

/-- DICTBUILD (45_transceiver.md R173, R174): entry s is the canonical waveform of symbol s; AMI_SIGN is not written. -/
def Obligations.DictionaryBuildCompletes : Prop :=
  ∀ (s : State) (sch : Scheme) (w len : Nat),
    s.snap.Configured sch w → s.snap.sps ≠ 0 →
    (∀ m, sch = .carrier m →
      F64.isFinite s.snap.sampleRate = true ∧ F64.lt F64.zero s.snap.sampleRate = true) →
    len = windowLength s.snap sch w → 2 ^ w * len ≤ Config.dictDepth →
    ∃ t, exec .dictbuild s = .next t ∧
      t = { s with
            mem := t.mem, dictN := BitVec.ofNat 64 (2 ^ w), dictLen := BitVec.ofNat 64 len, dictValid := true
            dictKey := ⟨sch, w, s.snap.sps, s.snap.peakV, s.snap.carrierF, s.snap.sampleRate⟩
            busy := false, done := true } ∧
      t.Entries .dict (2 ^ w * len) (fun x => canonicalSample s.snap sch w (x / len) (x % len)) ∧
      Kept s t [(.dict, 2 ^ w * len)]

/-- DETECT (45_transceiver.md R176-R179): each whole window gives the nearest canonical waveform's symbol, trailing samples
are dropped, and the dictionary afterwards is the one of the configuration, whether it was current or not. -/
def Obligations.DetectionCompletes : Prop :=
  ∀ (s : State) (sch : Scheme) (w len nW : Nat) (x : Nat → F64),
    s.DictionaryLegal → s.snap.Configured sch w → s.snap.sps ≠ 0 →
    (∀ m, sch = .carrier m →
      F64.isFinite s.snap.sampleRate = true ∧ F64.lt F64.zero s.snap.sampleRate = true) →
    len = windowLength s.snap sch w → 2 ^ w * len ≤ Config.dictDepth → s.snap.nSample.toNat ≤ Config.sampleDepth →
    nW = s.snap.nSample.toNat / len → nW ≤ Config.symDepth → s.Entries .sample (nW * len) x →
    ∃ t, exec .detect s = .next t ∧
      t = { s with
            mem := t.mem, nSym := BitVec.ofNat 64 nW
            dictN := BitVec.ofNat 64 (2 ^ w), dictLen := BitVec.ofNat 64 len, dictValid := true
            dictKey := ⟨sch, w, s.snap.sps, s.snap.peakV, s.snap.carrierF, s.snap.sampleRate⟩
            busy := false, done := true } ∧
      t.Entries .sym nW (fun k => BitVec.ofNat 64 (detectedSymbol s.snap sch w x k)) ∧
      (∀ k, k < nW → detectedSymbol s.snap sch w x k < 2 ^ w) ∧
      t.Entries .dict (2 ^ w * len) (fun y => canonicalSample s.snap sch w (y / len) (y % len)) ∧
      Kept s t [(.sym, nW), (.dict, 2 ^ w * len)]

/-- RX (45_transceiver.md R180): DETECT's outputs, and the bits of the detected symbols in BIT_MEM and N_BITS. -/
def Obligations.ReceiveCompletes : Prop :=
  ∀ (s : State) (sch : Scheme) (w len nW : Nat) (x : Nat → F64),
    s.DictionaryLegal → s.snap.Configured sch w → s.snap.sps ≠ 0 →
    (∀ m, sch = .carrier m →
      F64.isFinite s.snap.sampleRate = true ∧ F64.lt F64.zero s.snap.sampleRate = true) →
    len = windowLength s.snap sch w → 2 ^ w * len ≤ Config.dictDepth → s.snap.nSample.toNat ≤ Config.sampleDepth →
    nW = s.snap.nSample.toNat / len → nW ≤ Config.symDepth → nW * w ≤ Config.bitDepth →
    s.Entries .sample (nW * len) x →
    ∃ t, exec .rx s = .next t ∧
      t = { s with
            mem := t.mem, nSym := BitVec.ofNat 64 nW, nBits := BitVec.ofNat 64 (nW * w)
            dictN := BitVec.ofNat 64 (2 ^ w), dictLen := BitVec.ofNat 64 len, dictValid := true
            dictKey := ⟨sch, w, s.snap.sps, s.snap.peakV, s.snap.carrierF, s.snap.sampleRate⟩
            busy := false, done := true } ∧
      t.Entries .sym nW (fun k => BitVec.ofNat 64 (detectedSymbol s.snap sch w x k)) ∧
      t.Entries .bit (nW * w) (fun j =>
        BitVec.ofNat 64 (componentBit w (detectedSymbol s.snap sch w x (j / w)) (j % w))) ∧
      t.Entries .dict (2 ^ w * len) (fun y => canonicalSample s.snap sch w (y / len) (y % len)) ∧
      Kept s t [(.sym, nW), (.bit, nW * w), (.dict, 2 ^ w * len)]

/-- The detector picks the earliest smallest distance; a NaN distance never replaces the best, and a NaN at symbol 0 keeps
symbol 0 (45_transceiver.md R177, 60_exceptions.md R225). The distance is the sum of (x_j − e_j) × (x_j − e_j) in
ascending order of j, from 0.0 (R177). -/
def Obligations.NearestIsEarliestMinimum : Prop :=
  (∀ (n : Nat) (x e : Nat → F64),
    distance ((List.range n).map x) ((List.range n).map e) =
      f64Sum n (fun j => F64.mul (F64.sub (x j) (e j)) (F64.sub (x j) (e j)))) ∧
  ∀ (entry : Nat → List F64) (count : Nat) (window : List F64), 0 < count →
    let d := fun s => distance window (entry s)
    let best := nearest entry count window
    best < count ∧
      (F64.isNaN (d 0) = true → best = 0) ∧
      (F64.isNaN (d 0) = false →
        F64.isNaN (d best) = false ∧ (∀ s, s < count → F64.lt (d s) (d best) = false) ∧
          ∀ s, s < best → F64.isNaN (d s) = false → F64.lt (d best) (d s) = true)

/-- TX then RX in ideal mode returns the bits, whenever every dictionary sample is finite and different entries have a
distance > 0 (45_transceiver.md R183). -/
def Obligations.IdealRoundTrip : Prop :=
  ∀ (s : State) (sch : Scheme) (w n : Nat) (bit : Nat → Bool),
    let c := takeSnapshot 0x50#64 s
    s.DictionaryLegal → c.Configured sch w → c.ideal = true → s.sps ≠ 0 →
    (∀ m, sch = .carrier m → F64.isFinite s.sampleRate = true ∧ F64.lt F64.zero s.sampleRate = true) →
    s.nBits = BitVec.ofNat 64 (n * w) → n * w ≤ Config.bitDepth → s.Bits (n * w) bit →
    n * levelsPerSymbol sch w ≤ Config.levelDepth → n * windowLength c sch w ≤ Config.sampleDepth →
    2 ^ w * windowLength c sch w ≤ Config.dictDepth →
    (∀ a j, a < 2 ^ w → j < windowLength c sch w → F64.isFinite (canonicalSample c sch w a j) = true) →
    (∀ a b, a < 2 ^ w → b < 2 ^ w → a ≠ b →
      F64.lt F64.zero
        (distance ((List.range (windowLength c sch w)).map (canonicalSample c sch w a))
          ((List.range (windowLength c sch w)).map (canonicalSample c sch w b))) = true) →
    ∃ t u, exec .tx (latchCommand 0x50#64 s) = .next t ∧ exec .rx (latchCommand 0x53#64 t) = .next u ∧
      u.nBits = s.nBits ∧ u.Bits (n * w) bit

/-! ### Binary64 arithmetic -/

/-- Addition, subtraction, multiplication, division, SQRT and f64(n) round the exact real result to nearest, ties to even,
with gradual underflow and overflow to infinity (00_scope.md R15, 46_system.md R193). -/
def Obligations.ArithmeticRoundsToNearestEven : Prop :=
  (∀ x y : F64, F64.isFinite x = true → F64.isFinite y = true →
    RoundsTo ((F64.value x : ℝ) + F64.value y) (F64.add x y) ∧
    RoundsTo ((F64.value x : ℝ) - F64.value y) (F64.sub x y) ∧
    RoundsTo ((F64.value x : ℝ) * F64.value y) (F64.mul x y) ∧
    (F64.isZero y = false → RoundsTo ((F64.value x : ℝ) / F64.value y) (F64.div x y)) ∧
    (F64.sign x = false → RoundsTo (Real.sqrt (F64.value x : ℝ)) (F64.sqrt x))) ∧
  ∀ n : Int, RoundsTo (n : ℝ) (F64.ofInt n)

/-- IEEE 754's special cases (46_system.md R193, 00_scope.md R15): `<` is the ordered comparison, with the zeros equal, the
infinities at the ends and a NaN below nothing; an operation on a NaN, and each invalid operation, yields some NaN;
infinities and divisions by zero give infinities and zeros of the right sign; and every zero result has its sign. Which
NaN is free (log entry 6): the statement holds for every value of the free constant. The signs of zeros are log entry
21's reading of R193. -/
def Obligations.ComparisonAndNaNLaws : Prop :=
  ∀ x y : F64,
    -- comparison
    (F64.isFinite x = true → F64.isFinite y = true → (F64.lt x y = true ↔ F64.value x < F64.value y)) ∧
    (F64.isFinite x = true → F64.isInf y = true →
      (F64.lt x y = true ↔ F64.sign y = false) ∧ (F64.lt y x = true ↔ F64.sign y = true)) ∧
    (F64.isInf x = true → F64.isInf y = true → (F64.lt x y = true ↔ F64.sign x = true ∧ F64.sign y = false)) ∧
    -- NaN operands
    (F64.isNaN x = true ∨ F64.isNaN y = true →
      F64.lt x y = false ∧ F64.isNaN (F64.add x y) = true ∧ F64.isNaN (F64.sub x y) = true ∧
        F64.isNaN (F64.mul x y) = true ∧ F64.isNaN (F64.div x y) = true) ∧
    (F64.isNaN x = true → F64.isNaN (F64.sqrt x) = true) ∧
    -- sums and differences with an infinity
    (F64.isInf x = true → F64.isFinite y = true →
      F64.add x y = x ∧ F64.add y x = x ∧ F64.sub x y = x ∧
        F64.isInf (F64.sub y x) = true ∧ F64.sign (F64.sub y x) = !F64.sign x) ∧
    (F64.isInf x = true → F64.isInf y = true →
      (F64.sign x = F64.sign y → F64.add x y = x ∧ F64.isNaN (F64.sub x y) = true) ∧
        (F64.sign x ≠ F64.sign y → F64.isNaN (F64.add x y) = true ∧ F64.sub x y = x)) ∧
    -- products with an infinity
    (F64.isInf x = true → F64.isNaN y = false → F64.isZero y = false →
      F64.isInf (F64.mul x y) = true ∧ F64.sign (F64.mul x y) = (F64.sign x != F64.sign y) ∧
        F64.isInf (F64.mul y x) = true ∧ F64.sign (F64.mul y x) = (F64.sign x != F64.sign y)) ∧
    (F64.isInf x = true → F64.isZero y = true →
      F64.isNaN (F64.mul x y) = true ∧ F64.isNaN (F64.mul y x) = true) ∧
    -- quotients with an infinity or by a zero
    (F64.isInf x = true → F64.isFinite y = true →
      F64.isInf (F64.div x y) = true ∧ F64.sign (F64.div x y) = (F64.sign x != F64.sign y) ∧
        F64.isZero (F64.div y x) = true ∧ F64.sign (F64.div y x) = (F64.sign x != F64.sign y)) ∧
    (F64.isInf x = true → F64.isInf y = true → F64.isNaN (F64.div x y) = true) ∧
    (F64.isFinite x = true → F64.isZero x = false → F64.isZero y = true →
      F64.isInf (F64.div x y) = true ∧ F64.sign (F64.div x y) = (F64.sign x != F64.sign y)) ∧
    (F64.isZero x = true → F64.isZero y = true → F64.isNaN (F64.div x y) = true) ∧
    -- square roots
    (F64.isInf x = true → F64.sign x = false → F64.sqrt x = x) ∧
    (F64.isZero x = true → F64.sqrt x = x) ∧
    (F64.sign x = true → F64.isNaN x = false → F64.isZero x = false → F64.isNaN (F64.sqrt x) = true) ∧
    -- signs of zero results, and of products and quotients
    (F64.isFinite x = true → F64.isFinite y = true →
      (F64.value x + F64.value y = 0 →
        F64.add x y = if F64.sign x = true ∧ F64.sign y = true then 0x8000000000000000#64 else 0#64) ∧
      (F64.value x = F64.value y →
        F64.sub x y = if F64.sign x = true ∧ F64.sign y = false then 0x8000000000000000#64 else 0#64) ∧
      F64.sign (F64.mul x y) = (F64.sign x != F64.sign y) ∧
      (F64.isZero y = false → F64.sign (F64.div x y) = (F64.sign x != F64.sign y))) ∧
    F64.ofInt 0 = 0#64

/-! ### The host bus -/

/-- A bus error changes no state, and its read data is 0 (20_memory.md R67): an access that is not 64 bits wide, not 8-byte
aligned, to an unmapped address, or beyond the valid entries of a window. That the addresses from 0x000100 to 0x00FFFF,
which lie in no window, are bus errors too is the model's reading (log entry 10), and that the response is recorded is
its own choice (log entry 15). -/
def Obligations.BusErrorsChangeNothing : Prop :=
  ∀ (s : State) (size : Nat) (addr : Addr) (v : Word),
    (size ≠ 8 ∨ addr.toNat % 8 ≠ 0 ∨ 0x300000 ≤ addr.toNat ∨
      (0x100 ≤ addr.toNat ∧ addr.toNat < 0x10000) ∨
      ∃ id : MemId, id.addr id.words ≤ addr.toNat ∧ addr.toNat ≤ id.last) →
    hostRead size addr s = .next { s with response := .busError } ∧
      hostWrite size addr v s = { s with response := .busError } ∧ Response.readData .busError = some 0#64

/-- Host reads have no side effects, and host writes other than to CMD are idempotent (20_memory.md R70). What a read
changes is the model's own record of its response and of how many free values were used (log entries 9, 15). -/
def Obligations.ReadsHaveNoSideEffects : Prop :=
  (∀ (s t : State) (size : Nat) (addr : Addr), hostRead size addr s = .next t →
    t = { s with response := t.response, freeReads := t.freeReads }) ∧
  ∀ (s : State) (size : Nat) (addr : Addr) (v : Word), addr ≠ RegId.cmd.busAddr →
    hostWrite size addr v (hostWrite size addr v s) = hostWrite size addr v s

/-- While BUSY = 1 every host write except one to STATUS changes nothing but OVR, CMD writes included
(70_reset_and_hazards.md R241); a STATUS write is applied. That a dropped write responds as a performed one is the
model's choice (log entry 15). -/
def Obligations.WritesDroppedWhileBusy : Prop :=
  ∀ (s : State) (v : Word), s.busy = true →
    (∀ r : RegId, r ≠ .status → hostWrite 8 r.busAddr v s = { s with ovr := true, response := .done }) ∧
    (∀ (id : MemId) (i : Nat), i < id.words →
      hostWrite 8 (id.busAddr i) v s = { s with ovr := true, response := .done }) ∧
    (∀ a : Addr, 0x90 ≤ a.toNat → a.toNat < 0x100 → a.toNat % 8 = 0 →
      hostWrite 8 a v s = { s with ovr := true, response := .done }) ∧
    hostWrite 8 RegId.status.busAddr v s = { writeStatus v s with response := .done }

/-- A write to STATUS clears DONE, ERR or OVR for each of bits 1, 2, 3 written as 1, ERRCODE with ERR, and changes nothing
else, at any time (10_state.md R59). -/
def Obligations.StatusWriteClearsFlags : Prop :=
  ∀ (s : State) (v : Word),
    hostWrite 8 RegId.status.busAddr v s =
      { s with
        done := s.done && !v.getLsbD 1
        err := s.err && !v.getLsbD 2
        errCode := if v.getLsbD 2 then 0#8 else s.errCode
        ovr := s.ovr && !v.getLsbD 3
        response := .done }

/-- A host write to a register while BUSY = 0 stores what the register keeps of the value (10_state.md R22, R24-R28, R38)
and is ignored by the read-only registers and the reserved words (R58). -/
def Obligations.RegisterWritesStore : Prop :=
  ∀ (s : State) (v : Word), s.busy = false →
    hostWrite 8 RegId.ctrl.busAddr v s = { s with ctrl := v &&& 0x0000000000FF3F0F#64, response := .done } ∧
    hostWrite 8 RegId.sps.busAddr v s = { s with sps := v.extractLsb' 0 32, response := .done } ∧
    hostWrite 8 RegId.peakV.busAddr v s = { s with peakV := v, response := .done } ∧
    hostWrite 8 RegId.carrierF.busAddr v s = { s with carrierF := v, response := .done } ∧
    hostWrite 8 RegId.sampleRate.busAddr v s = { s with sampleRate := v, response := .done } ∧
    hostWrite 8 RegId.noiseSigma.busAddr v s = { s with noiseSigma := v, response := .done } ∧
    hostWrite 8 RegId.nBits.busAddr v s = { s with nBits := BitVec.ofNat 64 (min v.toNat 4096), response := .done } ∧
    hostWrite 8 RegId.nSym.busAddr v s = { s with nSym := BitVec.ofNat 64 (min v.toNat 4096), response := .done } ∧
    hostWrite 8 RegId.nLevel.busAddr v s = { s with nLevel := BitVec.ofNat 64 (min v.toNat 8192), response := .done } ∧
    hostWrite 8 RegId.nParam.busAddr v s = { s with nParam := BitVec.ofNat 64 (min v.toNat 4096), response := .done } ∧
    hostWrite 8 RegId.nSample.busAddr v s =
      { s with nSample := BitVec.ofNat 64 (min v.toNat 65536), response := .done } ∧
    (∀ r ∈ [RegId.id, .nDec, .grayN, .dictN, .dictLen], hostWrite 8 r.busAddr v s = { s with response := .done }) ∧
    ∀ a : Addr, 0x90 ≤ a.toNat → a.toNat < 0x100 → a.toNat % 8 = 0 →
      hostWrite 8 a v s = { s with response := .done } ∧ hostRead 8 a s = .next { s with response := .data 0#64 }

/-- A host write to an entry of a writable memory while BUSY = 0 stores the word, bit 0 alone in BIT_MEM, and no other byte;
a read returns it; the read-only memories ignore it (10_state.md R43, 20_memory.md R66, R68, R69). -/
def Obligations.MemoryWriteThenRead : Prop :=
  ∀ (s : State) (v : Word) (id : MemId) (i : Nat), s.busy = false → i < id.words →
    (id = .dec ∨ id = .gray ∨ id = .dict → hostWrite 8 (id.busAddr i) v s = { s with response := .done }) ∧
    (id ≠ .dec → id ≠ .gray → id ≠ .dict →
      let t := hostWrite 8 (id.busAddr i) v s
      t = { s with mem := t.mem, response := .done } ∧
        (∀ a, ¬ (id.addr i ≤ a ∧ a < id.addr i + 8) → t.mem.readByte a = s.mem.readByte a) ∧
        (id ≠ .bit → ∀ k, k < 8 → t.mem.readByte (id.addr i + k) = some (v.extractLsb' (8 * k) 8)) ∧
        hostRead 8 (id.busAddr i) t =
          .next { t with response := .data (if id = .bit then v &&& 1#64 else v) })

/-- While BUSY = 1 a read of the running command's write set (20_memory.md R74) gives an unspecified value, whatever it is
(the free value of log entry 9); any other read, of STATUS too, gives the current value, and so does every read while a
command runs that is going to end with an error, which writes only STATUS (70_reset_and_hazards.md R240, R74). -/
def Obligations.ReadsWhileBusy : Prop :=
  ∀ (s : State) (i : Instr), s.busy = true → s.err = false → decode s.snap.word = .ok i →
    let unspecified :=
      Host.Outcome.next { s with response := .data (Config.busyRead s.freeReads), freeReads := s.freeReads + 1 }
    (∀ r : RegId, r ∈ writtenRegisters i s → ¬ EndsWithError i s → hostRead 8 r.busAddr s = unspecified) ∧
    (∀ r : RegId, r ∉ writtenRegisters i s ∨ EndsWithError i s →
      hostRead 8 r.busAddr s = .next { s with response := .data (readRegister r s) }) ∧
    (hostRead 8 RegId.status.busAddr s = .next { s with response := .data s.status } ∧ s.status.getLsbD 0 = true) ∧
    ∀ (id : MemId) (k : Nat), k < id.words →
      (id ∈ writtenMemories i s → ¬ EndsWithError i s → hostRead 8 (id.busAddr k) s = unspecified) ∧
      (id ∉ writtenMemories i s ∨ EndsWithError i s → ∀ v, s.entry id k = some v →
        hostRead 8 (id.busAddr k) s =
          .next { s with response := .data (if id = .bit then v &&& 1#64 else v) })

/-- The bits of STATUS (10_state.md R30-R37, section 3), as a read in any state returns them. -/
def Obligations.StatusReadLayout : Prop :=
  ∀ s : State,
    hostRead 8 RegId.status.busAddr s = .next { s with response := .data s.status } ∧
    s.status.getLsbD 0 = s.busy ∧ s.status.getLsbD 1 = s.done ∧ s.status.getLsbD 2 = s.err ∧
    s.status.getLsbD 3 = s.ovr ∧ s.status.getLsbD 4 = s.dictValid ∧
    (s.status.getLsbD 5 = true ↔ s.amiSign = .neg) ∧ s.status.getLsbD 6 = s.grayForm ∧ s.status.getLsbD 7 = false ∧
    s.status.extractLsb' 8 8 = s.errCode ∧ s.status.extractLsb' 16 8 = s.lastOp ∧ s.status.extractLsb' 24 40 = 0

/-- `irq = CTRL.IRQ_EN AND STATUS.DONE`, over every state (60_exceptions.md R214); acceptance, a STATUS write with bit 1
and a CTRL write without IRQ_EN make it fall (R215). -/
def Obligations.InterruptLevel : Prop :=
  ∀ (s : State) (v : Word),
    (s.irq = true ↔ s.ctrl.getLsbD 13 = true ∧ s.done = true) ∧
    (∀ i, s.busy = false → decode v = .ok i → (hostWrite 8 RegId.cmd.busAddr v s).irq = false) ∧
    (v.getLsbD 1 = true → (hostWrite 8 RegId.status.busAddr v s).irq = false) ∧
    (s.busy = false → v.getLsbD 13 = false → (hostWrite 8 RegId.ctrl.busAddr v s).irq = false) ∧
    ∀ (i : Instr) (t : State), exec i s = .next t → i ≠ .sreset → t.irq = s.ctrl.getLsbD 13

/-- Hardware reset, at any moment, puts every register at its reset value, the engine idle, AMI_SIGN at +1 and every buffer
entry unwritten (70_reset_and_hazards.md R230, 10_state.md R57). -/
def Obligations.HardwareResetState : Prop :=
  ∀ s : State, ∃ t, busAccess .hwReset s = .next t ∧
    readRegister .id t = 0x5452315343000001#64 ∧ readRegister .ctrl t = 0x0000000000041100#64 ∧
    readRegister .sps t = 16#64 ∧ readRegister .peakV t = 0x3FF0000000000000#64 ∧
    readRegister .carrierF t = 0x3FF0000000000000#64 ∧ readRegister .sampleRate t = 0x4030000000000000#64 ∧
    readRegister .noiseSigma t = 0#64 ∧
    (∀ r ∈ [RegId.cmd, .status, .nBits, .nSym, .nLevel, .nParam, .nSample, .nDec, .grayN, .dictN, .dictLen],
      readRegister r t = 0#64) ∧
    t.amiSign = .pos ∧ t.irq = false ∧ (∀ a, t.mem.readByte a = none) ∧
    State.reset = { t with host := [], noiseQueue := [], noiseTaken := 0, freeReads := 0 }

/-! ### Invariants -/

/-- The reset state is legal. -/
def Obligations.ResetIsLegal : Prop := State.reset.Legal

/-- Every step keeps every invariant of the machine: reserved bits of CTRL read 0, counts within the depths, ERRCODE
follows ERR, the snapshot equals the registers while BUSY = 1, the memory in its canonical form with only whole
entries, and the dictionary the one of DICT_KEY while DICT_VALID = 1 (10_state.md R22, R34, R37, R38, R43, R53;
20_memory.md R71, R79). -/
def Obligations.StepKeepsLegal : Prop := ∀ s t : State, s.Legal → step s = .next t → t.Legal

/-! ### Host reads of an idle machine -/

/-- While BUSY = 0 a host read gives the current value of every register, the constant of ID (10_state.md R21) and the
zero-extended SPS among them, and of every written entry of every memory, the read-only ones too (20_memory.md R65); what
the registers hold is the same in every state. (A read of an entry never written: FaultsAreUnwrittenReads.) -/
def Obligations.HostReadsGiveCurrentValues : Prop :=
  (∀ s : State, s.busy = false →
    (∀ r : RegId, hostRead 8 r.busAddr s = .next { s with response := .data (readRegister r s) }) ∧
    ∀ (id : MemId) (k : Nat) (v : Word), k < id.words → s.entry id k = some v →
      hostRead 8 (id.busAddr k) s = .next { s with response := .data (if id = .bit then v &&& 1#64 else v) }) ∧
  ∀ s : State,
    readRegister .id s = 0x5452315343000001#64 ∧ readRegister .ctrl s = s.ctrl ∧
    readRegister .sps s = BitVec.ofNat 64 s.sps.toNat ∧ readRegister .peakV s = s.peakV ∧
    readRegister .carrierF s = s.carrierF ∧ readRegister .sampleRate s = s.sampleRate ∧
    readRegister .noiseSigma s = s.noiseSigma ∧ readRegister .cmd s = s.cmd ∧ readRegister .status s = s.status ∧
    readRegister .nBits s = s.nBits ∧ readRegister .nSym s = s.nSym ∧ readRegister .nLevel s = s.nLevel ∧
    readRegister .nParam s = s.nParam ∧ readRegister .nSample s = s.nSample ∧ readRegister .nDec s = s.nDec ∧
    readRegister .grayN s = s.grayN ∧ readRegister .dictN s = s.dictN ∧ readRegister .dictLen s = s.dictLen
end

