-- ==== Sys2Proof/Laws/Binary64.lean ====
section
/-! SUPPORT. What rounding to binary64 does, said once: the patterns it builds have the values they should, and the result
is the exact value rounded to nearest, ties to even
(00_scope.md R15, 46_system.md R193). -/

namespace Sys2Proof.Machine

/-! ### Magnitude patterns -/

theorem ofMagnitude_toNat {negative : Bool} {p : Nat} (h : p < 2 ^ 63) :
    (F64.ofMagnitude negative p).toNat = p + if negative then 2 ^ 63 else 0 := by
  unfold F64.ofMagnitude
  rw [BitVec.toNat_ofNat, Nat.mod_eq_of_lt]
  split <;> omega

theorem ofMagnitude_sign {negative : Bool} {p : Nat} (h : p < 2 ^ 63) :
    F64.sign (F64.ofMagnitude negative p) = negative := by
  have := ofMagnitude_toNat (negative := negative) h
  unfold F64.sign
  rw [BitVec.getLsbD, this, Nat.testBit_eq_decide_div_mod_eq]
  cases negative
  · simp; omega
  · simp; omega

theorem ofMagnitude_expField {negative : Bool} {p : Nat} (h : p < 2 ^ 63) :
    F64.expField (F64.ofMagnitude negative p) = p / 2 ^ 52 := by
  have := ofMagnitude_toNat (negative := negative) h
  unfold F64.expField
  rw [this]
  cases negative <;> simp <;> omega

theorem ofMagnitude_fracField {negative : Bool} {p : Nat} (h : p < 2 ^ 63) :
    F64.fracField (F64.ofMagnitude negative p) = p % 2 ^ 52 := by
  have := ofMagnitude_toNat (negative := negative) h
  unfold F64.fracField
  rw [this]
  cases negative <;> simp <;> omega

/-- A significand up to 2^53 at the last place 2^(k - 1074), normal unless k = 0, has the pattern k * 2^52 + sig. -/
theorem value_ofMagnitude {negative : Bool} {k sig : Nat} (h : sig ≤ 2 ^ 53) (hn : k = 0 ∨ 2 ^ 52 ≤ sig)
    (hk : k ≤ 2044 ∨ (k = 2045 ∧ sig < 2 ^ 53)) :
    F64.value (F64.ofMagnitude negative (k * 2 ^ 52 + sig)) =
      (if negative then -1 else 1) * (sig * (2 : ℚ) ^ ((k : Int) - 1074)) := by
  have hp : k * 2 ^ 52 + sig < 2 ^ 63 := by omega
  unfold F64.value F64.significand F64.scale
  rw [ofMagnitude_sign hp, ofMagnitude_expField hp, ofMagnitude_fracField hp, mul_assoc]
  congr 1
  rcases Nat.lt_or_ge sig (2 ^ 52) with h1 | h1
  · have hk : k = 0 := by omega
    subst hk
    have e1 : (0 * 2 ^ 52 + sig) / 2 ^ 52 = 0 := by omega
    have e2 : (0 * 2 ^ 52 + sig) % 2 ^ 52 = sig := by omega
    rw [e1, e2]; norm_num
  · rcases Nat.lt_or_ge sig (2 ^ 53) with h2 | h2
    · have e1 : (k * 2 ^ 52 + sig) / 2 ^ 52 = k + 1 := by omega
      have e2 : (k * 2 ^ 52 + sig) % 2 ^ 52 = sig - 2 ^ 52 := by omega
      rw [e1, e2, if_neg (by omega), Nat.sub_add_cancel h1, Nat.max_eq_left (by omega)]
      congr 2; push_cast; ring
    · have hs : sig = 2 ^ 53 := by omega
      subst hs
      have e1 : (k * 2 ^ 52 + 2 ^ 53) / 2 ^ 52 = k + 2 := by omega
      have e2 : (k * 2 ^ 52 + 2 ^ 53) % 2 ^ 52 = 0 := by omega
      rw [e1, e2, if_neg (by omega), Nat.max_eq_left (by omega)]
      have : ((k + 2 : Nat) : Int) - 1075 = ((k : Int) - 1074) + 1 := by push_cast; ring
      rw [this, zpow_add₀ (by norm_num)]; push_cast; ring

/-- Every finite value is an integer times 2^-1074; at least 2^(q+52) in magnitude, it is an integer times 2^q. -/
theorem value_multiple {x : F64} {q : Int} (h : q = -1074 ∨ (2 : ℚ) ^ (q + 52) ≤ |F64.value x|) :
    ∃ t : Int, F64.value x = t * (2 : ℚ) ^ q := by
  have hv : F64.value x = (if F64.sign x then -1 else 1 : Int) * ((F64.significand x : ℚ) * (2 : ℚ) ^ F64.scale x) :=
    by
    unfold F64.value; push_cast; cases F64.sign x <;> simp
  have hsig : F64.significand x < 2 ^ 53 := by
    unfold F64.significand F64.fracField
    split <;> omega
  have hsc : q ≤ F64.scale x := by
    rcases h with h | h
    · rw [h]; unfold F64.scale; omega
    · by_contra hlt
      have hlt : F64.scale x + 1 ≤ q := by omega
      have hpos : (0 : ℚ) ≤ (F64.significand x : ℚ) * (2 : ℚ) ^ F64.scale x := by positivity
      have habs : |F64.value x| = (F64.significand x : ℚ) * (2 : ℚ) ^ F64.scale x := by
        rw [hv, abs_mul, abs_of_nonneg hpos]
        cases F64.sign x <;> simp
      have h2 : (F64.significand x : ℚ) * (2 : ℚ) ^ F64.scale x < (2 : ℚ) ^ (53 : Int) * (2 : ℚ) ^ F64.scale x := by
        apply mul_lt_mul_of_pos_right _ (zpow_pos (by norm_num) _)
        exact_mod_cast hsig
      rw [← zpow_add₀ (by norm_num)] at h2
      have h3 : (2 : ℚ) ^ ((53 : Int) + F64.scale x) ≤ (2 : ℚ) ^ (q + 52) :=
        zpow_le_zpow_right₀ (by norm_num) (by omega)
      rw [habs] at h
      linarith
  refine ⟨(if F64.sign x then -1 else 1) * (F64.significand x : Int) * 2 ^ (F64.scale x - q).toNat, ?_⟩
  rw [hv]
  have : (2 : ℚ) ^ F64.scale x = (2 : ℚ) ^ (F64.scale x - q).toNat * (2 : ℚ) ^ q := by
    rw [← zpow_natCast, ← zpow_add₀ (by norm_num)]; congr 1; omega
  rw [this]; push_cast; ring

/-! ### Rounding to the nearest integer -/

/-- What rounding an integer to a multiple of 2^k gives: the nearest multiple, the even one of two. -/
theorem shiftRightNearestEven_spec (m k : Nat) :
    2 * m ≤ (2 * shiftRightNearestEven m k + 1) * 2 ^ k ∧ (2 * shiftRightNearestEven m k) * 2 ^ k ≤ 2 * m + 2 ^ k ∧
      ((2 * m = (2 * shiftRightNearestEven m k + 1) * 2 ^ k ∨ 2 * shiftRightNearestEven m k * 2 ^ k = 2 * m + 2 ^ k) →
        shiftRightNearestEven m k % 2 = 0) := by
  have hp : 0 < 2 ^ k := by positivity
  have hm := Nat.div_add_mod m (2 ^ k)
  have hr := Nat.mod_lt m hp
  unfold shiftRightNearestEven
  simp only
  generalize m / 2 ^ k = d at *
  generalize m % 2 ^ k = r at *
  generalize 2 ^ k = P at *
  subst hm
  by_cases h1 : P < 2 * r
  · rw [if_pos (by simp [h1])]
    refine ⟨by nlinarith, by nlinarith, ?_⟩
    rintro (h | h) <;> exfalso <;> nlinarith
  · by_cases h2 : P = 2 * r ∧ d % 2 = 1
    · rw [if_pos (by simp [h2.1, h2.2])]
      refine ⟨by nlinarith, by nlinarith, fun _ => by omega⟩
    · rw [if_neg (by simp; exact ⟨by omega, fun h => by
        by_contra hd; exact h2 ⟨h, by omega⟩⟩)]
      refine ⟨by nlinarith, by nlinarith, ?_⟩
      rintro (h | h)
      · have : P = 2 * r := by nlinarith
        by_contra hd; exact h2 ⟨this, by omega⟩
      · exfalso; nlinarith

/-- The integer `m` stands for the exact magnitude `z` in a rounding: it is `z`, or it is odd, long, and less than one
away (a sticky last bit). -/
def StandsFor (z : ℝ) (m : Nat) : Prop := z = m ∨ (m % 2 = 1 ∧ 2 ^ 55 ≤ m ∧ |z - m| < 1)

/-- `sig` is a correct rounding of `y` to an integer significand, `k` being the place (0 for the subnormal one). -/
structure RoundedSignificand (y : ℝ) (k sig : Nat) : Prop where
  near : |(sig : ℝ) - y| ≤ 1 / 2
  even : |(sig : ℝ) - y| = 1 / 2 → sig % 2 = 0
  le : sig ≤ 2 ^ 53
  normal : k = 0 ∨ (2 ^ 52 ≤ sig ∧ (2 : ℝ) ^ 52 ≤ y)
  lt : y < 2 ^ 53
  pos : 0 < y

theorem finite_ofMagnitude {negative : Bool} {p : Nat} (h : p < 2047 * 2 ^ 52) :
    F64.isFinite (F64.ofMagnitude negative p) = true := by
  unfold F64.isFinite
  rw [ofMagnitude_expField (by omega)]
  simp; omega

/-- No finite value is nearer to `y * 2^(k - 1074)` than its rounded significand. -/
theorem nearest_of_rounded {y : ℝ} {k sig : Nat} (h : RoundedSignificand y k sig) (w : F64) :
    |(sig : ℝ) * (2 : ℝ) ^ ((k : Int) - 1074) - y * (2 : ℝ) ^ ((k : Int) - 1074)| ≤
        |(F64.value w : ℝ) - y * (2 : ℝ) ^ ((k : Int) - 1074)| ∧
      (|(sig : ℝ) * (2 : ℝ) ^ ((k : Int) - 1074) - y * (2 : ℝ) ^ ((k : Int) - 1074)| =
          |(F64.value w : ℝ) - y * (2 : ℝ) ^ ((k : Int) - 1074)| →
        (F64.value w : ℝ) = sig * (2 : ℝ) ^ ((k : Int) - 1074) ∨ sig % 2 = 0) := by
  obtain ⟨h1, h2, h3, h4, h5, h6⟩ := h
  set P : ℝ := (2 : ℝ) ^ ((k : Int) - 1074) with hP
  have hPpos : 0 < P := zpow_pos (by norm_num) _
  have hl : |(sig : ℝ) * P - y * P| = |(sig : ℝ) - y| * P := by rw [← sub_mul, abs_mul, abs_of_pos hPpos]
  rw [hl]
  by_cases hm : k = 0 ∨ (2 : ℚ) ^ (((k : Int) - 1074) + 52) ≤ |F64.value w|
  · obtain ⟨t, ht⟩ := value_multiple (x := w) (q := (k : Int) - 1074) (by
      rcases hm with h | h
      · left; subst h; norm_num
      · right; exact h)
    have ht' : (F64.value w : ℝ) = t * P := by rw [ht, hP]; push_cast; rfl
    have hr : |(F64.value w : ℝ) - y * P| = |(t : ℝ) - y| * P := by rw [ht', ← sub_mul, abs_mul, abs_of_pos hPpos]
    rw [hr, ht']
    by_cases hts : t = sig
    · subst hts
      exact ⟨le_rfl, fun _ => .inl (by push_cast; rfl)⟩
    · have hge : (1 : ℝ) ≤ |(t : ℝ) - sig| := by
        have : (1 : Int) ≤ |t - (sig : Int)| := Int.one_le_abs (sub_ne_zero.mpr hts)
        have : ((1 : Int) : ℝ) ≤ ((|t - (sig : Int)| : Int) : ℝ) := by exact_mod_cast this
        push_cast at this; exact this
      have htri : |(t : ℝ) - sig| ≤ |(t : ℝ) - y| + |(sig : ℝ) - y| := by
        have := abs_sub_le (t : ℝ) y sig
        rwa [abs_sub_comm y] at this
      refine ⟨mul_le_mul_of_nonneg_right (by linarith) hPpos.le, fun he => .inr (h2 ?_)⟩
      have := mul_right_cancel₀ hPpos.ne' he
      linarith
  · push Not at hm
    obtain ⟨hk, hlt⟩ := hm
    rcases h4 with h4 | ⟨h4, h4'⟩
    · exact absurd h4 hk
    have hlt' : |(F64.value w : ℝ)| < (2 : ℝ) ^ (52 : Nat) * P := by
      have : ((|F64.value w| : ℚ) : ℝ) < (((2 : ℚ) ^ (((k : Int) - 1074) + 52) : ℚ) : ℝ) := by exact_mod_cast hlt
      push_cast at this
      rw [zpow_add₀ (by norm_num)] at this
      rw [mul_comm]; exact_mod_cast this
    have h7 : (2 : ℝ) ^ (52 : Nat) * P ≤ y * P := mul_le_mul_of_nonneg_right (by exact_mod_cast h4') hPpos.le
    have h8 : (F64.value w : ℝ) < (2 : ℝ) ^ (52 : Nat) * P := lt_of_le_of_lt (le_abs_self _) hlt'
    have h9 : |(F64.value w : ℝ) - y * P| = y * P - F64.value w := by rw [abs_of_neg (by linarith)]; ring
    have h10 : |(sig : ℝ) - y| ≤ y - 2 ^ 52 := by
      -- the nearest integer is at least as near as 2^52
      by_cases hs : sig = 2 ^ 52
      · have : (sig : ℝ) = 2 ^ 52 := by rw [hs]; norm_num
        rw [this, abs_of_nonpos (by linarith)]; linarith
      · have hs' : (2 : ℝ) ^ 52 + 1 ≤ sig := by
          have : 2 ^ 52 + 1 ≤ sig := by omega
          exact_mod_cast this
        have := (abs_le.mp h1).2
        rcases le_total (sig : ℝ) y with h | h
        · rw [abs_of_nonpos (by linarith)]; linarith
        · rw [abs_of_nonneg (by linarith)]; linarith
    have h11 : |(sig : ℝ) - y| * P ≤ y * P - (2 : ℝ) ^ (52 : Nat) * P := by
      rw [← sub_mul]; exact mul_le_mul_of_nonneg_right h10 hPpos.le
    rw [h9]
    exact ⟨by linarith, fun he => by exfalso; linarith⟩

theorem threshold_units : ∃ Q : ℝ, 0 < Q ∧ (2 : ℝ) ^ (970 : Int) = Q ∧ (2 : ℝ) ^ (971 : Int) = 2 * Q ∧
    (2 : ℝ) ^ (972 : Int) = 4 * Q ∧ (2 : ℝ) ^ 1024 - 2 ^ 970 = (2 ^ 54 - 1) * Q := by
  refine ⟨(2 : ℝ) ^ (970 : Int), by positivity, rfl, ?_, ?_, ?_⟩
  · rw [show (971 : Int) = 1 + 970 by norm_num, zpow_add₀ (by norm_num), zpow_one]
  · rw [show (972 : Int) = 2 + 970 by norm_num, zpow_add₀ (by norm_num)]; norm_num
  · rw [sub_mul, one_mul, show (2 : ℝ) ^ (970 : Int) = (2 : ℝ) ^ (970 : Nat) from zpow_natCast 2 970, ← pow_add]

/-- A pattern built from a correctly rounded significand, cut at infinity, is the value rounded (IEEE 754). -/
theorem roundsTo_of_significand {y : ℝ} {k sig : Nat} (h : RoundedSignificand y k sig) (negative : Bool) :
    RoundsTo ((if negative then -1 else 1) * (y * (2 : ℝ) ^ ((k : Int) - 1074)))
      (F64.ofMagnitude negative (min (k * 2 ^ 52 + sig) F64.infMagnitude)) := by
  have hPpos : (0 : ℝ) < (2 : ℝ) ^ ((k : Int) - 1074) := zpow_pos (by norm_num) _
  have habs : |(if negative then -1 else 1) * (y * (2 : ℝ) ^ ((k : Int) - 1074))| = y * (2 : ℝ) ^ ((k : Int) - 1074) :=
    by
    rw [abs_mul, abs_of_pos (mul_pos h.pos hPpos)]; cases negative <;> simp
  obtain ⟨Q, hQ, e970, e971, e972, eT⟩ := threshold_units
  unfold RoundsTo
  rw [habs, eT]
  clear eT
  split
  · rename_i hlt
    have hk : k ≤ 2044 ∨ (k = 2045 ∧ sig < 2 ^ 53) := by
      by_contra hc
      have hk : 2045 ≤ k := by omega
      rcases h.normal with h0 | ⟨-, hy⟩
      · omega
      · rcases Nat.lt_or_ge 2045 k with hk' | hk'
        · have e1 : (2 : ℝ) ^ (972 : Int) ≤ (2 : ℝ) ^ ((k : Int) - 1074) :=
          zpow_le_zpow_right₀ (by norm_num) (by omega)
          have e2 : (2 : ℝ) ^ 52 * (2 : ℝ) ^ (972 : Int) ≤ y * (2 : ℝ) ^ ((k : Int) - 1074) :=
            mul_le_mul hy e1 (by positivity) h.pos.le
          rw [e972] at e2
          generalize (2 : ℝ) ^ ((k : Int) - 1074) = P at *
          norm_num at e2 hlt
          linarith only [e2, hlt, hQ]
        · have hk2 : k = 2045 := by omega
          have hs : sig = 2 ^ 53 := by have := h.le; omega
          subst hk2
          have hn := (abs_le.mp h.near).2
          rw [hs] at hn
          push_cast at hn
          have e1 : ((2045 : Nat) : Int) - 1074 = 971 := by norm_num
          rw [e1] at hlt
          have e2 : ((2 : ℝ) ^ 53 - 1 / 2) * (2 : ℝ) ^ (971 : Int) ≤ y * (2 : ℝ) ^ (971 : Int) :=
            mul_le_mul_of_nonneg_right (by norm_num at hn ⊢; linarith only [hn]) (by positivity)
          rw [e971] at e2 hlt
          norm_num at e2 hlt
          nlinarith only [e2, hlt, hQ]
    have hp : k * 2 ^ 52 + sig < 2047 * 2 ^ 52 := by have := h.le; omega
    have hmin : min (k * 2 ^ 52 + sig) F64.infMagnitude = k * 2 ^ 52 + sig :=
      Nat.min_eq_left (by unfold F64.infMagnitude; omega)
    rw [hmin]
    refine ⟨finite_ofMagnitude hp, fun w hw => ?_⟩
    have hv : (F64.value (F64.ofMagnitude negative (k * 2 ^ 52 + sig)) : ℝ) =
        (if negative then -1 else 1) * (sig * (2 : ℝ) ^ ((k : Int) - 1074)) := by
      rw [value_ofMagnitude h.le (by rcases h.normal with h | h; exact .inl h; exact .inr h.1) hk]
      cases negative <;> push_cast <;> simp
    have hf : F64.fracField (F64.ofMagnitude negative (k * 2 ^ 52 + sig)) % 2 = sig % 2 := by
      rw [ofMagnitude_fracField (by omega)]; omega
    rw [hf, ← Rat.cast_inj (α := ℝ), hv]
    cases negative
    · simp only [Bool.false_eq_true, if_false, one_mul]
      exact nearest_of_rounded h w
    · simp only [if_true]
      have hneg : ∃ w', F64.value w' = -F64.value w := by
        refine ⟨F64.ofMagnitude (!F64.sign w) (F64.magnitude w), ?_⟩
        have hm : F64.magnitude w < 2 ^ 63 := Nat.mod_lt _ (by norm_num)
        have he : F64.expField w = F64.magnitude w / 2 ^ 52 := by unfold F64.expField F64.magnitude; omega
        have hfr : F64.fracField w = F64.magnitude w % 2 ^ 52 := by unfold F64.fracField F64.magnitude; omega
        unfold F64.value F64.significand F64.scale
        rw [ofMagnitude_sign hm, ofMagnitude_expField hm, ofMagnitude_fracField hm, ← he, ← hfr]
        generalize (if F64.expField w = 0 then F64.fracField w else F64.fracField w + 2 ^ 52) = S
        cases F64.sign w <;> simp
      obtain ⟨w', hw'⟩ := hneg
      have := nearest_of_rounded h w'
      rw [hw'] at this
      push_cast at this
      generalize (2 : ℝ) ^ ((k : Int) - 1074) = P at *
      have a1 : |-1 * ((sig : ℝ) * P) - -1 * (y * P)| = |(sig : ℝ) * P - y * P| := by
        rw [show -1 * ((sig : ℝ) * P) - -1 * (y * P) = -((sig : ℝ) * P - y * P) by ring, abs_neg]
      have a2 : |(F64.value w : ℝ) - -1 * (y * P)| = |-(F64.value w : ℝ) - y * P| := by
        rw [show (F64.value w : ℝ) - -1 * (y * P) = -(-(F64.value w : ℝ) - y * P) by ring, abs_neg]
      rw [a1, a2]
      refine ⟨this.1, fun he => ?_⟩
      rcases this.2 he with h | h
      · left; linarith
      · exact .inr h
  · rename_i hge
    have hge : ((2 : ℝ) ^ 54 - 1) * Q ≤ y * (2 : ℝ) ^ ((k : Int) - 1074) := not_lt.mp hge
    have hk : 2045 ≤ k := by
      by_contra hc
      have e1 : (2 : ℝ) ^ ((k : Int) - 1074) ≤ (2 : ℝ) ^ (970 : Int) := zpow_le_zpow_right₀ (by norm_num) (by omega)
      have e2 : y * (2 : ℝ) ^ ((k : Int) - 1074) ≤ (2 : ℝ) ^ 53 * (2 : ℝ) ^ (970 : Int) :=
        mul_le_mul h.lt.le e1 (by positivity) (by positivity)
      rw [e970] at e2
      generalize (2 : ℝ) ^ ((k : Int) - 1074) = P at *
      norm_num at e2 hge
      linarith only [e2, hge, hQ]
    have hp : 2047 * 2 ^ 52 ≤ k * 2 ^ 52 + sig := by
      rcases h.normal with h0 | ⟨hs, -⟩
      · omega
      rcases Nat.lt_or_ge 2045 k with hk' | hk'
      · omega
      have hk2 : k = 2045 := by omega
      subst hk2
      have e1 : ((2045 : Nat) : Int) - 1074 = 971 := by norm_num
      rw [e1] at hge
      have hy : (2 : ℝ) ^ 53 - 1 / 2 ≤ y := by
        by_contra hc
        have : y * (2 : ℝ) ^ (971 : Int) < ((2 : ℝ) ^ 53 - 1 / 2) * (2 : ℝ) ^ (971 : Int) :=
          mul_lt_mul_of_pos_right (lt_of_not_ge hc) (by positivity)
        rw [e971] at this hge
        norm_num at this hge
        nlinarith only [this, hge, hQ]
      have hn := abs_le.mp h.near
      have hs2 : 2 ^ 53 - 1 ≤ sig := by
        by_contra hc
        have : (sig : ℝ) ≤ 9007199254740990 := by exact_mod_cast (show sig ≤ 9007199254740990 by omega)
        norm_num at hy
        linarith only [hn.1, this, hy]
      by_contra hc
      have hs3 : sig = 2 ^ 53 - 1 := by omega
      have : |(sig : ℝ) - y| = 1 / 2 := by
        have : (sig : ℝ) = 2 ^ 53 - 1 := by rw [hs3]; norm_num
        rw [this] at hn ⊢
        norm_num at hn hy ⊢
        rw [abs_of_nonpos (by linarith only [hn.1, hn.2, hy])]; linarith only [hn.1, hn.2, hy]
      have := h.even this
      omega
    have hmin : min (k * 2 ^ 52 + sig) F64.infMagnitude = 2047 * 2 ^ 52 :=
      Nat.min_eq_right (by unfold F64.infMagnitude; omega)
    rw [hmin]
    refine ⟨by unfold F64.isInf; rw [ofMagnitude_expField (by omega), ofMagnitude_fracField (by omega)]; decide, ?_⟩
    rw [ofMagnitude_sign (by omega)]
    have := mul_pos h.pos hPpos
    cases negative
    · simp; linarith only [this]
    · simp; linarith only [this]

theorem log2_bounds {m : Nat} (h : 0 < m) : 2 ^ Nat.log2 m ≤ m ∧ m < 2 ^ (Nat.log2 m + 1) :=
  ⟨Nat.log2_self_le (by omega), Nat.lt_log2_self⟩

/-- Rounding an integer that stands for `z` to a multiple of 2^d gives a correct rounding of `z / 2^d`. -/
theorem stands_near {z : ℝ} {m d : Nat} (h : StandsFor z m) (hd : m % 2 = 1 ∧ 2 ^ 55 ≤ m → 2 ≤ d) :
    let s := shiftRightNearestEven m d
    |(s : ℝ) - z / 2 ^ d| ≤ 1 / 2 ∧ (|(s : ℝ) - z / 2 ^ d| = 1 / 2 → s % 2 = 0) := by
  intro s
  have hp : (0 : ℝ) < 2 ^ d := by positivity
  obtain ⟨h1, h2, h3⟩ := shiftRightNearestEven_spec m d
  change 2 * m ≤ (2 * s + 1) * 2 ^ d at h1
  change 2 * s * 2 ^ d ≤ 2 * m + 2 ^ d at h2
  change (2 * m = (2 * s + 1) * 2 ^ d ∨ 2 * s * 2 ^ d = 2 * m + 2 ^ d) → s % 2 = 0 at h3
  clear_value s
  have key : ∀ (b : Prop), (2 * z ≤ (2 * s + 1) * 2 ^ d ∧ 2 * (s : ℝ) * 2 ^ d ≤ 2 * z + 2 ^ d ∧
      ((2 * z = (2 * s + 1) * 2 ^ d ∨ 2 * (s : ℝ) * 2 ^ d = 2 * z + 2 ^ d) → b)) →
      |(s : ℝ) - z / 2 ^ d| ≤ 1 / 2 ∧ (|(s : ℝ) - z / 2 ^ d| = 1 / 2 → b) := by
    rintro b ⟨k1, k2, k3⟩
    obtain ⟨y, hy⟩ : ∃ y, z = y * 2 ^ d := ⟨z / 2 ^ d, by field_simp⟩
    have hyz : z / 2 ^ d = y := by rw [hy]; field_simp
    rw [hyz]
    rw [hy] at k1 k2 k3
    generalize (2 : ℝ) ^ d = P at *
    have j1 : 2 * y ≤ 2 * s + 1 := le_of_mul_le_mul_right (by linarith) hp
    have j2 : 2 * (s : ℝ) ≤ 2 * y + 1 := le_of_mul_le_mul_right (by linarith) hp
    refine ⟨abs_le.mpr ⟨by linarith, by linarith⟩, fun he => ?_⟩
    rcases abs_eq (by norm_num) |>.mp he with e | e
    · apply k3; right
      have : (s : ℝ) = y + 1 / 2 := by linarith
      rw [this]; ring
    · apply k3; left
      have : y = s + 1 / 2 := by linarith
      rw [this]; ring
  rcases h with rfl | ⟨ho, hl, hz⟩
  · refine key _ ⟨by exact_mod_cast h1, by exact_mod_cast h2, fun h => h3 ?_⟩
    rcases h with h | h
    · left; exact_mod_cast h
    · right; exact_mod_cast h
  · have hd2 := hd ⟨ho, hl⟩
    obtain ⟨e, rfl⟩ : ∃ e, d = e + 2 := ⟨d - 2, by omega⟩
    have hpe : 2 ^ (e + 2) = 4 * 2 ^ e := by rw [pow_add]; ring
    have n1 : m + 1 ≤ (2 * s + 1) * (2 * 2 ^ e) := by
      rw [hpe] at h1
      have a : m ≤ (2 * s + 1) * (2 * 2 ^ e) := by nlinarith
      rcases Nat.lt_or_ge m ((2 * s + 1) * (2 * 2 ^ e)) with h | h
      · exact h
      · have : m = 2 * ((2 * s + 1) * 2 ^ e) := by rw [Nat.le_antisymm a h]; ring
        omega
    have n2 : 2 * s * (2 * 2 ^ e) + 1 ≤ m + 2 * 2 ^ e := by
      rw [hpe] at h2
      have a : 2 * s * (2 * 2 ^ e) ≤ m + 2 * 2 ^ e := by nlinarith
      rcases Nat.lt_or_ge (2 * s * (2 * 2 ^ e)) (m + 2 * 2 ^ e) with h | h
      · exact h
      · have h4 : m + 2 * 2 ^ e = 2 * (2 * s * 2 ^ e) := by rw [Nat.le_antisymm h a]; ring
        omega
    have n1' : (m : ℝ) + 1 ≤ (2 * s + 1) * (2 * 2 ^ e) := by exact_mod_cast n1
    have n2' : 2 * (s : ℝ) * (2 * 2 ^ e) + 1 ≤ m + 2 * 2 ^ e := by exact_mod_cast n2
    have hz' := abs_lt.mp hz
    have hpe' : (2 : ℝ) ^ (e + 2) = 4 * 2 ^ e := by rw [pow_add]; ring
    refine key _ ⟨?_, ?_, ?_⟩
    · rw [hpe']; linarith
    · rw [hpe']; linarith
    · rw [hpe']
      rintro (h | h) <;> exfalso <;> linarith

/-- `F64.round` rounds the exact value its integer stands for (00_scope.md R15, 46_system.md R193). -/
theorem round_roundsTo {z : ℝ} {m : Nat} (negative : Bool) (e : Int) (hm : 0 < m) (h : StandsFor z m) :
    RoundsTo ((if negative then -1 else 1) * (z * (2 : ℝ) ^ e)) (F64.round negative m e) := by
  obtain ⟨hlo, hhi⟩ := log2_bounds hm
  unfold F64.round F64.roundMagnitude
  rw [if_neg (show ¬ m = 0 by omega)]
  simp only
  generalize Nat.log2 m = l at *
  obtain ⟨k, hk⟩ : ∃ k : Nat, max ((l : Int) + e - 52) (-1074) = (k : Int) - 1074 :=
    ⟨(max ((l : Int) + e - 52) (-1074) + 1074).toNat, by omega⟩
  rw [hk, show ((k : Int) - 1074 + 1074).toNat = k by omega]
  have hzl : (2 : ℝ) ^ l ≤ z ∧ z < 2 ^ (l + 1) ∧ 0 < z := by
    have a1 : (2 : ℝ) ^ l ≤ m := by exact_mod_cast hlo
    have a2 : (m : ℝ) < 2 ^ (l + 1) := by exact_mod_cast hhi
    rcases h with rfl | ⟨ho, hl, hz⟩
    · exact ⟨a1, a2, by exact_mod_cast hm⟩
    · have hz := abs_lt.mp hz
      have hl55 : 55 ≤ l := by
        by_contra hc
        have : (2 : Nat) ^ (l + 1) ≤ 2 ^ 55 := Nat.pow_le_pow_right (by norm_num) (by omega)
        omega
      have ev : ∀ j, 1 ≤ j → (2 : Nat) ^ j % 2 = 0 :=
        by intro j hj; obtain ⟨i, rfl⟩ := Nat.exists_eq_add_of_le' hj; rw [pow_succ]; omega
      have b1 : 2 ^ l + 1 ≤ m := by have := ev l (by omega); omega
      have b2 : m + 1 ≤ 2 ^ (l + 1) := by omega
      have b1' : (2 : ℝ) ^ l + 1 ≤ m := by exact_mod_cast b1
      have b2' : (m : ℝ) + 1 ≤ 2 ^ (l + 1) := by exact_mod_cast b2
      exact ⟨by linarith, by linarith, by have : (0 : ℝ) < 2 ^ l := by positivity
                                          linarith⟩
  obtain ⟨z1, z2, z3⟩ := hzl
  set y : ℝ := z * (2 : ℝ) ^ (e - ((k : Int) - 1074)) with hy
  have hval : z * (2 : ℝ) ^ e = y * (2 : ℝ) ^ ((k : Int) - 1074) := by
    rw [hy, mul_assoc, ← zpow_add₀ (by norm_num)]; congr 2; ring
  have hy0 : 0 < y := by rw [hy]; positivity
  have hyhi : y < 2 ^ 53 := by
    have : z * (2 : ℝ) ^ (e - ((k : Int) - 1074)) < (2 : ℝ) ^ (l + 1) * (2 : ℝ) ^ (e - ((k : Int) - 1074)) :=
      mul_lt_mul_of_pos_right z2 (by positivity)
    refine lt_of_lt_of_le this ?_
    rw [← zpow_natCast, ← zpow_add₀ (by norm_num), ← zpow_natCast]
    exact zpow_le_zpow_right₀ (by norm_num) (by push_cast; omega)
  have hylo : k = 0 ∨ (2 : ℝ) ^ 52 ≤ y := by
    rcases Nat.eq_zero_or_pos k with h0 | h0
    · exact .inl h0
    · right
      have : (2 : ℝ) ^ l * (2 : ℝ) ^ (e - ((k : Int) - 1074)) ≤ z * (2 : ℝ) ^ (e - ((k : Int) - 1074)) :=
        mul_le_mul_of_nonneg_right z1 (by positivity)
      refine le_trans ?_ this
      rw [← zpow_natCast, ← zpow_natCast (2 : ℝ) l, ← zpow_add₀ (by norm_num)]
      exact zpow_le_zpow_right₀ (by norm_num) (by push_cast; omega)
  rw [hval]
  refine roundsTo_of_significand ?_ negative
  have near : ∀ s : Nat, |(s : ℝ) - y| ≤ 1 / 2 ∧ (|(s : ℝ) - y| = 1 / 2 → s % 2 = 0) → RoundedSignificand y k s := by
    rintro s ⟨n1, n2⟩
    have n3 := abs_le.mp n1
    refine ⟨n1, n2, ?_, ?_, hyhi, hy0⟩
    · by_contra hc
      have : ((2 ^ 53 + 1 : Nat) : ℝ) ≤ s := by exact_mod_cast (show 2 ^ 53 + 1 ≤ s by omega)
      push_cast at this; linarith [n3.2]
    · rcases hylo with h0 | h0
      · exact .inl h0
      · refine .inr ⟨?_, h0⟩
        by_contra hc
        have : ((s + 1 : Nat) : ℝ) ≤ ((2 ^ 52 : Nat) : ℝ) := by exact_mod_cast (show s + 1 ≤ 2 ^ 52 by omega)
        push_cast at this; linarith [n3.1]
  split
  · rename_i hle
    have hz : z = m := by
      rcases h with h | ⟨-, hl, -⟩
      · exact h
      · exfalso
        have : l ≤ 52 := by omega
        have : (2 : Nat) ^ (l + 1) ≤ 2 ^ 53 := Nat.pow_le_pow_right (by norm_num) (by omega)
        omega
    apply near
    have : ((m * 2 ^ (e - ((k : Int) - 1074)).toNat : Nat) : ℝ) = y := by
      rw [hy, hz]; push_cast
      rw [← zpow_natCast]; congr 2; omega
    rw [this, sub_self, abs_zero]
    norm_num
  · rename_i hgt
    apply near
    have hyd : y = z / 2 ^ (((k : Int) - 1074) - e).toNat := by
      rw [hy, div_eq_mul_inv, ← zpow_natCast, ← zpow_neg]; congr 2; omega
    rw [hyd]
    refine stands_near h fun hs => ?_
    have hl55 : 55 ≤ l := by
      by_contra hc
      have : (2 : Nat) ^ (l + 1) ≤ 2 ^ 55 := Nat.pow_le_pow_right (by norm_num) (by omega)
      omega
    omega

/-! ### Exact integers -/

theorem not_nan_of_finite {x : F64} (h : F64.isFinite x = true) : F64.isNaN x = false ∧ F64.isInf x = false := by
  unfold F64.isFinite at h
  unfold F64.isNaN F64.isInf
  simp only [bne_iff_ne, ne_eq] at h
  simp [h]

/-- Zero rounds to either zero. -/
theorem roundsTo_zero (negative : Bool) : RoundsTo 0 (F64.ofMagnitude negative 0) := by
  have hv : F64.value (F64.ofMagnitude negative 0) = 0 := by
    have := value_ofMagnitude (negative := negative) (k := 0) (sig := 0) (by norm_num) (.inl rfl) (.inl (by norm_num))
    simpa using this
  unfold RoundsTo
  obtain ⟨Q, hQ, -, -, -, eT⟩ := threshold_units
  rw [abs_zero, eT, if_pos (mul_pos (by norm_num) hQ)]
  refine ⟨finite_ofMagnitude (by norm_num), fun y _ => ?_⟩
  rw [hv]
  simp only [Rat.cast_zero, sub_self, abs_zero, sub_zero]
  refine ⟨abs_nonneg _, fun h => .inl ?_⟩
  have : (F64.value y : ℝ) = 0 := abs_eq_zero.mp h.symm
  exact_mod_cast this

/-- Rounding an exact integer multiple of a power of two. -/
theorem round_exact (negative : Bool) (m : Nat) (e : Int) :
    RoundsTo ((if negative then -1 else 1) * (m * (2 : ℝ) ^ e)) (F64.round negative m e) := by
  rcases Nat.eq_zero_or_pos m with h | h
  · subst h
    simp only [Nat.cast_zero, zero_mul, mul_zero]
    exact roundsTo_zero _
  · exact round_roundsTo negative e h (.inl rfl)

/-- A finite value is its units at any exponent not above its scale. -/
theorem value_unitsAt {x : F64} {e : Int} (h : e ≤ F64.scale x) : F64.value x = F64.unitsAt x e * (2 : ℚ) ^ e := by
  have : (2 : ℚ) ^ F64.scale x = (2 : ℚ) ^ (F64.scale x - e).toNat * (2 : ℚ) ^ e := by
    rw [← zpow_natCast, ← zpow_add₀ (by norm_num)]; congr 1; omega
  unfold F64.value F64.unitsAt
  rw [this]
  cases F64.sign x <;> (push_cast; simp; ring)

/-- An integer multiple of a power of two, by its sign and magnitude. -/
theorem round_int (v : Int) (e : Int) : RoundsTo ((v : ℝ) * (2 : ℝ) ^ e) (F64.round (v < 0) v.natAbs e) := by
  have := round_exact (decide (v < 0)) v.natAbs e
  have h2 : ((v.natAbs : Nat) : ℝ) = |(v : ℝ)| := by rw [Nat.cast_natAbs]; push_cast; rfl
  rw [h2] at this
  by_cases h : v < 0
  · have hr : (v : ℝ) < 0 := by exact_mod_cast h
    rw [abs_of_neg hr] at this
    simpa [h] using this
  · have hr : (0 : ℝ) ≤ v := by exact_mod_cast (not_lt.mp h)
    rw [abs_of_nonneg hr] at this
    simpa [h] using this

theorem addFinite_roundsTo (x y : F64) : RoundsTo ((F64.value x : ℝ) + F64.value y) (F64.addFinite x y) := by
  unfold F64.addFinite
  simp only
  have hx := value_unitsAt (x := x) (min_le_left (F64.scale x) (F64.scale y))
  have hy := value_unitsAt (x := y) (min_le_right (F64.scale x) (F64.scale y))
  rw [hx, hy]
  generalize min (F64.scale x) (F64.scale y) = e
  have : (((F64.unitsAt x e : ℚ) * (2 : ℚ) ^ e : ℚ) : ℝ) + (((F64.unitsAt y e : ℚ) * (2 : ℚ) ^ e : ℚ) : ℝ) =
      ((F64.unitsAt x e + F64.unitsAt y e : Int) : ℝ) * (2 : ℝ) ^ e := by
    push_cast; ring
  rw [this]
  split
  · rename_i h
    rw [h]; simp only [Int.cast_zero, zero_mul]; exact roundsTo_zero _
  · exact round_int _ _

/-! ### Negation -/

theorem negate_toNat (x : F64) : (F64.negate x).toNat % 2 ^ 63 = x.toNat % 2 ^ 63 := by
  unfold F64.negate
  have : (x ^^^ 0x8000000000000000#64).toNat % 2 ^ 63 = ((x ^^^ 0x8000000000000000#64).setWidth 63).toNat :=
    by rw [BitVec.toNat_setWidth]
  rw [this]
  have h2 : (x ^^^ 0x8000000000000000#64).setWidth 63 = x.setWidth 63 := by
    rw [BitVec.setWidth_xor]
    have : (0x8000000000000000#64).setWidth 63 = 0#63 := by decide
    rw [this, BitVec.xor_zero]
  rw [h2, BitVec.toNat_setWidth]

theorem negate_fields (x : F64) :
    F64.sign (F64.negate x) = (!F64.sign x) ∧ F64.expField (F64.negate x) = F64.expField x ∧
    F64.fracField (F64.negate x) = F64.fracField x := by
  have := negate_toNat x
  refine ⟨?_, by unfold F64.expField; omega, by unfold F64.fracField; omega⟩
  unfold F64.sign F64.negate
  rw [BitVec.getLsbD_xor]
  have : (0x8000000000000000#64).getLsbD 63 = true := by decide
  rw [this, Bool.xor_true]

theorem value_negate (x : F64) : F64.value (F64.negate x) = -F64.value x := by
  obtain ⟨h1, h2, h3⟩ := negate_fields x
  unfold F64.value F64.significand F64.scale
  rw [h1, h2, h3]
  generalize (if F64.expField x = 0 then F64.fracField x else F64.fracField x + 2 ^ 52) = S
  cases F64.sign x <;> simp

theorem significand_lt (x : F64) : F64.significand x < 2 ^ 53 := by
  unfold F64.significand F64.fracField; split <;> omega

theorem significand_pos {x : F64} (h : F64.isZero x = false) : 0 < F64.significand x := by
  unfold F64.significand F64.fracField F64.expField
  unfold F64.isZero F64.magnitude at h
  simp only [beq_eq_false_iff_ne, ne_eq] at h
  split <;> omega

/-- A quotient with a sticky last bit stands for the exact quotient doubled. -/
theorem quotient_stands {n d : Nat} (hd : 0 < d) (hq : 2 ^ 54 ≤ n / d) :
    StandsFor (2 * ((n : ℝ) / d)) (2 * (n / d) + if n % d = 0 then 0 else 1) := by
  have hdm := Nat.div_add_mod n d
  have hlt := Nat.mod_lt n hd
  have hdr : (0 : ℝ) < d := by exact_mod_cast hd
  split
  · rename_i h
    left
    rw [h, Nat.add_zero] at hdm
    have : (n : ℝ) = d * (n / d : Nat) := by exact_mod_cast hdm.symm
    push_cast
    rw [this]; field_simp; ring
  · rename_i h
    right
    refine ⟨by omega, by omega, ?_⟩
    have h1 : (n : ℝ) = d * (n / d : Nat) + (n % d : Nat) := by exact_mod_cast hdm.symm
    have h2 : (0 : ℝ) < (n % d : Nat) := by exact_mod_cast Nat.pos_of_ne_zero h
    have h3 : ((n % d : Nat) : ℝ) < d := by exact_mod_cast hlt
    have h4 : (n : ℝ) / d = (n / d : Nat) + ((n % d : Nat) : ℝ) / d := by rw [h1]; field_simp
    have h5 : 0 < ((n % d : Nat) : ℝ) / d := div_pos h2 hdr
    have h6 : ((n % d : Nat) : ℝ) / d < 1 := (div_lt_one hdr).mpr h3
    rw [h4, abs_lt]
    push_cast
    constructor <;> linarith

/-! ### Integer square root -/

theorem isqrtFrom_spec (n : Nat) : ∀ (i r : Nat), r * r ≤ n → n < (r + 2 ^ i) * (r + 2 ^ i) →
    isqrtFrom n i r * isqrtFrom n i r ≤ n ∧ n < (isqrtFrom n i r + 1) * (isqrtFrom n i r + 1) := by
  intro i
  induction i with
  | zero => intro r h1 h2; exact ⟨h1, by simpa [isqrtFrom] using h2⟩
  | succ i ih =>
    intro r h1 h2
    unfold isqrtFrom
    split
    · rename_i h
      refine ih _ h ?_
      rw [pow_succ] at h2
      rwa [show r + 2 ^ i + 2 ^ i = r + 2 ^ i * 2 by ring]
    · rename_i h
      exact ih _ h1 (by omega)

/-- `isqrt` is the integer square root. -/
theorem isqrt_spec (n : Nat) : isqrt n * isqrt n ≤ n ∧ n < (isqrt n + 1) * (isqrt n + 1) := by
  unfold isqrt
  refine isqrtFrom_spec n _ 0 (by simp) ?_
  have h : n < 2 ^ (Nat.log2 n + 1) := Nat.lt_log2_self
  refine lt_of_lt_of_le h ?_
  rw [Nat.zero_add, ← pow_add]
  exact Nat.pow_le_pow_right (by norm_num) (by omega)

/-- A concatenation as a number. -/
theorem append_toNat {a b : Nat} (x : BitVec a) (y : BitVec b) : (x ++ y).toNat = x.toNat * 2 ^ b + y.toNat := by
  rw [BitVec.toNat_append, ← Nat.shiftLeft_add_eq_or_of_lt y.isLt, Nat.shiftLeft_eq]

/-- Whatever NaN an operation yields, it is a NaN (46_system.md R193). -/
theorem nan_isNaN (op : Config.FloatOp) (x y : F64) : F64.isNaN (F64.nan op x y) = true := by
  unfold F64.nan
  generalize Config.nanResult op x y = p
  obtain ⟨s, f⟩ := p
  have hf : (if f = 0 then 1#52 else f).toNat ≠ 0 := by
    split
    · decide
    · rename_i h
      intro h'; exact h (BitVec.eq_of_toNat_eq h')
  have hf2 := (if f = 0 then 1#52 else f).isLt
  unfold Config.NaNPattern.toBits F64.isNaN F64.expField F64.fracField
  simp only
  generalize (if f = 0 then 1#52 else f) = g at *
  have h := append_toNat (BitVec.ofBool s) (2047#11 ++ g)
  have h' := append_toNat 2047#11 g
  rw [h'] at h
  have hs := (BitVec.ofBool s).isLt
  have h2 : (2047#11).toNat = 2047 := rfl
  rw [h2] at h
  generalize (BitVec.ofBool s ++ (2047#11 ++ g)) = v at *
  have hv : v.toNat = (BitVec.ofBool s).toNat * 2 ^ 63 + (2047 * 2 ^ 52 + g.toNat) := h
  simp only [Bool.and_eq_true, beq_iff_eq, bne_iff_ne, ne_eq]
  constructor <;> omega

end Sys2Proof.Machine
end

