-- ==== Sys2Proof/Laws/Memory.lean ====
section
/-! SUPPORT. Laws of the buffer memories: read after write, frames, and the canonical form (20_memory.md R61, R68,
R80). -/

namespace Sys2Proof.Machine

/-! ### Bytes -/

@[simp] theorem readByte_nil (a : Nat) : Memory.readByte [] a = none := rfl

theorem readByte_cons (c : Host.Cell) (m : Memory) (a : Nat) :
    Memory.readByte (c :: m) a = if c.1 = a then some c.2 else Memory.readByte m a := rfl

theorem readByte_append (m₁ m₂ : Memory) (a : Nat) :
    Memory.readByte (m₁ ++ m₂) a = (Memory.readByte m₁ a).or (Memory.readByte m₂ a) := by
  induction m₁ with
  | nil => simp
  | cons c m ih =>
    rw [List.cons_append, readByte_cons, readByte_cons, ih]
    split <;> simp

theorem readByte_filter (p : Nat → Bool) (m : Memory) (a : Nat) :
    Memory.readByte (m.filter (fun c => p c.1)) a = if p a then Memory.readByte m a else none := by
  induction m with
  | nil => simp
  | cons c m ih =>
    rw [List.filter_cons, readByte_cons]
    by_cases hc : c.1 = a
    · subst hc
      by_cases hp : p c.1 <;> simp [hp, readByte_cons, ih]
    · by_cases hp : p c.1 <;> simp [hp, hc, readByte_cons, ih]

theorem readByte_cellsFrom (bs : List Byte) (a x : Nat) :
    Memory.readByte (cellsFrom a bs) x = if a ≤ x then bs[x - a]? else none := by
  induction bs generalizing a with
  | nil => simp [cellsFrom]
  | cons b bs ih =>
    rw [cellsFrom, readByte_cons, ih]
    by_cases h : a = x
    · subst h; simp
    · by_cases h' : a + 1 ≤ x
      · have : x - a = (x - (a + 1)) + 1 := by omega
        simp [h, h', this, show a ≤ x by omega]
      · simp [h, h', show ¬ a ≤ x by omega]

/-- Reading one byte after storing consecutive bytes: the stored byte inside them, the old byte elsewhere. -/
theorem readByte_writeBytes (m : Memory) (a x : Nat) (bs : List Byte) :
    (m.writeBytes a bs).readByte x =
      if a ≤ x ∧ x < a + bs.length then bs[x - a]? else m.readByte x := by
  have h1 := readByte_filter (fun y => decide (y < a)) m x
  have h2 := readByte_filter (fun y => decide (a + bs.length ≤ y)) m x
  simp only [Memory.writeBytes, readByte_append, h1, h2, readByte_cellsFrom, decide_eq_true_eq]
  by_cases hlt : x < a
  · simp [hlt, show ¬ a ≤ x by omega, show ¬ a + bs.length ≤ x by omega]
  · by_cases hge : a + bs.length ≤ x
    · simp [hlt, hge, show a ≤ x by omega, show ¬ x < a + bs.length by omega,
        List.getElem?_eq_none (show bs.length ≤ x - a by omega)]
    · have : x - a < bs.length := by omega
      simp [hlt, hge, show a ≤ x by omega, show x < a + bs.length by omega]

/-! ### The canonical form -/

theorem memory_wf_iff (m : Memory) : m.wf = true ↔ m.Pairwise (fun c d => c.1 < d.1) := by
  induction m with
  | nil => simp [Memory.wf]
  | cons c m ih =>
    cases m with
    | nil => simp [Memory.wf]
    | cons d m =>
      simp only [Memory.wf, Bool.and_eq_true, decide_eq_true_eq, ih, List.pairwise_cons,
        List.mem_cons, forall_eq_or_imp]
      constructor
      · rintro ⟨h, h1, h2⟩
        exact ⟨⟨h, fun e he => lt_trans h (h1 e he)⟩, h1, h2⟩
      · rintro ⟨⟨h, -⟩, h1, h2⟩
        exact ⟨h, h1, h2⟩

theorem mem_cellsFrom {bs : List Byte} {a : Nat} {c : Host.Cell} (h : c ∈ cellsFrom a bs) :
    a ≤ c.1 ∧ c.1 < a + bs.length := by
  induction bs generalizing a with
  | nil => simp [cellsFrom] at h
  | cons b bs ih =>
    simp only [cellsFrom, List.mem_cons] at h
    rcases h with rfl | h
    · simp
    · have := ih h
      simp only [List.length_cons]
      omega

theorem cellsFrom_rising (bs : List Byte) (a : Nat) :
    (cellsFrom a bs).Pairwise (fun c d => c.1 < d.1) := by
  induction bs generalizing a with
  | nil => simp [cellsFrom]
  | cons b bs ih =>
    simp only [cellsFrom, List.pairwise_cons]
    exact ⟨fun c hc => by have := mem_cellsFrom hc; omega, ih (a + 1)⟩

/-- Storing bytes keeps the canonical form. -/
theorem writeBytes_wf (m : Memory) (a : Nat) (bs : List Byte) (h : m.wf = true) :
    (m.writeBytes a bs).wf = true := by
  rw [memory_wf_iff] at h ⊢
  refine List.pairwise_append.mpr ⟨h.filter _, List.pairwise_append.mpr
    ⟨cellsFrom_rising bs a, h.filter _, ?_⟩, ?_⟩
  · intro c hc d hd
    have hc' := mem_cellsFrom hc
    have hd' := (List.mem_filter.mp hd).2
    simp only [decide_eq_true_eq] at hd'
    omega
  · intro c hc d hd
    have hc' := (List.mem_filter.mp hc).2
    simp only [decide_eq_true_eq] at hc'
    rcases List.mem_append.mp hd with hd | hd
    · have := mem_cellsFrom hd; omega
    · have hd' := (List.mem_filter.mp hd).2
      simp only [decide_eq_true_eq] at hd'
      omega

/-- The addresses listed after storing bytes. -/
theorem mem_writeBytes_addr {m : Memory} {a : Nat} {bs : List Byte} {c : Host.Cell}
    (h : c ∈ m.writeBytes a bs) : c ∈ m ∨ (a ≤ c.1 ∧ c.1 < a + bs.length) := by
  rcases List.mem_append.mp h with h | h
  · exact .inl (List.mem_filter.mp h).1
  · rcases List.mem_append.mp h with h | h
    · exact .inr (mem_cellsFrom h)
    · exact .inl (List.mem_filter.mp h).1

/-! ### Words -/

@[simp] theorem bytesLE_length (n v : Nat) : (bytesLE n v).length = n := by
  induction n generalizing v with
  | zero => rfl
  | succ n ih => simp [bytesLE, ih]

/-- A little-endian read looks at its own bytes only. -/
theorem readLE_congr {m m' : Memory} {n a : Nat}
    (h : ∀ x, a ≤ x → x < a + n → m'.readByte x = m.readByte x) : m'.readLE n a = m.readLE n a := by
  induction n generalizing a with
  | zero => rfl
  | succ n ih =>
    simp only [Memory.readLE]
    rw [h a (by omega) (by omega), ih (fun x h1 h2 => h x (by omega) (by omega))]

theorem readLE_of_bytes {m : Memory} {n a v : Nat}
    (h : ∀ j, j < n → m.readByte (a + j) = (bytesLE n v)[j]?) : m.readLE n a = some (v % 256 ^ n) := by
  induction n generalizing a v with
  | zero => simp [Memory.readLE, Nat.mod_one]
  | succ n ih =>
    have h0 := h 0 (by omega)
    have ih' := ih (a := a + 1) (v := v / 256) (fun j hj => by
      have := h (j + 1) (by omega)
      simpa [bytesLE, Nat.add_assoc, Nat.add_comm 1 j] using this)
    simp only [bytesLE, Nat.add_zero, List.getElem?_cons_zero] at h0
    simp only [Memory.readLE, h0, ih', BitVec.toNat_ofNat]
    rw [show 256 ^ (n + 1) = 256 * 256 ^ n by ring, Nat.mod_mul]

theorem readWord_congr {m m' : Memory} {a : Nat}
    (h : ∀ x, a ≤ x → x < a + 8 → m'.readByte x = m.readByte x) : m'.readWord a = m.readWord a := by
  rw [Memory.readWord, Memory.readWord, readLE_congr h]

theorem readWord_of_bytes {m : Memory} {a : Nat} {w : Word}
    (h : ∀ j, j < 8 → m.readByte (a + j) = (bytesLE 8 w.toNat)[j]?) : m.readWord a = some w := by
  rw [Memory.readWord, readLE_of_bytes h]
  rw [Nat.mod_eq_of_lt (by have := w.isLt; norm_num; omega), Option.map_some, BitVec.ofNat_toNat,
    BitVec.setWidth_eq]

/-! ### Entries -/

/-- The bytes of a list of words. -/
def wordBytes (ws : List Word) : List Byte := ws.flatMap (fun w => bytesLE 8 w.toNat)

@[simp] theorem wordBytes_length (ws : List Word) : (wordBytes ws).length = 8 * ws.length := by
  induction ws with
  | nil => rfl
  | cons w ws ih =>
    simp only [wordBytes, List.flatMap_cons, List.length_append, bytesLE_length, List.length_cons] at *
    omega

theorem wordBytes_getElem? (ws : List Word) (k j : Nat) (hj : j < 8) (hk : k < ws.length) :
    (wordBytes ws)[8 * k + j]? = (bytesLE 8 (ws[k]).toNat)[j]? := by
  induction ws generalizing k with
  | nil => simp at hk
  | cons w ws ih =>
    cases k with
    | zero =>
      simp only [wordBytes, List.flatMap_cons, Nat.mul_zero, Nat.zero_add, List.getElem_cons_zero]
      rw [List.getElem?_append_left (by simpa using hj)]
    | succ k =>
      have e : 8 * (k + 1) + j = 8 + (8 * k + j) := by ring
      simp only [wordBytes, List.flatMap_cons, List.getElem_cons_succ] at *
      rw [e, List.getElem?_append_right (by simp)]
      simpa using ih k (by simpa using hk)

theorem writeEntries_eq (id : MemId) (i : Nat) (ws : List Word) (m : Memory) :
    writeEntries id i ws m = m.writeBytes (id.addr i) (wordBytes ws) := rfl

/-- One byte after storing entries: unchanged outside the stored bytes. -/
theorem readByte_writeEntries_of_outside (id : MemId) (i : Nat) (ws : List Word) (m : Memory) (x : Nat)
    (h : x < id.addr i ∨ id.addr (i + ws.length) ≤ x) :
    (writeEntries id i ws m).readByte x = m.readByte x := by
  rw [writeEntries_eq, readByte_writeBytes, if_neg]
  simp only [MemId.addr, wordBytes_length] at *
  omega

/-- A word stored reads back. -/
theorem readWord_writeEntries_of_inside (id : MemId) (i : Nat) (ws : List Word) (m : Memory) (k : Nat)
    (h : k < ws.length) : (writeEntries id i ws m).readWord (id.addr (i + k)) = some ws[k] := by
  apply readWord_of_bytes
  intro j hj
  rw [writeEntries_eq, readByte_writeBytes, if_pos]
  · rw [← wordBytes_getElem? ws k j hj h]
    congr 1
    simp only [MemId.addr]
    omega
  · simp only [MemId.addr, wordBytes_length]
    omega

/-- A word that does not overlap the stored bytes is unchanged. -/
theorem readWord_writeEntries_of_outside (id : MemId) (i : Nat) (ws : List Word) (m : Memory) (a : Nat)
    (h : a + 8 ≤ id.addr i ∨ id.addr (i + ws.length) ≤ a) :
    (writeEntries id i ws m).readWord a = m.readWord a :=
  readWord_congr fun x h1 h2 => readByte_writeEntries_of_outside id i ws m x (by omega)

/-- The windows of two memories do not overlap (20_memory.md R61). -/
theorem windows_apart {id id' : MemId} (h : id ≠ id') :
    id.addr id.words ≤ id'.base ∨ id'.addr id'.words ≤ id.base := by
  cases id <;> cases id' <;> first | exact absurd rfl h | decide

/-- Storing entries of one memory leaves the words of another as they were. -/
theorem readWord_writeEntries_of_ne {id id' : MemId} (hne : id ≠ id') (i k : Nat) (ws : List Word) (m : Memory)
    (hi : i + ws.length ≤ id.words) (hk : k < id'.words) :
    (writeEntries id i ws m).readWord (id'.addr k) = m.readWord (id'.addr k) := by
  apply readWord_writeEntries_of_outside
  have h := windows_apart hne
  simp only [MemId.addr] at *
  omega

/-- Storing entries keeps the canonical form. -/
theorem writeEntries_wf (id : MemId) (i : Nat) (ws : List Word) (m : Memory) (h : m.wf = true) :
    (writeEntries id i ws m).wf = true := writeBytes_wf _ _ _ h

theorem readEntry_eq_ok {id : MemId} {i : Nat} {m : Memory} {w : Word} :
    readEntry id i m = .ok w ↔ m.readWord (id.addr i) = some w := by
  unfold readEntry
  cases m.readWord (id.addr i) <;> simp

/-- Consecutive words read as a list exactly when each of them has been written. -/
theorem readEntries_eq_ok {id : MemId} {m : Memory} {n i : Nat} {ws : List Word} :
    readEntries id m n i = .ok ws ↔
      ws.length = n ∧ ∀ k, k < n → m.readWord (id.addr (i + k)) = ws[k]? := by
  induction n generalizing i ws with
  | zero =>
    simp only [readEntries, Except.ok.injEq, not_lt_zero, false_implies, implies_true, and_true]
    rw [eq_comm, List.length_eq_zero_iff]
  | succ n ih =>
    rw [readEntries]
    cases hr : readEntry id i m with
    | error f =>
      simp only [reduceCtorEq, false_iff, not_and, not_forall]
      intro hl
      refine ⟨0, by omega, ?_⟩
      obtain ⟨w, hw⟩ : ∃ w, ws[0]? = some w := ⟨ws[0], by simp [hl]⟩
      intro h
      have := readEntry_eq_ok.mpr (h.trans hw)
      simp only [Nat.add_zero] at this
      rw [hr] at this
      cases this
    | ok w =>
      have hw := readEntry_eq_ok.mp hr
      cases hrs : readEntries id m n (i + 1) with
      | error f =>
        simp only [reduceCtorEq, false_iff]
        rintro ⟨hl, h⟩
        have h2 : readEntries id m n (i + 1) = .ok ws.tail := ih.mpr ⟨by simp [hl], fun k hk => by
          have := h (k + 1) (by omega)
          rw [List.getElem?_tail, ← this]
          congr 2
          omega⟩
        rw [hrs] at h2
        cases h2
      | ok vs =>
        obtain ⟨hl, h⟩ := ih.mp hrs
        simp only [Except.ok.injEq]
        constructor
        · rintro rfl
          refine ⟨by simp [hl], fun k hk => ?_⟩
          cases k with
          | zero => simpa using hw
          | succ k =>
            rw [List.getElem?_cons_succ, ← h k (by omega)]
            congr 2
            omega
        · rintro ⟨hl', h'⟩
          apply List.ext_getElem?
          intro k
          cases k with
          | zero => rw [← h' 0 (by omega)]; simpa using hw.symm
          | succ k =>
            by_cases hk : k < n
            · rw [List.getElem?_cons_succ, ← h k hk, ← h' (k + 1) (by omega)]
              congr 2
              omega
            · rw [List.getElem?_eq_none (by simp; omega), List.getElem?_eq_none (by omega)]

/-- A failed read names an entry that lies in the range and was never written. -/
theorem readEntries_eq_error {id : MemId} {m : Memory} {n i : Nat} {f : Fault}
    (h : readEntries id m n i = .error f) :
    ∃ k, i ≤ k ∧ k < i + n ∧ f = .unwrittenEntry id k ∧ m.readWord (id.addr k) = none := by
  induction n generalizing i with
  | zero => cases h
  | succ n ih =>
    rw [readEntries] at h
    cases hr : readEntry id i m with
    | error g =>
      simp only [hr, Except.error.injEq] at h
      subst h
      refine ⟨i, le_rfl, by omega, ?_⟩
      unfold readEntry at hr
      cases hw : m.readWord (id.addr i) with
      | none => simp only [hw, Except.error.injEq] at hr; exact ⟨hr.symm, rfl⟩
      | some w => simp [hw] at hr
    | ok w =>
      cases hrs : readEntries id m n (i + 1) with
      | error g =>
        simp only [hr, hrs, Except.error.injEq] at h
        subst h
        obtain ⟨k, h1, h2, h3⟩ := ih hrs
        exact ⟨k, by omega, by omega, h3⟩
      | ok ws => simp [hr, hrs] at h

end Sys2Proof.Machine
end

