-- ==== Sys2Proof/Laws/State.lean ====
section
/-! SUPPORT. One lemma per field per update of the state, each true by rfl, so that no later proof unfolds a record
update. -/

namespace Sys2Proof.Machine


/-! ### complete -/

section
variable (s : State)

@[simp] theorem complete_ctrl : (complete s).ctrl = s.ctrl := rfl
@[simp] theorem complete_sps : (complete s).sps = s.sps := rfl
@[simp] theorem complete_peakV : (complete s).peakV = s.peakV := rfl
@[simp] theorem complete_carrierF : (complete s).carrierF = s.carrierF := rfl
@[simp] theorem complete_sampleRate : (complete s).sampleRate = s.sampleRate := rfl
@[simp] theorem complete_noiseSigma : (complete s).noiseSigma = s.noiseSigma := rfl
@[simp] theorem complete_cmd : (complete s).cmd = s.cmd := rfl
@[simp] theorem complete_busy : (complete s).busy = false := rfl
@[simp] theorem complete_done : (complete s).done = true := rfl
@[simp] theorem complete_err : (complete s).err = s.err := rfl
@[simp] theorem complete_ovr : (complete s).ovr = s.ovr := rfl
@[simp] theorem complete_dictValid : (complete s).dictValid = s.dictValid := rfl
@[simp] theorem complete_amiSign : (complete s).amiSign = s.amiSign := rfl
@[simp] theorem complete_grayForm : (complete s).grayForm = s.grayForm := rfl
@[simp] theorem complete_errCode : (complete s).errCode = s.errCode := rfl
@[simp] theorem complete_lastOp : (complete s).lastOp = s.lastOp := rfl
@[simp] theorem complete_nBits : (complete s).nBits = s.nBits := rfl
@[simp] theorem complete_nSym : (complete s).nSym = s.nSym := rfl
@[simp] theorem complete_nLevel : (complete s).nLevel = s.nLevel := rfl
@[simp] theorem complete_nParam : (complete s).nParam = s.nParam := rfl
@[simp] theorem complete_nSample : (complete s).nSample = s.nSample := rfl
@[simp] theorem complete_nDec : (complete s).nDec = s.nDec := rfl
@[simp] theorem complete_grayN : (complete s).grayN = s.grayN := rfl
@[simp] theorem complete_dictN : (complete s).dictN = s.dictN := rfl
@[simp] theorem complete_dictLen : (complete s).dictLen = s.dictLen := rfl
@[simp] theorem complete_dictKey : (complete s).dictKey = s.dictKey := rfl
@[simp] theorem complete_snap : (complete s).snap = s.snap := rfl
@[simp] theorem complete_mem : (complete s).mem = s.mem := rfl
@[simp] theorem complete_host : (complete s).host = s.host := rfl
@[simp] theorem complete_response : (complete s).response = s.response := rfl
@[simp] theorem complete_noiseQueue : (complete s).noiseQueue = s.noiseQueue := rfl
@[simp] theorem complete_noiseTaken : (complete s).noiseTaken = s.noiseTaken := rfl
@[simp] theorem complete_freeReads : (complete s).freeReads = s.freeReads := rfl

end

/-! ### raiseError -/

section
variable (code : ErrCode) (s : State)

@[simp] theorem raiseError_ctrl : (raiseError code s).ctrl = s.ctrl := rfl
@[simp] theorem raiseError_sps : (raiseError code s).sps = s.sps := rfl
@[simp] theorem raiseError_peakV : (raiseError code s).peakV = s.peakV := rfl
@[simp] theorem raiseError_carrierF : (raiseError code s).carrierF = s.carrierF := rfl
@[simp] theorem raiseError_sampleRate : (raiseError code s).sampleRate = s.sampleRate := rfl
@[simp] theorem raiseError_noiseSigma : (raiseError code s).noiseSigma = s.noiseSigma := rfl
@[simp] theorem raiseError_cmd : (raiseError code s).cmd = s.cmd := rfl
@[simp] theorem raiseError_busy : (raiseError code s).busy = false := rfl
@[simp] theorem raiseError_done : (raiseError code s).done = true := rfl
@[simp] theorem raiseError_err : (raiseError code s).err = true := rfl
@[simp] theorem raiseError_ovr : (raiseError code s).ovr = s.ovr := rfl
@[simp] theorem raiseError_dictValid : (raiseError code s).dictValid = s.dictValid := rfl
@[simp] theorem raiseError_amiSign : (raiseError code s).amiSign = s.amiSign := rfl
@[simp] theorem raiseError_grayForm : (raiseError code s).grayForm = s.grayForm := rfl
@[simp] theorem raiseError_errCode : (raiseError code s).errCode = code.code := rfl
@[simp] theorem raiseError_lastOp : (raiseError code s).lastOp = s.lastOp := rfl
@[simp] theorem raiseError_nBits : (raiseError code s).nBits = s.nBits := rfl
@[simp] theorem raiseError_nSym : (raiseError code s).nSym = s.nSym := rfl
@[simp] theorem raiseError_nLevel : (raiseError code s).nLevel = s.nLevel := rfl
@[simp] theorem raiseError_nParam : (raiseError code s).nParam = s.nParam := rfl
@[simp] theorem raiseError_nSample : (raiseError code s).nSample = s.nSample := rfl
@[simp] theorem raiseError_nDec : (raiseError code s).nDec = s.nDec := rfl
@[simp] theorem raiseError_grayN : (raiseError code s).grayN = s.grayN := rfl
@[simp] theorem raiseError_dictN : (raiseError code s).dictN = s.dictN := rfl
@[simp] theorem raiseError_dictLen : (raiseError code s).dictLen = s.dictLen := rfl
@[simp] theorem raiseError_dictKey : (raiseError code s).dictKey = s.dictKey := rfl
@[simp] theorem raiseError_snap : (raiseError code s).snap = s.snap := rfl
@[simp] theorem raiseError_mem : (raiseError code s).mem = s.mem := rfl
@[simp] theorem raiseError_host : (raiseError code s).host = s.host := rfl
@[simp] theorem raiseError_response : (raiseError code s).response = s.response := rfl
@[simp] theorem raiseError_noiseQueue : (raiseError code s).noiseQueue = s.noiseQueue := rfl
@[simp] theorem raiseError_noiseTaken : (raiseError code s).noiseTaken = s.noiseTaken := rfl
@[simp] theorem raiseError_freeReads : (raiseError code s).freeReads = s.freeReads := rfl

end

/-! ### clearError -/

section
variable (s : State)

@[simp] theorem clearError_ctrl : (clearError s).ctrl = s.ctrl := rfl
@[simp] theorem clearError_sps : (clearError s).sps = s.sps := rfl
@[simp] theorem clearError_peakV : (clearError s).peakV = s.peakV := rfl
@[simp] theorem clearError_carrierF : (clearError s).carrierF = s.carrierF := rfl
@[simp] theorem clearError_sampleRate : (clearError s).sampleRate = s.sampleRate := rfl
@[simp] theorem clearError_noiseSigma : (clearError s).noiseSigma = s.noiseSigma := rfl
@[simp] theorem clearError_cmd : (clearError s).cmd = s.cmd := rfl
@[simp] theorem clearError_busy : (clearError s).busy = s.busy := rfl
@[simp] theorem clearError_done : (clearError s).done = s.done := rfl
@[simp] theorem clearError_err : (clearError s).err = false := rfl
@[simp] theorem clearError_ovr : (clearError s).ovr = s.ovr := rfl
@[simp] theorem clearError_dictValid : (clearError s).dictValid = s.dictValid := rfl
@[simp] theorem clearError_amiSign : (clearError s).amiSign = s.amiSign := rfl
@[simp] theorem clearError_grayForm : (clearError s).grayForm = s.grayForm := rfl
@[simp] theorem clearError_errCode : (clearError s).errCode = 0#8 := rfl
@[simp] theorem clearError_lastOp : (clearError s).lastOp = s.lastOp := rfl
@[simp] theorem clearError_nBits : (clearError s).nBits = s.nBits := rfl
@[simp] theorem clearError_nSym : (clearError s).nSym = s.nSym := rfl
@[simp] theorem clearError_nLevel : (clearError s).nLevel = s.nLevel := rfl
@[simp] theorem clearError_nParam : (clearError s).nParam = s.nParam := rfl
@[simp] theorem clearError_nSample : (clearError s).nSample = s.nSample := rfl
@[simp] theorem clearError_nDec : (clearError s).nDec = s.nDec := rfl
@[simp] theorem clearError_grayN : (clearError s).grayN = s.grayN := rfl
@[simp] theorem clearError_dictN : (clearError s).dictN = s.dictN := rfl
@[simp] theorem clearError_dictLen : (clearError s).dictLen = s.dictLen := rfl
@[simp] theorem clearError_dictKey : (clearError s).dictKey = s.dictKey := rfl
@[simp] theorem clearError_snap : (clearError s).snap = s.snap := rfl
@[simp] theorem clearError_mem : (clearError s).mem = s.mem := rfl
@[simp] theorem clearError_host : (clearError s).host = s.host := rfl
@[simp] theorem clearError_response : (clearError s).response = s.response := rfl
@[simp] theorem clearError_noiseQueue : (clearError s).noiseQueue = s.noiseQueue := rfl
@[simp] theorem clearError_noiseTaken : (clearError s).noiseTaken = s.noiseTaken := rfl
@[simp] theorem clearError_freeReads : (clearError s).freeReads = s.freeReads := rfl

end

/-! ### latchCommand -/

section
variable (v : Word) (s : State)

@[simp] theorem latchCommand_ctrl : (latchCommand v s).ctrl = s.ctrl := rfl
@[simp] theorem latchCommand_sps : (latchCommand v s).sps = s.sps := rfl
@[simp] theorem latchCommand_peakV : (latchCommand v s).peakV = s.peakV := rfl
@[simp] theorem latchCommand_carrierF : (latchCommand v s).carrierF = s.carrierF := rfl
@[simp] theorem latchCommand_sampleRate : (latchCommand v s).sampleRate = s.sampleRate := rfl
@[simp] theorem latchCommand_noiseSigma : (latchCommand v s).noiseSigma = s.noiseSigma := rfl
@[simp] theorem latchCommand_cmd : (latchCommand v s).cmd = v := rfl
@[simp] theorem latchCommand_busy : (latchCommand v s).busy = true := rfl
@[simp] theorem latchCommand_done : (latchCommand v s).done = false := rfl
@[simp] theorem latchCommand_err : (latchCommand v s).err = false := rfl
@[simp] theorem latchCommand_ovr : (latchCommand v s).ovr = s.ovr := rfl
@[simp] theorem latchCommand_dictValid : (latchCommand v s).dictValid = s.dictValid := rfl
@[simp] theorem latchCommand_amiSign : (latchCommand v s).amiSign = s.amiSign := rfl
@[simp] theorem latchCommand_grayForm : (latchCommand v s).grayForm = s.grayForm := rfl
@[simp] theorem latchCommand_errCode : (latchCommand v s).errCode = 0#8 := rfl
@[simp] theorem latchCommand_lastOp : (latchCommand v s).lastOp = v.extractLsb' 0 8 := rfl
@[simp] theorem latchCommand_nBits : (latchCommand v s).nBits = s.nBits := rfl
@[simp] theorem latchCommand_nSym : (latchCommand v s).nSym = s.nSym := rfl
@[simp] theorem latchCommand_nLevel : (latchCommand v s).nLevel = s.nLevel := rfl
@[simp] theorem latchCommand_nParam : (latchCommand v s).nParam = s.nParam := rfl
@[simp] theorem latchCommand_nSample : (latchCommand v s).nSample = s.nSample := rfl
@[simp] theorem latchCommand_nDec : (latchCommand v s).nDec = s.nDec := rfl
@[simp] theorem latchCommand_grayN : (latchCommand v s).grayN = s.grayN := rfl
@[simp] theorem latchCommand_dictN : (latchCommand v s).dictN = s.dictN := rfl
@[simp] theorem latchCommand_dictLen : (latchCommand v s).dictLen = s.dictLen := rfl
@[simp] theorem latchCommand_dictKey : (latchCommand v s).dictKey = s.dictKey := rfl
@[simp] theorem latchCommand_snap : (latchCommand v s).snap = takeSnapshot v s := rfl
@[simp] theorem latchCommand_mem : (latchCommand v s).mem = s.mem := rfl
@[simp] theorem latchCommand_host : (latchCommand v s).host = s.host := rfl
@[simp] theorem latchCommand_response : (latchCommand v s).response = s.response := rfl
@[simp] theorem latchCommand_noiseQueue : (latchCommand v s).noiseQueue = s.noiseQueue := rfl
@[simp] theorem latchCommand_noiseTaken : (latchCommand v s).noiseTaken = s.noiseTaken := rfl
@[simp] theorem latchCommand_freeReads : (latchCommand v s).freeReads = s.freeReads := rfl

end

/-! ### takeDraws -/

section
variable (n : Nat) (s : State)

@[simp] theorem takeDraws_ctrl : (takeDraws n s).ctrl = s.ctrl := rfl
@[simp] theorem takeDraws_sps : (takeDraws n s).sps = s.sps := rfl
@[simp] theorem takeDraws_peakV : (takeDraws n s).peakV = s.peakV := rfl
@[simp] theorem takeDraws_carrierF : (takeDraws n s).carrierF = s.carrierF := rfl
@[simp] theorem takeDraws_sampleRate : (takeDraws n s).sampleRate = s.sampleRate := rfl
@[simp] theorem takeDraws_noiseSigma : (takeDraws n s).noiseSigma = s.noiseSigma := rfl
@[simp] theorem takeDraws_cmd : (takeDraws n s).cmd = s.cmd := rfl
@[simp] theorem takeDraws_busy : (takeDraws n s).busy = s.busy := rfl
@[simp] theorem takeDraws_done : (takeDraws n s).done = s.done := rfl
@[simp] theorem takeDraws_err : (takeDraws n s).err = s.err := rfl
@[simp] theorem takeDraws_ovr : (takeDraws n s).ovr = s.ovr := rfl
@[simp] theorem takeDraws_dictValid : (takeDraws n s).dictValid = s.dictValid := rfl
@[simp] theorem takeDraws_amiSign : (takeDraws n s).amiSign = s.amiSign := rfl
@[simp] theorem takeDraws_grayForm : (takeDraws n s).grayForm = s.grayForm := rfl
@[simp] theorem takeDraws_errCode : (takeDraws n s).errCode = s.errCode := rfl
@[simp] theorem takeDraws_lastOp : (takeDraws n s).lastOp = s.lastOp := rfl
@[simp] theorem takeDraws_nBits : (takeDraws n s).nBits = s.nBits := rfl
@[simp] theorem takeDraws_nSym : (takeDraws n s).nSym = s.nSym := rfl
@[simp] theorem takeDraws_nLevel : (takeDraws n s).nLevel = s.nLevel := rfl
@[simp] theorem takeDraws_nParam : (takeDraws n s).nParam = s.nParam := rfl
@[simp] theorem takeDraws_nSample : (takeDraws n s).nSample = s.nSample := rfl
@[simp] theorem takeDraws_nDec : (takeDraws n s).nDec = s.nDec := rfl
@[simp] theorem takeDraws_grayN : (takeDraws n s).grayN = s.grayN := rfl
@[simp] theorem takeDraws_dictN : (takeDraws n s).dictN = s.dictN := rfl
@[simp] theorem takeDraws_dictLen : (takeDraws n s).dictLen = s.dictLen := rfl
@[simp] theorem takeDraws_dictKey : (takeDraws n s).dictKey = s.dictKey := rfl
@[simp] theorem takeDraws_snap : (takeDraws n s).snap = s.snap := rfl
@[simp] theorem takeDraws_mem : (takeDraws n s).mem = s.mem := rfl
@[simp] theorem takeDraws_host : (takeDraws n s).host = s.host := rfl
@[simp] theorem takeDraws_response : (takeDraws n s).response = s.response := rfl
@[simp] theorem takeDraws_noiseQueue : (takeDraws n s).noiseQueue = s.noiseQueue.drop n := rfl
@[simp] theorem takeDraws_noiseTaken : (takeDraws n s).noiseTaken = s.noiseTaken + n := rfl
@[simp] theorem takeDraws_freeReads : (takeDraws n s).freeReads = s.freeReads := rfl

end

/-! ### respond -/

section
variable (r : Response) (s : State)

@[simp] theorem respond_ctrl : (s.respond r).ctrl = s.ctrl := rfl
@[simp] theorem respond_sps : (s.respond r).sps = s.sps := rfl
@[simp] theorem respond_peakV : (s.respond r).peakV = s.peakV := rfl
@[simp] theorem respond_carrierF : (s.respond r).carrierF = s.carrierF := rfl
@[simp] theorem respond_sampleRate : (s.respond r).sampleRate = s.sampleRate := rfl
@[simp] theorem respond_noiseSigma : (s.respond r).noiseSigma = s.noiseSigma := rfl
@[simp] theorem respond_cmd : (s.respond r).cmd = s.cmd := rfl
@[simp] theorem respond_busy : (s.respond r).busy = s.busy := rfl
@[simp] theorem respond_done : (s.respond r).done = s.done := rfl
@[simp] theorem respond_err : (s.respond r).err = s.err := rfl
@[simp] theorem respond_ovr : (s.respond r).ovr = s.ovr := rfl
@[simp] theorem respond_dictValid : (s.respond r).dictValid = s.dictValid := rfl
@[simp] theorem respond_amiSign : (s.respond r).amiSign = s.amiSign := rfl
@[simp] theorem respond_grayForm : (s.respond r).grayForm = s.grayForm := rfl
@[simp] theorem respond_errCode : (s.respond r).errCode = s.errCode := rfl
@[simp] theorem respond_lastOp : (s.respond r).lastOp = s.lastOp := rfl
@[simp] theorem respond_nBits : (s.respond r).nBits = s.nBits := rfl
@[simp] theorem respond_nSym : (s.respond r).nSym = s.nSym := rfl
@[simp] theorem respond_nLevel : (s.respond r).nLevel = s.nLevel := rfl
@[simp] theorem respond_nParam : (s.respond r).nParam = s.nParam := rfl
@[simp] theorem respond_nSample : (s.respond r).nSample = s.nSample := rfl
@[simp] theorem respond_nDec : (s.respond r).nDec = s.nDec := rfl
@[simp] theorem respond_grayN : (s.respond r).grayN = s.grayN := rfl
@[simp] theorem respond_dictN : (s.respond r).dictN = s.dictN := rfl
@[simp] theorem respond_dictLen : (s.respond r).dictLen = s.dictLen := rfl
@[simp] theorem respond_dictKey : (s.respond r).dictKey = s.dictKey := rfl
@[simp] theorem respond_snap : (s.respond r).snap = s.snap := rfl
@[simp] theorem respond_mem : (s.respond r).mem = s.mem := rfl
@[simp] theorem respond_host : (s.respond r).host = s.host := rfl
@[simp] theorem respond_response : (s.respond r).response = r := rfl
@[simp] theorem respond_noiseQueue : (s.respond r).noiseQueue = s.noiseQueue := rfl
@[simp] theorem respond_noiseTaken : (s.respond r).noiseTaken = s.noiseTaken := rfl
@[simp] theorem respond_freeReads : (s.respond r).freeReads = s.freeReads := rfl

end

/-! ### store -/

section
variable (id : MemId) (ws : List Word) (s : State)

@[simp] theorem store_ctrl : (s.store id ws).ctrl = s.ctrl := rfl
@[simp] theorem store_sps : (s.store id ws).sps = s.sps := rfl
@[simp] theorem store_peakV : (s.store id ws).peakV = s.peakV := rfl
@[simp] theorem store_carrierF : (s.store id ws).carrierF = s.carrierF := rfl
@[simp] theorem store_sampleRate : (s.store id ws).sampleRate = s.sampleRate := rfl
@[simp] theorem store_noiseSigma : (s.store id ws).noiseSigma = s.noiseSigma := rfl
@[simp] theorem store_cmd : (s.store id ws).cmd = s.cmd := rfl
@[simp] theorem store_busy : (s.store id ws).busy = s.busy := rfl
@[simp] theorem store_done : (s.store id ws).done = s.done := rfl
@[simp] theorem store_err : (s.store id ws).err = s.err := rfl
@[simp] theorem store_ovr : (s.store id ws).ovr = s.ovr := rfl
@[simp] theorem store_dictValid : (s.store id ws).dictValid = s.dictValid := rfl
@[simp] theorem store_amiSign : (s.store id ws).amiSign = s.amiSign := rfl
@[simp] theorem store_grayForm : (s.store id ws).grayForm = s.grayForm := rfl
@[simp] theorem store_errCode : (s.store id ws).errCode = s.errCode := rfl
@[simp] theorem store_lastOp : (s.store id ws).lastOp = s.lastOp := rfl
@[simp] theorem store_nBits : (s.store id ws).nBits = s.nBits := rfl
@[simp] theorem store_nSym : (s.store id ws).nSym = s.nSym := rfl
@[simp] theorem store_nLevel : (s.store id ws).nLevel = s.nLevel := rfl
@[simp] theorem store_nParam : (s.store id ws).nParam = s.nParam := rfl
@[simp] theorem store_nSample : (s.store id ws).nSample = s.nSample := rfl
@[simp] theorem store_nDec : (s.store id ws).nDec = s.nDec := rfl
@[simp] theorem store_grayN : (s.store id ws).grayN = s.grayN := rfl
@[simp] theorem store_dictN : (s.store id ws).dictN = s.dictN := rfl
@[simp] theorem store_dictLen : (s.store id ws).dictLen = s.dictLen := rfl
@[simp] theorem store_dictKey : (s.store id ws).dictKey = s.dictKey := rfl
@[simp] theorem store_snap : (s.store id ws).snap = s.snap := rfl
@[simp] theorem store_mem : (s.store id ws).mem = writeEntries id 0 ws s.mem := rfl
@[simp] theorem store_host : (s.store id ws).host = s.host := rfl
@[simp] theorem store_response : (s.store id ws).response = s.response := rfl
@[simp] theorem store_noiseQueue : (s.store id ws).noiseQueue = s.noiseQueue := rfl
@[simp] theorem store_noiseTaken : (s.store id ws).noiseTaken = s.noiseTaken := rfl
@[simp] theorem store_freeReads : (s.store id ws).freeReads = s.freeReads := rfl

end

/-! ### storeBits -/

section
variable (l : List Bool) (s : State)

@[simp] theorem storeBits_ctrl : (storeBits l s).ctrl = s.ctrl := rfl
@[simp] theorem storeBits_sps : (storeBits l s).sps = s.sps := rfl
@[simp] theorem storeBits_peakV : (storeBits l s).peakV = s.peakV := rfl
@[simp] theorem storeBits_carrierF : (storeBits l s).carrierF = s.carrierF := rfl
@[simp] theorem storeBits_sampleRate : (storeBits l s).sampleRate = s.sampleRate := rfl
@[simp] theorem storeBits_noiseSigma : (storeBits l s).noiseSigma = s.noiseSigma := rfl
@[simp] theorem storeBits_cmd : (storeBits l s).cmd = s.cmd := rfl
@[simp] theorem storeBits_busy : (storeBits l s).busy = s.busy := rfl
@[simp] theorem storeBits_done : (storeBits l s).done = s.done := rfl
@[simp] theorem storeBits_err : (storeBits l s).err = s.err := rfl
@[simp] theorem storeBits_ovr : (storeBits l s).ovr = s.ovr := rfl
@[simp] theorem storeBits_dictValid : (storeBits l s).dictValid = s.dictValid := rfl
@[simp] theorem storeBits_amiSign : (storeBits l s).amiSign = s.amiSign := rfl
@[simp] theorem storeBits_grayForm : (storeBits l s).grayForm = s.grayForm := rfl
@[simp] theorem storeBits_errCode : (storeBits l s).errCode = s.errCode := rfl
@[simp] theorem storeBits_lastOp : (storeBits l s).lastOp = s.lastOp := rfl
@[simp] theorem storeBits_nBits : (storeBits l s).nBits = countWord l.length := rfl
@[simp] theorem storeBits_nSym : (storeBits l s).nSym = s.nSym := rfl
@[simp] theorem storeBits_nLevel : (storeBits l s).nLevel = s.nLevel := rfl
@[simp] theorem storeBits_nParam : (storeBits l s).nParam = s.nParam := rfl
@[simp] theorem storeBits_nSample : (storeBits l s).nSample = s.nSample := rfl
@[simp] theorem storeBits_nDec : (storeBits l s).nDec = s.nDec := rfl
@[simp] theorem storeBits_grayN : (storeBits l s).grayN = s.grayN := rfl
@[simp] theorem storeBits_dictN : (storeBits l s).dictN = s.dictN := rfl
@[simp] theorem storeBits_dictLen : (storeBits l s).dictLen = s.dictLen := rfl
@[simp] theorem storeBits_dictKey : (storeBits l s).dictKey = s.dictKey := rfl
@[simp] theorem storeBits_snap : (storeBits l s).snap = s.snap := rfl
@[simp] theorem storeBits_mem : (storeBits l s).mem = writeEntries .bit 0 (l.map wordOfBit) s.mem := rfl
@[simp] theorem storeBits_host : (storeBits l s).host = s.host := rfl
@[simp] theorem storeBits_response : (storeBits l s).response = s.response := rfl
@[simp] theorem storeBits_noiseQueue : (storeBits l s).noiseQueue = s.noiseQueue := rfl
@[simp] theorem storeBits_noiseTaken : (storeBits l s).noiseTaken = s.noiseTaken := rfl
@[simp] theorem storeBits_freeReads : (storeBits l s).freeReads = s.freeReads := rfl

end

/-! ### storeSyms -/

section
variable (l : List Nat) (s : State)

@[simp] theorem storeSyms_ctrl : (storeSyms l s).ctrl = s.ctrl := rfl
@[simp] theorem storeSyms_sps : (storeSyms l s).sps = s.sps := rfl
@[simp] theorem storeSyms_peakV : (storeSyms l s).peakV = s.peakV := rfl
@[simp] theorem storeSyms_carrierF : (storeSyms l s).carrierF = s.carrierF := rfl
@[simp] theorem storeSyms_sampleRate : (storeSyms l s).sampleRate = s.sampleRate := rfl
@[simp] theorem storeSyms_noiseSigma : (storeSyms l s).noiseSigma = s.noiseSigma := rfl
@[simp] theorem storeSyms_cmd : (storeSyms l s).cmd = s.cmd := rfl
@[simp] theorem storeSyms_busy : (storeSyms l s).busy = s.busy := rfl
@[simp] theorem storeSyms_done : (storeSyms l s).done = s.done := rfl
@[simp] theorem storeSyms_err : (storeSyms l s).err = s.err := rfl
@[simp] theorem storeSyms_ovr : (storeSyms l s).ovr = s.ovr := rfl
@[simp] theorem storeSyms_dictValid : (storeSyms l s).dictValid = s.dictValid := rfl
@[simp] theorem storeSyms_amiSign : (storeSyms l s).amiSign = s.amiSign := rfl
@[simp] theorem storeSyms_grayForm : (storeSyms l s).grayForm = s.grayForm := rfl
@[simp] theorem storeSyms_errCode : (storeSyms l s).errCode = s.errCode := rfl
@[simp] theorem storeSyms_lastOp : (storeSyms l s).lastOp = s.lastOp := rfl
@[simp] theorem storeSyms_nBits : (storeSyms l s).nBits = s.nBits := rfl
@[simp] theorem storeSyms_nSym : (storeSyms l s).nSym = countWord l.length := rfl
@[simp] theorem storeSyms_nLevel : (storeSyms l s).nLevel = s.nLevel := rfl
@[simp] theorem storeSyms_nParam : (storeSyms l s).nParam = s.nParam := rfl
@[simp] theorem storeSyms_nSample : (storeSyms l s).nSample = s.nSample := rfl
@[simp] theorem storeSyms_nDec : (storeSyms l s).nDec = s.nDec := rfl
@[simp] theorem storeSyms_grayN : (storeSyms l s).grayN = s.grayN := rfl
@[simp] theorem storeSyms_dictN : (storeSyms l s).dictN = s.dictN := rfl
@[simp] theorem storeSyms_dictLen : (storeSyms l s).dictLen = s.dictLen := rfl
@[simp] theorem storeSyms_dictKey : (storeSyms l s).dictKey = s.dictKey := rfl
@[simp] theorem storeSyms_snap : (storeSyms l s).snap = s.snap := rfl
@[simp] theorem storeSyms_mem : (storeSyms l s).mem = writeEntries .sym 0 (l.map (BitVec.ofNat 64)) s.mem := rfl
@[simp] theorem storeSyms_host : (storeSyms l s).host = s.host := rfl
@[simp] theorem storeSyms_response : (storeSyms l s).response = s.response := rfl
@[simp] theorem storeSyms_noiseQueue : (storeSyms l s).noiseQueue = s.noiseQueue := rfl
@[simp] theorem storeSyms_noiseTaken : (storeSyms l s).noiseTaken = s.noiseTaken := rfl
@[simp] theorem storeSyms_freeReads : (storeSyms l s).freeReads = s.freeReads := rfl

end

/-! ### storeDecs -/

section
variable (l : List F64) (s : State)

@[simp] theorem storeDecs_ctrl : (storeDecs l s).ctrl = s.ctrl := rfl
@[simp] theorem storeDecs_sps : (storeDecs l s).sps = s.sps := rfl
@[simp] theorem storeDecs_peakV : (storeDecs l s).peakV = s.peakV := rfl
@[simp] theorem storeDecs_carrierF : (storeDecs l s).carrierF = s.carrierF := rfl
@[simp] theorem storeDecs_sampleRate : (storeDecs l s).sampleRate = s.sampleRate := rfl
@[simp] theorem storeDecs_noiseSigma : (storeDecs l s).noiseSigma = s.noiseSigma := rfl
@[simp] theorem storeDecs_cmd : (storeDecs l s).cmd = s.cmd := rfl
@[simp] theorem storeDecs_busy : (storeDecs l s).busy = s.busy := rfl
@[simp] theorem storeDecs_done : (storeDecs l s).done = s.done := rfl
@[simp] theorem storeDecs_err : (storeDecs l s).err = s.err := rfl
@[simp] theorem storeDecs_ovr : (storeDecs l s).ovr = s.ovr := rfl
@[simp] theorem storeDecs_dictValid : (storeDecs l s).dictValid = s.dictValid := rfl
@[simp] theorem storeDecs_amiSign : (storeDecs l s).amiSign = s.amiSign := rfl
@[simp] theorem storeDecs_grayForm : (storeDecs l s).grayForm = s.grayForm := rfl
@[simp] theorem storeDecs_errCode : (storeDecs l s).errCode = s.errCode := rfl
@[simp] theorem storeDecs_lastOp : (storeDecs l s).lastOp = s.lastOp := rfl
@[simp] theorem storeDecs_nBits : (storeDecs l s).nBits = s.nBits := rfl
@[simp] theorem storeDecs_nSym : (storeDecs l s).nSym = s.nSym := rfl
@[simp] theorem storeDecs_nLevel : (storeDecs l s).nLevel = s.nLevel := rfl
@[simp] theorem storeDecs_nParam : (storeDecs l s).nParam = s.nParam := rfl
@[simp] theorem storeDecs_nSample : (storeDecs l s).nSample = s.nSample := rfl
@[simp] theorem storeDecs_nDec : (storeDecs l s).nDec = countWord l.length := rfl
@[simp] theorem storeDecs_grayN : (storeDecs l s).grayN = s.grayN := rfl
@[simp] theorem storeDecs_dictN : (storeDecs l s).dictN = s.dictN := rfl
@[simp] theorem storeDecs_dictLen : (storeDecs l s).dictLen = s.dictLen := rfl
@[simp] theorem storeDecs_dictKey : (storeDecs l s).dictKey = s.dictKey := rfl
@[simp] theorem storeDecs_snap : (storeDecs l s).snap = s.snap := rfl
@[simp] theorem storeDecs_mem : (storeDecs l s).mem = writeEntries .dec 0 l s.mem := rfl
@[simp] theorem storeDecs_host : (storeDecs l s).host = s.host := rfl
@[simp] theorem storeDecs_response : (storeDecs l s).response = s.response := rfl
@[simp] theorem storeDecs_noiseQueue : (storeDecs l s).noiseQueue = s.noiseQueue := rfl
@[simp] theorem storeDecs_noiseTaken : (storeDecs l s).noiseTaken = s.noiseTaken := rfl
@[simp] theorem storeDecs_freeReads : (storeDecs l s).freeReads = s.freeReads := rfl

end

/-! ### storeGray -/

section
variable (form : Bool) (l : List Word) (s : State)

@[simp] theorem storeGray_ctrl : (storeGray form l s).ctrl = s.ctrl := rfl
@[simp] theorem storeGray_sps : (storeGray form l s).sps = s.sps := rfl
@[simp] theorem storeGray_peakV : (storeGray form l s).peakV = s.peakV := rfl
@[simp] theorem storeGray_carrierF : (storeGray form l s).carrierF = s.carrierF := rfl
@[simp] theorem storeGray_sampleRate : (storeGray form l s).sampleRate = s.sampleRate := rfl
@[simp] theorem storeGray_noiseSigma : (storeGray form l s).noiseSigma = s.noiseSigma := rfl
@[simp] theorem storeGray_cmd : (storeGray form l s).cmd = s.cmd := rfl
@[simp] theorem storeGray_busy : (storeGray form l s).busy = s.busy := rfl
@[simp] theorem storeGray_done : (storeGray form l s).done = s.done := rfl
@[simp] theorem storeGray_err : (storeGray form l s).err = s.err := rfl
@[simp] theorem storeGray_ovr : (storeGray form l s).ovr = s.ovr := rfl
@[simp] theorem storeGray_dictValid : (storeGray form l s).dictValid = s.dictValid := rfl
@[simp] theorem storeGray_amiSign : (storeGray form l s).amiSign = s.amiSign := rfl
@[simp] theorem storeGray_grayForm : (storeGray form l s).grayForm = form := rfl
@[simp] theorem storeGray_errCode : (storeGray form l s).errCode = s.errCode := rfl
@[simp] theorem storeGray_lastOp : (storeGray form l s).lastOp = s.lastOp := rfl
@[simp] theorem storeGray_nBits : (storeGray form l s).nBits = s.nBits := rfl
@[simp] theorem storeGray_nSym : (storeGray form l s).nSym = s.nSym := rfl
@[simp] theorem storeGray_nLevel : (storeGray form l s).nLevel = s.nLevel := rfl
@[simp] theorem storeGray_nParam : (storeGray form l s).nParam = s.nParam := rfl
@[simp] theorem storeGray_nSample : (storeGray form l s).nSample = s.nSample := rfl
@[simp] theorem storeGray_nDec : (storeGray form l s).nDec = s.nDec := rfl
@[simp] theorem storeGray_grayN : (storeGray form l s).grayN = countWord l.length := rfl
@[simp] theorem storeGray_dictN : (storeGray form l s).dictN = s.dictN := rfl
@[simp] theorem storeGray_dictLen : (storeGray form l s).dictLen = s.dictLen := rfl
@[simp] theorem storeGray_dictKey : (storeGray form l s).dictKey = s.dictKey := rfl
@[simp] theorem storeGray_snap : (storeGray form l s).snap = s.snap := rfl
@[simp] theorem storeGray_mem : (storeGray form l s).mem = writeEntries .gray 0 l s.mem := rfl
@[simp] theorem storeGray_host : (storeGray form l s).host = s.host := rfl
@[simp] theorem storeGray_response : (storeGray form l s).response = s.response := rfl
@[simp] theorem storeGray_noiseQueue : (storeGray form l s).noiseQueue = s.noiseQueue := rfl
@[simp] theorem storeGray_noiseTaken : (storeGray form l s).noiseTaken = s.noiseTaken := rfl
@[simp] theorem storeGray_freeReads : (storeGray form l s).freeReads = s.freeReads := rfl

end

/-! ### storeLevels -/

section
variable (l : List Int) (s : State)

@[simp] theorem storeLevels_ctrl : (storeLevels l s).ctrl = s.ctrl := rfl
@[simp] theorem storeLevels_sps : (storeLevels l s).sps = s.sps := rfl
@[simp] theorem storeLevels_peakV : (storeLevels l s).peakV = s.peakV := rfl
@[simp] theorem storeLevels_carrierF : (storeLevels l s).carrierF = s.carrierF := rfl
@[simp] theorem storeLevels_sampleRate : (storeLevels l s).sampleRate = s.sampleRate := rfl
@[simp] theorem storeLevels_noiseSigma : (storeLevels l s).noiseSigma = s.noiseSigma := rfl
@[simp] theorem storeLevels_cmd : (storeLevels l s).cmd = s.cmd := rfl
@[simp] theorem storeLevels_busy : (storeLevels l s).busy = s.busy := rfl
@[simp] theorem storeLevels_done : (storeLevels l s).done = s.done := rfl
@[simp] theorem storeLevels_err : (storeLevels l s).err = s.err := rfl
@[simp] theorem storeLevels_ovr : (storeLevels l s).ovr = s.ovr := rfl
@[simp] theorem storeLevels_dictValid : (storeLevels l s).dictValid = s.dictValid := rfl
@[simp] theorem storeLevels_amiSign : (storeLevels l s).amiSign = s.amiSign := rfl
@[simp] theorem storeLevels_grayForm : (storeLevels l s).grayForm = s.grayForm := rfl
@[simp] theorem storeLevels_errCode : (storeLevels l s).errCode = s.errCode := rfl
@[simp] theorem storeLevels_lastOp : (storeLevels l s).lastOp = s.lastOp := rfl
@[simp] theorem storeLevels_nBits : (storeLevels l s).nBits = s.nBits := rfl
@[simp] theorem storeLevels_nSym : (storeLevels l s).nSym = s.nSym := rfl
@[simp] theorem storeLevels_nLevel : (storeLevels l s).nLevel = countWord l.length := rfl
@[simp] theorem storeLevels_nParam : (storeLevels l s).nParam = s.nParam := rfl
@[simp] theorem storeLevels_nSample : (storeLevels l s).nSample = s.nSample := rfl
@[simp] theorem storeLevels_nDec : (storeLevels l s).nDec = s.nDec := rfl
@[simp] theorem storeLevels_grayN : (storeLevels l s).grayN = s.grayN := rfl
@[simp] theorem storeLevels_dictN : (storeLevels l s).dictN = s.dictN := rfl
@[simp] theorem storeLevels_dictLen : (storeLevels l s).dictLen = s.dictLen := rfl
@[simp] theorem storeLevels_dictKey : (storeLevels l s).dictKey = s.dictKey := rfl
@[simp] theorem storeLevels_snap : (storeLevels l s).snap = s.snap := rfl
@[simp] theorem storeLevels_mem : (storeLevels l s).mem = writeEntries .level 0 (l.map (BitVec.ofInt 64)) s.mem := rfl
@[simp] theorem storeLevels_host : (storeLevels l s).host = s.host := rfl
@[simp] theorem storeLevels_response : (storeLevels l s).response = s.response := rfl
@[simp] theorem storeLevels_noiseQueue : (storeLevels l s).noiseQueue = s.noiseQueue := rfl
@[simp] theorem storeLevels_noiseTaken : (storeLevels l s).noiseTaken = s.noiseTaken := rfl
@[simp] theorem storeLevels_freeReads : (storeLevels l s).freeReads = s.freeReads := rfl

end

/-! ### storeParams -/

section
variable (l : List Triple) (s : State)

@[simp] theorem storeParams_ctrl : (storeParams l s).ctrl = s.ctrl := rfl
@[simp] theorem storeParams_sps : (storeParams l s).sps = s.sps := rfl
@[simp] theorem storeParams_peakV : (storeParams l s).peakV = s.peakV := rfl
@[simp] theorem storeParams_carrierF : (storeParams l s).carrierF = s.carrierF := rfl
@[simp] theorem storeParams_sampleRate : (storeParams l s).sampleRate = s.sampleRate := rfl
@[simp] theorem storeParams_noiseSigma : (storeParams l s).noiseSigma = s.noiseSigma := rfl
@[simp] theorem storeParams_cmd : (storeParams l s).cmd = s.cmd := rfl
@[simp] theorem storeParams_busy : (storeParams l s).busy = s.busy := rfl
@[simp] theorem storeParams_done : (storeParams l s).done = s.done := rfl
@[simp] theorem storeParams_err : (storeParams l s).err = s.err := rfl
@[simp] theorem storeParams_ovr : (storeParams l s).ovr = s.ovr := rfl
@[simp] theorem storeParams_dictValid : (storeParams l s).dictValid = s.dictValid := rfl
@[simp] theorem storeParams_amiSign : (storeParams l s).amiSign = s.amiSign := rfl
@[simp] theorem storeParams_grayForm : (storeParams l s).grayForm = s.grayForm := rfl
@[simp] theorem storeParams_errCode : (storeParams l s).errCode = s.errCode := rfl
@[simp] theorem storeParams_lastOp : (storeParams l s).lastOp = s.lastOp := rfl
@[simp] theorem storeParams_nBits : (storeParams l s).nBits = s.nBits := rfl
@[simp] theorem storeParams_nSym : (storeParams l s).nSym = s.nSym := rfl
@[simp] theorem storeParams_nLevel : (storeParams l s).nLevel = s.nLevel := rfl
@[simp] theorem storeParams_nParam : (storeParams l s).nParam = countWord l.length := rfl
@[simp] theorem storeParams_nSample : (storeParams l s).nSample = s.nSample := rfl
@[simp] theorem storeParams_nDec : (storeParams l s).nDec = s.nDec := rfl
@[simp] theorem storeParams_grayN : (storeParams l s).grayN = s.grayN := rfl
@[simp] theorem storeParams_dictN : (storeParams l s).dictN = s.dictN := rfl
@[simp] theorem storeParams_dictLen : (storeParams l s).dictLen = s.dictLen := rfl
@[simp] theorem storeParams_dictKey : (storeParams l s).dictKey = s.dictKey := rfl
@[simp] theorem storeParams_snap : (storeParams l s).snap = s.snap := rfl
@[simp] theorem storeParams_mem : (storeParams l s).mem = writeEntries .param 0 (l.flatMap Triple.words) s.mem := rfl
@[simp] theorem storeParams_host : (storeParams l s).host = s.host := rfl
@[simp] theorem storeParams_response : (storeParams l s).response = s.response := rfl
@[simp] theorem storeParams_noiseQueue : (storeParams l s).noiseQueue = s.noiseQueue := rfl
@[simp] theorem storeParams_noiseTaken : (storeParams l s).noiseTaken = s.noiseTaken := rfl
@[simp] theorem storeParams_freeReads : (storeParams l s).freeReads = s.freeReads := rfl

end

/-! ### storeSamples -/

section
variable (l : List F64) (s : State)

@[simp] theorem storeSamples_ctrl : (storeSamples l s).ctrl = s.ctrl := rfl
@[simp] theorem storeSamples_sps : (storeSamples l s).sps = s.sps := rfl
@[simp] theorem storeSamples_peakV : (storeSamples l s).peakV = s.peakV := rfl
@[simp] theorem storeSamples_carrierF : (storeSamples l s).carrierF = s.carrierF := rfl
@[simp] theorem storeSamples_sampleRate : (storeSamples l s).sampleRate = s.sampleRate := rfl
@[simp] theorem storeSamples_noiseSigma : (storeSamples l s).noiseSigma = s.noiseSigma := rfl
@[simp] theorem storeSamples_cmd : (storeSamples l s).cmd = s.cmd := rfl
@[simp] theorem storeSamples_busy : (storeSamples l s).busy = s.busy := rfl
@[simp] theorem storeSamples_done : (storeSamples l s).done = s.done := rfl
@[simp] theorem storeSamples_err : (storeSamples l s).err = s.err := rfl
@[simp] theorem storeSamples_ovr : (storeSamples l s).ovr = s.ovr := rfl
@[simp] theorem storeSamples_dictValid : (storeSamples l s).dictValid = s.dictValid := rfl
@[simp] theorem storeSamples_amiSign : (storeSamples l s).amiSign = s.amiSign := rfl
@[simp] theorem storeSamples_grayForm : (storeSamples l s).grayForm = s.grayForm := rfl
@[simp] theorem storeSamples_errCode : (storeSamples l s).errCode = s.errCode := rfl
@[simp] theorem storeSamples_lastOp : (storeSamples l s).lastOp = s.lastOp := rfl
@[simp] theorem storeSamples_nBits : (storeSamples l s).nBits = s.nBits := rfl
@[simp] theorem storeSamples_nSym : (storeSamples l s).nSym = s.nSym := rfl
@[simp] theorem storeSamples_nLevel : (storeSamples l s).nLevel = s.nLevel := rfl
@[simp] theorem storeSamples_nParam : (storeSamples l s).nParam = s.nParam := rfl
@[simp] theorem storeSamples_nSample : (storeSamples l s).nSample = countWord l.length := rfl
@[simp] theorem storeSamples_nDec : (storeSamples l s).nDec = s.nDec := rfl
@[simp] theorem storeSamples_grayN : (storeSamples l s).grayN = s.grayN := rfl
@[simp] theorem storeSamples_dictN : (storeSamples l s).dictN = s.dictN := rfl
@[simp] theorem storeSamples_dictLen : (storeSamples l s).dictLen = s.dictLen := rfl
@[simp] theorem storeSamples_dictKey : (storeSamples l s).dictKey = s.dictKey := rfl
@[simp] theorem storeSamples_snap : (storeSamples l s).snap = s.snap := rfl
@[simp] theorem storeSamples_mem : (storeSamples l s).mem = writeEntries .sample 0 l s.mem := rfl
@[simp] theorem storeSamples_host : (storeSamples l s).host = s.host := rfl
@[simp] theorem storeSamples_response : (storeSamples l s).response = s.response := rfl
@[simp] theorem storeSamples_noiseQueue : (storeSamples l s).noiseQueue = s.noiseQueue := rfl
@[simp] theorem storeSamples_noiseTaken : (storeSamples l s).noiseTaken = s.noiseTaken := rfl
@[simp] theorem storeSamples_freeReads : (storeSamples l s).freeReads = s.freeReads := rfl

end

/-! ### applyNoise -/

section
variable (c : Snapshot) (xs : List F64) (s : State)

@[simp] theorem applyNoise_ctrl : (applyNoise c xs s).ctrl = s.ctrl := rfl
@[simp] theorem applyNoise_sps : (applyNoise c xs s).sps = s.sps := rfl
@[simp] theorem applyNoise_peakV : (applyNoise c xs s).peakV = s.peakV := rfl
@[simp] theorem applyNoise_carrierF : (applyNoise c xs s).carrierF = s.carrierF := rfl
@[simp] theorem applyNoise_sampleRate : (applyNoise c xs s).sampleRate = s.sampleRate := rfl
@[simp] theorem applyNoise_noiseSigma : (applyNoise c xs s).noiseSigma = s.noiseSigma := rfl
@[simp] theorem applyNoise_cmd : (applyNoise c xs s).cmd = s.cmd := rfl
@[simp] theorem applyNoise_busy : (applyNoise c xs s).busy = s.busy := rfl
@[simp] theorem applyNoise_done : (applyNoise c xs s).done = s.done := rfl
@[simp] theorem applyNoise_err : (applyNoise c xs s).err = s.err := rfl
@[simp] theorem applyNoise_ovr : (applyNoise c xs s).ovr = s.ovr := rfl
@[simp] theorem applyNoise_dictValid : (applyNoise c xs s).dictValid = s.dictValid := rfl
@[simp] theorem applyNoise_amiSign : (applyNoise c xs s).amiSign = s.amiSign := rfl
@[simp] theorem applyNoise_grayForm : (applyNoise c xs s).grayForm = s.grayForm := rfl
@[simp] theorem applyNoise_errCode : (applyNoise c xs s).errCode = s.errCode := rfl
@[simp] theorem applyNoise_lastOp : (applyNoise c xs s).lastOp = s.lastOp := rfl
@[simp] theorem applyNoise_nBits : (applyNoise c xs s).nBits = s.nBits := rfl
@[simp] theorem applyNoise_nSym : (applyNoise c xs s).nSym = s.nSym := rfl
@[simp] theorem applyNoise_nLevel : (applyNoise c xs s).nLevel = s.nLevel := rfl
@[simp] theorem applyNoise_nParam : (applyNoise c xs s).nParam = s.nParam := rfl
@[simp] theorem applyNoise_nSample : (applyNoise c xs s).nSample = s.nSample := rfl
@[simp] theorem applyNoise_nDec : (applyNoise c xs s).nDec = s.nDec := rfl
@[simp] theorem applyNoise_grayN : (applyNoise c xs s).grayN = s.grayN := rfl
@[simp] theorem applyNoise_dictN : (applyNoise c xs s).dictN = s.dictN := rfl
@[simp] theorem applyNoise_dictLen : (applyNoise c xs s).dictLen = s.dictLen := rfl
@[simp] theorem applyNoise_dictKey : (applyNoise c xs s).dictKey = s.dictKey := rfl
@[simp] theorem applyNoise_snap : (applyNoise c xs s).snap = s.snap := rfl
@[simp] theorem applyNoise_mem : (applyNoise c xs s).mem = writeEntries .sample 0 (noisySamples c.noiseSigma xs (draws xs.length s)) s.mem := rfl
@[simp] theorem applyNoise_host : (applyNoise c xs s).host = s.host := rfl
@[simp] theorem applyNoise_response : (applyNoise c xs s).response = s.response := rfl
@[simp] theorem applyNoise_noiseQueue : (applyNoise c xs s).noiseQueue = s.noiseQueue.drop xs.length := rfl
@[simp] theorem applyNoise_noiseTaken : (applyNoise c xs s).noiseTaken = s.noiseTaken + xs.length := rfl
@[simp] theorem applyNoise_freeReads : (applyNoise c xs s).freeReads = s.freeReads := rfl

end

/-! ### buildDict -/

section
variable (c : Snapshot) (sch : Scheme) (w : Nat) (s : State)

@[simp] theorem buildDict_ctrl : (buildDict c sch w s).ctrl = s.ctrl := rfl
@[simp] theorem buildDict_sps : (buildDict c sch w s).sps = s.sps := rfl
@[simp] theorem buildDict_peakV : (buildDict c sch w s).peakV = s.peakV := rfl
@[simp] theorem buildDict_carrierF : (buildDict c sch w s).carrierF = s.carrierF := rfl
@[simp] theorem buildDict_sampleRate : (buildDict c sch w s).sampleRate = s.sampleRate := rfl
@[simp] theorem buildDict_noiseSigma : (buildDict c sch w s).noiseSigma = s.noiseSigma := rfl
@[simp] theorem buildDict_cmd : (buildDict c sch w s).cmd = s.cmd := rfl
@[simp] theorem buildDict_busy : (buildDict c sch w s).busy = s.busy := rfl
@[simp] theorem buildDict_done : (buildDict c sch w s).done = s.done := rfl
@[simp] theorem buildDict_err : (buildDict c sch w s).err = s.err := rfl
@[simp] theorem buildDict_ovr : (buildDict c sch w s).ovr = s.ovr := rfl
@[simp] theorem buildDict_dictValid : (buildDict c sch w s).dictValid = true := rfl
@[simp] theorem buildDict_amiSign : (buildDict c sch w s).amiSign = s.amiSign := rfl
@[simp] theorem buildDict_grayForm : (buildDict c sch w s).grayForm = s.grayForm := rfl
@[simp] theorem buildDict_errCode : (buildDict c sch w s).errCode = s.errCode := rfl
@[simp] theorem buildDict_lastOp : (buildDict c sch w s).lastOp = s.lastOp := rfl
@[simp] theorem buildDict_nBits : (buildDict c sch w s).nBits = s.nBits := rfl
@[simp] theorem buildDict_nSym : (buildDict c sch w s).nSym = s.nSym := rfl
@[simp] theorem buildDict_nLevel : (buildDict c sch w s).nLevel = s.nLevel := rfl
@[simp] theorem buildDict_nParam : (buildDict c sch w s).nParam = s.nParam := rfl
@[simp] theorem buildDict_nSample : (buildDict c sch w s).nSample = s.nSample := rfl
@[simp] theorem buildDict_nDec : (buildDict c sch w s).nDec = s.nDec := rfl
@[simp] theorem buildDict_grayN : (buildDict c sch w s).grayN = s.grayN := rfl
@[simp] theorem buildDict_dictN : (buildDict c sch w s).dictN = countWord (2 ^ w) := rfl
@[simp] theorem buildDict_dictLen : (buildDict c sch w s).dictLen = countWord (entryLength c sch w) := rfl
@[simp] theorem buildDict_dictKey : (buildDict c sch w s).dictKey = configKey c sch w := rfl
@[simp] theorem buildDict_snap : (buildDict c sch w s).snap = s.snap := rfl
@[simp] theorem buildDict_mem : (buildDict c sch w s).mem = writeEntries .dict 0 (dictionary c sch w) s.mem := rfl
@[simp] theorem buildDict_host : (buildDict c sch w s).host = s.host := rfl
@[simp] theorem buildDict_response : (buildDict c sch w s).response = s.response := rfl
@[simp] theorem buildDict_noiseQueue : (buildDict c sch w s).noiseQueue = s.noiseQueue := rfl
@[simp] theorem buildDict_noiseTaken : (buildDict c sch w s).noiseTaken = s.noiseTaken := rfl
@[simp] theorem buildDict_freeReads : (buildDict c sch w s).freeReads = s.freeReads := rfl

end

/-! ### softReset -/

section
variable (s : State)

@[simp] theorem softReset_ctrl : (softReset s).ctrl = 0x0000000000041100#64 := rfl
@[simp] theorem softReset_sps : (softReset s).sps = 16#32 := rfl
@[simp] theorem softReset_peakV : (softReset s).peakV = 0x3FF0000000000000#64 := rfl
@[simp] theorem softReset_carrierF : (softReset s).carrierF = 0x3FF0000000000000#64 := rfl
@[simp] theorem softReset_sampleRate : (softReset s).sampleRate = 0x4030000000000000#64 := rfl
@[simp] theorem softReset_noiseSigma : (softReset s).noiseSigma = 0#64 := rfl
@[simp] theorem softReset_cmd : (softReset s).cmd = s.cmd := rfl
@[simp] theorem softReset_busy : (softReset s).busy = s.busy := rfl
@[simp] theorem softReset_done : (softReset s).done = s.done := rfl
@[simp] theorem softReset_err : (softReset s).err = s.err := rfl
@[simp] theorem softReset_ovr : (softReset s).ovr = false := rfl
@[simp] theorem softReset_dictValid : (softReset s).dictValid = false := rfl
@[simp] theorem softReset_amiSign : (softReset s).amiSign = .pos := rfl
@[simp] theorem softReset_grayForm : (softReset s).grayForm = s.grayForm := rfl
@[simp] theorem softReset_errCode : (softReset s).errCode = s.errCode := rfl
@[simp] theorem softReset_lastOp : (softReset s).lastOp = s.lastOp := rfl
@[simp] theorem softReset_nBits : (softReset s).nBits = 0#64 := rfl
@[simp] theorem softReset_nSym : (softReset s).nSym = 0#64 := rfl
@[simp] theorem softReset_nLevel : (softReset s).nLevel = 0#64 := rfl
@[simp] theorem softReset_nParam : (softReset s).nParam = 0#64 := rfl
@[simp] theorem softReset_nSample : (softReset s).nSample = 0#64 := rfl
@[simp] theorem softReset_nDec : (softReset s).nDec = s.nDec := rfl
@[simp] theorem softReset_grayN : (softReset s).grayN = s.grayN := rfl
@[simp] theorem softReset_dictN : (softReset s).dictN = s.dictN := rfl
@[simp] theorem softReset_dictLen : (softReset s).dictLen = s.dictLen := rfl
@[simp] theorem softReset_dictKey : (softReset s).dictKey = s.dictKey := rfl
@[simp] theorem softReset_snap : (softReset s).snap = s.snap := rfl
@[simp] theorem softReset_mem : (softReset s).mem = s.mem := rfl
@[simp] theorem softReset_host : (softReset s).host = s.host := rfl
@[simp] theorem softReset_response : (softReset s).response = s.response := rfl
@[simp] theorem softReset_noiseQueue : (softReset s).noiseQueue = s.noiseQueue := rfl
@[simp] theorem softReset_noiseTaken : (softReset s).noiseTaken = s.noiseTaken := rfl
@[simp] theorem softReset_freeReads : (softReset s).freeReads = s.freeReads := rfl

end

/-! ### hardwareReset -/

section
variable (s : State)

@[simp] theorem hardwareReset_ctrl : (hardwareReset s).ctrl = State.reset.ctrl := rfl
@[simp] theorem hardwareReset_sps : (hardwareReset s).sps = State.reset.sps := rfl
@[simp] theorem hardwareReset_peakV : (hardwareReset s).peakV = State.reset.peakV := rfl
@[simp] theorem hardwareReset_carrierF : (hardwareReset s).carrierF = State.reset.carrierF := rfl
@[simp] theorem hardwareReset_sampleRate : (hardwareReset s).sampleRate = State.reset.sampleRate := rfl
@[simp] theorem hardwareReset_noiseSigma : (hardwareReset s).noiseSigma = State.reset.noiseSigma := rfl
@[simp] theorem hardwareReset_cmd : (hardwareReset s).cmd = State.reset.cmd := rfl
@[simp] theorem hardwareReset_busy : (hardwareReset s).busy = State.reset.busy := rfl
@[simp] theorem hardwareReset_done : (hardwareReset s).done = State.reset.done := rfl
@[simp] theorem hardwareReset_err : (hardwareReset s).err = State.reset.err := rfl
@[simp] theorem hardwareReset_ovr : (hardwareReset s).ovr = State.reset.ovr := rfl
@[simp] theorem hardwareReset_dictValid : (hardwareReset s).dictValid = State.reset.dictValid := rfl
@[simp] theorem hardwareReset_amiSign : (hardwareReset s).amiSign = State.reset.amiSign := rfl
@[simp] theorem hardwareReset_grayForm : (hardwareReset s).grayForm = State.reset.grayForm := rfl
@[simp] theorem hardwareReset_errCode : (hardwareReset s).errCode = State.reset.errCode := rfl
@[simp] theorem hardwareReset_lastOp : (hardwareReset s).lastOp = State.reset.lastOp := rfl
@[simp] theorem hardwareReset_nBits : (hardwareReset s).nBits = State.reset.nBits := rfl
@[simp] theorem hardwareReset_nSym : (hardwareReset s).nSym = State.reset.nSym := rfl
@[simp] theorem hardwareReset_nLevel : (hardwareReset s).nLevel = State.reset.nLevel := rfl
@[simp] theorem hardwareReset_nParam : (hardwareReset s).nParam = State.reset.nParam := rfl
@[simp] theorem hardwareReset_nSample : (hardwareReset s).nSample = State.reset.nSample := rfl
@[simp] theorem hardwareReset_nDec : (hardwareReset s).nDec = State.reset.nDec := rfl
@[simp] theorem hardwareReset_grayN : (hardwareReset s).grayN = State.reset.grayN := rfl
@[simp] theorem hardwareReset_dictN : (hardwareReset s).dictN = State.reset.dictN := rfl
@[simp] theorem hardwareReset_dictLen : (hardwareReset s).dictLen = State.reset.dictLen := rfl
@[simp] theorem hardwareReset_dictKey : (hardwareReset s).dictKey = State.reset.dictKey := rfl
@[simp] theorem hardwareReset_snap : (hardwareReset s).snap = State.reset.snap := rfl
@[simp] theorem hardwareReset_mem : (hardwareReset s).mem = State.reset.mem := rfl
@[simp] theorem hardwareReset_host : (hardwareReset s).host = s.host := rfl
@[simp] theorem hardwareReset_response : (hardwareReset s).response = State.reset.response := rfl
@[simp] theorem hardwareReset_noiseQueue : (hardwareReset s).noiseQueue = s.noiseQueue := rfl
@[simp] theorem hardwareReset_noiseTaken : (hardwareReset s).noiseTaken = s.noiseTaken := rfl
@[simp] theorem hardwareReset_freeReads : (hardwareReset s).freeReads = s.freeReads := rfl

end

/-! ### storeLineCode -/

section
variable (code : LineCode) (w : Nat) (l : List Nat) (s : State)

@[simp] theorem storeLineCode_ctrl : (storeLineCode code w l s).ctrl = s.ctrl := by
  cases code <;> rfl
@[simp] theorem storeLineCode_sps : (storeLineCode code w l s).sps = s.sps := by
  cases code <;> rfl
@[simp] theorem storeLineCode_peakV : (storeLineCode code w l s).peakV = s.peakV := by
  cases code <;> rfl
@[simp] theorem storeLineCode_carrierF : (storeLineCode code w l s).carrierF = s.carrierF := by
  cases code <;> rfl
@[simp] theorem storeLineCode_sampleRate : (storeLineCode code w l s).sampleRate = s.sampleRate := by
  cases code <;> rfl
@[simp] theorem storeLineCode_noiseSigma : (storeLineCode code w l s).noiseSigma = s.noiseSigma := by
  cases code <;> rfl
@[simp] theorem storeLineCode_cmd : (storeLineCode code w l s).cmd = s.cmd := by
  cases code <;> rfl
@[simp] theorem storeLineCode_busy : (storeLineCode code w l s).busy = s.busy := by
  cases code <;> rfl
@[simp] theorem storeLineCode_done : (storeLineCode code w l s).done = s.done := by
  cases code <;> rfl
@[simp] theorem storeLineCode_err : (storeLineCode code w l s).err = s.err := by
  cases code <;> rfl
@[simp] theorem storeLineCode_ovr : (storeLineCode code w l s).ovr = s.ovr := by
  cases code <;> rfl
@[simp] theorem storeLineCode_dictValid : (storeLineCode code w l s).dictValid = s.dictValid := by
  cases code <;> rfl
@[simp] theorem storeLineCode_amiSign :
    (storeLineCode code w l s).amiSign = if code = .ami then amiSignAfter w l s.amiSign else s.amiSign := by
  cases code <;> rfl
@[simp] theorem storeLineCode_grayForm : (storeLineCode code w l s).grayForm = s.grayForm := by
  cases code <;> rfl
@[simp] theorem storeLineCode_errCode : (storeLineCode code w l s).errCode = s.errCode := by
  cases code <;> rfl
@[simp] theorem storeLineCode_lastOp : (storeLineCode code w l s).lastOp = s.lastOp := by
  cases code <;> rfl
@[simp] theorem storeLineCode_nBits : (storeLineCode code w l s).nBits = s.nBits := by
  cases code <;> rfl
@[simp] theorem storeLineCode_nSym : (storeLineCode code w l s).nSym = s.nSym := by
  cases code <;> rfl
@[simp] theorem storeLineCode_nLevel :
    (storeLineCode code w l s).nLevel = countWord (lineLevels code w l).length := by
  cases code <;> rfl
@[simp] theorem storeLineCode_nParam : (storeLineCode code w l s).nParam = s.nParam := by
  cases code <;> rfl
@[simp] theorem storeLineCode_nSample : (storeLineCode code w l s).nSample = s.nSample := by
  cases code <;> rfl
@[simp] theorem storeLineCode_nDec : (storeLineCode code w l s).nDec = s.nDec := by
  cases code <;> rfl
@[simp] theorem storeLineCode_grayN : (storeLineCode code w l s).grayN = s.grayN := by
  cases code <;> rfl
@[simp] theorem storeLineCode_dictN : (storeLineCode code w l s).dictN = s.dictN := by
  cases code <;> rfl
@[simp] theorem storeLineCode_dictLen : (storeLineCode code w l s).dictLen = s.dictLen := by
  cases code <;> rfl
@[simp] theorem storeLineCode_dictKey : (storeLineCode code w l s).dictKey = s.dictKey := by
  cases code <;> rfl
@[simp] theorem storeLineCode_snap : (storeLineCode code w l s).snap = s.snap := by
  cases code <;> rfl
@[simp] theorem storeLineCode_mem :
    (storeLineCode code w l s).mem = writeEntries .level 0 ((lineLevels code w l).map (BitVec.ofInt 64)) s.mem := by
  cases code <;> rfl
@[simp] theorem storeLineCode_host : (storeLineCode code w l s).host = s.host := by
  cases code <;> rfl
@[simp] theorem storeLineCode_response : (storeLineCode code w l s).response = s.response := by
  cases code <;> rfl
@[simp] theorem storeLineCode_noiseQueue : (storeLineCode code w l s).noiseQueue = s.noiseQueue := by
  cases code <;> rfl
@[simp] theorem storeLineCode_noiseTaken : (storeLineCode code w l s).noiseTaken = s.noiseTaken := by
  cases code <;> rfl
@[simp] theorem storeLineCode_freeReads : (storeLineCode code w l s).freeReads = s.freeReads := by
  cases code <;> rfl

end

end Sys2Proof.Machine
end

