-- ==== Sys2Proof/Laws/Commands.lean ====
section
/-! SUPPORT. What each check, each shared operation and each command can do, said once: how a command ends (`Ends`) and
what its next state is (`execX_ends`). Later proofs cite these instead of unfolding the commands. -/

namespace Sys2Proof.Machine

/-! ### How a piece of a command ends -/

/-- The entry a fault names was never written (70_reset_and_hazards.md R232). -/
def Unwritten (s : State) (f : Fault) : Prop :=
  ∃ id k, f = .unwrittenEntry id k ∧ s.mem.readWord (MemId.addr id k) = none

/-- A piece of a command that started in `s` ends with a value that satisfies `post`, with one of the error codes, or
with the fault of an entry unwritten in `s`. -/
def Ends {α : Type} (s : State) (codes : List ErrCode) (r : Except Stop α) (post : α → Prop) : Prop :=
  match r with
  | .ok a => post a
  | .error (.error c) => c ∈ codes
  | .error (.fault f) => Unwritten s f

section
variable {α β : Type} {s : State} {codes : List ErrCode}

theorem ends_pure {a : α} {post : α → Prop} (h : post a) : Ends s codes (pure a) post := h

theorem ends_bind {r : Except Stop α} {f : α → Except Stop β} {mid : α → Prop} {post : β → Prop}
    (hr : Ends s codes r mid) (hf : ∀ a, mid a → Ends s codes (f a) post) : Ends s codes (r >>= f) post := by
  rcases r with (c | g) | a
  · exact hr
  · exact hr
  · exact hf a hr

theorem ends_mono {r : Except Stop α} {post post' : α → Prop} (hr : Ends s codes r post)
    (h : ∀ a, post a → post' a) : Ends s codes r post' := by
  rcases r with (c | g) | a
  · exact hr
  · exact hr
  · exact h a hr

theorem ends_map {r : Except Stop α} {f : α → β} {post : β → Prop}
    (hr : Ends s codes r (fun a => post (f a))) : Ends s codes (r.map f) post := by
  rcases r with (c | g) | a <;> exact hr

/-! ### Checks (60_exceptions.md R203) -/

theorem ends_cfgScheme {c : Snapshot} (hc : .cfgScheme ∈ codes) :
    Ends s codes (cfgScheme c) (fun sch => cfgScheme c = .ok sch) := by
  unfold cfgScheme
  cases schemeOfCode c.schemeCode with
  | none => exact hc
  | some sch => rfl

theorem ends_cfgW {c : Snapshot} {sch : Scheme} (hc : .cfgBps ∈ codes) :
    Ends s codes (cfgW c sch) (fun w => cfgW c sch = .ok w) := by
  unfold cfgW
  split
  · rfl
  · rfl
  · split
    · exact hc
    · rfl

/-- QPSK and 16-QAM read no width, so their `cfgW` never fails (43_modulation.md R139, R141). -/
theorem ends_cfgW_fixed {c : Snapshot} {m : Modulation} (hm : m = .qpsk ∨ m = .qam16) :
    Ends s codes (cfgW c (.carrier m)) (fun w => cfgW c (.carrier m) = .ok w) := by
  rcases hm with rfl | rfl <;> rfl

theorem ends_needSps {c : Snapshot} (hc : .cfgSps ∈ codes) :
    Ends s codes (needSps c) (fun _ => c.sps ≠ 0) := by
  unfold needSps
  split
  · exact hc
  · assumption

theorem ends_needBlock {c : Snapshot} (hc : .cfgBlock ∈ codes) :
    Ends s codes (needBlock c) (fun _ => c.pulseBlock ≠ 0) := by
  unfold needBlock
  split
  · exact hc
  · assumption

theorem ends_needRate {c : Snapshot} (hc : .cfgRate ∈ codes) :
    Ends s codes (needRate c) (fun _ => c.rateLegal = true) := by
  unfold needRate
  split
  · assumption
  · exact hc

theorem ends_needRange {w : Nat} {syms : List Nat} (hc : .dataRange ∈ codes) :
    Ends s codes (needRange w syms) (fun _ => ∀ x ∈ syms, x ≤ 2 ^ w - 1) := by
  unfold needRange
  split
  · exact hc
  · rename_i h
    intro x hx
    by_contra hlt
    exact h (List.any_eq_true.mpr ⟨x, hx, by simpa using hlt⟩)

theorem ends_needCap {n d : Nat} (hc : .capacity ∈ codes) :
    Ends s codes (needCap n d) (fun _ => n ≤ d) := by
  unfold needCap
  split
  · exact hc
  · simpa [Ends] using Nat.le_of_not_lt ‹_›

theorem ends_whenNeeded {b : Bool} {check : Except Stop Unit} {post : Prop}
    (h : b = true → Ends s codes check (fun _ => post)) :
    Ends s codes (whenNeeded b check) (fun _ => b = true → post) := by
  cases b
  · intro hb; cases hb
  · exact ends_mono (h rfl) fun _ hp _ => hp

/-! ### Inputs -/

/-- The words read are those that stand in the memory. -/
theorem ends_inputWords {id : MemId} {n : Nat} :
    Ends s codes (inputWords id n s) (fun ws => readEntries id s.mem n 0 = .ok ws) := by
  unfold inputWords
  cases h : readEntries id s.mem n 0 with
  | ok ws => rfl
  | error f =>
    obtain ⟨k, -, -, hf, hk⟩ := readEntries_eq_error h
    exact ⟨id, k, hf, hk⟩

theorem ends_inputBits {n : Nat} :
    Ends s codes (inputBits n s)
      (fun bits => ∃ ws, readEntries .bit s.mem n 0 = .ok ws ∧ bits = ws.map (fun w => w.getLsbD 0)) :=
  ends_map (ends_mono ends_inputWords fun ws h => ⟨ws, h, rfl⟩)

theorem ends_inputSyms {n : Nat} :
    Ends s codes (inputSyms n s)
      (fun syms => ∃ ws, readEntries .sym s.mem n 0 = .ok ws ∧ syms = ws.map BitVec.toNat) :=
  ends_map (ends_mono ends_inputWords fun ws h => ⟨ws, h, rfl⟩)

theorem ends_inputLevels {n : Nat} :
    Ends s codes (inputLevels n s)
      (fun levels => ∃ ws, readEntries .level s.mem n 0 = .ok ws ∧ levels = ws.map BitVec.toInt) :=
  ends_map (ends_mono ends_inputWords fun ws h => ⟨ws, h, rfl⟩)

theorem ends_inputParams {n : Nat} :
    Ends s codes (inputParams n s)
      (fun params => ∃ ws, readEntries .param s.mem (3 * n) 0 = .ok ws ∧ params = triplesOfWords ws) :=
  ends_map (ends_mono ends_inputWords fun ws h => ⟨ws, h, rfl⟩)

end

/-- What was read has the length asked for. -/
theorem length_of_readEntries {id : MemId} {m : Memory} {n i : Nat} {ws : List Word}
    (h : readEntries id m n i = .ok ws) : ws.length = n := (readEntries_eq_ok.mp h).1

/-- A buffer that holds `ws` reads as `ws`. -/
theorem readEntries_of_holds {s : State} {id : MemId} {ws : List Word} (h : s.Holds id ws) :
    readEntries id s.mem ws.length 0 = .ok ws :=
  readEntries_eq_ok.mpr ⟨rfl, fun k hk => by rw [Nat.zero_add, h k hk, List.getElem?_eq_getElem hk]⟩

theorem holds_of_readEntries {s : State} {id : MemId} {n : Nat} {ws : List Word}
    (h : readEntries id s.mem n 0 = .ok ws) : s.Holds id ws := by
  obtain ⟨hl, hw⟩ := readEntries_eq_ok.mp h
  intro i hi
  have := hw i (by omega)
  rwa [Nat.zero_add, List.getElem?_eq_getElem hi] at this

/-! ### The end of a command (60_exceptions.md R201, R209, R210) -/

/-- How a command that started in `s` ends. -/
def CommandEnds (s : State) (codes : List ErrCode) (effect : State → Prop)
    (o : Host.Outcome State Fault Refusal) : Prop :=
  match o with
  | .next t => (∃ c ∈ codes, t = raiseError c s) ∨ ∃ u, effect u ∧ t = complete u
  | .fault f => Unwritten s f
  | .refused _ => False

theorem finish_ends {s : State} {codes : List ErrCode} {r : Except Stop State} {effect : State → Prop}
    (h : Ends s codes r effect) : CommandEnds s codes effect (finish s r) := by
  rcases r with (c | g) | u
  · exact .inl ⟨c, h, rfl⟩
  · exact h
  · exact .inr ⟨u, h, rfl⟩

/-! ### Memory that only grows -/

/-- Storing entries makes no written word unwritten. -/
theorem readWord_isSome_writeEntries {m : Memory} {id : MemId} {i a : Nat} {ws : List Word}
    (h : (m.readWord a).isSome) : ((writeEntries id i ws m).readWord a).isSome := by
  have byte : ∀ x, (m.readByte x).isSome → ((writeEntries id i ws m).readByte x).isSome := by
    intro x hx
    rw [writeEntries_eq, readByte_writeBytes]
    split
    · rename_i hin
      rw [List.getElem?_eq_getElem (by omega)]
      rfl
    · exact hx
  have le : ∀ n a, (m.readLE n a).isSome → ((writeEntries id i ws m).readLE n a).isSome := by
    intro n
    induction n with
    | zero => intro a _; rfl
    | succ n ih =>
      intro a ha
      simp only [Memory.readLE] at ha ⊢
      cases hb : m.readByte a with
      | none => simp [hb] at ha
      | some b =>
        cases hr : m.readLE n (a + 1) with
        | none => simp [hb, hr] at ha
        | some r =>
          obtain ⟨b', hb'⟩ := Option.isSome_iff_exists.mp (byte a (by simp [hb]))
          obtain ⟨r', hr'⟩ := Option.isSome_iff_exists.mp (ih (a + 1) (by simp [hr]))
          simp [hb', hr']
  simp only [Memory.readWord, Option.isSome_map] at h ⊢
  exact le 8 a h

theorem unwritten_of_store {s t : State} {f : Fault} {id : MemId} {i : Nat} {ws : List Word}
    (ht : t.mem = writeEntries id i ws s.mem) (h : Unwritten t f) : Unwritten s f := by
  obtain ⟨id', k, hf, hk⟩ := h
  refine ⟨id', k, hf, ?_⟩
  cases hs : s.mem.readWord (id'.addr k) with
  | none => rfl
  | some w =>
    have := readWord_isSome_writeEntries (id := id) (i := i) (ws := ws) (m := s.mem) (a := id'.addr k) (by simp [hs])
    rw [← ht, hk] at this
    cases this

theorem ends_of_store {α : Type} {s t : State} {codes : List ErrCode} {r : Except Stop α} {post : α → Prop}
    {id : MemId} {i : Nat} {ws : List Word} (ht : t.mem = writeEntries id i ws s.mem)
    (h : Ends t codes r post) : Ends s codes r post := by
  rcases r with (c | g) | a
  · exact h
  · exact unwritten_of_store ht h
  · exact h

/-! ### What each command does when it completes -/

/-- The output of TX's middle stage fits its memory (45_transceiver.md R170). -/
def StageFits (sch : Scheme) (n w : Nat) : Prop :=
  match sch with
  | .line code => n * levelsPerSymbol (.line code) w ≤ Config.levelDepth
  | .carrier _ => n ≤ Config.paramDepth

/-- The conditions under which TX starts (45_transceiver.md R170). -/
structure TransmitLegal (c : Snapshot) (sch : Scheme) (w n : Nat) : Prop where
  scheme : cfgScheme c = .ok sch
  width : cfgW c sch = .ok w
  sps : c.sps ≠ 0
  block : (schemeIsLine sch && !c.ideal) = true → c.pulseBlock ≠ 0
  rate : (!schemeIsLine sch) = true → c.rateLegal = true
  count : n = c.nBits.toNat / w
  symCap : n ≤ Config.symDepth
  stageCap : StageFits sch n w
  sampleCap : n * levelsPerSymbol sch w * c.sps.toNat ≤ Config.sampleDepth

/-- The state TX leaves before its completion. -/
def transmitted (s : State) (sch : Scheme) (w n : Nat) (ws : List Word) : State :=
  let syms := groupBits w n (ws.map (fun x => x.getLsbD 0))
  let wave := transmitWave s.snap sch w syms
  noiseUnlessIdeal s.snap wave (storeSamples wave (storeStage sch w syms (storeSyms syms s)))

/-- The conditions under which a dictionary of the configuration can be built (45_transceiver.md R174). -/
structure DictPlanLegal (c : Snapshot) (sch : Scheme) (w : Nat) : Prop where
  scheme : cfgScheme c = .ok sch
  width : cfgW c sch = .ok w
  sps : c.sps ≠ 0
  rate : (!schemeIsLine sch) = true → c.rateLegal = true
  cap : 2 ^ w * entryLength c sch w ≤ Config.dictDepth

/-- What `detectBody` gives: the state with its dictionary, and the symbols. -/
def Detected (s : State) (sch : Scheme) (w windows : Nat) (p : State × List Nat) : Prop :=
  ∃ samples dict, p.1 = ensureDict s.snap sch w s ∧
    readEntries .sample p.1.mem (windows * entryLength s.snap sch w) 0 = .ok samples ∧
    ((windows = 0 ∧ dict = []) ∨
      (windows ≠ 0 ∧ readEntries .dict p.1.mem (2 ^ w * entryLength s.snap sch w) 0 = .ok dict)) ∧
    p.2 = detectSymbols (entryLength s.snap sch w) (2 ^ w) windows samples dict

/-- The symbols a command that reads SYM_MEM works on: N_SYM of them, all in range (60_exceptions.md R205). -/
structure InputSymbols (s : State) (w : Nat) (ws : List Word) : Prop where
  read : readEntries .sym s.mem s.snap.nSym.toNat 0 = .ok ws
  range : ∀ x ∈ ws.map BitVec.toNat, x ≤ 2 ^ w - 1

/-- What a line coder does. -/
def LineEffect (code : LineCode) (s u : State) : Prop :=
  ∃ w ws, cfgW s.snap (.line code) = .ok w ∧ InputSymbols s w ws ∧
    s.snap.nSym.toNat * levelsPerSymbol (.line code) w ≤ Config.levelDepth ∧
    u = storeLineCode code w (ws.map BitVec.toNat) s

/-- What a parameter generator does. -/
def ParamEffect (m : Modulation) (s u : State) : Prop :=
  ∃ w ws, cfgW s.snap (.carrier m) = .ok w ∧ InputSymbols s w ws ∧ s.snap.nSym.toNat ≤ Config.paramDepth ∧
    u = storeParams ((ws.map BitVec.toNat).map (symbolTriple m w)) s

/-- The state `u` a successful command leaves before its completion, with all that was checked. -/
def CommandEffect (i : Instr) (s u : State) : Prop :=
  match i with
  | .nop => u = s
  | .sreset => u = softReset s
  | .bits2sym => ∃ sch w ws, cfgScheme s.snap = .ok sch ∧ cfgW s.snap sch = .ok w ∧
      s.snap.nBits.toNat / w ≤ Config.symDepth ∧
      readEntries .bit s.mem (s.snap.nBits.toNat / w * w) 0 = .ok ws ∧
      u = storeSyms (groupBits w (s.snap.nBits.toNat / w) (ws.map (fun x => x.getLsbD 0))) s
  | .sym2dec => ∃ sch w ws, cfgScheme s.snap = .ok sch ∧ cfgW s.snap sch = .ok w ∧ InputSymbols s w ws ∧
      s.snap.nSym.toNat ≤ Config.decDepth ∧ u = storeDecs ((ws.map BitVec.toNat).map (normalized w)) s
  | .sym2bits => ∃ sch w ws, cfgScheme s.snap = .ok sch ∧ cfgW s.snap sch = .ok w ∧ InputSymbols s w ws ∧
      s.snap.nSym.toNat * w ≤ Config.bitDepth ∧
      u = storeBits ((ws.map BitVec.toNat).flatMap (symbolBits w)) s
  | .graygen form => ∃ sch w, cfgScheme s.snap = .ok sch ∧ cfgW s.snap sch = .ok w ∧ 2 ^ w ≤ Config.grayDepth ∧
      u = storeGray form ((List.range (2 ^ w)).map (grayEntry form w)) s
  | .lcencNrz => LineEffect .nrz s u
  | .lcencMan => LineEffect .man s u
  | .lcencAmi => LineEffect .ami s u
  | .modpAsk => ParamEffect .ask s u
  | .modpFsk => ParamEffect .fsk s u
  | .modpPsk => ParamEffect .psk s u
  | .modpQpsk => ParamEffect .qpsk s u
  | .modpQam16 => ParamEffect .qam16 s u
  | .synLevel => ∃ ws, s.snap.sps ≠ 0 ∧ s.snap.nLevel.toNat * s.snap.sps.toNat ≤ Config.sampleDepth ∧
      readEntries .level s.mem s.snap.nLevel.toNat 0 = .ok ws ∧
      u = storeSamples (levelWave s.snap (ws.map BitVec.toInt)) s
  | .synPulse => ∃ ws, s.snap.sps ≠ 0 ∧ s.snap.pulseBlock ≠ 0 ∧
      s.snap.nLevel.toNat * s.snap.sps.toNat ≤ Config.sampleDepth ∧
      readEntries .level s.mem s.snap.nLevel.toNat 0 = .ok ws ∧
      u = storeSamples (pulseWave s.snap (ws.map BitVec.toInt)) s
  | .synCarrier => ∃ ws, s.snap.sps ≠ 0 ∧ s.snap.rateLegal = true ∧
      s.snap.nParam.toNat * s.snap.sps.toNat ≤ Config.sampleDepth ∧
      readEntries .param s.mem (3 * s.snap.nParam.toNat) 0 = .ok ws ∧
      u = storeSamples (carrierWave s.snap (triplesOfWords ws)) s
  | .noise => ∃ ws, readEntries .sample s.mem s.snap.nSample.toNat 0 = .ok ws ∧ u = applyNoise s.snap ws s
  | .tx => ∃ sch w n ws, TransmitLegal s.snap sch w n ∧ readEntries .bit s.mem (n * w) 0 = .ok ws ∧
      u = transmitted s sch w n ws
  | .dictbuild => ∃ sch w, DictPlanLegal s.snap sch w ∧ u = buildDict s.snap sch w s
  | .detect => ∃ sch w windows p, DictPlanLegal s.snap sch w ∧
      windows = s.snap.nSample.toNat / entryLength s.snap sch w ∧ windows ≤ Config.symDepth ∧
      Detected s sch w windows p ∧ u = storeSyms p.2 p.1
  | .rx => ∃ sch w windows p, DictPlanLegal s.snap sch w ∧
      windows = s.snap.nSample.toNat / entryLength s.snap sch w ∧ windows ≤ Config.symDepth ∧
      windows * w ≤ Config.bitDepth ∧ Detected s sch w windows p ∧
      u = storeBits (p.2.flatMap (symbolBits w)) (storeSyms p.2 p.1)

/-! ### Commands, one lemma each -/

section
variable (s : State)

theorem execNop_ends : CommandEnds s (mayRaise .nop) (CommandEffect .nop s) (execNop s) :=
  .inr ⟨s, rfl, rfl⟩

theorem execSreset_ends : CommandEnds s (mayRaise .sreset) (CommandEffect .sreset s) (execSreset s) :=
  .inr ⟨softReset s, rfl, rfl⟩

theorem execBits2Sym_ends : CommandEnds s (mayRaise .bits2sym) (CommandEffect .bits2sym s) (execBits2Sym s) := by
  refine finish_ends (ends_bind (ends_cfgScheme (by decide)) fun sch hs => ends_bind (ends_cfgW (by decide)) fun w hw =>
    ends_bind (ends_needCap (by decide)) fun _ hc => ends_bind ends_inputBits fun bits hb => ends_pure ?_)
  obtain ⟨ws, h1, rfl⟩ := hb
  exact ⟨sch, w, ws, hs, hw, hc, h1, rfl⟩

theorem execSym2Dec_ends : CommandEnds s (mayRaise .sym2dec) (CommandEffect .sym2dec s) (execSym2Dec s) := by
  refine finish_ends (ends_bind (ends_cfgScheme (by decide)) fun sch hs => ends_bind (ends_cfgW (by decide)) fun w hw =>
    ends_bind ends_inputSyms fun syms hy => ends_bind (ends_needRange (by decide)) fun _ hr =>
    ends_bind (ends_needCap (by decide)) fun _ hc => ends_pure ?_)
  obtain ⟨ws, h1, rfl⟩ := hy
  exact ⟨sch, w, ws, hs, hw, ⟨h1, hr⟩, hc, rfl⟩

theorem execSym2Bits_ends : CommandEnds s (mayRaise .sym2bits) (CommandEffect .sym2bits s) (execSym2Bits s) := by
  refine finish_ends (ends_bind (ends_cfgScheme (by decide)) fun sch hs => ends_bind (ends_cfgW (by decide)) fun w hw =>
    ends_bind ends_inputSyms fun syms hy => ends_bind (ends_needRange (by decide)) fun _ hr =>
    ends_bind (ends_needCap (by decide)) fun _ hc => ends_pure ?_)
  obtain ⟨ws, h1, rfl⟩ := hy
  exact ⟨sch, w, ws, hs, hw, ⟨h1, hr⟩, hc, rfl⟩

theorem execGraygen_ends (form : Bool) :
    CommandEnds s (mayRaise (.graygen form)) (CommandEffect (.graygen form) s) (execGraygen form s) := by
  refine finish_ends (ends_bind (ends_cfgScheme (by simp [mayRaise])) fun sch hs =>
    ends_bind (ends_cfgW (by simp [mayRaise])) fun w hw =>
    ends_bind (ends_needCap (by simp [mayRaise])) fun _ hc => ends_pure ?_)
  exact ⟨sch, w, hs, hw, hc, rfl⟩

/-- The line coders share one frame. -/
theorem encodeLine_ends (code : LineCode) (codes : List ErrCode)
    (hc : .cfgBps ∈ codes ∧ .dataRange ∈ codes ∧ .capacity ∈ codes) :
    CommandEnds s codes (LineEffect code s) (encodeLine code s) := by
  refine finish_ends (ends_bind (ends_cfgW hc.1) fun w hw => ends_bind ends_inputSyms fun syms hy =>
    ends_bind (ends_needRange hc.2.1) fun _ hr => ends_bind (ends_needCap hc.2.2) fun _ hcap => ends_pure ?_)
  obtain ⟨ws, h1, rfl⟩ := hy
  exact ⟨w, ws, hw, ⟨h1, hr⟩, hcap, rfl⟩

theorem mapParams_ends (m : Modulation) (codes : List ErrCode)
    (hw : Ends s codes (cfgW s.snap (.carrier m)) (fun w => cfgW s.snap (.carrier m) = .ok w))
    (hc : .dataRange ∈ codes ∧ .capacity ∈ codes) :
    CommandEnds s codes (ParamEffect m s) (mapParams m s) := by
  refine finish_ends (ends_bind hw fun w hw => ends_bind ends_inputSyms fun syms hy =>
    ends_bind (ends_needRange hc.1) fun _ hr => ends_bind (ends_needCap hc.2) fun _ hcap => ends_pure ?_)
  obtain ⟨ws, h1, rfl⟩ := hy
  exact ⟨w, ws, hw, ⟨h1, hr⟩, hcap, rfl⟩

theorem execSynLevel_ends : CommandEnds s (mayRaise .synLevel) (CommandEffect .synLevel s) (execSynLevel s) := by
  refine finish_ends (ends_bind (ends_needSps (by decide)) fun _ hs => ends_bind (ends_needCap (by decide)) fun _ hc =>
    ends_bind ends_inputLevels fun levels hl => ends_pure ?_)
  obtain ⟨ws, h1, rfl⟩ := hl
  exact ⟨ws, hs, hc, h1, rfl⟩

theorem execSynPulse_ends : CommandEnds s (mayRaise .synPulse) (CommandEffect .synPulse s) (execSynPulse s) := by
  refine finish_ends (ends_bind (ends_needSps (by decide)) fun _ hs => ends_bind (ends_needBlock (by decide)) fun _ hb =>
    ends_bind (ends_needCap (by decide)) fun _ hc => ends_bind ends_inputLevels fun levels hl => ends_pure ?_)
  obtain ⟨ws, h1, rfl⟩ := hl
  exact ⟨ws, hs, hb, hc, h1, rfl⟩

theorem execSynCarrier_ends : CommandEnds s (mayRaise .synCarrier) (CommandEffect .synCarrier s) (execSynCarrier s) := by
  refine finish_ends (ends_bind (ends_needSps (by decide)) fun _ hs => ends_bind (ends_needRate (by decide)) fun _ hb =>
    ends_bind (ends_needCap (by decide)) fun _ hc => ends_bind ends_inputParams fun params hl => ends_pure ?_)
  obtain ⟨ws, h1, rfl⟩ := hl
  exact ⟨ws, hs, hb, hc, h1, rfl⟩

theorem execNoise_ends : CommandEnds s (mayRaise .noise) (CommandEffect .noise s) (execNoise s) :=
  finish_ends (ends_bind ends_inputWords fun ws h => ends_pure ⟨ws, h, rfl⟩)

theorem ends_needStageCap {sch : Scheme} {n w : Nat} {codes : List ErrCode} (hc : .capacity ∈ codes) :
    Ends s codes (needStageCap sch n w) (fun _ => StageFits sch n w) := by
  cases sch <;> exact ends_needCap hc

theorem ends_transmitPlan :
    Ends s (mayRaise .tx) (transmitPlan s.snap) (fun p => TransmitLegal s.snap p.1 p.2.1 p.2.2) := by
  refine ends_bind (ends_cfgScheme (by decide)) fun sch hs => ends_bind (ends_cfgW (by decide)) fun w hw =>
    ends_bind (ends_needSps (by decide)) fun _ hsps =>
    ends_bind (ends_whenNeeded fun _ => ends_needBlock (by decide)) fun _ hb =>
    ends_bind (ends_whenNeeded fun _ => ends_needRate (by decide)) fun _ hr =>
    ends_bind (ends_needCap (by decide)) fun _ hc1 => ends_bind (ends_needStageCap s (by decide)) fun _ hc2 =>
    ends_bind (ends_needCap (by decide)) fun _ hc3 => ends_pure ?_
  exact ⟨hs, hw, hsps, hb, hr, rfl, hc1, hc2, hc3⟩

theorem execTx_ends : CommandEnds s (mayRaise .tx) (CommandEffect .tx s) (execTx s) := by
  refine finish_ends (ends_bind (ends_transmitPlan s) ?_)
  rintro ⟨sch, w, n⟩ hp
  refine ends_bind ends_inputBits fun bits hb => ends_pure ?_
  obtain ⟨ws, h1, rfl⟩ := hb
  exact ⟨sch, w, n, ws, hp, h1, rfl⟩

theorem ends_dictPlan {codes : List ErrCode} (hc : ∀ e ∈ mayRaise .dictbuild, e ∈ codes) :
    Ends s codes (dictPlan s.snap) (fun p => DictPlanLegal s.snap p.1 p.2) := by
  refine ends_bind (ends_cfgScheme (hc _ (by decide))) fun sch hs =>
    ends_bind (ends_cfgW (hc _ (by decide))) fun w hw => ends_bind (ends_needSps (hc _ (by decide))) fun _ hsps =>
    ends_bind (ends_whenNeeded fun _ => ends_needRate (hc _ (by decide))) fun _ hr =>
    ends_bind (ends_needCap (hc _ (by decide))) fun _ hcap => ends_pure ?_
  exact ⟨hs, hw, hsps, hr, hcap⟩

theorem execDictbuild_ends : CommandEnds s (mayRaise .dictbuild) (CommandEffect .dictbuild s) (execDictbuild s) := by
  refine finish_ends (ends_bind (ends_dictPlan s fun e he => he) ?_)
  rintro ⟨sch, w⟩ hp
  exact ends_pure ⟨sch, w, hp, rfl⟩

theorem ends_detectPlan {codes : List ErrCode} (hc : ∀ e ∈ mayRaise .detect, e ∈ codes) :
    Ends s codes (detectPlan s.snap) (fun p => DictPlanLegal s.snap p.1 p.2.1 ∧
      p.2.2 = s.snap.nSample.toNat / entryLength s.snap p.1 p.2.1 ∧ p.2.2 ≤ Config.symDepth) := by
  refine ends_bind (ends_dictPlan s hc) ?_
  rintro ⟨sch, w⟩ hp
  refine ends_bind (ends_needCap (hc _ (by decide))) fun _ hcap => ends_pure ⟨hp, rfl, hcap⟩

/-- The state after `ensureDict()` is the state itself, or the state with a new dictionary. -/
theorem ensureDict_eq (c : Snapshot) (sch : Scheme) (w : Nat) :
    (dictCurrent c sch w s = true ∧ ensureDict c sch w s = s) ∨
      (dictCurrent c sch w s = false ∧ ensureDict c sch w s = buildDict c sch w s) := by
  unfold ensureDict
  cases h : dictCurrent c sch w s <;> simp

theorem ends_of_ensureDict {α : Type} {codes : List ErrCode} {r : Except Stop α} {post : α → Prop}
    {c : Snapshot} {sch : Scheme} {w : Nat} (h : Ends (ensureDict c sch w s) codes r post) :
    Ends s codes r post := by
  rcases ensureDict_eq s c sch w with ⟨-, he⟩ | ⟨-, he⟩
  · rwa [he] at h
  · rw [he] at h
    exact ends_of_store (id := .dict) (i := 0) (ws := dictionary c sch w) rfl h

/-- The dictionary words the detector reads. -/
theorem ends_detectorEntries {codes : List ErrCode} {c : Snapshot} {sch : Scheme} {w windows : Nat} :
    Ends s codes (detectorEntries c sch w windows s) (fun dict =>
      (windows = 0 ∧ dict = []) ∨
        (windows ≠ 0 ∧ readEntries .dict s.mem (2 ^ w * entryLength c sch w) 0 = .ok dict)) := by
  unfold detectorEntries
  split
  · exact .inl ⟨‹_›, rfl⟩
  · exact ends_mono ends_inputWords fun ws h => .inr ⟨‹_›, h⟩

theorem ends_detectBody {codes : List ErrCode} {sch : Scheme} {w windows : Nat} :
    Ends s codes (detectBody s.snap sch w windows s) (Detected s sch w windows) :=
  ends_of_ensureDict s (ends_bind ends_inputWords fun samples h1 =>
    ends_bind (ends_detectorEntries _) fun dict h2 => ends_pure ⟨samples, dict, rfl, h1, h2, rfl⟩)

theorem execDetect_ends : CommandEnds s (mayRaise .detect) (CommandEffect .detect s) (execDetect s) := by
  refine finish_ends (ends_bind (ends_detectPlan s fun e he => he) ?_)
  rintro ⟨sch, w, windows⟩ ⟨hp, hn, hcap⟩
  refine ends_bind (ends_detectBody s) ?_
  rintro ⟨t, syms⟩ hd
  exact ends_pure ⟨sch, w, windows, (t, syms), hp, hn, hcap, hd, rfl⟩

theorem execRx_ends : CommandEnds s (mayRaise .rx) (CommandEffect .rx s) (execRx s) := by
  refine finish_ends (ends_bind (ends_detectPlan s fun e he => he) ?_)
  rintro ⟨sch, w, windows⟩ ⟨hp, hn, hcap⟩
  refine ends_bind (ends_needCap (by decide)) fun _ hb => ends_bind (ends_detectBody s) ?_
  rintro ⟨t, syms⟩ hd
  exact ends_pure ⟨sch, w, windows, (t, syms), hp, hn, hcap, hb, hd, rfl⟩

end

/-! ### All commands at once -/

/-- Every command ends with one of its codes, with an effect, or with the fault of an unwritten entry. -/
theorem exec_ends (i : Instr) (s : State) : CommandEnds s (mayRaise i) (CommandEffect i s) (exec i s) := by
  cases i with
  | nop => exact execNop_ends s
  | sreset => exact execSreset_ends s
  | bits2sym => exact execBits2Sym_ends s
  | sym2dec => exact execSym2Dec_ends s
  | sym2bits => exact execSym2Bits_ends s
  | graygen form => exact execGraygen_ends s form
  | lcencNrz => exact encodeLine_ends s .nrz _ (by decide)
  | lcencMan => exact encodeLine_ends s .man _ (by decide)
  | lcencAmi => exact encodeLine_ends s .ami _ (by decide)
  | modpAsk => exact mapParams_ends s .ask _ (ends_cfgW (by decide)) (by decide)
  | modpFsk => exact mapParams_ends s .fsk _ (ends_cfgW (by decide)) (by decide)
  | modpPsk => exact mapParams_ends s .psk _ (ends_cfgW (by decide)) (by decide)
  | modpQpsk => exact mapParams_ends s .qpsk _ (ends_cfgW_fixed (.inl rfl)) (by decide)
  | modpQam16 => exact mapParams_ends s .qam16 _ (ends_cfgW_fixed (.inr rfl)) (by decide)
  | synLevel => exact execSynLevel_ends s
  | synPulse => exact execSynPulse_ends s
  | synCarrier => exact execSynCarrier_ends s
  | noise => exact execNoise_ends s
  | tx => exact execTx_ends s
  | dictbuild => exact execDictbuild_ends s
  | detect => exact execDetect_ends s
  | rx => exact execRx_ends s

/-! ### The running command's write set (20_memory.md R74) -/

theorem endsInError_iff {i : Instr} {s : State} : endsInError i s = true ↔ EndsWithError i s := by
  unfold endsInError EndsWithError
  split <;> rename_i h <;> simp [h]

/-- A command that ends with an error has an empty write set. -/
theorem not_writes_of_endsWithError {i : Instr} {s : State} (h : EndsWithError i s) :
    (∀ r, writesRegister i s r = false) ∧ ∀ id, writesMemory i s id = false := by
  have he := endsInError_iff.mpr h
  exact ⟨fun r => by simp [writesRegister, he], fun id => by simp [writesMemory, he]⟩

/-- Any other command's write set is its row. -/
theorem writes_of_not_endsWithError {i : Instr} {s : State} (h : ¬ EndsWithError i s) :
    (∀ r, writesRegister i s r = rowRegister i s r) ∧ ∀ id, writesMemory i s id = rowMemory i s id := by
  have he : endsInError i s = false := by rw [← Bool.not_eq_true, endsInError_iff]; exact h
  exact ⟨fun r => by simp [writesRegister, he], fun id => by simp [writesMemory, he]⟩

/-- STATUS is in no write set: a read of it always returns the current STATUS (70_reset_and_hazards.md R240). -/
theorem rowRegister_status (i : Instr) (s : State) : rowRegister i s .status = false := by
  cases i <;> simp [rowRegister]

end Sys2Proof.Machine
end

