-- ==== Sys2Proof/Laws/Buffers.lean ====
section
/-! SUPPORT. What the shared operations over buffers do, said once: how long their results are, what a stored buffer
holds and leaves alone, and what a command reads from a buffer that holds given entries. -/

namespace Sys2Proof.Machine

/-! ### Lists cut into equal blocks -/

/-- Blocks of one length make a list of their number times that length. -/
theorem length_flatMap_const {α β : Type} (l : List α) (f : α → List β) (k : Nat) (h : ∀ a, (f a).length = k) :
    (l.flatMap f).length = l.length * k := by
  induction l with
  | nil => simp
  | cons a l ih => rw [List.flatMap_cons, List.length_append, h, ih, List.length_cons]; ring

/-- Item `j` of a list of blocks of one length is item `j % k` of block `j / k`. -/
theorem getElem?_flatMap_const {α β : Type} (l : List α) (f : α → List β) (k : Nat) (hk : 0 < k)
    (h : ∀ a, (f a).length = k) (j : Nat) : (l.flatMap f)[j]? = (l[j / k]?).bind (fun a => (f a)[j % k]?) := by
  induction l generalizing j with
  | nil => simp
  | cons a l ih =>
    rw [List.flatMap_cons]
    by_cases hj : j < k
    · rw [List.getElem?_append_left (by rw [h]; exact hj), Nat.div_eq_of_lt hj, Nat.mod_eq_of_lt hj]
      simp
    · obtain ⟨i, rfl⟩ : ∃ i, j = i + k := ⟨j - k, by omega⟩
      rw [List.getElem?_append_right (by rw [h]; omega), h, ih, Nat.add_sub_cancel, Nat.add_div_right _ hk,
        Nat.add_mod_right]
      simp

/-- Item `i` of a tabulated list. -/
theorem getElem?_map_range {α : Type} (f : Nat → α) {n i : Nat} (h : i < n) :
    ((List.range n).map f)[i]? = some (f i) := by simp [h]

/-! ### Lengths of what the commands compute -/

@[simp] theorem length_symbolBits (w s : Nat) : (symbolBits w s).length = w := by simp [symbolBits]

@[simp] theorem length_groupBits (w n : Nat) (bits : List Bool) : (groupBits w n bits).length = n := by
  simp [groupBits]

theorem length_amiRun (sign : Sign) (bits : List Bool) : (amiRun sign bits).1.length = 2 * bits.length := by
  induction bits generalizing sign with
  | nil => rfl
  | cons b bits ih => simp only [amiRun, List.length_cons, ih]; ring

/-- A symbol of a line code gives `Lsym` levels (00_scope.md R17, 42_line_coder.md R120). -/
theorem length_symbolLevels (code : LineCode) (w s : Nat) :
    (symbolLevels code w s).length = levelsPerSymbol (.line code) w := by
  cases code with
  | nrz => simp [symbolLevels, nrzLevels, levelsPerSymbol]
  | man =>
    simp only [symbolLevels, manLevels, levelsPerSymbol]
    rw [length_flatMap_const _ _ 2 fun _ => rfl, length_symbolBits, Nat.mul_comm]
  | ami => simp only [symbolLevels, levelsPerSymbol, length_amiRun, length_symbolBits]

theorem length_lineLevels (code : LineCode) (w : Nat) (syms : List Nat) :
    (lineLevels code w syms).length = syms.length * levelsPerSymbol (.line code) w :=
  length_flatMap_const _ _ _ (length_symbolLevels code w)

theorem length_levelWave (c : Snapshot) (levels : List Int) :
    (levelWave c levels).length = levels.length * c.sps.toNat :=
  length_flatMap_const _ _ _ fun _ => List.length_replicate

theorem length_carrierBlock (c : Snapshot) (p : Triple) : (carrierBlock c p).length = c.sps.toNat := by
  simp [carrierBlock]

theorem length_carrierWave (c : Snapshot) (params : List Triple) :
    (carrierWave c params).length = params.length * c.sps.toNat :=
  length_flatMap_const _ _ _ (length_carrierBlock c)

theorem length_splitBlocks_wave (c : Snapshot) (hp : c.pulseBlock ≠ 0) (fuel : Nat) (levels : List Int)
    (h : levels.length ≤ fuel) :
    ((splitBlocks c.pulseBlock fuel levels).flatMap (pulseBlockWave c)).length = levels.length * c.sps.toNat := by
  induction fuel generalizing levels with
  | zero => simp [splitBlocks, List.length_eq_zero_iff.mp (Nat.le_zero.mp h)]
  | succ fuel ih =>
    unfold splitBlocks
    cases levels with
    | nil => simp
    | cons l ls =>
      simp only [List.isEmpty_cons, Bool.false_eq_true, if_false, List.flatMap_cons, List.length_append]
      rw [ih _ (by simp only [List.length_drop, List.length_cons] at *; omega)]
      simp only [pulseBlockWave, List.length_map, List.length_range, List.length_take, List.length_drop]
      rw [← Nat.add_mul]
      congr 1
      omega

/-- A block count of at least 1 leaves no level out (44_pulse_noise.md R157). -/
theorem length_pulseWave (c : Snapshot) (hp : c.pulseBlock ≠ 0) (levels : List Int) :
    (pulseWave c levels).length = levels.length * c.sps.toNat :=
  length_splitBlocks_wave c hp _ levels le_rfl

theorem length_flatMap_words (params : List Triple) : (params.flatMap Triple.words).length = 3 * params.length := by
  rw [length_flatMap_const _ _ 3 fun _ => rfl, Nat.mul_comm]

theorem length_dictEntry (c : Snapshot) (sch : Scheme) (w s : Nat) :
    (dictEntry c sch w s).length = entryLength c sch w := by
  cases sch with
  | line code => simp only [dictEntry, length_levelWave, length_symbolLevels, entryLength]
  | carrier m => simp only [dictEntry, length_carrierBlock, entryLength, levelsPerSymbol, Nat.one_mul]

theorem length_dictionary (c : Snapshot) (sch : Scheme) (w : Nat) :
    (dictionary c sch w).length = 2 ^ w * entryLength c sch w := by
  unfold dictionary
  rw [length_flatMap_const _ _ _ (length_dictEntry c sch w), List.length_range]

@[simp] theorem length_detectSymbols (len count windows : Nat) (samples dict : List F64) :
    (detectSymbols len count windows samples dict).length = windows := by simp [detectSymbols]

@[simp] theorem length_draws (n : Nat) (s : State) : (draws n s).length = n := by simp [draws]

/-! ### Bits and symbols (00_scope.md R14, 40_symbol_mapper.md R100) -/

theorem bitsValue_append (bits : List Bool) (b : Bool) : bitsValue (bits ++ [b]) = 2 * bitsValue bits + b.toNat := by
  simp [bitsValue]

theorem weightedSum_succ (w : Nat) (bit : Nat → Bool) :
    weightedSum (w + 1) bit = 2 * weightedSum w bit + (bit w).toNat := by
  unfold weightedSum
  rw [List.range_succ, List.map_append, List.sum_append, ← List.sum_map_mul_left]
  simp only [List.map_cons, List.map_nil, List.sum_cons, List.sum_nil, Nat.add_sub_cancel, Nat.sub_self, pow_zero,
    mul_one, add_zero]
  congr 2
  apply List.map_congr_left
  intro i hi
  rw [show w - i = (w - 1 - i) + 1 by have := List.mem_range.mp hi; omega, pow_succ]
  ring

/-- Shifting bits in one by one gives the sum of their weights. -/
theorem bitsValue_map_range (w : Nat) (bit : Nat → Bool) :
    bitsValue ((List.range w).map bit) = weightedSum w bit := by
  induction w with
  | zero => rfl
  | succ w ih =>
    rw [List.range_succ, List.map_append, List.map_cons, List.map_nil, bitsValue_append, ih, weightedSum_succ]

theorem testBit_eq_componentBit (w s i : Nat) : s.testBit (w - 1 - i) = decide (componentBit w s i = 1) :=
  Nat.testBit_eq_decide_div_mod_eq

/-! ### What a stored buffer holds and leaves alone -/

/-- A word of any memory after storing entries: the stored word, or the word as it was. -/
theorem readWord_writeEntries {id id' : MemId} {i k : Nat} {ws : List Word} {m : Memory}
    (hi : i + ws.length ≤ id.words) (hk : k < id'.words) :
    (writeEntries id i ws m).readWord (id'.addr k) =
      if h : id = id' ∧ i ≤ k ∧ k < i + ws.length then some (ws[k - i]'(by omega)) else m.readWord (id'.addr k) := by
  split
  · rename_i h
    obtain ⟨rfl, h1, h2⟩ := h
    have := readWord_writeEntries_of_inside id i ws m (k - i) (by omega)
    rwa [show i + (k - i) = k by omega] at this
  · rename_i h
    by_cases hne : id = id'
    · subst hne
      apply readWord_writeEntries_of_outside
      have : ¬ (i ≤ k ∧ k < i + ws.length) := fun hh => h ⟨rfl, hh⟩
      simp only [MemId.addr]
      omega
    · apply readWord_writeEntries_of_outside
      have := windows_apart hne
      simp only [MemId.addr] at *
      omega

/-- A state whose memory is that of `s` with `ws` stored from entry 0 holds the stored words. -/
theorem entries_of_store {s t : State} {id : MemId} {ws : List Word} {n : Nat} {f : Nat → Word}
    (ht : t.mem = writeEntries id 0 ws s.mem) (hn : ws.length = n) (hf : ∀ i, i < n → ws[i]? = some (f i)) :
    t.Entries id n f := by
  intro i hi
  have := readWord_writeEntries_of_inside id 0 ws s.mem i (by omega)
  rw [Nat.zero_add] at this
  simp only [State.entry, ht, this]
  have h2 := hf i hi
  rwa [List.getElem?_eq_getElem (by omega)] at h2

/-- It holds what `s` holds in every other memory. -/
theorem entries_of_other_store {s t : State} {id id' : MemId} {n : Nat} {f : Nat → Word} {ws : List Word}
    (h : s.Entries id n f) (hne : id' ≠ id) (hn : n ≤ id.words) (hl : ws.length ≤ id'.words)
    (ht : t.mem = writeEntries id' 0 ws s.mem) : t.Entries id n f := by
  intro i hi
  unfold State.entry
  rw [ht, readWord_writeEntries (by omega) (by omega), dif_neg (fun hh => hne hh.1)]
  exact h i hi

/-- Every byte outside the stored words is kept. -/
theorem kept_of_store {s t u : State} {out : List (MemId × Nat)} {id : MemId} {ws : List Word} {n : Nat}
    (h : Kept s t out) (hu : u.mem = writeEntries id 0 ws t.mem) (hn : ws.length = n) (hm : (id, n) ∈ out) :
    Kept s u out := by
  intro a ha
  have := ha (id, n) hm
  rw [hu, readByte_writeEntries_of_outside, h a ha]
  simp only [Nat.zero_add, hn] at *
  omega

/-! ### What a command reads from a buffer that holds given entries -/

theorem readEntries_of_entries {s : State} {id : MemId} {n : Nat} {f : Nat → Word} (h : s.Entries id n f) :
    readEntries id s.mem n 0 = .ok ((List.range n).map f) := by
  rw [readEntries_eq_ok]
  refine ⟨by simp, fun k hk => ?_⟩
  have := h k hk
  simp only [State.entry] at this
  rw [Nat.zero_add, this, getElem?_map_range f hk]

theorem inputSyms_of_symbols {s : State} {n w : Nat} {sym : Nat → Nat} (h : s.Symbols n w sym) (hw : w ≤ 8) :
    inputSyms n s = .ok ((List.range n).map sym) := by
  unfold inputSyms inputWords
  rw [readEntries_of_entries h.1]
  simp only [Except.map, List.map_map]
  congr 1
  apply List.map_congr_left
  intro k hk
  have hk := h.2 k (List.mem_range.mp hk)
  have : (2 : Nat) ^ w ≤ 2 ^ 8 := Nat.pow_le_pow_right (by decide) hw
  simp only [Function.comp, BitVec.toNat_ofNat]
  omega

theorem inputBits_of_bits {s : State} {n : Nat} {bit : Nat → Bool} (h : s.Bits n bit) :
    inputBits n s = .ok ((List.range n).map bit) := by
  unfold inputBits inputWords
  rw [readEntries_of_entries h]
  simp only [Except.map, List.map_map]
  congr 1
  apply List.map_congr_left
  intro k _
  simp only [Function.comp, wordOfBit]
  cases bit k <;> rfl

theorem needCap_of_le {n depth : Nat} (h : n ≤ depth) : needCap n depth = .ok () := by
  unfold needCap
  rw [if_neg (by omega)]

theorem needSps_of_ne {c : Snapshot} (h : c.sps ≠ 0) : needSps c = .ok () := by
  unfold needSps
  rw [if_neg h]

theorem needRange_of_lt {n w : Nat} {sym : Nat → Nat} (h : ∀ k, k < n → sym k < 2 ^ w) :
    needRange w ((List.range n).map sym) = .ok () := by
  unfold needRange
  rw [if_neg]
  simp only [List.any_eq_true, List.mem_map, List.mem_range, decide_eq_true_eq, not_exists, not_and, not_lt]
  rintro x ⟨k, hk, rfl⟩
  have := h k hk
  omega

/-- `cfgW` of a legal width read from CTRL.BPS. -/
theorem cfgW_of_bps {c : Snapshot} {sch : Scheme} (h1 : 1 ≤ c.bps) (h2 : c.bps ≤ Config.maxBps)
    (hq : sch ≠ .carrier .qpsk) (hq' : sch ≠ .carrier .qam16) : cfgW c sch = .ok c.bps := by
  unfold cfgW
  split
  · exact absurd rfl hq
  · exact absurd rfl hq'
  · rw [if_neg]
    simp only [Bool.or_eq_true, decide_eq_true_eq, not_or, not_lt]
    exact ⟨h1, h2⟩

/-- A legal configuration passes `cfgW` (00_scope.md R17, 60_exceptions.md R203). -/
theorem cfg_of_configured {c : Snapshot} {sch : Scheme} {w : Nat} (h : c.Configured sch w) :
    cfgScheme c = .ok sch ∧ cfgW c sch = .ok w := by
  have hs := h.scheme
  have hw := h.width
  refine ⟨by unfold cfgScheme; rw [hs], ?_⟩
  by_cases hq : sch = .carrier .qpsk ∨ sch = .carrier .qam16
  · unfold schemeOfCode at hs
    unfold effectiveWidth at hw
    split at hs <;> cases hs <;> simp_all [cfgW]
  · have hcode : c.schemeCode ≠ 6 ∧ c.schemeCode ≠ 7 := by
      refine ⟨fun h6 => hq (.inl ?_), fun h7 => hq (.inr ?_)⟩
      · rw [h6] at hs; exact (Option.some.inj hs).symm
      · rw [h7] at hs; exact (Option.some.inj hs).symm
    have hwb : w = c.bps := by simpa [effectiveWidth, hcode.1, hcode.2] using hw
    have hr := h.range
    rw [hwb] at hr ⊢
    exact cfgW_of_bps hr.1 hr.2 (fun e => hq (.inl e)) (fun e => hq (.inr e))

end Sys2Proof.Machine
end

