-- ==== Sys2Proof/Laws/PerInstr.lean ====
section
/-! SUPPORT. Statements made per instruction: the word the spec's encoding gives a command is legal, its fields are
the opcode of the map and FORM, and it decodes to the command (30_encoding.md R87, R90, R94). -/

namespace Sys2Proof.Laws

/-- The encoded word of a command is legal by each check of 30_encoding.md R87, and decodes to the command. -/
def LegalEncoding.Statement (i : Instr) : Prop :=
  (fieldsOf (encode i)).wellFormed = true ∧ decode (encode i) = .ok i

theorem LegalEncoding.nop : LegalEncoding.Statement .nop := ⟨by decide, by rfl⟩

theorem LegalEncoding.sreset : LegalEncoding.Statement .sreset := ⟨by decide, by rfl⟩

theorem LegalEncoding.bits2sym : LegalEncoding.Statement .bits2sym := ⟨by decide, by rfl⟩

theorem LegalEncoding.sym2dec : LegalEncoding.Statement .sym2dec := ⟨by decide, by rfl⟩

theorem LegalEncoding.sym2bits : LegalEncoding.Statement .sym2bits := ⟨by decide, by rfl⟩

theorem LegalEncoding.graygen (form : Bool) : LegalEncoding.Statement (.graygen form) := by
  cases form <;> exact ⟨by decide, by rfl⟩

theorem LegalEncoding.lcencNrz : LegalEncoding.Statement .lcencNrz := ⟨by decide, by rfl⟩

theorem LegalEncoding.lcencMan : LegalEncoding.Statement .lcencMan := ⟨by decide, by rfl⟩

theorem LegalEncoding.lcencAmi : LegalEncoding.Statement .lcencAmi := ⟨by decide, by rfl⟩

theorem LegalEncoding.modpAsk : LegalEncoding.Statement .modpAsk := ⟨by decide, by rfl⟩

theorem LegalEncoding.modpFsk : LegalEncoding.Statement .modpFsk := ⟨by decide, by rfl⟩

theorem LegalEncoding.modpPsk : LegalEncoding.Statement .modpPsk := ⟨by decide, by rfl⟩

theorem LegalEncoding.modpQpsk : LegalEncoding.Statement .modpQpsk := ⟨by decide, by rfl⟩

theorem LegalEncoding.modpQam16 : LegalEncoding.Statement .modpQam16 := ⟨by decide, by rfl⟩

theorem LegalEncoding.synLevel : LegalEncoding.Statement .synLevel := ⟨by decide, by rfl⟩

theorem LegalEncoding.synPulse : LegalEncoding.Statement .synPulse := ⟨by decide, by rfl⟩

theorem LegalEncoding.synCarrier : LegalEncoding.Statement .synCarrier := ⟨by decide, by rfl⟩

theorem LegalEncoding.noise : LegalEncoding.Statement .noise := ⟨by decide, by rfl⟩

theorem LegalEncoding.tx : LegalEncoding.Statement .tx := ⟨by decide, by rfl⟩

theorem LegalEncoding.dictbuild : LegalEncoding.Statement .dictbuild := ⟨by decide, by rfl⟩

theorem LegalEncoding.detect : LegalEncoding.Statement .detect := ⟨by decide, by rfl⟩

theorem LegalEncoding.rx : LegalEncoding.Statement .rx := ⟨by decide, by rfl⟩

end Sys2Proof.Laws
end

