-- ==== Sys2Proof/Tests/Slice0.lean ====
section
/-! SUPPORT. Tests: legality and decoding of words written out from 30_encoding.md R86, R90, R94; one step of each command
on the vectors of 95_test_vectors.md; and for every obligation with hypotheses a state and operands that meet them. -/

set_option Elab.async false

namespace Sys2Proof.Tests

open Sys2Proof Sys2Proof.Machine

/-! ### Helpers -/

/-- How many words the list gives a memory. -/
def wordsIn (id : MemId) (buffers : List (MemId × List Word)) : Nat :=
  (buffers.map (fun b => if b.1 = id then b.2.length else 0)).sum

/-- A reset machine with CTRL and SPS, buffers from entry 0 on with their counts, and a command word just accepted. -/
def bench (word ctrl : Word) (sps : BitVec 32) (buffers : List (MemId × List Word)) : State :=
  latchCommand word
    { State.reset with
      ctrl := ctrl
      sps := sps
      nBits := countWord (wordsIn .bit buffers)
      nSym := countWord (wordsIn .sym buffers)
      nLevel := countWord (wordsIn .level buffers)
      nParam := countWord (wordsIn .param buffers / 3)
      nSample := countWord (wordsIn .sample buffers)
      mem := buffers.foldl (fun m b => writeEntries b.1 0 b.2 m) [] }

/-- The outcome is a next state with the property. -/
def ends (r : Host.Outcome State Fault Refusal) (p : State → Bool) : Bool :=
  match r with
  | .next t => p t
  | .fault _ => false
  | .refused _ => false

/-- The words of a memory from entry 0 on are these. -/
def shows (t : State) (id : MemId) (ws : List Word) : Bool :=
  (List.range ws.length).all (fun i => t.entry id i == ws[i]?)

/-- Binary64 numerals. -/
def f1 : F64 := 0x3FF0000000000000#64
def fm1 : F64 := 0xBFF0000000000000#64

/-! ### Legality of command words (30_encoding.md R87): an ill-formed word for each check -/

theorem test_upper_bits_refused :
    (fieldsOf 0x100000000#64).upperClear = false ∧ decode 0x100000000#64 = .error .upperBits := by decide

theorem test_reserved_bits_refused :
    (fieldsOf 0x200#64).rsvClear = false ∧ (fieldsOf 0x80000000#64).rsvClear = false ∧
      decode 0x200#64 = .error .reservedBits ∧ decode 0x80000000#64 = .error .reservedBits := by decide

theorem test_reserved_opcode_refused :
    (fieldsOf 0x02#64).opcodeListed = false ∧ (fieldsOf 0xFF#64).opcodeListed = false ∧
      decode 0x02#64 = .error .reservedOpcode ∧ decode 0xFF#64 = .error .reservedOpcode := by decide

theorem test_form_bit_refused :
    (fieldsOf 0x110#64).formAllowed = false ∧ decode 0x110#64 = .error .formBit ∧
      (fieldsOf 0x118#64).formAllowed = true := by decide

/-! ### Decoding: words written bit by bit, OPCODE [7:0], FORM [8] (30_encoding.md R86, R90) -/

theorem test_decode_system :
    decode 0b000000000#64 = .ok .nop ∧ decode 0b000000001#64 = .ok .sreset := by decide

theorem test_decode_symbol_mapper :
    decode 0b000010000#64 = .ok .bits2sym ∧ decode 0b000010001#64 = .ok .sym2dec ∧
      decode 0b000010010#64 = .ok .sym2bits := by decide

theorem test_decode_gray :
    decode 0b000011000#64 = .ok (.graygen false) ∧ decode 0b100011000#64 = .ok (.graygen true) := by decide

theorem test_decode_line_coder :
    decode 0b000100000#64 = .ok .lcencNrz ∧ decode 0b000100001#64 = .ok .lcencMan ∧
      decode 0b000100010#64 = .ok .lcencAmi := by decide

theorem test_decode_modulation :
    decode 0b000110000#64 = .ok .modpAsk ∧ decode 0b000110001#64 = .ok .modpFsk ∧
      decode 0b000110010#64 = .ok .modpPsk ∧ decode 0b000110011#64 = .ok .modpQpsk ∧
      decode 0b000110100#64 = .ok .modpQam16 := by decide

theorem test_decode_synthesis :
    decode 0b001000000#64 = .ok .synLevel ∧ decode 0b001000001#64 = .ok .synPulse ∧
      decode 0b001000010#64 = .ok .synCarrier ∧ decode 0b001001000#64 = .ok .noise := by decide

theorem test_decode_transceiver :
    decode 0b001010000#64 = .ok .tx ∧ decode 0b001010001#64 = .ok .dictbuild ∧
      decode 0b001010010#64 = .ok .detect ∧ decode 0b001010011#64 = .ok .rx := by decide

theorem test_table_word :
    decodeTableWord 32 0x118 = some (.graygen true) ∧ decodeTableWord 8 0x53 = some .rx ∧
      decodeTableWord 32 0x200 = none := by decide

/-! ### One step of each command (95_test_vectors.md) -/

/-- V100: ERR and ERRCODE are cleared by acceptance, STATUS reads 0x2. -/
theorem test_nop :
    ends (exec .nop (latchCommand 0#64 (raiseError .dataRange State.reset))) (fun t => t.status == 0x2#64) = true := by
  decide +kernel

/-- V101. -/
theorem test_sreset :
    ends (exec .sreset (bench 0x01#64 0x01234#64 3#32 [(.bit, [1#64])]))
      (fun t => t.ctrl == 0x41100#64 && t.sps == 16#32 && t.nBits == 0#64 && t.status == 0x10002#64 && t.cmd == 1#64)
      = true := by decide +kernel

/-- The example of 40_symbol_mapper.md R100: the fifth bit is dropped. -/
theorem test_bits2sym :
    ends (exec .bits2sym (bench 0x10#64 0x40200#64 16#32 [(.bit, [1#64, 0#64, 1#64, 1#64, 0#64])]))
      (fun t => t.nSym == 2#64 && shows t .sym [2#64, 3#64] && t.status == 0x100002#64) = true := by decide +kernel

/-- V5: CFG_SCHEME wins. -/
theorem test_bits2sym_error :
    ends (exec .bits2sym (bench 0x10#64 0x40908#64 16#32 [])) (fun t => t.status == 0x100206#64) = true := by
  decide +kernel

/-- V6. -/
theorem test_sym2dec :
    ends (exec .sym2dec (bench 0x11#64 0x40800#64 16#32 [(.sym, [0#64, 1#64, 128#64, 255#64])]))
      (fun t => t.nDec == 4#64 && shows t .dec
        [0#64, 0x3F70101010101010#64, 0x3FE0101010101010#64, 0x3FF0000000000000#64]) = true := by decide +kernel

/-- V8. -/
theorem test_sym2dec_range :
    ends (exec .sym2dec (bench 0x11#64 0x40300#64 16#32 [(.sym, [7#64, 8#64])]))
      (fun t => t.status == 0x110706#64 && t.nDec == 0#64) = true := by decide +kernel

/-- V12. -/
theorem test_sym2bits :
    ends (exec .sym2bits (bench 0x12#64 0x40400#64 16#32 [(.sym, [5#64, 12#64])]))
      (fun t => t.nBits == 8#64 && shows t .bit [0#64, 1#64, 0#64, 1#64, 1#64, 1#64, 0#64, 0#64]) = true := by
  decide +kernel

/-- An entry never written is a fault (70_reset_and_hazards.md R232). -/
theorem test_sym2bits_unwritten :
    exec .sym2bits { bench 0x12#64 0x40400#64 16#32 [] with snap.nSym := 1#64 } =
      .fault (.unwrittenEntry .sym 0) := by rfl

/-- V20. -/
theorem test_graygen :
    ends (exec (.graygen false) (bench 0x18#64 0x40305#64 16#32 []))
      (fun t => t.grayN == 8#64 && shows t .gray [0#64, 1#64, 3#64, 2#64, 6#64, 7#64, 5#64, 4#64] &&
        t.status == 0x180002#64) = true := by decide +kernel

/-- V21, its first four entries. -/
theorem test_graygen_dec :
    ends (exec (.graygen true) (bench 0x118#64 0x40305#64 16#32 []))
      (fun t => shows t .gray [0#64, 0x3FC2492492492492#64, 0x3FDB6DB6DB6DB6DB#64, 0x3FD2492492492492#64] &&
        t.status == 0x180042#64) = true := by decide +kernel

/-- V30. -/
theorem test_lcenc_nrz :
    ends (exec .lcencNrz (bench 0x20#64 0x40200#64 16#32 [(.sym, [3#64, 1#64, 2#64])]))
      (fun t => t.nLevel == 6#64 && shows t .level [1#64, 1#64, -1#64, 1#64, 1#64, -1#64]) = true := by decide +kernel

/-- V38: CTRL.SCHEME is not read. -/
theorem test_lcenc_nrz_error :
    ends (exec .lcencNrz (bench 0x20#64 0x40009#64 16#32 [(.sym, [1#64])])) (fun t => t.status == 0x200306#64) = true := by
  decide +kernel

/-- V35. -/
theorem test_lcenc_man :
    ends (exec .lcencMan (bench 0x21#64 0x40400#64 16#32 [(.sym, [0b1001#64])]))
      (fun t => t.nLevel == 8#64 && shows t .level [0#64, 1#64, 1#64, 0#64, 1#64, 0#64, 0#64, 1#64]) = true := by
  decide +kernel

/-- V34. -/
theorem test_lcenc_ami :
    ends (exec .lcencAmi (bench 0x22#64 0x40400#64 16#32 [(.sym, [0b1011#64])]))
      (fun t => t.status == 0x220022#64 && shows t .level [1#64, 0#64, 0#64, 0#64, -1#64, 0#64, 1#64, 0#64]) = true := by
  decide +kernel

/-- V41. -/
theorem test_modp_ask :
    ends (exec .modpAsk (bench 0x30#64 0x40200#64 16#32 [(.sym, [3#64, 1#64])]))
      (fun t => t.nParam == 2#64 && shows t .param [f1, f1, 0#64, 0x3FD5555555555555#64, f1, 0#64]) = true := by
  decide +kernel

/-- V42, two of its symbols. -/
theorem test_modp_fsk :
    ends (exec .modpFsk (bench 0x31#64 0x40200#64 16#32 [(.sym, [1#64, 3#64])]))
      (fun t => shows t .param [f1, 0x3FF5555555555555#64, 0#64, f1, 0x4000000000000000#64, 0#64]) = true := by
  decide +kernel

/-- V45, two of its symbols: phases 1.40625 and 358.59375. -/
theorem test_modp_psk :
    ends (exec .modpPsk (bench 0x32#64 0x40800#64 16#32 [(.sym, [1#64, 128#64])]))
      (fun t => shows t .param [f1, f1, 0x3FF6800000000000#64, f1, f1, 0x4076698000000000#64]) = true := by decide +kernel

/-- V46: no width is read. -/
theorem test_modp_qpsk :
    ends (exec .modpQpsk (bench 0x33#64 0x40000#64 16#32 [(.sym, [1#64])]))
      (fun t => t.status == 0x330002#64 && shows t .param [f1, f1, 0x4056800000000000#64]) = true := by decide +kernel

/-- V40: amplitude and frequency of symbols 0 and 5. -/
theorem test_modp_qam16 :
    ends (exec .modpQam16 (bench 0x34#64 0x40000#64 16#32 [(.sym, [0#64, 5#64])]))
      (fun t => t.entry .param 0 == some 0x3FEFFFFFFFFFFFFF#64 && t.entry .param 1 == some f1 &&
        t.entry .param 3 == some 0x3FD5555555555554#64) = true := by decide +kernel

/-- V47. -/
theorem test_modp_qam16_range :
    ends (exec .modpQam16 (bench 0x34#64 0x40000#64 16#32 [(.sym, [16#64])])) (fun t => t.status == 0x340706#64) = true := by
  decide +kernel

/-- V61: 0 × −2.0 is −0.0. -/
theorem test_syn_level :
    ends (exec .synLevel
        { bench 0x40#64 0x41100#64 1#32 [(.level, [0#64, 1#64, -1#64])] with snap.peakV := 0xC000000000000000#64 })
      (fun t => t.nSample == 3#64 &&
        shows t .sample [0x8000000000000000#64, 0xC000000000000000#64, 0x4000000000000000#64]) = true := by decide +kernel

/-- V62. -/
theorem test_syn_level_error :
    ends (exec .synLevel (bench 0x40#64 0x41100#64 0#32 [])) (fun t => t.status == 0x400406#64) = true := by decide +kernel

/-- V70. -/
theorem test_syn_pulse_error :
    ends (exec .synPulse (bench 0x41#64 0x00100#64 16#32 [])) (fun t => t.status == 0x410506#64) = true := by decide +kernel

/-- 44_pulse_noise.md R158: N_LEVEL·SPS samples. -/
theorem test_syn_pulse :
    ends (exec .synPulse (bench 0x41#64 0x40100#64 3#32 [(.level, [1#64])]))
      (fun t => t.nSample == 3#64 && t.status == 0x410002#64) = true := by decide +kernel

/-- V54: a subnormal rate is legal, +0.0 is not. -/
theorem test_syn_carrier_rate :
    ends (exec .synCarrier { bench 0x42#64 0x41103#64 16#32 [] with snap.sampleRate := 1#64 })
        (fun t => t.status == 0x420002#64 && t.nSample == 0#64) = true ∧
      ends (exec .synCarrier { bench 0x42#64 0x41103#64 16#32 [] with snap.sampleRate := 0#64 })
        (fun t => t.status == 0x420606#64) = true := by decide +kernel

/-- 43_modulation.md R145: SPS samples a triple. -/
theorem test_syn_carrier :
    ends (exec .synCarrier (bench 0x42#64 0x41103#64 4#32 [(.param, [f1, f1, 0#64])]))
      (fun t => t.nSample == 4#64 && t.status == 0x420002#64) = true := by decide +kernel

/-- The draw 1.0. -/
def drawOne : Config.FiniteF64 := ⟨false, 1023, 0⟩

/-- V71 with sigma 0.5, one sample 1.0 and the draw 1.0: the sample becomes 1.5 and one draw is taken. -/
theorem test_noise :
    ends (exec .noise
        { bench 0x48#64 0x41100#64 16#32 [(.sample, [f1])] with
          snap.noiseSigma := 0x3FE0000000000000#64, noiseQueue := [drawOne] })
      (fun t => shows t .sample [0x3FF8000000000000#64] && t.noiseQueue == [] && t.noiseTaken == 1) = true := by
  decide +kernel

/-- V72: −0.0 + 0.0 × 1.0 is +0.0, and the draw is taken. -/
theorem test_noise_zero :
    ends (exec .noise
        { bench 0x48#64 0x41100#64 16#32 [(.sample, [0x8000000000000000#64])] with
          snap.noiseSigma := 0#64, noiseQueue := [drawOne] })
      (fun t => shows t .sample [0#64] && t.noiseQueue == []) = true := by decide +kernel

/-- V80, its last three bits. -/
theorem test_tx :
    ends (exec .tx (bench 0x50#64 0x41100#64 2#32 [(.bit, [1#64, 0#64, 0#64])]))
      (fun t => shows t .sym [1#64, 0#64, 0#64] && shows t .level [1#64, -1#64, -1#64] &&
        shows t .sample [f1, f1, fm1, fm1, fm1, fm1] && t.status == 0x500002#64) = true := by decide +kernel

/-- V108: CFG_SPS before CFG_RATE. -/
theorem test_tx_error :
    ends (exec .tx { bench 0x50#64 0x00103#64 0#32 [] with snap.sampleRate := 0#64 })
      (fun t => t.status == 0x500406#64) = true := by decide +kernel

/-- V86. -/
theorem test_dictbuild :
    ends (exec .dictbuild (bench 0x51#64 0x41202#64 1#32 []))
      (fun t => t.dictN == 4#64 && t.dictLen == 4#64 && t.status == 0x510012#64 &&
        shows t .dict [0#64, 0#64, 0#64, 0#64, 0#64, 0#64, f1, 0#64, f1, 0#64, 0#64, 0#64, f1, 0#64, fm1, 0#64]) = true := by
  decide +kernel

/-- V82. -/
theorem test_detect :
    ends (exec .detect (bench 0x52#64 0x41100#64 2#32 [(.sample,
        [0x3FECCCCCCCCCCCCD#64, 0x3FF3333333333333#64, 0xBFD3333333333333#64, 0xBFF199999999999A#64, 0x3FB999999999999A#64])]))
      (fun t => t.nSym == 2#64 && shows t .sym [1#64, 0#64] && t.status == 0x520012#64) = true := by decide +kernel

/-- V81, two of its symbols. -/
theorem test_rx :
    ends (exec .rx (bench 0x53#64 0x41100#64 2#32 [(.sample, [fm1, fm1, f1, f1])]))
      (fun t => t.nBits == 2#64 && shows t .bit [0#64, 1#64] && t.dictLen == 2#64 && t.status == 0x530012#64) = true := by
  decide +kernel

/-! ### The host bus -/

/-- V104 and V105. -/
theorem test_illegal_words :
    (hostWrite 8 0x38#24 0x100000000#64 State.reset).status = 0x106#64 ∧
      (hostWrite 8 0x38#24 0x100000000#64 State.reset).cmd = 0x100000000#64 ∧
      (hostWrite 8 0x38#24 0x200#64 State.reset).status = 0x106#64 ∧
      (hostWrite 8 0x38#24 0x02#64 State.reset).status = 0x20106#64 := by decide +kernel

/-- V114 and V115. -/
theorem test_bus_targets :
    busTarget 8 0x000004#24 = .invalid ∧ busTarget 8 0x300000#24 = .invalid ∧ busTarget 8 0x018000#24 = .invalid ∧
      busTarget 8 0x017FF8#24 = .entry .bit 4095 ∧ busTarget 8 0x000090#24 = .register none ∧
      busTarget 8 0x000088#24 = .register (some .dictLen) := by decide +kernel

/-- A DETECT that is going to end with CFG_SPS writes only STATUS (20_memory.md R74), so DICT_N reads its current value; one
that rebuilds the dictionary has it in its write set (70_reset_and_hazards.md R240). -/
theorem test_busy_reads :
    hostRead 8 RegId.dictN.busAddr (bench 0x52#64 0x41100#64 0#32 []) =
        .next { bench 0x52#64 0x41100#64 0#32 [] with response := .data 0#64 } ∧
      writesRegister .detect (bench 0x52#64 0x41100#64 0#32 []) .dictN = false ∧
      writesMemory .detect (bench 0x52#64 0x41100#64 0#32 []) .dict = false ∧
      writesRegister .detect (bench 0x52#64 0x41100#64 1#32 []) .dictN = true :=
  ⟨rfl, by decide, by decide, by decide⟩

/-- The table word of GRAYGEN runs as the first command after reset (30_encoding.md R94). -/
theorem test_fetch_word :
    ends (step (State.reset.withFetchWord 32 0x18)) (fun t => t.grayN == 2#64 && shows t .gray [0#64, 1#64]) = true := by
  decide +kernel

/-! ### Witnesses: a state and operands that meet the hypotheses of each obligation -/

/-- The four kinds of word that are no command, at the edges of the fields, and a legal word. -/
theorem witness_IllegalCommandWordsRejected :
    State.reset.busy = false ∧ decode 0x118#64 = .ok (.graygen true) ∧
      ∀ v ∈ [0x200#64, 0x80000000#64, 0x100000000#64, 0x54#64, 0x110#64], ¬ ∃ i, decode v = .ok i := by
  refine ⟨by decide, by decide, fun v hv => ?_⟩
  have h : ∃ e, decode v = .error e := by
    simp only [List.mem_cons, List.not_mem_nil, or_false] at hv
    obtain rfl | rfl | rfl | rfl | rfl := hv
    · exact ⟨.reservedBits, by decide⟩
    · exact ⟨.reservedBits, by decide⟩
    · exact ⟨.upperBits, by decide⟩
    · exact ⟨.reservedOpcode, by decide⟩
    · exact ⟨.formBit, by decide⟩
  rintro ⟨i, hi⟩
  obtain ⟨e, he⟩ := h
  rw [he] at hi
  cases hi

theorem witness_DecodeEncodeAgree : decode 0x53#64 = .ok .rx := by decide

theorem witness_StepRunsDecodedCommand :
    (bench 0x10#64 0x41100#64 1#32 []).busy = true ∧
      (∀ e es, (bench 0x10#64 0x41100#64 1#32 []).host = e :: es → e.early = false) ∧
      decode (bench 0x10#64 0x41100#64 1#32 []).snap.word = .ok .bits2sym :=
  ⟨by decide, nofun, by decide⟩

/-- A pending read of STATUS. -/
def pending (early : Bool) : List HostEvent := [⟨early, .read 8 0x40#24⟩]

theorem witness_StepPerformsHostAccess :
    (State.reset.host = [] ∧ State.reset.busy = false) ∧
      ({ State.reset with host := pending false }.host = ⟨false, .read 8 0x40#24⟩ :: [] ∧
        { State.reset with host := pending false }.busy = false) ∧
      ({ bench 0x10#64 0x41100#64 1#32 [] with host := pending true }.host = ⟨true, .read 8 0x40#24⟩ :: [] ∧
        (⟨true, .read 8 0x40#24⟩ : HostEvent).early = true) := by decide

theorem witness_FetchedWordRuns : decodeTableWord 32 0x118 = some (.graygen true) := by decide

theorem witness_AcceptanceOfCommandWord :
    State.reset.busy = false ∧ decode 0x00#64 = .ok .nop ∧ decode 0x02#64 = .error .reservedOpcode ∧
      ∀ e es, State.reset.host = e :: es → e.early = false := ⟨by decide, by decide, by decide, nofun⟩

theorem witness_ErrorsAreAllOrNothing :
    (∃ t, exec .nop State.reset = .next t) ∧
      ∃ t, exec .bits2sym (bench 0x10#64 0x40900#64 1#32 []) = .next t ∧ t.errCode = 0x03#8 :=
  ⟨⟨_, rfl⟩, _, rfl, rfl⟩

theorem witness_OnlyListedErrorsRaised :
    (bench 0x10#64 0x40900#64 1#32 []).err = false ∧
      ∃ t, exec .bits2sym (bench 0x10#64 0x40900#64 1#32 []) = .next t ∧ t.err = true := ⟨by decide, _, rfl, rfl⟩

/-- Without a valid dictionary there is nothing for DICT_MEM to hold. -/
theorem reset_dictionary (s : State) (h : s.dictValid = false) : s.DictionaryLegal := by
  constructor <;> (intro hv; rw [h] at hv; cases hv)

/-- A configuration error on a fresh machine with nothing written; a DATA_RANGE error with the one symbol written; a legal
command with its input bit written, and one with no input. -/
theorem witness_FirstFailingCheckReported :
    (let s := bench 0x53#64 0x41100#64 0#32 [];
      s.DictionaryLegal ∧ firstError .rx s = some .cfgSps ∧ ¬ (ErrCode.cfgSps = .dataRange ∨ ErrCode.cfgSps = .capacity)) ∧
    (let s := bench 0x11#64 0x40100#64 1#32 [(.sym, [2#64])];
      s.DictionaryLegal ∧ firstError .sym2dec s = some .dataRange ∧ readsSymbols .sym2dec = true ∧
        s.Written .sym s.snap.nSym.toNat) ∧
    (let s := bench 0x10#64 0x41100#64 1#32 [(.bit, [1#64])];
      s.DictionaryLegal ∧ firstError .bits2sym s = none ∧ s.InputsWritten .bits2sym) ∧
    (let s := bench 0x51#64 0x41100#64 1#32 [];
      s.DictionaryLegal ∧ firstError .dictbuild s = none ∧ s.InputsWritten .dictbuild) :=
  ⟨⟨reset_dictionary _ rfl, by decide +kernel, by decide⟩,
    ⟨reset_dictionary _ rfl, by decide +kernel, rfl, (by decide +kernel :
      ∀ k, k < 1 → ((bench 0x11#64 0x40100#64 1#32 [(.sym, [2#64])]).entry .sym k).isSome = true)⟩,
    ⟨reset_dictionary _ rfl, by decide +kernel, fun p hp => by
      obtain rfl : p = (.bit, 1) := List.mem_singleton.mp hp
      exact (by decide +kernel :
        ∀ k, k < 1 → ((bench 0x10#64 0x41100#64 1#32 [(.bit, [1#64])]).entry .bit k).isSome = true)⟩,
    ⟨reset_dictionary _ rfl, by decide +kernel, nofun⟩⟩

theorem witness_FaultsAreUnwrittenReads :
    step { bench 0x12#64 0x40400#64 16#32 [] with snap.nSym := 1#64 } = .fault (.unwrittenEntry .sym 0) ∧
      State.reset.busy = false ∧ 65535 < MemId.dict.words ∧ State.reset.entry .dict 65535 = none :=
  ⟨by rfl, by decide, by decide, by decide⟩

/-- A dictionary with the key of the configuration of `bench word 0x41100#64 1#32`. -/
def currentKey : DictKey := ⟨.line .nrz, 1, 1#32, f1, f1, 0x4030000000000000#64⟩

/-- A command with a row of one register and one memory, and a DETECT that finds its dictionary current. -/
theorem witness_CommandsWriteOnlyTheirWriteSet :
    (let s := bench 0x18#64 0x41100#64 1#32 [];
      s.snap.CountsLegal ∧ (∃ t, exec (.graygen true) s = .next t) ∧ .dictLen ∉ writtenRegisters (.graygen true) s ∧
        .level ∉ writtenMemories (.graygen true) s) ∧
    (let s := { bench 0x52#64 0x41100#64 1#32 [] with dictValid := true, dictKey := currentKey };
      s.snap.CountsLegal ∧ (∃ t, exec .detect s = .next t) ∧ dictionaryStale s = false ∧
        .dictN ∉ writtenRegisters .detect s ∧ .dict ∉ writtenMemories .detect s) :=
  ⟨⟨⟨Nat.zero_le _, Nat.zero_le _, Nat.zero_le _, Nat.zero_le _, Nat.zero_le _⟩, ⟨_, rfl⟩, by decide, by decide⟩,
    ⟨⟨Nat.zero_le _, Nat.zero_le _, Nat.zero_le _, Nat.zero_le _, Nat.zero_le _⟩, ⟨_, rfl⟩, by decide, by decide,
      by decide⟩⟩

theorem witness_AmiSignIsNoInput :
    (∃ t, exec .lcencAmi (bench 0x22#64 0x41100#64 1#32 [(.sym, [1#64])]) = .next t) ∧
      ∃ f, exec .lcencAmi { bench 0x22#64 0x41100#64 1#32 [] with snap.nSym := 1#64 } = .fault f :=
  ⟨⟨_, rfl⟩, _, rfl⟩

/-- A machine with nothing in memory but one whole word of DICT_MEM or nothing at all keeps every invariant. -/
theorem bench_legal (word ctrl : Word) (sps : BitVec 32) (host : List HostEvent) (mem : Memory)
    (hc : ctrl &&& ~~~ctrlMask = 0) (hw : ∃ i, decode word = .ok i) (hm : mem = [] ∨ mem = writeEntries .dict 0 [0#64] []) :
    { bench word ctrl sps [] with host := host, mem := mem }.Legal := by
  refine ⟨⟨hc, fun _ => rfl, nofun, ?_, ?_, ?_, ?_, ?_, ?_, ?_, ?_⟩, ⟨fun _ => ⟨rfl, rfl⟩, fun _ => hw, fun _ => rfl, rfl⟩, ?_,
    ⟨nofun, nofun, nofun, nofun⟩⟩
  · exact Nat.zero_le _
  · exact Nat.zero_le _
  · exact Nat.zero_le _
  · exact Nat.zero_le _
  · exact Nat.zero_le _
  · exact Nat.zero_le _
  · exact Nat.zero_le _
  · exact Nat.zero_le _
  · obtain rfl | rfl := hm
    · exact ⟨rfl, nofun, nofun, nofun⟩
    · refine ⟨(by decide : (writeEntries .dict 0 [0#64] []).wf = true), fun c hc => ⟨.dict, 0, by decide, ?_⟩, fun id i x hi h1 h2 hx => ?_, fun i v hi hv => ?_⟩
      · exact (by decide : ∀ c ∈ writeEntries .dict 0 [0#64] [], MemId.dict.addr 0 ≤ c.1 ∧ c.1 < MemId.dict.addr 0 + 8) c hc
      · rw [readWord_writeEntries (by decide) hi]
        split
        · rfl
        · rename_i hne
          rw [readByte_writeEntries_of_outside] at hx
          · cases hx
          · by_cases h : id = .dict
            · subst h
              have : ¬ i < 0 + [0#64].length := fun h' => hne ⟨rfl, Nat.zero_le _, h'⟩
              simp only [MemId.addr, List.length_singleton] at *
              omega
            · have := windows_apart h
              have hw : MemId.dict.words = 65536 := rfl
              simp only [MemId.addr, List.length_singleton] at *
              omega
      · rw [readWord_writeEntries (by decide) hi] at hv
        simp [Memory.readWord, Memory.readLE] at hv

/-- A next state with a property that evaluation decides. -/
theorem next_of {r : Host.Outcome State Fault Refusal} (P : State → Prop) [DecidablePred P]
    (h : ends r (fun t => decide (P t)) = true) : ∃ t, r = .next t ∧ P t := by
  cases r with
  | next t => exact ⟨t, rfl, of_decide_eq_true h⟩
  | fault f => cases h
  | refused f => cases h

/-- Words of a memory that evaluation reads. -/
theorem entries_of {s : State} {id : MemId} {n : Nat} {f : Nat → Word} (h : ∀ i, i < n → s.entry id i = some (f i)) :
    s.Entries id n f := h

/-- A build changes a byte of DICT_MEM, and so does a hardware reset. -/
theorem witness_DictionaryWrittenOnlyByBuilds :
    (∃ s : State, s.Legal ∧ (∃ t, step s = .next t ∧ t.mem.readByte 0x200000 ≠ s.mem.readByte 0x200000) ∧
      s.busy = true ∧ s.host = [] ∧ decode s.snap.word = .ok .dictbuild) ∧
    (∃ s : State, s.Legal ∧ (∃ t, step s = .next t ∧ t.mem.readByte 0x200000 ≠ s.mem.readByte 0x200000) ∧
      s.host = [⟨true, .hwReset⟩]) ∧
    MemId.dict.addr 0 ≤ 0x200000 ∧ 0x200000 < MemId.dict.addr MemId.dict.words :=
  ⟨⟨_, bench_legal 0x51#64 0x41100#64 1#32 [] [] (by decide) ⟨.dictbuild, by decide⟩ (.inl rfl),
      next_of (fun t => t.mem.readByte 0x200000 ≠ Memory.readByte [] 0x200000) (by decide +kernel), by decide, rfl, by decide⟩,
    ⟨_, bench_legal 0x51#64 0x41100#64 1#32 [⟨true, .hwReset⟩] (writeEntries .dict 0 [0#64] []) (by decide)
        ⟨.dictbuild, by decide⟩ (.inr rfl),
      next_of (fun t => t.mem.readByte 0x200000 ≠ Memory.readByte (writeEntries .dict 0 [0#64] []) 0x200000)
        (by decide +kernel), rfl⟩,
    by decide, by decide⟩

/-- A sample and a draw for it: NOISE, TX outside ideal mode, and TX with an error. -/
theorem witness_NoiseDrawsTaken :
    (let s := { bench 0x48#64 0x41100#64 16#32 [(.sample, [f1])] with noiseQueue := [drawOne] };
      s.snap = takeSnapshot s.snap.word s ∧ s.err = false ∧ ∃ t, exec .noise s = .next t ∧ t.err = false) ∧
    (let s := bench 0x50#64 0x40103#64 1#32 [(.bit, [1#64])];
      s.snap = takeSnapshot s.snap.word s ∧ s.err = false ∧ s.snap.ideal = false ∧
        ∃ t, exec .tx s = .next t ∧ t.err = false) ∧
    (let s := bench 0x50#64 0x40103#64 0#32 [(.bit, [1#64])];
      s.snap = takeSnapshot s.snap.word s ∧ s.err = false ∧ ∃ t, exec .tx s = .next t ∧ t.err = true) ∧
    (let s := bench 0x00#64 0x40103#64 0#32 [];
      s.snap = takeSnapshot s.snap.word s ∧ s.err = false ∧ ∃ t, exec .nop s = .next t ∧ t.err = false) :=
  ⟨⟨by decide, by decide, next_of (fun t => t.err = false) (by decide +kernel)⟩,
    ⟨by decide, by decide, by decide, next_of (fun t => t.err = false) (by decide +kernel)⟩,
    ⟨by decide, by decide, next_of (fun t => t.err = true) (by decide +kernel)⟩,
    ⟨by decide, by decide, next_of (fun t => t.err = false) (by decide +kernel)⟩⟩

/-- Bits of a list. -/
def bitAt (l : List Bool) (j : Nat) : Bool := l.getD j false

/-- A mapper configuration, BPS 2, five bits and two symbols. -/
def mapperBench (word : Word) : State :=
  bench word 0x40200#64 16#32 [(.bit, [1#64, 0#64, 1#64, 1#64]), (.sym, [2#64, 3#64])]

theorem mapperBench_configured (word : Word) : (mapperBench word).snap.Configured (.line .nrz) 2 :=
  ⟨(by decide : schemeOfCode (mapperBench 0#64).snap.schemeCode = some (.line .nrz)),
    (by decide : 2 = effectiveWidth (mapperBench 0#64).snap.schemeCode (mapperBench 0#64).snap.bps), by decide⟩

theorem mapperBench_symbols (word : Word) : (mapperBench word).Symbols 2 2 (· + 2) :=
  ⟨(by decide +kernel : ∀ i, i < 2 → (mapperBench 0#64).entry .sym i = some (BitVec.ofNat 64 (i + 2))), by decide⟩

theorem mapperBench_bits (word : Word) : (mapperBench word).Bits 4 (bitAt [true, false, true, true]) :=
  (by decide +kernel :
    ∀ i, i < 4 → (mapperBench 0#64).entry .bit i = some (wordOfBit (bitAt [true, false, true, true] i)))

theorem witness_BitsToSymbolsCompletes :
    (mapperBench 0x10#64).snap.Configured (.line .nrz) 2 ∧ 2 = (mapperBench 0x10#64).snap.nBits.toNat / 2 ∧
      2 ≤ Config.symDepth ∧ (mapperBench 0x10#64).Bits (2 * 2) (bitAt [true, false, true, true]) :=
  ⟨mapperBench_configured _, by decide, by decide, mapperBench_bits _⟩

theorem witness_SymbolsToDecimalsCompletes :
    (mapperBench 0x11#64).snap.Configured (.line .nrz) 2 ∧ 2 = (mapperBench 0x11#64).snap.nSym.toNat ∧
      2 ≤ Config.decDepth ∧ (mapperBench 0x11#64).Symbols 2 2 (· + 2) :=
  ⟨mapperBench_configured _, by decide, by decide, mapperBench_symbols _⟩

theorem witness_SymbolsToBitsCompletes :
    (mapperBench 0x12#64).snap.Configured (.line .nrz) 2 ∧ 2 = (mapperBench 0x12#64).snap.nSym.toNat ∧
      2 * 2 ≤ Config.bitDepth ∧ (mapperBench 0x12#64).Symbols 2 2 (· + 2) :=
  ⟨mapperBench_configured _, by decide, by decide, mapperBench_symbols _⟩

theorem witness_GrayTableCompletes :
    (bench 0x18#64 0x40805#64 1#32 []).snap.Configured (.carrier .psk) 8 := ⟨by decide, by decide, by decide⟩

theorem witness_SymbolIsSumOfComponentBits : 0 < 2 ^ 0 ∧ 255 < 2 ^ 8 ∧ 7 < 8 := by decide

theorem witness_GrayNeighboursDifferInOneBit : 254 + 1 < 2 ^ 8 ∧ 0 < 1 := by decide

theorem witness_GrayIndexInvertsGray : 255 < 2 ^ 8 ∧ gray 170 = 255 := by decide

theorem witness_MapperRoundTrip :
    (takeSnapshot 0#64 (mapperBench 0#64)).Configured (.line .nrz) 2 ∧
      (mapperBench 0#64).nBits = BitVec.ofNat 64 (2 * 2) ∧ 2 * 2 ≤ Config.bitDepth ∧
      (mapperBench 0#64).Bits (2 * 2) (bitAt [true, false, true, true]) ∧
      (mapperBench 0#64).nSym = BitVec.ofNat 64 2 ∧ 2 ≤ Config.symDepth ∧ (mapperBench 0#64).Symbols 2 2 (· + 2) :=
  ⟨⟨by decide, by decide, by decide⟩, by decide, by decide, mapperBench_bits _, by decide, by decide,
    mapperBench_symbols _⟩

/-- The hypotheses of the three line coders, with the capacity of each. -/
theorem witness_NrzCoderCompletes :
    2 = (mapperBench 0x20#64).snap.bps ∧ 1 ≤ 2 ∧ 2 ≤ 8 ∧ 2 = (mapperBench 0x20#64).snap.nSym.toNat ∧
      2 * 2 ≤ Config.levelDepth ∧ (mapperBench 0x20#64).Symbols 2 2 (· + 2) :=
  ⟨by decide, by decide, by decide, by decide, by decide, mapperBench_symbols _⟩

theorem witness_ManchesterCoderCompletes :
    2 = (mapperBench 0x21#64).snap.bps ∧ 1 ≤ 2 ∧ 2 ≤ 8 ∧ 2 = (mapperBench 0x21#64).snap.nSym.toNat ∧
      2 * (2 * 2) ≤ Config.levelDepth ∧ (mapperBench 0x21#64).Symbols 2 2 (· + 2) :=
  ⟨by decide, by decide, by decide, by decide, by decide, mapperBench_symbols _⟩

theorem witness_BipolarCoderCompletes :
    2 = (mapperBench 0x22#64).snap.bps ∧ 1 ≤ 2 ∧ 2 ≤ 8 ∧ 2 = (mapperBench 0x22#64).snap.nSym.toNat ∧
      2 * (2 * 2) ≤ Config.levelDepth ∧ (mapperBench 0x22#64).Symbols 2 2 (· + 2) :=
  ⟨by decide, by decide, by decide, by decide, by decide, mapperBench_symbols _⟩

theorem witness_AskMapperCompletes :
    2 = (mapperBench 0x30#64).snap.bps ∧ 1 ≤ 2 ∧ 2 ≤ 8 ∧ 2 = (mapperBench 0x30#64).snap.nSym.toNat ∧
      2 ≤ Config.paramDepth ∧ (mapperBench 0x30#64).Symbols 2 2 (· + 2) :=
  ⟨by decide, by decide, by decide, by decide, by decide, mapperBench_symbols _⟩

theorem witness_FskMapperCompletes :
    2 = (mapperBench 0x31#64).snap.bps ∧ 1 ≤ 2 ∧ 2 ≤ 8 ∧ 2 = (mapperBench 0x31#64).snap.nSym.toNat ∧
      2 ≤ Config.paramDepth ∧ (mapperBench 0x31#64).Symbols 2 2 (· + 2) :=
  ⟨by decide, by decide, by decide, by decide, by decide, mapperBench_symbols _⟩

theorem witness_PskMapperCompletes :
    2 = (mapperBench 0x32#64).snap.bps ∧ 1 ≤ 2 ∧ 2 ≤ 8 ∧ 2 = (mapperBench 0x32#64).snap.nSym.toNat ∧
      2 ≤ Config.paramDepth ∧ (mapperBench 0x32#64).Symbols 2 2 (· + 2) ∧ 3 < 2 ^ 2 ∧ 3 ^^^ (3 / 2) = 0 + 2 :=
  ⟨by decide, by decide, by decide, by decide, by decide, mapperBench_symbols _, by decide, by decide⟩

theorem witness_QpskMapperCompletes :
    2 = (mapperBench 0x33#64).snap.nSym.toNat ∧ 2 ≤ Config.paramDepth ∧ (mapperBench 0x33#64).Symbols 2 2 (· + 2) :=
  ⟨by decide, by decide, mapperBench_symbols _⟩

theorem witness_QamMapperCompletes :
    2 = (mapperBench 0x34#64).snap.nSym.toNat ∧ 2 ≤ Config.paramDepth ∧ (mapperBench 0x34#64).Symbols 2 4 (· + 2) ∧
      15 < 16 ∧ 0 < 4 ∧ 3 < 4 ∧ 0 + 2 = 4 * gray 0 + gray 3 :=
  ⟨by decide, by decide, ⟨(mapperBench_symbols _).1, by decide⟩, by decide, by decide, by decide, by decide⟩

theorem witness_ParametersInRange :
    (8 ≤ 8 ∧ 255 < 2 ^ (if Modulation.fsk = .qam16 then 4 else if Modulation.fsk = .qpsk then 2 else 8) ∧ 0 < 8) ∧
      15 < 2 ^ (if Modulation.qam16 = .qam16 then 4 else if Modulation.qam16 = .qpsk then 2 else 8) ∧
      3 < 2 ^ (if Modulation.qpsk = .qam16 then 4 else if Modulation.qpsk = .qpsk then 2 else 8) ∧
      Modulation.fsk ≠ .qam16 := by decide

theorem witness_CarrierSynthesizerCompletes :
    let s := bench 0x42#64 0x41103#64 4#32 [(.param, [f1, f1, 0#64])]
    s.snap.sps ≠ 0 ∧ F64.isFinite s.snap.sampleRate = true ∧ F64.lt F64.zero s.snap.sampleRate = true ∧
      1 = s.snap.nParam.toNat ∧ 1 * s.snap.sps.toNat ≤ Config.sampleDepth ∧
      s.Entries .param (3 * 1) (fun j => Triple.word ⟨f1, f1, 0#64⟩ (j % 3)) :=
  ⟨by decide, by decide, by decide, by decide, by decide, entries_of (by decide +kernel)⟩

theorem witness_LevelSynthesizerCompletes :
    let s := bench 0x40#64 0x41100#64 2#32 [(.level, [-1#64, 0#64])]
    s.snap.sps ≠ 0 ∧ 2 = s.snap.nLevel.toNat ∧ 2 * s.snap.sps.toNat ≤ Config.sampleDepth ∧
      (∀ j : Nat, j < 2 → -2 ^ 63 ≤ ((j : Int) - 1) ∧ ((j : Int) - 1) < 2 ^ 63) ∧
      s.Entries .level 2 (fun j => BitVec.ofInt 64 ((j : Int) - 1)) :=
  ⟨by decide, by decide, by decide, by decide, entries_of (by decide +kernel)⟩

theorem witness_PulseSynthesizerCompletes :
    let s := bench 0x41#64 0x10100#64 2#32 [(.level, [-1#64, 0#64])]
    s.snap.sps ≠ 0 ∧ s.snap.pulseBlock ≠ 0 ∧ 2 = s.snap.nLevel.toNat ∧
      2 * s.snap.sps.toNat ≤ Config.sampleDepth ∧
      (∀ j : Nat, j < 2 → -2 ^ 63 ≤ ((j : Int) - 1) ∧ ((j : Int) - 1) < 2 ^ 63) ∧
      s.Entries .level 2 (fun j => BitVec.ofInt 64 ((j : Int) - 1)) :=
  ⟨by decide, by decide, by decide, by decide, by decide, entries_of (by decide +kernel)⟩

theorem witness_NoiseCompletes :
    let s := bench 0x48#64 0x41100#64 16#32 [(.sample, [f1, f1])]
    2 = s.snap.nSample.toNat ∧ 2 ≤ Config.sampleDepth ∧ s.Entries .sample 2 (fun _ => f1) :=
  ⟨by decide, by decide, entries_of (by decide +kernel)⟩

/-- A line code outside ideal mode, and a carrier. -/
theorem witness_TransmitCompletes :
    (let s := bench 0x50#64 0x40102#64 2#32 [(.bit, [1#64, 0#64])];
      s.snap.Configured (.line .ami) 1 ∧ s.snap.sps ≠ 0 ∧ s.snap.ideal = false ∧ s.snap.pulseBlock ≠ 0 ∧
        (∀ m, Scheme.line .ami = .carrier m →
          F64.isFinite s.snap.sampleRate = true ∧ F64.lt F64.zero s.snap.sampleRate = true) ∧
        2 = s.snap.nBits.toNat / 1 ∧ 4 = 2 * levelsPerSymbol (.line .ami) 1 ∧ 8 = 4 * s.snap.sps.toNat ∧
        2 ≤ Config.symDepth ∧ 4 ≤ Config.levelDepth ∧ 8 ≤ Config.sampleDepth ∧ s.Bits (2 * 1) (bitAt [true, false])) ∧
    (let s := bench 0x50#64 0x41103#64 2#32 [(.bit, [1#64, 0#64])];
      s.snap.Configured (.carrier .ask) 1 ∧ s.snap.sps ≠ 0 ∧ F64.isFinite s.snap.sampleRate = true ∧
        F64.lt F64.zero s.snap.sampleRate = true ∧
        2 = s.snap.nBits.toNat / 1 ∧ 2 = 2 * levelsPerSymbol (.carrier .ask) 1 ∧ 4 = 2 * s.snap.sps.toNat ∧
        2 ≤ Config.symDepth ∧ 2 ≤ Config.paramDepth ∧ 4 ≤ Config.sampleDepth ∧ s.Bits (2 * 1) (bitAt [true, false])) :=
  ⟨⟨⟨by decide, by decide, by decide⟩, by decide, by decide, by decide, nofun, by decide, by decide, by decide, by decide,
      by decide, by decide, entries_of (by decide +kernel)⟩,
    ⟨⟨by decide, by decide, by decide⟩, by decide, by decide, by decide, by decide, by decide, by decide, by decide,
      by decide, by decide, entries_of (by decide +kernel)⟩⟩

theorem witness_TransmitRunsItsStages :
    let s := bench 0x50#64 0x41100#64 1#32 [(.bit, [1#64])]
    s.snap = takeSnapshot s.snap.word s ∧ schemeOfCode s.snap.schemeCode = some (.line .nrz) ∧ s.err = false ∧
      ∃ t, exec .tx s = .next t ∧ t.err = false :=
  ⟨by decide, by decide, by decide, next_of (fun t => t.err = false) (by decide +kernel)⟩

/-- A line code, and a carrier with the largest width. -/
theorem witness_DictionaryBuildCompletes :
    (let s := bench 0x51#64 0x41201#64 1#32 [];
      s.snap.Configured (.line .man) 2 ∧ s.snap.sps ≠ 0 ∧ 4 = windowLength s.snap (.line .man) 2 ∧
        2 ^ 2 * 4 ≤ Config.dictDepth ∧
        ∀ m, Scheme.line .man = .carrier m →
          F64.isFinite s.snap.sampleRate = true ∧ F64.lt F64.zero s.snap.sampleRate = true) ∧
    (let s := bench 0x51#64 0x41803#64 256#32 [];
      s.snap.Configured (.carrier .ask) 8 ∧ s.snap.sps ≠ 0 ∧ 256 = windowLength s.snap (.carrier .ask) 8 ∧
        2 ^ 8 * 256 ≤ Config.dictDepth ∧ F64.isFinite s.snap.sampleRate = true ∧
        F64.lt F64.zero s.snap.sampleRate = true) :=
  ⟨⟨⟨by decide, by decide, by decide⟩, by decide, by decide, by decide, nofun⟩,
    ⟨⟨by decide, by decide, by decide⟩, by decide, by decide, by decide, by decide, by decide⟩⟩

/-- Three samples and windows of two, for a line code; one sample and a window of one, for a carrier. -/
theorem witness_DetectionCompletes :
    (let s := bench 0x52#64 0x41100#64 2#32 [(.sample, [f1, f1, fm1])];
      s.DictionaryLegal ∧ s.snap.Configured (.line .nrz) 1 ∧ s.snap.sps ≠ 0 ∧ 2 = windowLength s.snap (.line .nrz) 1 ∧
        2 ^ 1 * 2 ≤ Config.dictDepth ∧ s.snap.nSample.toNat ≤ Config.sampleDepth ∧ 1 = s.snap.nSample.toNat / 2 ∧
        1 ≤ Config.symDepth ∧ s.Entries .sample (1 * 2) (fun _ => f1) ∧
        ∀ m, Scheme.line .nrz = .carrier m →
          F64.isFinite s.snap.sampleRate = true ∧ F64.lt F64.zero s.snap.sampleRate = true) ∧
    (let s := bench 0x52#64 0x41103#64 1#32 [(.sample, [f1])];
      s.DictionaryLegal ∧ s.snap.Configured (.carrier .ask) 1 ∧ s.snap.sps ≠ 0 ∧
        1 = windowLength s.snap (.carrier .ask) 1 ∧ 2 ^ 1 * 1 ≤ Config.dictDepth ∧
        s.snap.nSample.toNat ≤ Config.sampleDepth ∧ 1 = s.snap.nSample.toNat / 1 ∧ 1 ≤ Config.symDepth ∧
        s.Entries .sample (1 * 1) (fun _ => f1) ∧ F64.isFinite s.snap.sampleRate = true ∧
        F64.lt F64.zero s.snap.sampleRate = true) :=
  ⟨⟨reset_dictionary _ rfl, ⟨by decide, by decide, by decide⟩, by decide, by decide, by decide, by decide, by decide,
      by decide, entries_of (by decide +kernel), nofun⟩,
    ⟨reset_dictionary _ rfl, ⟨by decide, by decide, by decide⟩, by decide, by decide, by decide, by decide, by decide,
      by decide, entries_of (by decide +kernel), by decide, by decide⟩⟩

theorem witness_ReceiveCompletes :
    let s := bench 0x53#64 0x41100#64 2#32 [(.sample, [f1, f1, fm1])]
    s.DictionaryLegal ∧ s.snap.Configured (.line .nrz) 1 ∧ s.snap.sps ≠ 0 ∧ 2 = windowLength s.snap (.line .nrz) 1 ∧
      2 ^ 1 * 2 ≤ Config.dictDepth ∧ s.snap.nSample.toNat ≤ Config.sampleDepth ∧ 1 = s.snap.nSample.toNat / 2 ∧
      1 ≤ Config.symDepth ∧ 1 * 1 ≤ Config.bitDepth ∧ s.Entries .sample (1 * 2) (fun _ => f1) ∧
      ∀ m, Scheme.line .nrz = .carrier m →
        F64.isFinite s.snap.sampleRate = true ∧ F64.lt F64.zero s.snap.sampleRate = true :=
  ⟨reset_dictionary _ rfl, ⟨by decide, by decide, by decide⟩, by decide, by decide, by decide, by decide, by decide,
    by decide, by decide, entries_of (by decide +kernel), nofun⟩

/-- A NaN sample makes the first distance a NaN; without one the distances are numbers. -/
theorem witness_NearestIsEarliestMinimum :
    0 < 2 ∧ F64.isNaN (distance [0x7FF8000000000000#64] [f1]) = true ∧ F64.isNaN (distance [fm1] [f1]) = false := by
  refine ⟨by decide, ?_, by decide +kernel⟩
  have h : F64.isNaN 0x7FF8000000000000#64 = true := by decide
  have h1 : F64.isNaN (F64.sub 0x7FF8000000000000#64 f1) = true := by simp [F64.sub, h, nan_isNaN]
  have h2 : F64.isNaN (F64.mul (F64.sub 0x7FF8000000000000#64 f1) (F64.sub 0x7FF8000000000000#64 f1)) = true := by
    simp [F64.mul, h1, nan_isNaN]
  simp [distance, F64.add, h2, nan_isNaN]

/-- NRZ with one bit a symbol: both dictionary entries are finite and their distance is 4. -/
theorem witness_IdealRoundTrip :
    let s := bench 0x50#64 0x41100#64 1#32 [(.bit, [1#64, 0#64])]
    let c := takeSnapshot 0x50#64 s
    s.DictionaryLegal ∧ c.Configured (.line .nrz) 1 ∧ c.ideal = true ∧ s.sps ≠ 0 ∧
      (∀ m, Scheme.line .nrz = .carrier m → F64.isFinite s.sampleRate = true ∧ F64.lt F64.zero s.sampleRate = true) ∧
      s.nBits = BitVec.ofNat 64 (2 * 1) ∧ 2 * 1 ≤ Config.bitDepth ∧ s.Bits (2 * 1) (bitAt [true, false]) ∧
      2 * levelsPerSymbol (.line .nrz) 1 ≤ Config.levelDepth ∧ 2 * windowLength c (.line .nrz) 1 ≤ Config.sampleDepth ∧
      2 ^ 1 * windowLength c (.line .nrz) 1 ≤ Config.dictDepth ∧
      (∀ a j, a < 2 ^ 1 → j < windowLength c (.line .nrz) 1 →
        F64.isFinite (canonicalSample c (.line .nrz) 1 a j) = true) ∧
      ∀ a b, a < 2 ^ 1 → b < 2 ^ 1 → a ≠ b →
        F64.lt F64.zero
          (distance ((List.range (windowLength c (.line .nrz) 1)).map (canonicalSample c (.line .nrz) 1 a))
            ((List.range (windowLength c (.line .nrz) 1)).map (canonicalSample c (.line .nrz) 1 b))) = true := by
  refine ⟨reset_dictionary _ rfl, ⟨by decide, by decide, by decide⟩, by decide, by decide, nofun, by decide, by decide,
    entries_of (by decide +kernel), by decide, by decide, by decide, fun a j ha hj => ?_, fun a b ha hb hab => ?_⟩
  · exact (by decide +kernel : ∀ a, a < 2 → ∀ j, j < 1 → F64.isFinite (canonicalSample
      (takeSnapshot 0x50#64 (bench 0x50#64 0x41100#64 1#32 [(.bit, [1#64, 0#64])])) (.line .nrz) 1 a j) = true) a ha j hj
  · exact (by decide +kernel : ∀ a, a < 2 → ∀ b, b < 2 → a ≠ b → F64.lt F64.zero
      (distance
        [canonicalSample (takeSnapshot 0x50#64 (bench 0x50#64 0x41100#64 1#32 [(.bit, [1#64, 0#64])])) (.line .nrz) 1 a 0]
        [canonicalSample (takeSnapshot 0x50#64 (bench 0x50#64 0x41100#64 1#32 [(.bit, [1#64, 0#64])])) (.line .nrz) 1 b
          0]) = true) a ha b hb hab

theorem witness_ArithmeticRoundsToNearestEven :
    F64.isFinite f1 = true ∧ F64.isFinite 0x0000000000000001#64 = true ∧ F64.isZero 0x0000000000000001#64 = false ∧
      F64.sign f1 = false := by decide

/-- A value of each class and sign, and operands whose exact sum and difference are 0. -/
theorem witness_ComparisonAndNaNLaws :
    (F64.isFinite f1 = true ∧ F64.isFinite fm1 = true ∧ F64.isZero f1 = false ∧ F64.isNaN f1 = false) ∧
    (F64.isFinite 0x8000000000000000#64 = true ∧ F64.isZero 0x8000000000000000#64 = true ∧ F64.isZero 0#64 = true) ∧
    (F64.isNaN 0x7FF0000000000001#64 = true ∧ F64.isNaN 0xFFF8000000000000#64 = true) ∧
    (F64.isInf 0x7FF0000000000000#64 = true ∧ F64.sign 0x7FF0000000000000#64 = false ∧
      F64.isInf 0xFFF0000000000000#64 = true ∧ F64.sign 0xFFF0000000000000#64 = true ∧
      F64.isNaN 0xFFF0000000000000#64 = false ∧ F64.isZero 0xFFF0000000000000#64 = false) ∧
    F64.value f1 + F64.value fm1 = 0 ∧ F64.value f1 = F64.value f1 := by
  refine ⟨by decide, by decide, by decide, by decide, ?_, rfl⟩
  have h1 : F64.significand fm1 = F64.significand f1 := by decide
  have h2 : F64.scale fm1 = F64.scale f1 := by decide
  have h3 : F64.sign fm1 = true := by decide
  have h4 : F64.sign f1 = false := by decide
  simp [F64.value, h1, h2, h3, h4]

/-- The first address of each kind that is a bus error, and the last of a window's tail. -/
theorem witness_BusErrorsChangeNothing :
    4 ≠ 8 ∧ (0x000004#24).toNat % 8 ≠ 0 ∧ 0x300000 ≤ (0x300000#24).toNat ∧
      (0x100 ≤ (0x000100#24).toNat ∧ (0x000100#24).toNat < 0x10000) ∧
      (0x100 ≤ (0x00FFF8#24).toNat ∧ (0x00FFF8#24).toNat < 0x10000) ∧
      (MemId.bit.addr MemId.bit.words ≤ (0x018000#24).toNat ∧ (0x018000#24).toNat ≤ MemId.bit.last) ∧
      (MemId.param.addr MemId.param.words ≤ (0x0FFFF8#24).toNat ∧ (0x0FFFF8#24).toNat ≤ MemId.param.last) := by decide +kernel

theorem witness_ReadsHaveNoSideEffects :
    (∃ t, hostRead 8 0x40#24 State.reset = .next t) ∧ (0x08#24 : Addr) ≠ RegId.cmd.busAddr := ⟨⟨_, rfl⟩, by decide⟩

theorem witness_WritesDroppedWhileBusy :
    (bench 0x10#64 0x41100#64 1#32 []).busy = true ∧ RegId.cmd ≠ .status ∧ 65535 < MemId.dict.words ∧
      (0x90 ≤ (0x90#24).toNat ∧ (0x90#24).toNat < 0x100 ∧ (0x90#24).toNat % 8 = 0) ∧
      (0x90 ≤ (0xF8#24).toNat ∧ (0xF8#24).toNat < 0x100 ∧ (0xF8#24).toNat % 8 = 0) := by decide

theorem witness_RegisterWritesStore :
    State.reset.busy = false ∧ RegId.dictLen ∈ [RegId.id, .nDec, .grayN, .dictN, .dictLen] ∧
      (0x90 ≤ (0x90#24).toNat ∧ (0x90#24).toNat < 0x100 ∧ (0x90#24).toNat % 8 = 0) ∧
      (0x90 ≤ (0xF8#24).toNat ∧ (0xF8#24).toNat < 0x100 ∧ (0xF8#24).toNat % 8 = 0) := by decide

theorem witness_MemoryWriteThenRead :
    State.reset.busy = false ∧ 4095 < MemId.bit.words ∧ 12287 < MemId.param.words ∧ 65535 < MemId.dict.words := by decide

/-- BITS2SYM runs: N_SYM and SYM_MEM are in its write set, N_BITS and BIT_MEM are not; a DETECT ends with CFG_SPS. -/
theorem witness_ReadsWhileBusy :
    (let s := mapperBench 0x10#64;
      s.busy = true ∧ s.err = false ∧ decode s.snap.word = .ok .bits2sym ∧ .nSym ∈ writtenRegisters .bits2sym s ∧
        .nBits ∉ writtenRegisters .bits2sym s ∧ .sym ∈ writtenMemories .bits2sym s ∧ 4095 < MemId.sym.words ∧
        .bit ∉ writtenMemories .bits2sym s ∧ s.entry .bit 3 = some 1#64 ∧ ¬ EndsWithError .bits2sym s) ∧
    (let s := bench 0x52#64 0x41100#64 0#32 [];
      s.busy = true ∧ s.err = false ∧ decode s.snap.word = .ok .detect ∧ .dictN ∈ writtenRegisters .detect s ∧
        EndsWithError .detect s) := by
  refine ⟨⟨by decide, by decide, by decide, by decide, by decide, by decide, by decide, by decide, by decide +kernel, ?_⟩,
    by decide, by decide, by decide, by decide, ⟨_, rfl, rfl⟩⟩
  rw [← endsInError_iff, Bool.not_eq_true]
  decide +kernel

theorem witness_HostReadsGiveCurrentValues :
    let s := { State.reset with mem := writeEntries .dict 65535 [f1] [] }
    s.busy = false ∧ 65535 < MemId.dict.words ∧ s.entry .dict 65535 = some f1 := by decide +kernel

theorem witness_InterruptLevel :
    State.reset.busy = false ∧ decode 0x00#64 = .ok .nop ∧ (0x2#64).getLsbD 1 = true ∧ (0x41100#64).getLsbD 13 = false ∧
      ∃ t, exec .nop (bench 0x00#64 0x43100#64 1#32 []) = .next t :=
  ⟨by decide, by decide, by decide, by decide, _, rfl⟩

theorem witness_StepKeepsLegal :
    ∃ s : State, s.Legal ∧ s.busy = true ∧ ∃ t, step s = .next t ∧ t.dictValid = true :=
  ⟨_, bench_legal 0x51#64 0x41100#64 1#32 [] [] (by decide) ⟨.dictbuild, by decide⟩ (.inl rfl), by decide,
    next_of (fun t => t.dictValid = true) (by decide +kernel)⟩

end Sys2Proof.Tests
end

/-! The statements of 00_scope.md: symbols as sums of weighted component bits (R14), and binary64 operations as exact
real operations rounded once (R15, 46_system.md R193). -/

namespace Sys2Proof.Proofs

open Sys2Proof.Machine

/-! ### Component bits, shifted in from the right -/

theorem componentBit_lt_two (w s i : Nat) : componentBit w s i < 2 := Nat.mod_lt _ two_pos

theorem toNat_decide_componentBit (w s i : Nat) : (decide (componentBit w s i = 1)).toNat = componentBit w s i := by
  rcases Nat.le_one_iff_eq_zero_or_eq_one.mp (Nat.le_of_lt_succ (componentBit_lt_two w s i)) with h | h <;> simp [h]

/-- The last component bit is the lowest one. -/
theorem componentBit_succ_last (w s : Nat) : componentBit (w + 1) s w = s % 2 := by simp [componentBit]

/-- The component bits before the last are those of the symbol without its lowest bit. -/
theorem componentBit_succ_of_lt {w i : Nat} (s : Nat) (h : i < w) :
    componentBit (w + 1) s i = componentBit w (s / 2) i := by
  unfold componentBit
  rw [Nat.div_div_eq_div_mul, ← pow_succ', show w + 1 - 1 - i = w - 1 - i + 1 by omega]

theorem weightedSum_congr {w : Nat} {bit bit' : Nat → Bool} (h : ∀ i, i < w → bit i = bit' i) :
    weightedSum w bit = weightedSum w bit' := by
  unfold weightedSum
  rw [List.map_congr_left fun i hi => by rw [h i (List.mem_range.mp hi)]]

theorem weightedSum_lt (w : Nat) (bit : Nat → Bool) : weightedSum w bit < 2 ^ w := by
  induction w with
  | zero => simp [weightedSum]
  | succ w ih =>
    have hbit := Bool.toNat_lt (bit w)
    rw [weightedSum_succ, pow_succ]
    omega

theorem weightedSum_componentBit {w s : Nat} (h : s < 2 ^ w) :
    weightedSum w (fun i => decide (componentBit w s i = 1)) = s := by
  induction w generalizing s with
  | zero => simp only [pow_zero, Nat.lt_one_iff] at h; simp [weightedSum, h]
  | succ w ih =>
    have hhalf : s / 2 < 2 ^ w := by rw [pow_succ] at h; omega
    have hfirst : weightedSum w (fun i => decide (componentBit (w + 1) s i = 1)) = s / 2 := by
      rw [weightedSum_congr fun i hi => by rw [componentBit_succ_of_lt s hi], ih hhalf]
    rw [weightedSum_succ, hfirst, toNat_decide_componentBit, componentBit_succ_last]
    omega

theorem componentBit_weightedSum {w i : Nat} (bit : Nat → Bool) (h : i < w) :
    componentBit w (weightedSum w bit) i = (bit i).toNat := by
  induction w with
  | zero => omega
  | succ w ih =>
    have hbit := Bool.toNat_lt (bit w)
    rw [weightedSum_succ]
    rcases Nat.lt_succ_iff_lt_or_eq.mp h with hi | rfl
    · rw [componentBit_succ_of_lt _ hi, show (2 * weightedSum w bit + (bit w).toNat) / 2 = weightedSum w bit by omega,
        ih hi]
    · rw [componentBit_succ_last]
      omega

/-- Settles O22: a symbol is its component bits read back, by induction on the width. -/
theorem symbolIsSumOfComponentBits : Obligations.SymbolIsSumOfComponentBits := by
  refine ⟨fun w s hs => ⟨?_, ?_⟩, fun w bit => ⟨weightedSum_lt w bit, fun i hi => componentBit_weightedSum bit hi⟩⟩
  · have hsum := weightedSum_componentBit hs
    unfold weightedSum at hsum
    simpa only [toNat_decide_componentBit] using hsum
  · exact List.map_congr_left fun i _ => testBit_eq_componentBit w s i

/-! ### The finite cases of the operations -/

/-- The real value of a binary64, with its magnitude apart from its sign. -/
theorem cast_value (x : F64) : (F64.value x : ℝ) =
    (if F64.sign x then -1 else 1) * (F64.significand x * (2 : ℝ) ^ F64.scale x) := by
  unfold F64.value
  cases F64.sign x <;> simp

/-- The sign of a product or quotient, by the exclusive or of the signs. -/
theorem signFactor_bne (a b : Bool) : (if a != b then -1 else 1 : ℝ) =
    (if a then -1 else 1) * (if b then -1 else 1) := by
  cases a <;> cases b <;> simp

theorem signFactor_inv (a : Bool) : (if a then -1 else 1 : ℝ)⁻¹ = if a then -1 else 1 := by
  cases a <;> simp

theorem isFinite_negate (x : F64) : F64.isFinite (F64.negate x) = F64.isFinite x := by
  unfold F64.isFinite
  rw [(negate_fields x).2.1]

theorem isZero_iff {x : F64} : F64.isZero x = true ↔ x.toNat % 2 ^ 63 = 0 := by simp [F64.isZero, F64.magnitude]

theorem significand_eq_zero {x : F64} (h : F64.isZero x = true) : F64.significand x = 0 := by
  have hmag := isZero_iff.mp h
  unfold F64.significand F64.expField F64.fracField
  split <;> omega

/-- There are two zeros, and each is the exact zero rounded. -/
theorem roundsTo_zero_of_isZero {x : F64} (h : F64.isZero x = true) : RoundsTo 0 x := by
  have hmag := isZero_iff.mp h
  have hzero : x = F64.ofMagnitude (decide (2 ^ 63 ≤ x.toNat)) 0 := by
    apply BitVec.eq_of_toNat_eq
    rw [ofMagnitude_toNat (by norm_num)]
    have := x.isLt
    simp only [decide_eq_true_eq]
    split <;> omega
  rw [hzero]
  exact roundsTo_zero _

theorem add_of_finite {x y : F64} (hx : F64.isFinite x = true) (hy : F64.isFinite y = true) :
    F64.add x y = F64.addFinite x y := by
  simp [F64.add, not_nan_of_finite hx, not_nan_of_finite hy]

theorem sub_of_finite {x y : F64} (hx : F64.isFinite x = true) (hy : F64.isFinite y = true) :
    F64.sub x y = F64.addFinite x (F64.negate y) := by
  simp [F64.sub, not_nan_of_finite hx, not_nan_of_finite hy]

theorem mul_of_finite {x y : F64} (hx : F64.isFinite x = true) (hy : F64.isFinite y = true) :
    F64.mul x y = F64.round (F64.sign x != F64.sign y) (F64.significand x * F64.significand y)
      (F64.scale x + F64.scale y) := by
  simp [F64.mul, not_nan_of_finite hx, not_nan_of_finite hy]

/-- A quotient of integers to `quotientGuard` bits below the point, doubled, with a sticky last bit. -/
def guardedQuotient (n d : Nat) : Nat :=
  2 * (n * 2 ^ quotientGuard / d) + if n * 2 ^ quotientGuard % d = 0 then 0 else 1

theorem div_of_finite {x y : F64} (hx : F64.isFinite x = true) (hy : F64.isFinite y = true)
    (hz : F64.isZero y = false) :
    F64.div x y = F64.round (F64.sign x != F64.sign y) (guardedQuotient (F64.significand x) (F64.significand y))
      (F64.scale x - F64.scale y - quotientGuard - 1) := by
  simp [F64.div, guardedQuotient, not_nan_of_finite hx, not_nan_of_finite hy, hz]

/-- An integer square root of `m * 2^128`, doubled, with a sticky last bit. -/
def guardedRoot (m : Nat) : Nat :=
  2 * isqrt (m * 2 ^ 128) + if isqrt (m * 2 ^ 128) * isqrt (m * 2 ^ 128) = m * 2 ^ 128 then 0 else 1

/-- The root is taken of an integer times an even power of two; an odd scale gives one factor 2 to the integer. -/
theorem sqrt_of_finite {x : F64} (hx : F64.isFinite x = true) (hs : F64.sign x = false) (hz : F64.isZero x = false) :
    F64.sqrt x = if F64.scale x % 2 = 1
      then F64.round false (guardedRoot (2 * F64.significand x)) ((F64.scale x - 1) / 2 - 64 - 1)
      else F64.round false (guardedRoot (F64.significand x)) (F64.scale x / 2 - 64 - 1) := by
  by_cases hodd : F64.scale x % 2 = 1 <;> simp [F64.sqrt, guardedRoot, not_nan_of_finite hx, hs, hz, hodd]

/-! ### Products -/

theorem mul_roundsTo {x y : F64} (hx : F64.isFinite x = true) (hy : F64.isFinite y = true) :
    RoundsTo ((F64.value x : ℝ) * F64.value y) (F64.mul x y) := by
  have hexact := round_exact (F64.sign x != F64.sign y) (F64.significand x * F64.significand y)
    (F64.scale x + F64.scale y)
  rw [mul_of_finite hx hy]
  convert hexact using 1
  rw [cast_value, cast_value, signFactor_bne, zpow_add₀ two_ne_zero]
  push_cast
  ring

/-! ### Quotients -/

/-- The guard bits leave a quotient of significands long enough to round by its sticky bit. -/
theorem guardedQuotient_stands {n d : Nat} (hn : 0 < n) (hd : 0 < d) (hlt : d < 2 ^ 53) :
    StandsFor (2 * ((n * 2 ^ quotientGuard : Nat) / (d : ℝ))) (guardedQuotient n d) := by
  refine quotient_stands hd ((Nat.le_div_iff_mul_le hd).mpr ?_)
  calc 2 ^ 54 * d ≤ 2 ^ 54 * 2 ^ 53 := Nat.mul_le_mul_left _ hlt.le
    _ ≤ 1 * 2 ^ quotientGuard := by decide
    _ ≤ n * 2 ^ quotientGuard := Nat.mul_le_mul_right _ hn

theorem guardedQuotient_pos {n d : Nat} (hn : 0 < n) : 0 < guardedQuotient n d := by
  have hpos : 0 < n * 2 ^ quotientGuard := by positivity
  have hdm := Nat.div_add_mod (n * 2 ^ quotientGuard) d
  unfold guardedQuotient
  split
  case isTrue hmod =>
    have : 0 < n * 2 ^ quotientGuard / d := Nat.pos_of_ne_zero fun h0 => by rw [h0, hmod] at hdm; omega
    omega
  case isFalse => omega

theorem value_div (x y : F64) : (F64.value x : ℝ) / F64.value y =
    (if F64.sign x != F64.sign y then -1 else 1) *
      (2 * ((F64.significand x * 2 ^ quotientGuard : Nat) / (F64.significand y : ℝ)) *
        (2 : ℝ) ^ (F64.scale x - F64.scale y - quotientGuard - 1)) := by
  rw [cast_value, cast_value, signFactor_bne, div_eq_mul_inv, mul_inv, mul_inv, signFactor_inv, zpow_sub₀ two_ne_zero,
    zpow_sub₀ two_ne_zero, zpow_sub₀ two_ne_zero, zpow_natCast, zpow_one]
  push_cast
  field_simp

theorem div_roundsTo {x y : F64} (hx : F64.isFinite x = true) (hy : F64.isFinite y = true)
    (hz : F64.isZero y = false) : RoundsTo ((F64.value x : ℝ) / F64.value y) (F64.div x y) := by
  rw [div_of_finite hx hy hz, value_div]
  cases hzx : F64.isZero x with
  | true =>
    have hquot : guardedQuotient (F64.significand x) (F64.significand y) = 0 := by
      simp [guardedQuotient, significand_eq_zero hzx]
    rw [hquot, significand_eq_zero hzx]
    simpa [F64.round] using roundsTo_zero (F64.sign x != F64.sign y)
  | false =>
    have hn := significand_pos hzx
    exact round_roundsTo _ _ (guardedQuotient_pos hn)
      (guardedQuotient_stands hn (significand_pos hz) (significand_lt y))

/-! ### Square roots -/

theorem isqrt_le_sqrt (n : Nat) : (isqrt n : ℝ) ≤ Real.sqrt n :=
  Real.le_sqrt_of_sq_le (by rw [sq]; exact_mod_cast (isqrt_spec n).1)

theorem sqrt_lt_isqrt_succ (n : Nat) : Real.sqrt n < isqrt n + 1 :=
  (Real.sqrt_lt' (by positivity)).mpr (by rw [sq]; exact_mod_cast (isqrt_spec n).2)

/-- An integer root with a sticky last bit stands for the exact root doubled. -/
theorem root_stands {n : Nat} (h : 2 ^ 54 ≤ isqrt n) :
    StandsFor (2 * Real.sqrt n) (2 * isqrt n + if isqrt n * isqrt n = n then 0 else 1) := by
  split
  case isTrue hsq =>
    left
    have hroot : Real.sqrt n = isqrt n := by
      rw [Real.sqrt_eq_iff_mul_self_eq (Nat.cast_nonneg _) (Nat.cast_nonneg _)]
      exact_mod_cast hsq.symm
    rw [hroot]
    push_cast
    ring
  case isFalse hsq =>
    right
    have hlt := sqrt_lt_isqrt_succ n
    have hgt : (isqrt n : ℝ) < Real.sqrt n := by
      refine lt_of_le_of_ne (isqrt_le_sqrt n) fun heq => hsq ?_
      have := Real.mul_self_sqrt (Nat.cast_nonneg (α := ℝ) n)
      rw [← heq] at this
      exact_mod_cast this
    refine ⟨by omega, by omega, ?_⟩
    rw [abs_lt]
    push_cast
    constructor <;> linarith

theorem guardedRoot_long {m : Nat} (hm : 0 < m) : 2 ^ 54 ≤ isqrt (m * 2 ^ 128) := by
  by_contra hshort
  have hle : isqrt (m * 2 ^ 128) + 1 ≤ 2 ^ 54 := by omega
  have hsq := Nat.mul_le_mul hle hle
  have hspec := (isqrt_spec (m * 2 ^ 128)).2
  omega

/-- The root of an integer times an even power of two, from its guarded integer root. -/
theorem guardedRoot_roundsTo {m : Nat} {e : Int} (hm : 0 < m) (he : e % 2 = 0) :
    RoundsTo (Real.sqrt (m * (2 : ℝ) ^ e)) (F64.round false (guardedRoot m) (e / 2 - 64 - 1)) := by
  have hlong := guardedRoot_long hm
  have hround := round_roundsTo false (e / 2 - 64 - 1) (m := guardedRoot m) (by unfold guardedRoot; omega)
    (root_stands hlong)
  obtain ⟨k, rfl⟩ : ∃ k, e = k + k := ⟨e / 2, by omega⟩
  convert hround using 1
  have hguard : Real.sqrt ((m * 2 ^ 128 : Nat) : ℝ) = Real.sqrt m * 2 ^ 64 := by
    rw [Nat.cast_mul, Real.sqrt_mul (Nat.cast_nonneg _),
      show ((2 ^ 128 : Nat) : ℝ) = 2 ^ 64 * 2 ^ 64 by norm_num, Real.sqrt_mul_self (by positivity)]
  have hscale : Real.sqrt ((2 : ℝ) ^ (k + k)) = (2 : ℝ) ^ k := by
    rw [zpow_add₀ two_ne_zero, Real.sqrt_mul_self (by positivity)]
  have hplace : (2 : ℝ) ^ ((k + k) / 2 - 64 - 1) = (2 : ℝ) ^ k / 2 ^ 65 := by
    rw [show (k + k) / 2 - 64 - 1 = k - (65 : Nat) by omega, zpow_sub₀ two_ne_zero, zpow_natCast]
  rw [Real.sqrt_mul (Nat.cast_nonneg _), hscale, hguard, hplace]
  simp only [Bool.false_eq_true, if_false]
  ring

theorem sqrt_roundsTo {x : F64} (hx : F64.isFinite x = true) (hs : F64.sign x = false) :
    RoundsTo (Real.sqrt (F64.value x : ℝ)) (F64.sqrt x) := by
  have hvalue : (F64.value x : ℝ) = F64.significand x * (2 : ℝ) ^ F64.scale x := by simp [cast_value, hs]
  cases hz : F64.isZero x with
  | true =>
    have hself : F64.sqrt x = x := by simp [F64.sqrt, not_nan_of_finite hx, hz]
    rw [hself, hvalue, significand_eq_zero hz, Nat.cast_zero, zero_mul, Real.sqrt_zero]
    exact roundsTo_zero_of_isZero hz
  | false =>
    have hm := significand_pos hz
    rw [sqrt_of_finite hx hs hz, hvalue]
    split
    case isTrue hodd =>
      have hhalf : (F64.significand x : ℝ) * (2 : ℝ) ^ F64.scale x =
          (2 * F64.significand x : Nat) * (2 : ℝ) ^ (F64.scale x - 1) := by
        rw [zpow_sub_one₀ two_ne_zero]
        push_cast
        field_simp
      rw [hhalf]
      exact guardedRoot_roundsTo (by omega) (by omega)
    case isFalse heven => exact guardedRoot_roundsTo hm (by omega)

/-! ### The operations round -/

theorem ofInt_roundsTo (n : Int) : RoundsTo (n : ℝ) (F64.ofInt n) := by
  simpa [F64.ofInt] using round_int n 0

theorem sub_roundsTo {x y : F64} (hx : F64.isFinite x = true) (hy : F64.isFinite y = true) :
    RoundsTo ((F64.value x : ℝ) - F64.value y) (F64.sub x y) := by
  have hsum := addFinite_roundsTo x (F64.negate y)
  rwa [value_negate, Rat.cast_neg, ← sub_eq_add_neg, ← sub_of_finite hx hy] at hsum

/-- Settles O46: each operation hands an integer that stands for the exact result to one rounding. -/
theorem arithmeticRoundsToNearestEven : Obligations.ArithmeticRoundsToNearestEven := by
  refine ⟨fun x y hx hy => ⟨?_, sub_roundsTo hx hy, mul_roundsTo hx hy, div_roundsTo hx hy, sqrt_roundsTo hx⟩,
    ofInt_roundsTo⟩
  rw [add_of_finite hx hy]
  exact addFinite_roundsTo x y

end Sys2Proof.Proofs

/-! The invariants of the machine (10_state.md, 20_memory.md R61-R80): what the stored data owe to them is kept by every
write of a command or of the host, and what the engine owes to them by every step. -/

namespace Sys2Proof.Proofs

open Sys2Proof.Machine

/-! ### Stored words and the form of the memory -/

/-- A word that is not among `n` stored words has none of its bytes among theirs. -/
theorem word_apart {id id' : MemId} {i k n : Nat} (hi : i + n ≤ id.words) (hk : k < id'.words)
    (h : ¬ (id = id' ∧ i ≤ k ∧ k < i + n)) : id'.addr k + 8 ≤ id.addr i ∨ id.addr (i + n) ≤ id'.addr k := by
  by_cases hid : id = id'
  · subst hid
    simp only [MemId.addr, true_and] at *
    omega
  · have hwindows := windows_apart hid
    simp only [MemId.addr] at *
    omega

/-- Storing words of one memory keeps the form of the whole memory (20_memory.md R61, R69; 10_state.md R43). -/
theorem memoryLegal_of_store {s t : State} {id : MemId} {i : Nat} {ws : List Word} (h : s.MemoryLegal)
    (ht : t.mem = writeEntries id i ws s.mem) (hfit : i + ws.length ≤ id.words)
    (hbits : id = .bit → ∀ w ∈ ws, w = 0 ∨ w = 1) : t.MemoryLegal where
  wf := ht ▸ writeEntries_wf id i ws s.mem h.wf
  mapped c hc := by
    rw [ht, writeEntries_eq] at hc
    rcases mem_writeBytes_addr hc with hold | hnew
    · exact h.mapped c hold
    · rw [wordBytes_length] at hnew
      refine ⟨id, i + (c.1 - id.addr i) / 8, ?_⟩
      simp only [MemId.addr] at *
      omega
  whole id' k x hk hlo hhi hx := by
    rw [ht] at hx ⊢
    rw [readWord_writeEntries hfit hk]
    split
    · rfl
    · next hout =>
      have hapart := word_apart hfit hk hout
      rw [readByte_writeEntries_of_outside id i ws s.mem x (by omega)] at hx
      exact h.whole id' k x hk hlo hhi hx
  bits k v hk hv := by
    rw [ht, readWord_writeEntries hfit hk] at hv
    split at hv
    · next hin =>
      obtain rfl := Option.some.inj hv
      exact hbits hin.1 _ (List.getElem_mem _)
    · exact h.bits k v hk hv

theorem memoryLegal_congr {s t : State} (h : s.MemoryLegal) (hmem : t.mem = s.mem) : t.MemoryLegal := by
  constructor <;> rw [hmem]
  exacts [h.wf, h.mapped, h.whole, h.bits]

/-! ### The dictionary -/

/-- The registers that describe the dictionary (10_state.md R34, R41, R52) and those that name the last command (R29,
R37) are the same. -/
structure SameRecords (s t : State) : Prop where
  valid : t.dictValid = s.dictValid
  key : t.dictKey = s.dictKey
  count : t.dictN = s.dictN
  length : t.dictLen = s.dictLen
  command : t.cmd = s.cmd
  lastOp : t.lastOp = s.lastOp

/-- With the same describing registers the dictionary stays legal when its samples still stand in DICT_MEM. -/
theorem dictionaryLegal_of_same {s t : State} (h : s.DictionaryLegal) (hsame : SameRecords s t)
    (hkept : ∀ k, k < MemId.dict.words → t.mem.readWord (MemId.dict.addr k) = s.mem.readWord (MemId.dict.addr k)) :
    t.DictionaryLegal := by
  obtain ⟨hvalid, hkey, hcount, hlength, -, -⟩ := hsame
  refine ⟨fun hv => ?_, fun hv => ?_, fun hv => ?_, fun hv => ?_⟩ <;> rw [hvalid] at hv <;> rw [hkey]
  · intro k hk
    rw [hkept k (lt_of_lt_of_le hk (h.fits hv))]
    exact h.samples hv k hk
  · rw [hcount]; exact h.count hv
  · rw [hlength]; exact h.length hv
  · exact h.fits hv

theorem dictionaryLegal_of_invalid {t : State} (h : t.dictValid = false) : t.DictionaryLegal := by
  constructor <;> simp [h]

/-- The dictionary is a pure function of its key (20_memory.md R79): the key of a configuration gives the samples the
build computes from the configuration. -/
theorem samples_configKey (c : Snapshot) (sch : Scheme) (w : Nat) :
    (configKey c sch w).samples = dictionary c sch w := by
  cases sch <;> rfl

/-! ### Counts and codes -/

theorem countWord_toNat_le (n : Nat) : (countWord n).toNat ≤ n := by
  rw [countWord, BitVec.toNat_ofNat]
  exact Nat.mod_le _ _

theorem countWord_le {n depth : Nat} (h : n ≤ depth) : (countWord n).toNat ≤ depth :=
  (countWord_toNat_le n).trans h

theorem clampCount_le (v : Word) (depth : Nat) : (clampCount v depth).toNat ≤ depth :=
  countWord_le (Nat.min_le_right _ _)

/-- The codes are 1 to 8 (60_exceptions.md R200). -/
theorem errCode_range (code : ErrCode) : 1 ≤ code.code.toNat ∧ code.code.toNat ≤ 8 := by cases code <;> decide

theorem wordOfBit_eq_zero_or_one (b : Bool) : wordOfBit b = 0 ∨ wordOfBit b = 1 := by cases b <;> decide

/-! ### The invariants of the stored data -/

/-- The invariants that do not speak of BUSY: they hold at every moment inside a command too. -/
structure DataLegal (s : State) : Prop where
  registers : s.RegistersLegal
  lastOp : s.lastOp = s.cmd.extractLsb' 0 8
  memory : s.MemoryLegal
  dictionary : s.DictionaryLegal

theorem dataLegal_of_legal {s : State} (h : s.Legal) : DataLegal s :=
  ⟨h.registers, h.engine.lastOp, h.memory, h.dictionary⟩

theorem lastOp_of_same {s t : State} (h : DataLegal s) (hsame : SameRecords s t) :
    t.lastOp = t.cmd.extractLsb' 0 8 := by
  rw [hsame.lastOp, hsame.command, h.lastOp]

/-- Words stored in a memory other than DICT_MEM, with registers that stay legal. -/
theorem dataLegal_of_store {s t : State} (id : MemId) {i : Nat} {ws : List Word} (h : DataLegal s) (hid : id ≠ .dict)
    (ht : t.mem = writeEntries id i ws s.mem) (hfit : i + ws.length ≤ id.words)
    (hbits : id = .bit → ∀ w ∈ ws, w = 0 ∨ w = 1) (hregisters : t.RegistersLegal)
    (hsame : SameRecords s t := by constructor <;> rfl) : DataLegal t :=
  ⟨hregisters, lastOp_of_same h hsame, memoryLegal_of_store h.memory ht hfit hbits,
    dictionaryLegal_of_same h.dictionary hsame fun k hk => by rw [ht, readWord_writeEntries_of_ne hid i k ws s.mem hfit hk]⟩

/-- Registers written, and nothing else. -/
theorem dataLegal_of_registers {s t : State} (h : DataLegal s) (hmem : t.mem = s.mem) (hregisters : t.RegistersLegal)
    (hsame : SameRecords s t := by constructor <;> rfl) : DataLegal t :=
  ⟨hregisters, lastOp_of_same h hsame, memoryLegal_congr h.memory hmem,
    dictionaryLegal_of_same h.dictionary hsame fun k _ => by rw [hmem]⟩

/-! ### What the writes of a command keep -/

section
variable {s : State}

theorem complete_dataLegal (h : DataLegal s) : DataLegal (complete s) :=
  dataLegal_of_registers h rfl { h.registers with }

theorem raiseError_dataLegal (code : ErrCode) (h : DataLegal s) : DataLegal (raiseError code s) :=
  dataLegal_of_registers h rfl { h.registers with noError := nofun, someError := fun _ => errCode_range code }

theorem softReset_dataLegal (h : DataLegal s) : DataLegal (softReset s) :=
  ⟨{ h.registers with
      ctrlReserved := (by decide : 0x0000000000041100#64 &&& ~~~ctrlMask = 0)
      nBits := Nat.zero_le _, nSym := Nat.zero_le _, nLevel := Nat.zero_le _, nParam := Nat.zero_le _
      nSample := Nat.zero_le _ },
    h.lastOp, memoryLegal_congr h.memory rfl, dictionaryLegal_of_invalid rfl⟩

theorem storeBits_dataLegal {bits : List Bool} (hn : bits.length ≤ Config.bitDepth) (h : DataLegal s) :
    DataLegal (storeBits bits s) := by
  refine dataLegal_of_store .bit h (by decide) rfl (by simpa [MemId.words] using hn) (fun _ w hw => ?_)
    { h.registers with nBits := countWord_le hn }
  obtain ⟨b, -, rfl⟩ := List.mem_map.mp hw
  exact wordOfBit_eq_zero_or_one b

theorem storeSyms_dataLegal {syms : List Nat} (hn : syms.length ≤ Config.symDepth) (h : DataLegal s) :
    DataLegal (storeSyms syms s) :=
  dataLegal_of_store .sym h (by decide) rfl (by simpa [MemId.words] using hn) nofun
    { h.registers with nSym := countWord_le hn }

theorem storeDecs_dataLegal {decs : List F64} (hn : decs.length ≤ Config.decDepth) (h : DataLegal s) :
    DataLegal (storeDecs decs s) :=
  dataLegal_of_store .dec h (by decide) rfl (by simpa [MemId.words] using hn) nofun
    { h.registers with nDec := countWord_le hn }

theorem storeGray_dataLegal (form : Bool) {table : List Word} (hn : table.length ≤ Config.grayDepth) (h : DataLegal s) :
    DataLegal (storeGray form table s) :=
  dataLegal_of_store .gray h (by decide) rfl (by simpa [MemId.words] using hn) nofun
    { h.registers with grayN := countWord_le hn }

theorem storeLevels_dataLegal {levels : List Int} (hn : levels.length ≤ Config.levelDepth) (h : DataLegal s) :
    DataLegal (storeLevels levels s) :=
  dataLegal_of_store .level h (by decide) rfl (by simpa [MemId.words] using hn) nofun
    { h.registers with nLevel := countWord_le hn }

theorem storeParams_dataLegal {params : List Triple} (hn : params.length ≤ Config.paramDepth) (h : DataLegal s) :
    DataLegal (storeParams params s) :=
  dataLegal_of_store .param h (by decide) rfl (by rw [length_flatMap_words]; simp only [MemId.words]; omega) nofun
    { h.registers with nParam := countWord_le hn }

theorem storeSamples_dataLegal {samples : List F64} (hn : samples.length ≤ Config.sampleDepth) (h : DataLegal s) :
    DataLegal (storeSamples samples s) :=
  dataLegal_of_store .sample h (by decide) rfl (by simpa [MemId.words] using hn) nofun
    { h.registers with nSample := countWord_le hn }

/-- AMI_SIGN is in no invariant, so a line coder owes what storing its levels owes. -/
theorem storeLineCode_dataLegal (code : LineCode) (w : Nat) {syms : List Nat}
    (hn : syms.length * levelsPerSymbol (.line code) w ≤ Config.levelDepth) (h : DataLegal s) :
    DataLegal (storeLineCode code w syms s) := by
  have hlevels : DataLegal (storeLevels (lineLevels code w syms) s) :=
    storeLevels_dataLegal (by rwa [length_lineLevels]) h
  cases code with
  | nrz => exact hlevels
  | man => exact hlevels
  | ami => exact dataLegal_of_registers hlevels rfl { hlevels.registers with }

theorem applyNoise_dataLegal (c : Snapshot) {samples : List F64} (hn : samples.length ≤ Config.sampleDepth)
    (h : DataLegal s) : DataLegal (applyNoise c samples s) :=
  dataLegal_of_store .sample h (by decide) rfl (by simpa [MemId.words, noisySamples] using hn) nofun
    { h.registers with }

/-- A build makes DICT_MEM, DICT_N and DICT_LEN those of the key it stores (45_transceiver.md R174). -/
theorem buildDict_dataLegal {c : Snapshot} {sch : Scheme} {w : Nat}
    (hcap : 2 ^ w * entryLength c sch w ≤ Config.dictDepth) (h : DataLegal s) : DataLegal (buildDict c sch w s) := by
  have hfit : (dictionary c sch w).length ≤ Config.dictDepth := by rwa [length_dictionary]
  have hmem : (buildDict c sch w s).mem = writeEntries .dict 0 (dictionary c sch w) s.mem := rfl
  have hkey : (buildDict c sch w s).dictKey.samples = dictionary c sch w := samples_configKey c sch w
  refine ⟨{ h.registers with dict := ?_ }, h.lastOp,
    memoryLegal_of_store h.memory hmem (by simpa [MemId.words] using hfit) nofun,
    ⟨fun _ => ?_, fun _ => rfl, fun _ => rfl, fun _ => hkey ▸ hfit⟩⟩
  · exact (Nat.mul_le_mul (countWord_toNat_le _) (countWord_toNat_le _)).trans hcap
  · rw [hkey]
    intro k hk
    rw [hmem]
    simpa using readWord_writeEntries_of_inside .dict 0 (dictionary c sch w) s.mem k hk

theorem ensureDict_dataLegal {c : Snapshot} {sch : Scheme} {w : Nat}
    (hcap : 2 ^ w * entryLength c sch w ≤ Config.dictDepth) (h : DataLegal s) : DataLegal (ensureDict c sch w s) := by
  rcases ensureDict_eq s c sch w with ⟨-, heq⟩ | ⟨-, heq⟩ <;> rw [heq]
  · exact h
  · exact buildDict_dataLegal hcap h

end
/-! ### Every command keeps the stored data legal -/

section
variable {s u : State}

/-- As many symbols are read as the snapshot counts. -/
theorem length_inputSymbols {w : Nat} {ws : List Word} (h : InputSymbols s w ws) :
    (ws.map BitVec.toNat).length = s.snap.nSym.toNat := by
  rw [List.length_map, length_of_readEntries h.read]

/-- Three words a triple (20_memory.md R61). -/
theorem length_triplesOfWords {n : Nat} {ws : List Word} (h : ws.length = 3 * n) : (triplesOfWords ws).length = n := by
  induction n generalizing ws with
  | zero =>
    rw [List.length_eq_zero_iff.mp h]
    rfl
  | succ n ih =>
    match ws, h with
    | a :: f :: p :: ws, h => simp [triplesOfWords, ih (ws := ws) (by simp only [List.length_cons] at h; omega)]

theorem lineEffect_dataLegal {code : LineCode} (he : LineEffect code s u) (h : DataLegal s) : DataLegal u := by
  obtain ⟨w, ws, -, hin, hcap, rfl⟩ := he
  exact storeLineCode_dataLegal code w (by rwa [length_inputSymbols hin]) h

theorem paramEffect_dataLegal {m : Modulation} (he : ParamEffect m s u) (h : DataLegal s) : DataLegal u := by
  obtain ⟨w, ws, -, hin, hcap, rfl⟩ := he
  exact storeParams_dataLegal (by rwa [List.length_map, length_inputSymbols hin]) h

/-- The waveform of TX has SPS samples for each level or carrier block (45_transceiver.md R170-R172). -/
theorem length_transmitWave {c : Snapshot} {sch : Scheme} {w n : Nat} (hp : TransmitLegal c sch w n) (syms : List Nat) :
    (transmitWave c sch w syms).length = syms.length * levelsPerSymbol sch w * c.sps.toNat := by
  cases sch with
  | carrier m => simp [transmitWave, length_carrierWave, levelsPerSymbol]
  | line code =>
    cases hideal : c.ideal with
    | true => simp [transmitWave, hideal, length_levelWave, length_lineLevels]
    | false =>
      have hblock : c.pulseBlock ≠ 0 := hp.block (by simp [schemeIsLine, hideal])
      simp [transmitWave, hideal, length_pulseWave c hblock, length_lineLevels]

theorem storeStage_dataLegal {sch : Scheme} {w : Nat} {syms : List Nat} (hcap : StageFits sch syms.length w)
    (h : DataLegal s) : DataLegal (storeStage sch w syms s) := by
  cases sch with
  | line code => exact storeLineCode_dataLegal code w hcap h
  | carrier m => exact storeParams_dataLegal (by rwa [List.length_map]) h

theorem noiseUnlessIdeal_dataLegal (c : Snapshot) {wave : List F64} (hn : wave.length ≤ Config.sampleDepth)
    (h : DataLegal s) : DataLegal (noiseUnlessIdeal c wave s) := by
  unfold noiseUnlessIdeal
  split
  · exact h
  · exact applyNoise_dataLegal c hn h

/-- The stages of TX on its symbols, one after the other (45_transceiver.md R170). -/
theorem transmitStages_dataLegal {sch : Scheme} {w : Nat} {syms : List Nat}
    (hp : TransmitLegal s.snap sch w syms.length) (h : DataLegal s) :
    DataLegal (noiseUnlessIdeal s.snap (transmitWave s.snap sch w syms)
      (storeSamples (transmitWave s.snap sch w syms) (storeStage sch w syms (storeSyms syms s)))) := by
  have hwave : (transmitWave s.snap sch w syms).length ≤ Config.sampleDepth :=
    (length_transmitWave hp syms).trans_le hp.sampleCap
  exact noiseUnlessIdeal_dataLegal s.snap hwave (storeSamples_dataLegal hwave (storeStage_dataLegal hp.stageCap
    (storeSyms_dataLegal hp.symCap h)))

theorem transmitted_dataLegal {sch : Scheme} {w n : Nat} {ws : List Word} (hp : TransmitLegal s.snap sch w n)
    (h : DataLegal s) : DataLegal (transmitted s sch w n ws) :=
  transmitStages_dataLegal (by rwa [length_groupBits]) h

/-- DETECT and RX store one symbol a window, after ensuring the dictionary (45_transceiver.md R177). -/
theorem detected_dataLegal {sch : Scheme} {w windows : Nat} {p : State × List Nat} (hp : DictPlanLegal s.snap sch w)
    (hd : Detected s sch w windows p) (hcap : windows ≤ Config.symDepth) (h : DataLegal s) :
    p.2.length = windows ∧ DataLegal (storeSyms p.2 p.1) := by
  obtain ⟨samples, dict, hstate, -, -, hsyms⟩ := hd
  have hlength : p.2.length = windows := by rw [hsyms, length_detectSymbols]
  refine ⟨hlength, storeSyms_dataLegal (by rwa [hlength]) ?_⟩
  rw [hstate]
  exact ensureDict_dataLegal hp.cap h

theorem length_flatMap_symbolBits (w : Nat) (syms : List Nat) :
    (syms.flatMap (symbolBits w)).length = syms.length * w := length_flatMap_const _ _ w (length_symbolBits w)

/-- All writes of a command together. NOISE alone checks no capacity: it rewrites the samples that N_SAMPLE counts
(44_pulse_noise.md R163). -/
theorem commandEffect_dataLegal {i : Instr} (hsnap : s.snap.nSample.toNat ≤ Config.sampleDepth)
    (he : CommandEffect i s u) (h : DataLegal s) : DataLegal u := by
  cases i with
  | nop => exact he ▸ h
  | sreset => exact he ▸ softReset_dataLegal h
  | bits2sym =>
    obtain ⟨sch, w, ws, -, -, hcap, -, rfl⟩ := he
    exact storeSyms_dataLegal (by rwa [length_groupBits]) h
  | sym2dec =>
    obtain ⟨sch, w, ws, -, -, hin, hcap, rfl⟩ := he
    exact storeDecs_dataLegal (by rwa [List.length_map, length_inputSymbols hin]) h
  | sym2bits =>
    obtain ⟨sch, w, ws, -, -, hin, hcap, rfl⟩ := he
    exact storeBits_dataLegal (by rwa [length_flatMap_symbolBits, length_inputSymbols hin]) h
  | graygen form =>
    obtain ⟨sch, w, -, -, hcap, rfl⟩ := he
    exact storeGray_dataLegal form (by rwa [List.length_map, List.length_range]) h
  | lcencNrz => exact lineEffect_dataLegal he h
  | lcencMan => exact lineEffect_dataLegal he h
  | lcencAmi => exact lineEffect_dataLegal he h
  | modpAsk => exact paramEffect_dataLegal he h
  | modpFsk => exact paramEffect_dataLegal he h
  | modpPsk => exact paramEffect_dataLegal he h
  | modpQpsk => exact paramEffect_dataLegal he h
  | modpQam16 => exact paramEffect_dataLegal he h
  | synLevel =>
    obtain ⟨ws, -, hcap, hread, rfl⟩ := he
    exact storeSamples_dataLegal (by rwa [length_levelWave, List.length_map, length_of_readEntries hread]) h
  | synPulse =>
    obtain ⟨ws, -, hblock, hcap, hread, rfl⟩ := he
    exact storeSamples_dataLegal (by rwa [length_pulseWave _ hblock, List.length_map, length_of_readEntries hread]) h
  | synCarrier =>
    obtain ⟨ws, -, -, hcap, hread, rfl⟩ := he
    refine storeSamples_dataLegal ?_ h
    rwa [length_carrierWave, length_triplesOfWords (length_of_readEntries hread)]
  | noise =>
    obtain ⟨ws, hread, rfl⟩ := he
    exact applyNoise_dataLegal s.snap (by rwa [length_of_readEntries hread]) h
  | tx =>
    obtain ⟨sch, w, n, ws, hp, -, rfl⟩ := he
    exact transmitted_dataLegal hp h
  | dictbuild =>
    obtain ⟨sch, w, hp, rfl⟩ := he
    exact buildDict_dataLegal hp.cap h
  | detect =>
    obtain ⟨sch, w, windows, p, hp, -, hcap, hd, rfl⟩ := he
    exact (detected_dataLegal hp hd hcap h).2
  | rx =>
    obtain ⟨sch, w, windows, p, hp, -, hcap, hbits, hd, rfl⟩ := he
    obtain ⟨hlength, hsyms⟩ := detected_dataLegal hp hd hcap h
    exact storeBits_dataLegal (by rwa [length_flatMap_symbolBits, hlength]) hsyms

end
/-! ### The address map (20_memory.md R60, R61, R64) -/

/-- An access reaches a memory only at one of its valid entries. -/
theorem lt_words_of_busTarget {size : Nat} {addr : Addr} {id : MemId} {i : Nat} (h : busTarget size addr = .entry id i) :
    i < id.words := by
  simp only [busTarget] at h
  split_ifs at h
  split at h
  · cases h
  · split_ifs at h with hvalid
    cases h
    exact hvalid

theorem busTarget_register (r : RegId) : busTarget 8 r.busAddr = .register (some r) := by cases r <;> rfl

/-- The word offsets from 0x90 on are reserved (10_state.md R58). -/
theorem busTarget_reserved {a : Addr} (hlo : 0x90 ≤ a.toNat) (hhi : a.toNat < 0x100) (halign : a.toNat % 8 = 0) :
    busTarget 8 a = .register none := by
  have hnone : registerMap[a.toNat / 8]? = none := List.getElem?_eq_none (by simp [registerMap]; omega)
  simp [busTarget, halign, hhi, hnone]

/-- The windows lie above the registers, at multiples of 8 bytes. -/
theorem base_aligned (id : MemId) : 0x10000 ≤ id.base ∧ id.base % 8 = 0 := by cases id <;> decide

/-- The entries of a memory fit its window. -/
theorem addr_le_last {id : MemId} {i : Nat} (h : i < id.words) : id.addr i ≤ id.last := by
  have hfit : id.base + 8 * id.words ≤ id.last + 8 := by cases id <;> decide
  simp only [MemId.addr]
  omega

theorem last_lt (id : MemId) : id.last < 2 ^ 24 := by cases id <;> decide

theorem windowOf_of_mem {id : MemId} {a : Nat} (hlo : id.base ≤ a) (hhi : a ≤ id.last) : windowOf a = some id := by
  cases id <;> grind [windowOf, MemId.base, MemId.last]

theorem busAddr_toNat {id : MemId} {i : Nat} (h : i < id.words) : (id.busAddr i).toNat = id.addr i := by
  rw [MemId.busAddr, BitVec.toNat_ofNat, Nat.mod_eq_of_lt ((addr_le_last h).trans_lt (last_lt id))]

/-- An access at the address of a valid entry reaches that entry. -/
theorem busTarget_entry {id : MemId} {i : Nat} (h : i < id.words) : busTarget 8 (id.busAddr i) = .entry id i := by
  obtain ⟨hbase, halign⟩ := base_aligned id
  have hwindow : windowOf (id.addr i) = some id := windowOf_of_mem (Nat.le_add_right _ _) (addr_le_last h)
  have hindex : (id.addr i - id.base) / 8 = i := by simp [MemId.addr]
  have haddr : id.addr i % 8 = 0 ∧ ¬ id.addr i < 0x100 := by
    simp only [MemId.addr]
    omega
  simp [busTarget, busAddr_toNat h, haddr, hwindow, hindex, h]

/-! ### Host writes (20_memory.md R66) -/

section
variable {s t : State}

/-- A write has the effect of its target, and a response. -/
theorem hostWrite_eq_respond (size : Nat) (addr : Addr) (v : Word) (s : State) :
    ∃ r, hostWrite size addr v s = (writeTarget (busTarget size addr) v s).respond r := by
  unfold hostWrite
  cases busTarget size addr with
  | register r => exact ⟨.done, rfl⟩
  | entry id i => exact ⟨.done, rfl⟩
  | invalid => exact ⟨.busError, rfl⟩

theorem hostWrite_of_register {addr : Addr} {r : Option RegId} (h : busTarget 8 addr = .register r) (v : Word)
    (s : State) :
    hostWrite 8 addr v s = (writeTarget (.register r) v s).respond .done := by
  rw [hostWrite, h]

theorem hostWrite_of_entry {addr : Addr} {id : MemId} {i : Nat} (h : busTarget 8 addr = .entry id i) (v : Word)
    (s : State) :
    hostWrite 8 addr v s = (writeTarget (.entry id i) v s).respond .done := by
  rw [hostWrite, h]

/-- A register other than STATUS is written only while BUSY = 0; while BUSY = 1 the write is dropped and sets OVR
(70_reset_and_hazards.md R241). -/
theorem writeTarget_register {r : RegId} (h : r ≠ .status) (v : Word) (s : State) :
    writeTarget (.register (some r)) v s = if s.busy then { s with ovr := true } else writeRegister r v s := by
  cases r
  case status => exact absurd rfl h
  all_goals rfl

theorem writeTarget_register_of_idle (r : RegId) (v : Word) (h : s.busy = false) :
    writeTarget (.register (some r)) v s = writeRegister r v s := by
  by_cases hr : r = .status
  · rw [hr]
    rfl
  · simp [writeTarget_register hr, h]

theorem writeTarget_reserved_of_idle (v : Word) (h : s.busy = false) : writeTarget (.register none) v s = s := by
  simp [writeTarget, h]

theorem writeTarget_entry_of_idle (id : MemId) (i : Nat) (v : Word) (h : s.busy = false) :
    writeTarget (.entry id i) v s = writeMemory id i v s := by
  simp [writeTarget, h]

/-- Write one to clear, flag by flag (10_state.md R59). -/
theorem writeStatus_eq (v : Word) (s : State) :
    writeStatus v s =
      { s with
        done := s.done && !v.getLsbD 1
        err := s.err && !v.getLsbD 2
        errCode := if v.getLsbD 2 then 0#8 else s.errCode
        ovr := s.ovr && !v.getLsbD 3 } := by
  unfold writeStatus
  cases v.getLsbD 1 <;> cases v.getLsbD 2 <;> cases v.getLsbD 3 <;> simp [clearError]

/-! ### Host reads (20_memory.md R65) -/

/-- No command runs on an idle machine, so no read is unspecified. -/
theorem inWriteSet_of_idle (target : Target) (h : s.busy = false) : inWriteSet target s = false := by
  simp [inWriteSet, runningCommand, h]

/-- A read changes nothing but the model's own record of it (20_memory.md R70). -/
theorem hostRead_next {size : Nat} {addr : Addr} (h : hostRead size addr s = .next t) :
    ∃ r n, t = { s with response := r, freeReads := n } := by
  simp only [hostRead] at h
  split_ifs at h
  · cases h
    exact ⟨_, _, rfl⟩
  · split at h
    case h_4 => split at h <;> cases h; exact ⟨_, s.freeReads, rfl⟩
    all_goals cases h; exact ⟨_, s.freeReads, rfl⟩

/-! ### The invariants under host accesses -/

/-- No invariant speaks of OVR, of the response, or of what is outside the machine (the host's queue, the noise port, the
count of unspecified reads). -/
theorem legal_of_outside (h : s.Legal) (o : Bool) (es : List HostEvent) (r : Response) (q : List Config.FiniteF64)
    (k n : Nat) :
    { s with ovr := o, host := es, response := r, noiseQueue := q, noiseTaken := k, freeReads := n }.Legal :=
  ⟨{ h.registers with }, { h.engine with }, { h.memory with }, { h.dictionary with }⟩

/-- An idle engine owes nothing but LAST_OP. -/
theorem legal_of_idle (hidle : s.busy = false) (h : DataLegal s) : s.Legal :=
  ⟨h.registers, ⟨by simp [hidle], by simp [hidle], by simp [hidle], h.lastOp⟩, h.memory, h.dictionary⟩

theorem respond_legal (h : s.Legal) (r : Response) : (s.respond r).Legal := legal_of_outside h _ _ r _ _ _

/-- Clearing flags is legal at any time: ERRCODE falls with ERR, and while BUSY = 1 there is no flag to clear. -/
theorem writeStatus_legal (h : s.Legal) (v : Word) : (writeStatus v s).Legal := by
  rw [writeStatus_eq]
  generalize v.getLsbD 2 = clear
  refine ⟨{ h.registers with noError := fun herr => ?_, someError := fun herr => ?_ },
    { h.engine with flags := fun hbusy => ?_ }, { h.memory with }, { h.dictionary with }⟩
  · cases clear with
    | true => rfl
    | false => exact h.registers.noError (by simpa using herr)
  · obtain ⟨hset, rfl⟩ : s.err = true ∧ clear = false := by simpa using herr
    exact h.registers.someError hset
  · obtain ⟨hdone, herr⟩ := h.engine.flags hbusy
    simp [hdone, herr]

/-- Acceptance sets up what the engine owes while BUSY = 1 (60_exceptions.md R208); an illegal word leaves it idle. -/
theorem acceptCommand_legal (h : s.Legal) (v : Word) : (acceptCommand v s).Legal := by
  have hlatched : DataLegal (latchCommand v s) :=
    ⟨{ h.registers with noError := fun _ => rfl, someError := nofun }, rfl, memoryLegal_congr h.memory rfl,
      { h.dictionary with }⟩
  unfold acceptCommand
  split
  · next i hdecode =>
    exact ⟨hlatched.registers, ⟨fun _ => ⟨rfl, rfl⟩, fun _ => ⟨i, hdecode⟩, fun _ => rfl, rfl⟩, hlatched.memory,
      hlatched.dictionary⟩
  · exact legal_of_idle rfl (raiseError_dataLegal .illegalCmd hlatched)

theorem ctrlMask_reserved (v : Word) : (v &&& ctrlMask) &&& ~~~ctrlMask = 0 := by
  rw [BitVec.and_assoc, BitVec.and_not_self]
  exact BitVec.and_zero

/-- Each register stores only what it can hold (10_state.md R22, R38, R58). -/
theorem writeRegister_legal (hidle : s.busy = false) (h : s.Legal) (r : RegId) (v : Word) :
    (writeRegister r v s).Legal := by
  have hdata := dataLegal_of_legal h
  cases r with
  | cmd => exact acceptCommand_legal h v
  | status => exact writeStatus_legal h v
  | ctrl =>
    exact legal_of_idle hidle (dataLegal_of_registers hdata rfl { h.registers with ctrlReserved := ctrlMask_reserved v })
  | nBits =>
    exact legal_of_idle hidle (dataLegal_of_registers hdata rfl { h.registers with nBits := clampCount_le v _ })
  | nSym =>
    exact legal_of_idle hidle (dataLegal_of_registers hdata rfl { h.registers with nSym := clampCount_le v _ })
  | nLevel =>
    exact legal_of_idle hidle (dataLegal_of_registers hdata rfl { h.registers with nLevel := clampCount_le v _ })
  | nParam =>
    exact legal_of_idle hidle (dataLegal_of_registers hdata rfl { h.registers with nParam := clampCount_le v _ })
  | nSample =>
    exact legal_of_idle hidle (dataLegal_of_registers hdata rfl { h.registers with nSample := clampCount_le v _ })
  | sps | peakV | carrierF | sampleRate | noiseSigma =>
    exact legal_of_idle hidle (dataLegal_of_registers hdata rfl { h.registers with })
  | id | nDec | grayN | dictN | dictLen => exact h

/-- The host writes no entry of DICT_MEM, and of BIT_MEM only bit 0 (10_state.md R42, R43). -/
theorem writeMemory_legal (hidle : s.busy = false) (h : s.Legal) {id : MemId} {i : Nat} (hi : i < id.words) (v : Word) :
    (writeMemory id i v s).Legal := by
  unfold writeMemory
  split
  · next hwritable =>
    refine legal_of_idle hidle (dataLegal_of_store id (dataLegal_of_legal h) ?_ rfl hi ?_ { h.registers with })
    · rintro rfl
      cases hwritable
    · rintro rfl w hw
      rw [List.mem_singleton.mp hw]
      exact wordOfBit_eq_zero_or_one _
  · exact h

theorem writeTarget_legal (h : s.Legal) {target : Target} (v : Word)
    (hvalid : ∀ id i, target = .entry id i → i < id.words) : (writeTarget target v s).Legal := by
  cases hbusy : s.busy with
  | true =>
    have hdropped : { s with ovr := true }.Legal := legal_of_outside h true _ _ _ _ _
    match target with
    | .register (some r) =>
      by_cases hr : r = .status
      · rw [hr]
        exact writeStatus_legal h v
      · rwa [writeTarget_register hr, if_pos hbusy]
    | .register none => rwa [writeTarget, if_pos hbusy]
    | .entry id i => rwa [writeTarget, if_pos hbusy]
    | .invalid => exact h
  | false =>
    match target with
    | .register (some r) =>
      rw [writeTarget_register_of_idle r v hbusy]
      exact writeRegister_legal hbusy h r v
    | .register none => rwa [writeTarget_reserved_of_idle v hbusy]
    | .entry id i =>
      rw [writeTarget_entry_of_idle id i v hbusy]
      exact writeMemory_legal hbusy h (hvalid id i rfl) v
    | .invalid => exact h

theorem hostWrite_legal (h : s.Legal) (size : Nat) (addr : Addr) (v : Word) : (hostWrite size addr v s).Legal := by
  obtain ⟨r, hwrite⟩ := hostWrite_eq_respond size addr v s
  rw [hwrite]
  exact respond_legal (writeTarget_legal h v fun id i => lt_words_of_busTarget) r

end

/-- Settles O58: nothing is set, counted or written. -/
theorem resetIsLegal : Obligations.ResetIsLegal := by
  have hdata : DataLegal State.reset :=
    { registers :=
        { ctrlReserved := by decide, noError := fun _ => rfl, someError := nofun
          nBits := Nat.zero_le _, nSym := Nat.zero_le _, nLevel := Nat.zero_le _, nParam := Nat.zero_le _
          nSample := Nat.zero_le _, nDec := Nat.zero_le _, grayN := Nat.zero_le _, dict := Nat.zero_le _ }
      lastOp := by decide
      memory := ⟨rfl, nofun, nofun, nofun⟩
      dictionary := dictionaryLegal_of_invalid rfl }
  exact legal_of_idle rfl hdata

/-! ### Steps (20_memory.md R72, R73) -/

section
variable {s t : State}

theorem busAccess_legal (h : s.Legal) {e : BusAccess} (he : busAccess e s = .next t) : t.Legal := by
  cases e with
  | read size addr =>
    obtain ⟨r, n, rfl⟩ := hostRead_next he
    exact legal_of_outside h _ _ r _ _ n
  | write size addr v =>
    cases he
    exact hostWrite_legal h size addr v
  | hwReset =>
    cases he
    exact legal_of_outside resetIsLegal _ _ _ _ _ _

theorem hostStep_legal (h : s.Legal) (ht : hostStep s = .next t) : t.Legal := by
  unfold hostStep at ht
  split at ht
  · cases ht
    exact h
  · exact busAccess_legal (legal_of_outside h _ _ _ _ _ _) ht

/-- While BUSY = 1 the snapshot counts what the registers count. -/
theorem snapshot_nSample_le (h : s.Legal) (hbusy : s.busy = true) : s.snap.nSample.toNat ≤ Config.sampleDepth := by
  rw [h.engine.snapshot hbusy]
  exact h.registers.nSample

/-- A command leaves an idle machine: its writes and its completion, or an error code and no write (60_exceptions.md
R201, R209, R210). -/
theorem exec_legal (h : s.Legal) (hbusy : s.busy = true) {i : Instr} (ht : exec i s = .next t) : t.Legal := by
  have hends := exec_ends i s
  rw [ht] at hends
  rcases hends with ⟨code, -, rfl⟩ | ⟨u, heffect, rfl⟩
  · exact legal_of_idle rfl (raiseError_dataLegal code (dataLegal_of_legal h))
  · exact legal_of_idle rfl
      (complete_dataLegal (commandEffect_dataLegal (snapshot_nSample_le h hbusy) heffect (dataLegal_of_legal h)))

theorem engineStep_legal (h : s.Legal) (hbusy : s.busy = true) (ht : engineStep s = .next t) : t.Legal := by
  unfold engineStep at ht
  split at ht
  · exact exec_legal h hbusy ht
  · cases ht
    exact legal_of_idle rfl (raiseError_dataLegal .illegalCmd (dataLegal_of_legal h))

end

/-- Settles O59: a step is the engine's, on the snapshot of legal registers, or the host's. -/
theorem stepKeepsLegal : Obligations.StepKeepsLegal := by
  intro s t h ht
  unfold step at ht
  split at ht
  · next hgo =>
    have hbusy : s.busy = true := (Bool.and_eq_true_iff.mp hgo).1
    exact engineStep_legal h hbusy ht
  · exact hostStep_legal h ht

/-! ### Words of the memories (20_memory.md R66, R68) -/

theorem bytesLE_getElem? {n k : Nat} (v : Nat) (h : k < n) : (bytesLE n v)[k]? = some (BitVec.ofNat 8 (v / 256 ^ k)) := by
  induction n generalizing v k with
  | zero => omega
  | succ n ih =>
    cases k with
    | zero => simp [bytesLE]
    | succ k => rw [bytesLE, List.getElem?_cons_succ, ih _ (by omega), Nat.div_div_eq_div_mul, ← pow_succ']

/-- Byte `k` of a word is its bits [8k+7:8k]. -/
theorem ofNat_div_eq_extractLsb' (v : Word) (k : Nat) : BitVec.ofNat 8 (v.toNat / 256 ^ k) = v.extractLsb' (8 * k) 8 := by
  rw [BitVec.extractLsb', Nat.shiftRight_eq_div_pow, pow_mul]
  rfl

/-- The bytes of a stored word, from its lowest address on. -/
theorem readByte_writeEntries_singleton (id : MemId) (i : Nat) (w : Word) (m : Memory) {k : Nat} (hk : k < 8) :
    (writeEntries id i [w] m).readByte (id.addr i + k) = some (w.extractLsb' (8 * k) 8) := by
  have hbytes : wordBytes [w] = bytesLE 8 w.toNat := by simp [wordBytes]
  rw [writeEntries_eq, readByte_writeBytes, hbytes, bytesLE_length, if_pos (by omega), Nat.add_sub_cancel_left,
    bytesLE_getElem? _ hk, ofNat_div_eq_extractLsb']

/-- What a memory stores of a value is what a read of it returns: bit 0 of it for BIT_MEM (10_state.md R43). -/
theorem loadedValue_storedValue (id : MemId) (v : Word) :
    loadedValue id (storedValue id v) = if id = .bit then v &&& 1#64 else v := by
  cases id
  case bit =>
    simp only [loadedValue, storedValue, if_true, BitVec.and_one_eq_setWidth_ofBool_getLsbD]
    cases v.getLsbD 0 <;> rfl
  all_goals rfl

section
variable {s : State}

theorem hostRead_reserved_of_idle {a : Addr} (hidle : s.busy = false) (h : busTarget 8 a = .register none) :
    hostRead 8 a s = .next (s.respond (.data 0#64)) := by
  simp [hostRead, h, inWriteSet_of_idle _ hidle]

theorem hostRead_entry_of_idle {id : MemId} {i : Nat} {w : Word} (hidle : s.busy = false) (hi : i < id.words)
    (hw : s.mem.readWord (id.addr i) = some w) :
    hostRead 8 (id.busAddr i) s = .next (s.respond (.data (loadedValue id w))) := by
  simp [hostRead, busTarget_entry hi, inWriteSet_of_idle _ hidle, readEntry_eq_ok.mpr hw]

theorem hostWrite_register_of_idle (hidle : s.busy = false) (r : RegId) (v : Word) :
    hostWrite 8 r.busAddr v s = (writeRegister r v s).respond .done := by
  rw [hostWrite_of_register (busTarget_register r), writeTarget_register_of_idle r v hidle]

theorem hostWrite_entry_of_idle (hidle : s.busy = false) {id : MemId} {i : Nat} (hi : i < id.words) (v : Word) :
    hostWrite 8 (id.busAddr i) v s = (writeMemory id i v s).respond .done := by
  rw [hostWrite_of_entry (busTarget_entry hi), writeTarget_entry_of_idle id i v hidle]

theorem writeMemory_of_readOnly {id : MemId} (h : id.hostWritable = false) (i : Nat) (v : Word) :
    writeMemory id i v s = s := by
  simp [writeMemory, h]

theorem writeMemory_of_writable {id : MemId} (h : id.hostWritable = true) (i : Nat) (v : Word) :
    writeMemory id i v s = { s with mem := writeEntries id i [storedValue id v] s.mem } := if_pos h

end

/-- Settles O53: a write stores one word, whose bytes and whose neighbours the laws of the memory give. -/
theorem memoryWriteThenRead : Obligations.MemoryWriteThenRead := by
  intro s v id i hidle hi
  refine ⟨fun hreadOnly => ?_, fun hdec hgray hdict => ?_⟩
  · have hignored : id.hostWritable = false := by rcases hreadOnly with rfl | rfl | rfl <;> rfl
    rw [hostWrite_entry_of_idle hidle hi, writeMemory_of_readOnly hignored]
    rfl
  · have hwritable : id.hostWritable = true := by cases id <;> trivial
    rw [hostWrite_entry_of_idle hidle hi, writeMemory_of_writable hwritable]
    refine ⟨rfl, fun a ha => ?_, fun hbit k hk => ?_, ?_⟩
    · refine readByte_writeEntries_of_outside id i [storedValue id v] s.mem a ?_
      simp only [MemId.addr, List.length_singleton] at *
      omega
    · have hwhole : storedValue id v = v := by cases id <;> trivial
      exact (readByte_writeEntries_singleton id i (storedValue id v) s.mem hk).trans (by rw [hwhole])
    · have hword := readWord_writeEntries_of_inside id i [storedValue id v] s.mem 0 (by simp)
      rw [← loadedValue_storedValue id v]
      exact hostRead_entry_of_idle (by exact hidle) hi hword

/-! ### Single steps and register writes -/

/-- Settles O4: the host does not go first, so the step is the engine's. -/
theorem stepRunsDecodedCommand : Obligations.StepRunsDecodedCommand := by
  intro s i hbusy hwait hdecode
  have hengine : hostGoesFirst s = false := by
    unfold hostGoesFirst
    split
    · rfl
    · next e es hhost => exact hwait e es hhost
  simp [step, engineStep, hbusy, hengine, hdecode]

/-- Settles O51: a write to STATUS is never dropped. -/
theorem statusWriteClearsFlags : Obligations.StatusWriteClearsFlags := by
  intro s v
  have hwrite : hostWrite 8 RegId.status.busAddr v s = (writeStatus v s).respond .done :=
    hostWrite_of_register (busTarget_register .status) v s
  rw [hwrite, writeStatus_eq]
  rfl

/-- Settles O52: on an idle machine the write is the register's own, and a reserved word has none. -/
theorem registerWritesStore : Obligations.RegisterWritesStore := by
  intro s v hidle
  have hstored := fun r => hostWrite_register_of_idle hidle r v
  have hsps : v.setWidth 32 = v.extractLsb' 0 32 := BitVec.setWidth_eq_extractLsb' (by decide)
  refine ⟨hstored .ctrl, ?_, hstored .peakV, hstored .carrierF, hstored .sampleRate, hstored .noiseSigma,
    hstored .nBits, hstored .nSym, hstored .nLevel, hstored .nParam, hstored .nSample, ?_, ?_⟩
  · rw [← hsps]
    exact hstored .sps
  · intro r hr
    rw [hstored]
    fin_cases hr <;> rfl
  · intro a hlo hhi halign
    have htarget := busTarget_reserved hlo hhi halign
    refine ⟨?_, hostRead_reserved_of_idle hidle htarget⟩
    rw [hostWrite_of_register htarget, writeTarget_reserved_of_idle v hidle]
    rfl

end Sys2Proof.Proofs

/-! The statements of 20_memory.md: what a host access does and leaves unchanged (R60-R72), and what each command writes
(R74, R79, R80). -/

namespace Sys2Proof.Proofs

open Sys2Proof.Machine

/-! ### Steps of the host (20_memory.md R72, 70_reset_and_hazards.md R231) -/

/-- Settles O5: the host goes first on an idle machine, and with an early access; with no access it waits. -/
theorem stepPerformsHostAccess : Obligations.StepPerformsHostAccess := by
  refine ⟨fun s e es hhost hfirst => ?_, fun s hhost hidle => by simp [step, hostStep, hidle, hhost]⟩
  have hturn : (s.busy && !hostGoesFirst s) = false := by
    rcases hfirst with hidle | hearly
    · simp [hidle]
    · simp [hostGoesFirst, hhost, hearly]
  simp [step, hostStep, hturn, hhost]

/-! ### Reads of an idle machine (20_memory.md R65) -/

section
variable {s : State}

theorem hostRead_register_of_idle (hidle : s.busy = false) (r : RegId) :
    hostRead 8 r.busAddr s = .next (s.respond (.data (readRegister r s))) := by
  simp [hostRead, busTarget_register, inWriteSet_of_idle _ hidle]

/-- A read zero-extends bit 0 of a BIT_MEM word (10_state.md R43). -/
theorem loadedValue_eq (id : MemId) (w : Word) : loadedValue id w = if id = .bit then w &&& 1#64 else w := by
  cases id
  case bit =>
    simp only [loadedValue, if_true, BitVec.and_one_eq_setWidth_ofBool_getLsbD]
    cases w.getLsbD 0 <;> rfl
  all_goals rfl

end

/-- Settles O60: no read of an idle machine is unspecified, and a written entry is no fault. -/
theorem hostReadsGiveCurrentValues : Obligations.HostReadsGiveCurrentValues := by
  refine ⟨fun s hidle => ⟨hostRead_register_of_idle hidle, fun id k v hk hv => ?_⟩, fun s => ?_⟩
  · rw [hostRead_entry_of_idle hidle hk hv, loadedValue_eq]
    rfl
  · have hsps : readRegister .sps s = BitVec.ofNat 64 s.sps.toNat := (BitVec.ofNat_toNat 64 s.sps).symm
    exact ⟨rfl, rfl, hsps, rfl, rfl, rfl, rfl, rfl, rfl, rfl, rfl, rfl, rfl, rfl, rfl, rfl, rfl, rfl⟩

/-! ### Bus errors (20_memory.md R67) -/

/-- Addresses in no window: between the registers and the memories, and above the memories (10_state.md R58). -/
theorem windowOf_eq_none {a : Nat} (h : a < 0x10000 ∨ 0x300000 ≤ a) : windowOf a = none := by
  grind [windowOf]

/-- The entries of a window that are not valid (20_memory.md R61). -/
theorem busTarget_beyond_words {size : Nat} {addr : Addr} {id : MemId} (hlo : id.addr id.words ≤ addr.toNat)
    (hhi : addr.toNat ≤ id.last) : busTarget size addr = .invalid := by
  obtain ⟨hbase, -⟩ := base_aligned id
  simp only [MemId.addr] at hlo
  have hwindow : windowOf addr.toNat = some id := windowOf_of_mem (by omega) hhi
  have hregister : ¬ addr.toNat < 0x100 := by omega
  have hbeyond : ¬ (addr.toNat - id.base) / 8 < id.words := by omega
  simp only [busTarget, hwindow, if_neg hregister, if_neg hbeyond, ite_self]

theorem busTarget_no_window {size : Nat} {addr : Addr} (hregister : 0x100 ≤ addr.toNat)
    (h : addr.toNat < 0x10000 ∨ 0x300000 ≤ addr.toNat) : busTarget size addr = .invalid := by
  have hbelow : ¬ addr.toNat < 0x100 := by omega
  simp only [busTarget, windowOf_eq_none h, if_neg hbelow, ite_self]

/-- A bus error in any state: an invalid target is in no write set. -/
theorem access_of_invalid {size : Nat} {addr : Addr} (h : busTarget size addr = .invalid) (v : Word) (s : State) :
    hostRead size addr s = .next (s.respond .busError) ∧ hostWrite size addr v s = s.respond .busError := by
  have houtside : inWriteSet .invalid s = false := by
    unfold inWriteSet
    split <;> rfl
  constructor
  · simp [hostRead, h, houtside]
  · rw [hostWrite, h]

/-- Settles O48: each of the five kinds of access has an invalid target. -/
theorem busErrorsChangeNothing : Obligations.BusErrorsChangeNothing := by
  intro s size addr v haccess
  have hinvalid : busTarget size addr = .invalid := by
    rcases haccess with hsize | halign | hhigh | ⟨hlo, hhi⟩ | ⟨id, hlo, hhi⟩
    · simp [busTarget, hsize]
    · simp [busTarget, halign]
    · exact busTarget_no_window (by omega) (.inr hhigh)
    · exact busTarget_no_window hlo (.inl hhi)
    · exact busTarget_beyond_words hlo hhi
  obtain ⟨hread, hwrite⟩ := access_of_invalid hinvalid v s
  exact ⟨hread, hwrite, rfl⟩

/-! ### Repeated writes (20_memory.md R70) -/

theorem offset_of_registerMap {k : Nat} {r : RegId} (h : registerMap[k]? = some r) : r.offset = 8 * k := by
  have htable : ∀ k : Fin registerMap.length, registerMap[k].offset = 8 * k := by decide
  obtain ⟨hk, rfl⟩ := List.getElem?_eq_some_iff.mp h
  exact htable ⟨k, hk⟩

/-- A register is reached at its own address only. -/
theorem addr_of_busTarget {size : Nat} {addr : Addr} {r : RegId} (h : busTarget size addr = .register (some r)) :
    addr = r.busAddr := by
  simp only [busTarget] at h
  split_ifs at h with hbad
  · have hoffset := offset_of_registerMap (Target.register.inj h)
    rw [RegId.busAddr, hoffset, show 8 * (addr.toNat / 8) = addr.toNat by omega, BitVec.ofNat_toNat, BitVec.setWidth_eq]
  · split at h
    · cases h
    · split_ifs at h

/-- Storing the same bytes again changes nothing. -/
theorem writeBytes_writeBytes (m : Memory) (a : Nat) (bs : List Byte) :
    (m.writeBytes a bs).writeBytes a bs = m.writeBytes a bs := by
  have hbelow : (cellsFrom a bs).filter (fun c => c.1 < a) = [] :=
    List.filter_eq_nil_iff.mpr fun c hc => by simpa using (mem_cellsFrom hc).1
  have habove : (cellsFrom a bs).filter (fun c => a + bs.length ≤ c.1) = [] :=
    List.filter_eq_nil_iff.mpr fun c hc => by simpa using (mem_cellsFrom hc).2
  have hapart : ∀ x, (decide (x < a) && decide (a + bs.length ≤ x)) = false ∧
      (decide (a + bs.length ≤ x) && decide (x < a)) = false := fun x => by simp; omega
  unfold Memory.writeBytes
  simp [List.filter_append, List.filter_filter, hbelow, habove, hapart]

theorem writeMemory_writeMemory (id : MemId) (i : Nat) (v : Word) (s : State) :
    writeMemory id i v (writeMemory id i v s) = writeMemory id i v s := by
  cases hwritable : id.hostWritable with
  | false => simp only [writeMemory_of_readOnly hwritable]
  | true => simp only [writeMemory_of_writable hwritable, writeEntries_eq, writeBytes_writeBytes]

theorem writeStatus_writeStatus (v : Word) (s : State) : writeStatus v (writeStatus v s) = writeStatus v s := by
  simp only [writeStatus_eq, Bool.and_assoc, Bool.and_self]
  split <;> rfl

/-- A register write stores a function of the value, but for CMD, whose write is an acceptance. -/
theorem writeRegister_writeRegister {r : RegId} (h : r ≠ .cmd) (v : Word) (s : State) :
    writeRegister r v (writeRegister r v s) = writeRegister r v s ∧ (writeRegister r v s).busy = s.busy := by
  cases r
  case cmd => exact absurd rfl h
  case status => exact ⟨writeStatus_writeStatus v s, by simp only [writeRegister, writeStatus_eq]⟩
  all_goals exact ⟨rfl, rfl⟩

theorem writeMemory_busy (id : MemId) (i : Nat) (v : Word) (s : State) : (writeMemory id i v s).busy = s.busy := by
  unfold writeMemory
  split <;> rfl

theorem writeTarget_writeTarget {target : Target} (h : target ≠ .register (some .cmd)) (v : Word) (s : State) :
    writeTarget target v (writeTarget target v s) = writeTarget target v s := by
  match target with
  | .register (some r) =>
    have hr : r ≠ .cmd := fun hcmd => h (hcmd ▸ rfl)
    obtain ⟨htwice, hbusy⟩ := writeRegister_writeRegister hr v s
    by_cases hstatus : r = .status
    · subst hstatus
      exact htwice
    · cases hs : s.busy <;> simp [writeTarget_register hstatus, hs, hbusy, htwice]
  | .register none => cases hs : s.busy <;> simp [writeTarget, hs]
  | .entry id i => cases hs : s.busy <;> simp [writeTarget, hs, writeMemory_busy, writeMemory_writeMemory]
  | .invalid => rfl

theorem writeRegister_respond {r : RegId} (h : r ≠ .cmd) (v : Word) (s : State) (p : Response) :
    writeRegister r v (s.respond p) = (writeRegister r v s).respond p := by
  cases r
  case cmd => exact absurd rfl h
  case status => simp only [writeRegister, writeStatus_eq]; rfl
  all_goals rfl

theorem writeMemory_respond (id : MemId) (i : Nat) (v : Word) (s : State) (p : Response) :
    writeMemory id i v (s.respond p) = (writeMemory id i v s).respond p := by
  cases hwritable : id.hostWritable with
  | false => simp only [writeMemory_of_readOnly hwritable]
  | true => simp only [writeMemory_of_writable hwritable]; rfl

/-- No write looks at the recorded response. -/
theorem writeTarget_respond {target : Target} (h : target ≠ .register (some .cmd)) (v : Word) (s : State)
    (p : Response) : writeTarget target v (s.respond p) = (writeTarget target v s).respond p := by
  match target with
  | .register (some r) =>
    have hr : r ≠ .cmd := fun hcmd => h (hcmd ▸ rfl)
    by_cases hstatus : r = .status
    · subst hstatus
      exact writeRegister_respond hr v s p
    · rw [writeTarget_register hstatus, writeTarget_register hstatus, writeRegister_respond hr, respond_busy]
      split_ifs <;> rfl
  | .register none =>
    rw [writeTarget, writeTarget, respond_busy]
    split_ifs <;> rfl
  | .entry id i =>
    rw [writeTarget, writeTarget, respond_busy, writeMemory_respond]
    split_ifs <;> rfl
  | .invalid => rfl

/-- The response to a write depends on its target alone. -/
theorem hostWrite_eq (size : Nat) (addr : Addr) (v : Word) :
    ∃ r, ∀ s, hostWrite size addr v s = (writeTarget (busTarget size addr) v s).respond r := by
  unfold hostWrite
  cases busTarget size addr with
  | register r => exact ⟨.done, fun _ => rfl⟩
  | entry id i => exact ⟨.done, fun _ => rfl⟩
  | invalid => exact ⟨.busError, fun _ => rfl⟩

/-- Settles O49: CMD is reached at its own address only, and every other target stores the same thing again. -/
theorem readsHaveNoSideEffects : Obligations.ReadsHaveNoSideEffects := by
  refine ⟨fun s t size addr hread => ?_, fun s size addr v haddr => ?_⟩
  · obtain ⟨r, n, rfl⟩ := hostRead_next hread
    rfl
  · have htarget : busTarget size addr ≠ .register (some .cmd) := fun hcmd => haddr (addr_of_busTarget hcmd)
    obtain ⟨r, hwrite⟩ := hostWrite_eq size addr v
    rw [hwrite, hwrite, writeTarget_respond htarget, writeTarget_writeTarget htarget]
    rfl

/-! ### Parts of the state, and what an operation changes

The state as R74 and R191 speak of it. STATUS shows several hidden parts and the completion, so it stands in the write
set of every command. -/

/-- The hidden state and the flags that commands write, and the noise port. -/
inductive Hidden where
  | amiSign
  | dictKey
  | dictValid
  | grayForm
  | overrun
  | noisePort

/-- A part of the state that a command's row of R74 names, or that no command names. -/
inductive Part where
  | register (r : RegId)
  | memory (id : MemId)
  | hidden (h : Hidden)
  /-- LAST_OP, the snapshot and the model's own record of the host -/
  | record

abbrev Hidden.Value : Hidden → Type
  | .amiSign => Sign
  | .dictKey => DictKey
  | .dictValid | .grayForm | .overrun => Bool
  | .noisePort => List Config.FiniteF64 × Nat

/-- What a piece of hidden state holds. -/
def Hidden.value (s : State) : (h : Hidden) → h.Value
  | .amiSign => s.amiSign
  | .dictKey => s.dictKey
  | .dictValid => s.dictValid
  | .grayForm => s.grayForm
  | .overrun => s.ovr
  | .noisePort => (s.noiseQueue, s.noiseTaken)

abbrev Part.Value : Part → Type
  | .register _ => Word
  | .memory _ => Nat → Option Byte
  | .hidden h => h.Value
  | .record => Byte × Snapshot × List HostEvent × Response × Nat

/-- What a part holds; a memory holds the bytes of its valid entries. -/
def Part.value (s : State) : (p : Part) → p.Value
  | .register r => readRegister r s
  | .memory id => fun a => if id.addr 0 ≤ a ∧ a < id.addr id.words then s.mem.readByte a else none
  | .hidden h => h.value s
  | .record => (s.lastOp, s.snap, s.host, s.response, s.freeReads)

/-- Every part that is not listed holds in `t` what it holds in `s`. -/
def ChangesOnly (out : List Part) (s t : State) : Prop := ∀ p, p ∉ out → p.value t = p.value s

section
variable {s t u : State} {out out' : List Part}

theorem changesOnly_refl (out : List Part) (s : State) : ChangesOnly out s s := fun _ _ => rfl

theorem ChangesOnly.mono (h : ChangesOnly out s t) (hsub : out ⊆ out') : ChangesOnly out' s t :=
  fun p hp => h p fun hmem => hp (hsub hmem)

/-- Two changes, one after the other. -/
theorem ChangesOnly.trans (h : ChangesOnly out s t) (h' : ChangesOnly out' t u) : ChangesOnly (out ++ out') s u :=
  fun p hp => by
    obtain ⟨hout, hout'⟩ : p ∉ out ∧ p ∉ out' := by simpa using hp
    exact (h' p hout').trans (h p hout)

/-- No register but STATUS shows the completion flags or a hidden part. -/
theorem readRegister_of_hidden {r : RegId} (hr : r ≠ .status) (s : State) (busy done err ovr dictValid grayForm : Bool)
    (sign : Sign) (code : Byte) (key : DictKey) (queue : List Config.FiniteF64) (taken : Nat) :
    readRegister r { s with busy := busy, done := done, err := err, ovr := ovr, dictValid := dictValid,
                            grayForm := grayForm, amiSign := sign, errCode := code, dictKey := key,
                            noiseQueue := queue, noiseTaken := taken } = readRegister r s := by
  cases r
  case status => exact absurd rfl hr
  all_goals rfl

/-! ### What each shared operation changes -/

/-- Storing entries of one memory leaves the bytes of the others (20_memory.md R61). -/
theorem store_changesOnly {id : MemId} {ws : List Word} (hfit : ws.length ≤ id.words) (s : State) :
    ChangesOnly [.memory id] s (s.store id ws) := by
  intro p hp
  cases p with
  | register r => cases r <;> rfl
  | memory id' =>
    have hne : id ≠ id' := fun heq => hp (by simp [heq])
    have hwindows := windows_apart hne
    funext a
    simp only [Part.value, store_mem]
    split_ifs with ha
    · refine readByte_writeEntries_of_outside id 0 ws s.mem a ?_
      simp only [MemId.addr] at *
      omega
    · rfl
  | _ => rfl

/-- A count register, DICT_N or DICT_LEN set to a value; no other register describes a buffer. -/
def setCount (r : RegId) (v : Word) (s : State) : State :=
  match r with
  | .nBits => { s with nBits := v }
  | .nSym => { s with nSym := v }
  | .nLevel => { s with nLevel := v }
  | .nParam => { s with nParam := v }
  | .nSample => { s with nSample := v }
  | .nDec => { s with nDec := v }
  | .grayN => { s with grayN := v }
  | .dictN => { s with dictN := v }
  | .dictLen => { s with dictLen := v }
  | .id | .ctrl | .sps | .peakV | .carrierF | .sampleRate | .noiseSigma | .cmd | .status => s

theorem readRegister_setCount (q r : RegId) (v : Word) (s : State) :
    readRegister q (setCount r v s) = if q = r then readRegister r (setCount r v s) else readRegister q s := by
  cases r <;> cases q <;> rfl

theorem setCount_changesOnly (r : RegId) (v : Word) (s : State) : ChangesOnly [.register r] s (setCount r v s) := by
  intro p hp
  cases p with
  | register q =>
    have hne : q ≠ r := fun heq => hp (by simp [heq])
    simp only [Part.value, readRegister_setCount q r, if_neg hne]
  | memory | record => cases r <;> rfl
  | hidden h => cases r <;> rfl

/-- An output buffer of a command: a memory written from entry 0 and its count register. -/
def bufferParts (id : MemId) (r : RegId) : List Part := [.memory id, .register r]

theorem buffer_changesOnly {id : MemId} {ws : List Word} (hfit : ws.length ≤ id.words) (r : RegId) (v : Word)
    (s : State) : ChangesOnly (bufferParts id r) s (setCount r v (s.store id ws)) :=
  (store_changesOnly hfit s).trans (setCount_changesOnly r v _)

theorem complete_changesOnly (s : State) : ChangesOnly [.register .status] s (complete s) := by
  intro p hp
  cases p with
  | register r => exact readRegister_of_hidden (fun heq => hp (by simp [heq])) ..
  | _ => rfl

theorem raiseError_changesOnly (code : ErrCode) (s : State) :
    ChangesOnly [.register .status] s (raiseError code s) := by
  intro p hp
  cases p with
  | register r => exact readRegister_of_hidden (fun heq => hp (by simp [heq])) ..
  | _ => rfl

theorem setGrayForm_changesOnly (form : Bool) (s : State) :
    ChangesOnly [.hidden .grayForm, .register .status] s { s with grayForm := form } := by
  intro p hp
  cases p with
  | register r => exact readRegister_of_hidden (fun heq => hp (by simp [heq])) ..
  | hidden h =>
    cases h
    case grayForm => simp at hp
    all_goals rfl
  | _ => rfl

theorem setAmiSign_changesOnly (sign : Sign) (s : State) :
    ChangesOnly [.hidden .amiSign, .register .status] s { s with amiSign := sign } := by
  intro p hp
  cases p with
  | register r => exact readRegister_of_hidden (fun heq => hp (by simp [heq])) ..
  | hidden h =>
    cases h
    case amiSign => simp at hp
    all_goals rfl
  | _ => rfl

theorem setDictKey_changesOnly (key : DictKey) (s : State) :
    ChangesOnly [.hidden .dictKey, .hidden .dictValid, .register .status] s
      { s with dictKey := key, dictValid := true } := by
  intro p hp
  cases p with
  | register r => exact readRegister_of_hidden (fun heq => hp (by simp [heq])) ..
  | hidden h =>
    cases h
    case dictKey | dictValid => simp at hp
    all_goals rfl
  | _ => rfl

theorem takeDraws_changesOnly (n : Nat) (s : State) : ChangesOnly [.hidden .noisePort] s (takeDraws n s) := by
  intro p hp
  cases p with
  | register r => cases r <;> rfl
  | hidden h =>
    cases h
    case noisePort => simp at hp
    all_goals rfl
  | _ => rfl

/-! ### What the writes of a command change -/

theorem storeBits_changesOnly {bits : List Bool} (hn : bits.length ≤ Config.bitDepth) (s : State) :
    ChangesOnly (bufferParts .bit .nBits) s (storeBits bits s) :=
  buffer_changesOnly (by simpa [MemId.words] using hn) .nBits _ s

theorem storeSyms_changesOnly {syms : List Nat} (hn : syms.length ≤ Config.symDepth) (s : State) :
    ChangesOnly (bufferParts .sym .nSym) s (storeSyms syms s) :=
  buffer_changesOnly (by simpa [MemId.words] using hn) .nSym _ s

theorem storeDecs_changesOnly {decs : List F64} (hn : decs.length ≤ Config.decDepth) (s : State) :
    ChangesOnly (bufferParts .dec .nDec) s (storeDecs decs s) :=
  buffer_changesOnly (by simpa [MemId.words] using hn) .nDec _ s

theorem storeLevels_changesOnly {levels : List Int} (hn : levels.length ≤ Config.levelDepth) (s : State) :
    ChangesOnly (bufferParts .level .nLevel) s (storeLevels levels s) :=
  buffer_changesOnly (by simpa [MemId.words] using hn) .nLevel _ s

theorem storeParams_changesOnly {params : List Triple} (hn : params.length ≤ Config.paramDepth) (s : State) :
    ChangesOnly (bufferParts .param .nParam) s (storeParams params s) :=
  buffer_changesOnly (by rw [length_flatMap_words]; simp only [MemId.words]; omega) .nParam _ s

theorem storeSamples_changesOnly {samples : List F64} (hn : samples.length ≤ Config.sampleDepth) (s : State) :
    ChangesOnly (bufferParts .sample .nSample) s (storeSamples samples s) :=
  buffer_changesOnly (by simpa [MemId.words] using hn) .nSample _ s

theorem storeGray_changesOnly (form : Bool) {table : List Word} (hn : table.length ≤ Config.grayDepth) (s : State) :
    ChangesOnly (bufferParts .gray .grayN ++ [.hidden .grayForm, .register .status]) s (storeGray form table s) :=
  (buffer_changesOnly (by simpa [MemId.words] using hn) .grayN (countWord table.length) s).trans
    (setGrayForm_changesOnly form _)

/-- Only Bipolar writes AMI_SIGN (42_line_coder.md R127). -/
def lineParts : LineCode → List Part
  | .nrz | .man => bufferParts .level .nLevel
  | .ami => bufferParts .level .nLevel ++ [.hidden .amiSign, .register .status]

theorem storeLineCode_changesOnly (code : LineCode) (w : Nat) {syms : List Nat}
    (hn : syms.length * levelsPerSymbol (.line code) w ≤ Config.levelDepth) (s : State) :
    ChangesOnly (lineParts code) s (storeLineCode code w syms s) := by
  have hlevels : ChangesOnly (bufferParts .level .nLevel) s (storeLevels (lineLevels code w syms) s) :=
    storeLevels_changesOnly (by rwa [length_lineLevels]) s
  cases code with
  | nrz => exact hlevels
  | man => exact hlevels
  | ami => exact hlevels.trans (setAmiSign_changesOnly _ _)

theorem applyNoise_changesOnly (c : Snapshot) {samples : List F64} (hn : samples.length ≤ Config.sampleDepth)
    (s : State) : ChangesOnly [.memory .sample, .hidden .noisePort] s (applyNoise c samples s) :=
  (store_changesOnly (id := .sample) (by simpa [MemId.words, noisySamples] using hn) s).trans
    (takeDraws_changesOnly samples.length _)

/-- The parts of a dictionary (45_transceiver.md R174). -/
def dictParts : List Part :=
  [.memory .dict, .register .dictN, .register .dictLen, .hidden .dictKey, .hidden .dictValid, .register .status]

theorem buildDict_changesOnly {c : Snapshot} {sch : Scheme} {w : Nat}
    (hcap : 2 ^ w * entryLength c sch w ≤ Config.dictDepth) (s : State) :
    ChangesOnly dictParts s (buildDict c sch w s) := by
  have hstore := store_changesOnly (id := .dict) (ws := dictionary c sch w)
    (by simpa [MemId.words, length_dictionary] using hcap) s
  have hcount := hstore.trans (setCount_changesOnly .dictN (countWord (2 ^ w)) _)
  have hlength := hcount.trans (setCount_changesOnly .dictLen (countWord (entryLength c sch w)) _)
  exact hlength.trans (setDictKey_changesOnly (configKey c sch w) _)

end

/-! ### The rows of R74 and R191 as parts of the state -/

/-- The hidden state that a command writes (20_memory.md R74, R79; 46_system.md R191). -/
def hiddenWrites (i : Instr) (s : State) : List Hidden :=
  match i with
  | .sreset => [.amiSign, .dictValid, .overrun]
  | .graygen _ => [.grayForm]
  | .lcencAmi => [.amiSign]
  | .noise => [.noisePort]
  | .tx => [.amiSign, .noisePort]
  | .dictbuild => [.dictKey, .dictValid]
  | .detect | .rx => if dictionaryStale s then [.dictKey, .dictValid] else []
  | .nop | .bits2sym | .sym2dec | .sym2bits | .lcencNrz | .lcencMan | .modpAsk | .modpFsk | .modpPsk | .modpQpsk
  | .modpQam16 | .synLevel | .synPulse | .synCarrier => []

/-- All that a command may change: STATUS, its row of R74, and its hidden state. -/
def writeSet (i : Instr) (s : State) : List Part :=
  .register .status :: (writtenRegisters i s).map .register ++ (writtenMemories i s).map .memory ++
    (hiddenWrites i s).map .hidden

section
variable {s t u : State}

@[simp] theorem register_mem_writeSet {i : Instr} {r : RegId} :
    .register r ∈ writeSet i s ↔ r = .status ∨ r ∈ writtenRegisters i s := by
  simp [writeSet]

@[simp] theorem memory_mem_writeSet {i : Instr} {id : MemId} :
    .memory id ∈ writeSet i s ↔ id ∈ writtenMemories i s := by
  simp [writeSet]

@[simp] theorem hidden_mem_writeSet {i : Instr} {h : Hidden} :
    .hidden h ∈ writeSet i s ↔ h ∈ hiddenWrites i s := by
  simp [writeSet]

theorem record_notMem_writeSet (i : Instr) (s : State) : .record ∉ writeSet i s := by simp [writeSet]

theorem schemeOfCode_of_cfgScheme {c : Snapshot} {sch : Scheme} (h : cfgScheme c = .ok sch) :
    schemeOfCode c.schemeCode = some sch := by
  unfold cfgScheme at h
  split at h
  case h_1 hsome => exact hsome.trans (congrArg some (Except.ok.inj h))
  case h_2 => cases h

/-- The codes 0 to 2 are the line codes (10_state.md R23). -/
theorem schemeIsLine_iff {n : Nat} {sch : Scheme} (h : schemeOfCode n = some sch) :
    schemeIsLine sch = true ↔ n ≤ 2 := by
  unfold schemeOfCode at h
  split at h <;> cases h <;> simp [schemeIsLine]

theorem cfgW_eq_bps {c : Snapshot} {sch : Scheme} {w : Nat} (h : cfgW c sch = .ok w) (hqpsk : sch ≠ .carrier .qpsk)
    (hqam : sch ≠ .carrier .qam16) : c.bps = w := by
  unfold cfgW at h
  split at h
  · exact absurd rfl hqpsk
  · exact absurd rfl hqam
  · split_ifs at h
    exact Except.ok.inj h

/-- The width of a legal configuration is the effective width of its code (00_scope.md R17). -/
theorem effectiveWidth_of_cfgW {c : Snapshot} {sch : Scheme} {w : Nat} (hcode : schemeOfCode c.schemeCode = some sch)
    (hwidth : cfgW c sch = .ok w) : effectiveWidth c.schemeCode c.bps = w := by
  generalize c.schemeCode = code at hcode
  unfold schemeOfCode at hcode
  split at hcode <;> cases hcode
  case h_7 => exact Except.ok.inj hwidth
  case h_8 => exact Except.ok.inj hwidth
  all_goals exact cfgW_eq_bps hwidth nofun nofun

/-- DETECT and RX find the dictionary current exactly when it is not stale (45_transceiver.md R176). -/
theorem dictCurrent_eq {sch : Scheme} {w : Nat} (hscheme : cfgScheme s.snap = .ok sch)
    (hwidth : cfgW s.snap sch = .ok w) : dictCurrent s.snap sch w s = !dictionaryStale s := by
  have hcode := schemeOfCode_of_cfgScheme hscheme
  have hkey : (s.dictKey = configKey s.snap sch w) ↔ sch = s.dictKey.scheme ∧ w = s.dictKey.width ∧
      s.snap.sps = s.dictKey.sps ∧ s.snap.peakV = s.dictKey.peakV ∧ s.snap.carrierF = s.dictKey.carrierF ∧
      s.snap.sampleRate = s.dictKey.sampleRate := by
    rw [eq_comm]
    exact DictKey.mk.injEq .. ▸ Iff.rfl
  simp only [dictCurrent, dictionaryStale, hcode, effectiveWidth_of_cfgW hcode hwidth, hkey]
  rw [Bool.eq_iff_iff]
  simp [and_assoc]

/-! ### Every command changes its write set only -/

theorem softReset_changesOnly (s : State) : ChangesOnly (writeSet .sreset s) s (softReset s) := by
  intro p hp
  cases p with
  | register r =>
    rw [register_mem_writeSet] at hp
    cases r
    case id | cmd | nDec | grayN | dictN | dictLen => rfl
    all_goals simp [writtenRegisters] at hp
  | hidden h =>
    rw [hidden_mem_writeSet] at hp
    cases h
    case dictKey | grayForm | noisePort => rfl
    all_goals simp [hiddenWrites] at hp
  | _ => rfl

theorem lineEffect_changesOnly {code : LineCode} (he : LineEffect code s u) : ChangesOnly (lineParts code) s u := by
  obtain ⟨w, ws, -, hin, hcap, rfl⟩ := he
  exact storeLineCode_changesOnly code w (by rwa [length_inputSymbols hin]) s

theorem paramEffect_changesOnly {m : Modulation} (he : ParamEffect m s u) :
    ChangesOnly (bufferParts .param .nParam) s u := by
  obtain ⟨w, ws, -, hin, hcap, rfl⟩ := he
  exact storeParams_changesOnly (by rwa [List.length_map, length_inputSymbols hin]) s

/-- The output of TX's middle stage (45_transceiver.md R170). -/
def stageParts : Scheme → List Part
  | .line code => lineParts code
  | .carrier _ => bufferParts .param .nParam

theorem storeStage_changesOnly {sch : Scheme} {w : Nat} {syms : List Nat} (hcap : StageFits sch syms.length w)
    (s : State) : ChangesOnly (stageParts sch) s (storeStage sch w syms s) := by
  cases sch with
  | line code => exact storeLineCode_changesOnly code w hcap s
  | carrier m => exact storeParams_changesOnly (by rwa [List.length_map]) s

theorem noiseUnlessIdeal_changesOnly (c : Snapshot) {wave : List F64} (hn : wave.length ≤ Config.sampleDepth)
    (s : State) : ChangesOnly [.memory .sample, .hidden .noisePort] s (noiseUnlessIdeal c wave s) := by
  unfold noiseUnlessIdeal
  split
  · exact changesOnly_refl _ s
  · exact applyNoise_changesOnly c hn s

/-- An output buffer of a command's row. -/
theorem bufferParts_subset {i : Instr} {id : MemId} {r : RegId} (hid : id ∈ writtenMemories i s)
    (hr : r ∈ writtenRegisters i s) : bufferParts id r ⊆ writeSet i s := by
  simp [bufferParts, hid, hr]

/-- The parts TX writes for a scheme, in the order of its stages. -/
def transmitParts (sch : Scheme) : List Part :=
  bufferParts .sym .nSym ++ (stageParts sch ++ (bufferParts .sample .nSample ++ [.memory .sample, .hidden .noisePort]))

theorem transmitted_changesOnly {sch : Scheme} {w n : Nat} {ws : List Word} (hp : TransmitLegal s.snap sch w n) :
    ChangesOnly (transmitParts sch) s (transmitted s sch w n ws) := by
  have hsyms : (groupBits w n (ws.map fun x => x.getLsbD 0)).length = n := length_groupBits ..
  have hwave : (transmitWave s.snap sch w (groupBits w n (ws.map fun x => x.getLsbD 0))).length ≤ Config.sampleDepth :=
    (length_transmitWave hp _).trans_le (by rw [hsyms]; exact hp.sampleCap)
  exact (storeSyms_changesOnly (by rw [hsyms]; exact hp.symCap) s).trans
    ((storeStage_changesOnly (by rw [hsyms]; exact hp.stageCap) _).trans
      ((storeSamples_changesOnly hwave _).trans (noiseUnlessIdeal_changesOnly s.snap hwave _)))

/-- The parts TX writes are those of its row; the stage is LCENC for the codes 0 to 2 and MODP above. -/
theorem transmitParts_subset {sch : Scheme} (hscheme : cfgScheme s.snap = .ok sch) :
    transmitParts sch ⊆ writeSet .tx s := by
  have hline := schemeIsLine_iff (schemeOfCode_of_cfgScheme hscheme)
  cases sch with
  | line code =>
    have hcode : s.snap.schemeCode ≤ 2 := hline.mp rfl
    cases code <;>
      simp [transmitParts, stageParts, lineParts, bufferParts, writtenRegisters, writtenMemories,
        hiddenWrites, hcode]
  | carrier m =>
    have hcode : ¬ s.snap.schemeCode ≤ 2 := fun hle => nomatch hline.mpr hle
    simp [transmitParts, stageParts, bufferParts, writtenRegisters, writtenMemories,
      hiddenWrites, if_neg hcode]

/-- The dictionary's parts when DETECT and RX rebuild it, and none when it is current (45_transceiver.md R176). -/
def ensuredParts (s : State) : List Part := if dictionaryStale s then dictParts else []

theorem ensureDict_changesOnly {sch : Scheme} {w : Nat} (hp : DictPlanLegal s.snap sch w) :
    ChangesOnly (ensuredParts s) s (ensureDict s.snap sch w s) := by
  have hstale := dictCurrent_eq hp.scheme hp.width
  rcases ensureDict_eq s s.snap sch w with ⟨-, heq⟩ | ⟨hcurrent, heq⟩ <;> rw [heq]
  · exact changesOnly_refl _ s
  · rw [ensuredParts, if_pos (by simpa [hcurrent] using hstale)]
    exact buildDict_changesOnly hp.cap s

theorem detected_changesOnly {sch : Scheme} {w windows : Nat} {p : State × List Nat} (hp : DictPlanLegal s.snap sch w)
    (hd : Detected s sch w windows p) (hcap : windows ≤ Config.symDepth) :
    p.2.length = windows ∧ ChangesOnly (ensuredParts s ++ bufferParts .sym .nSym) s (storeSyms p.2 p.1) := by
  obtain ⟨samples, dict, hstate, -, -, hsyms⟩ := hd
  have hlength : p.2.length = windows := by rw [hsyms, length_detectSymbols]
  refine ⟨hlength, ChangesOnly.trans ?_ (storeSyms_changesOnly (by rwa [hlength]) p.1)⟩
  rw [hstate]
  exact ensureDict_changesOnly hp

/-- The parts that DETECT writes are in its row, and in that of RX. -/
theorem detectorParts_subset {i : Instr} (hi : i = .detect ∨ i = .rx) :
    ensuredParts s ++ bufferParts .sym .nSym ⊆ writeSet i s := by
  rcases hi with rfl | rfl <;> cases hstale : dictionaryStale s <;>
    simp [ensuredParts, dictParts, bufferParts, writtenRegisters, writtenMemories,
      hiddenWrites, hstale]

theorem receiverParts_subset : bufferParts .bit .nBits ⊆ writeSet .rx s := by
  cases hstale : dictionaryStale s <;>
    exact bufferParts_subset (by simp [writtenMemories, hstale]) (by simp [writtenRegisters, hstale])

/-- All writes of a command together. -/
theorem commandEffect_changesOnly {i : Instr} (hsnap : s.snap.nSample.toNat ≤ Config.sampleDepth)
    (he : CommandEffect i s u) : ChangesOnly (writeSet i s) s u := by
  have hbuffer := fun id r => bufferParts_subset (s := s) (i := i) (id := id) (r := r)
  cases i with
  | nop =>
    obtain rfl := he
    exact changesOnly_refl _ u
  | sreset => exact he ▸ softReset_changesOnly s
  | bits2sym =>
    obtain ⟨sch, w, ws, -, -, hcap, -, rfl⟩ := he
    exact (storeSyms_changesOnly (by rwa [length_groupBits]) s).mono (hbuffer _ _ (.head _) (.head _))
  | sym2dec =>
    obtain ⟨sch, w, ws, -, -, hin, hcap, rfl⟩ := he
    exact (storeDecs_changesOnly (by rwa [List.length_map, length_inputSymbols hin]) s).mono
      (hbuffer _ _ (.head _) (.head _))
  | sym2bits =>
    obtain ⟨sch, w, ws, -, -, hin, hcap, rfl⟩ := he
    exact (storeBits_changesOnly (by rwa [length_flatMap_symbolBits, length_inputSymbols hin]) s).mono
      (hbuffer _ _ (.head _) (.head _))
  | graygen form =>
    obtain ⟨sch, w, -, -, hcap, rfl⟩ := he
    exact (storeGray_changesOnly form (by rwa [List.length_map, List.length_range]) s).mono
      (List.append_subset.mpr ⟨hbuffer _ _ (.head _) (.head _), by simp [hiddenWrites]⟩)
  | lcencNrz => exact (lineEffect_changesOnly he).mono (hbuffer _ _ (.head _) (.head _))
  | lcencMan => exact (lineEffect_changesOnly he).mono (hbuffer _ _ (.head _) (.head _))
  | lcencAmi =>
    exact (lineEffect_changesOnly he).mono
      (List.append_subset.mpr ⟨hbuffer _ _ (.head _) (.head _), by simp [hiddenWrites]⟩)
  | modpAsk | modpFsk | modpPsk | modpQpsk | modpQam16 =>
    exact (paramEffect_changesOnly he).mono (hbuffer _ _ (.head _) (.head _))
  | synLevel =>
    obtain ⟨ws, -, hcap, hread, rfl⟩ := he
    exact (storeSamples_changesOnly (by rwa [length_levelWave, List.length_map, length_of_readEntries hread]) s).mono
      (hbuffer _ _ (.head _) (.head _))
  | synPulse =>
    obtain ⟨ws, -, hblock, hcap, hread, rfl⟩ := he
    refine (storeSamples_changesOnly ?_ s).mono (hbuffer _ _ (.head _) (.head _))
    rwa [length_pulseWave _ hblock, List.length_map, length_of_readEntries hread]
  | synCarrier =>
    obtain ⟨ws, -, -, hcap, hread, rfl⟩ := he
    refine (storeSamples_changesOnly ?_ s).mono (hbuffer _ _ (.head _) (.head _))
    rwa [length_carrierWave, length_triplesOfWords (length_of_readEntries hread)]
  | noise =>
    obtain ⟨ws, hread, rfl⟩ := he
    exact (applyNoise_changesOnly s.snap (by rwa [length_of_readEntries hread]) s).mono
      (by simp [writtenMemories, hiddenWrites])
  | tx =>
    obtain ⟨sch, w, n, ws, hp, -, rfl⟩ := he
    exact (transmitted_changesOnly hp).mono (transmitParts_subset hp.scheme)
  | dictbuild =>
    obtain ⟨sch, w, hp, rfl⟩ := he
    exact (buildDict_changesOnly hp.cap s).mono
      (by simp [dictParts, writtenRegisters, writtenMemories, hiddenWrites])
  | detect =>
    obtain ⟨sch, w, windows, p, hp, -, hcap, hd, rfl⟩ := he
    exact (detected_changesOnly hp hd hcap).2.mono (detectorParts_subset (.inl rfl))
  | rx =>
    obtain ⟨sch, w, windows, p, hp, -, hcap, hbits, hd, rfl⟩ := he
    obtain ⟨hlength, hsyms⟩ := detected_changesOnly hp hd hcap
    exact (hsyms.trans (storeBits_changesOnly (by rwa [length_flatMap_symbolBits, hlength]) _)).mono
      (List.append_subset.mpr ⟨detectorParts_subset (.inr rfl), receiverParts_subset⟩)

/-- A completion, with or without an error, is shown in STATUS alone (60_exceptions.md R201, R209). -/
theorem exec_changesOnly {i : Instr} (hsnap : s.snap.nSample.toNat ≤ Config.sampleDepth) (ht : exec i s = .next t) :
    ChangesOnly (writeSet i s) s t := by
  have hstatus : [Part.register .status] ⊆ writeSet i s := by simp [writeSet]
  have hends := exec_ends i s
  rw [ht] at hends
  rcases hends with ⟨code, -, rfl⟩ | ⟨u, heffect, rfl⟩
  · exact (raiseError_changesOnly code s).mono hstatus
  · exact ((commandEffect_changesOnly hsnap heffect).trans (complete_changesOnly u)).mono
      (List.append_subset.mpr ⟨List.Subset.refl _, hstatus⟩)

end

/-! ### The hidden writes of the commands, one piece at a time -/

theorem amiSign_notMem_hiddenWrites {i : Instr} (hami : i ≠ .lcencAmi) (htx : i ≠ .tx) (hreset : i ≠ .sreset)
    (s : State) : .amiSign ∉ hiddenWrites i s := by
  cases i <;> simp_all [hiddenWrites]

theorem dictKey_notMem_hiddenWrites {i : Instr} {s : State} (hbuild : i ≠ .dictbuild)
    (hcurrent : i = .detect ∨ i = .rx → dictionaryStale s = false) : .dictKey ∉ hiddenWrites i s := by
  cases i <;> simp_all [hiddenWrites]

theorem dictValid_notMem_hiddenWrites {i : Instr} {s : State} (hbuild : i ≠ .dictbuild)
    (hcurrent : i = .detect ∨ i = .rx → dictionaryStale s = false) (hreset : i ≠ .sreset) :
    .dictValid ∉ hiddenWrites i s := by
  cases i <;> simp_all [hiddenWrites]

theorem grayForm_notMem_hiddenWrites {i : Instr} (hgray : ∀ form, i ≠ .graygen form) (s : State) :
    .grayForm ∉ hiddenWrites i s := by
  cases i <;> simp_all [hiddenWrites]

theorem overrun_notMem_hiddenWrites {i : Instr} (hreset : i ≠ .sreset) (s : State) :
    .overrun ∉ hiddenWrites i s := by
  cases i <;> simp_all [hiddenWrites]

theorem noisePort_notMem_hiddenWrites {i : Instr} (hnoise : i ≠ .noise) (htx : i ≠ .tx) (s : State) :
    .noisePort ∉ hiddenWrites i s := by
  cases i <;> simp_all [hiddenWrites]

/-- A byte of a valid entry, read from the value of its memory. -/
theorem readByte_of_value {s t : State} {id : MemId} (h : (Part.memory id).value t = (Part.memory id).value s) {a : Nat}
    (hlo : id.addr 0 ≤ a) (hhi : a < id.addr id.words) : t.mem.readByte a = s.mem.readByte a := by
  simpa [Part.value, hlo, hhi] using congrFun h a

/-- Settles O12: a command changes its write set only, and the write set is the row of R74 with its hidden state. -/
theorem commandsWriteOnlyTheirWriteSet : Obligations.CommandsWriteOnlyTheirWriteSet := by
  intro i s t hcounts hexec
  have hchange := exec_changesOnly hcounts.nSample hexec
  have hregister : ∀ r : RegId, r ≠ .status → r ∉ writtenRegisters i s → readRegister r t = readRegister r s :=
    fun r hstatus hrow => hchange (.register r) (by simp [hstatus, hrow])
  have hmemory : ∀ id : MemId, id ∉ writtenMemories i s → (Part.memory id).value t = (Part.memory id).value s :=
    fun id hrow => hchange (.memory id) (by rwa [memory_mem_writeSet])
  have hhidden : ∀ h : Hidden, h ∉ hiddenWrites i s → h.value t = h.value s :=
    fun h hrow => hchange (.hidden h) (by rwa [hidden_mem_writeSet])
  obtain ⟨hlastOp, hsnap, hhost, hresponse, hreads⟩ :
      t.lastOp = s.lastOp ∧ t.snap = s.snap ∧ t.host = s.host ∧ t.response = s.response ∧
        t.freeReads = s.freeReads := by
    simpa [Part.value] using hchange .record (record_notMem_writeSet i s)
  exact ⟨hregister, fun id hrow a hlo hhi => readByte_of_value (hmemory id hrow) hlo hhi,
    fun hami htx hreset => hhidden .amiSign (amiSign_notMem_hiddenWrites hami htx hreset s),
    fun hbuild hcurrent => hhidden .dictKey (dictKey_notMem_hiddenWrites hbuild hcurrent),
    fun hbuild hcurrent hreset => hhidden .dictValid (dictValid_notMem_hiddenWrites hbuild hcurrent hreset),
    fun hgray => hhidden .grayForm (grayForm_notMem_hiddenWrites hgray s),
    fun hreset => hhidden .overrun (overrun_notMem_hiddenWrites hreset s),
    fun hnoise htx => Prod.mk.inj (hhidden .noisePort (noisePort_notMem_hiddenWrites hnoise htx s)),
    hlastOp, hsnap, hhost, hresponse, hreads⟩

end Sys2Proof.Proofs

/-! The statements of 30_encoding.md: the fields of a command word (R86), its legality (R87), the opcode map (R90)
and the words of the commands (R94); what becomes of an illegal word (60_exceptions.md R208). -/

namespace Sys2Proof.Proofs

open Sys2Proof.Machine

/-! ### The fields as numbers (R85, R86) -/

section
variable (v : Word)

theorem fieldsOf_opcode_toNat : (fieldsOf v).opcode.toNat = v.toNat % 256 := by simp [fieldsOf]

theorem fieldsOf_form_iff : (fieldsOf v).form = true ↔ v.toNat / 2 ^ 8 % 2 = 1 := by
  simp [fieldsOf, BitVec.getLsbD, Nat.testBit_eq_decide_div_mod_eq]

theorem fieldsOf_rsv_toNat : (fieldsOf v).rsv.toNat = v.toNat / 2 ^ 9 % 2 ^ 23 := by
  simp [fieldsOf, Nat.shiftRight_eq_div_pow]

theorem fieldsOf_upper_toNat : (fieldsOf v).upper.toNat = v.toNat / 2 ^ 32 := by
  have hv : v.toNat / 2 ^ 32 < 2 ^ 32 := by have := v.isLt; omega
  simpa [fieldsOf, Nat.shiftRight_eq_div_pow] using hv

/-- UPPER and RSV together are bits [63:9]. -/
theorem reserved_fields_clear_iff : (fieldsOf v).upper = 0#32 ∧ (fieldsOf v).rsv = 0#23 ↔ v.toNat / 2 ^ 9 = 0 := by
  simp only [← BitVec.toNat_inj, fieldsOf_upper_toNat, fieldsOf_rsv_toNat, BitVec.toNat_ofNat]
  omega

end

/-- The four fields are the whole word. -/
theorem eq_of_fields_eq {v w : Word} (hopcode : (fieldsOf v).opcode.toNat = (fieldsOf w).opcode.toNat)
    (hform : (fieldsOf v).form = (fieldsOf w).form) (hrsv : (fieldsOf v).rsv = (fieldsOf w).rsv)
    (hupper : (fieldsOf v).upper = (fieldsOf w).upper) : v = w := by
  rw [Bool.eq_iff_iff] at hform
  simp only [fieldsOf_opcode_toNat, fieldsOf_form_iff] at hopcode hform
  rw [← BitVec.toNat_inj, fieldsOf_rsv_toNat, fieldsOf_rsv_toNat] at hrsv
  rw [← BitVec.toNat_inj, fieldsOf_upper_toNat, fieldsOf_upper_toNat] at hupper
  apply BitVec.eq_of_toNat_eq
  omega

/-! ### Legality and the opcode map (R87, R90) -/

theorem wellFormed_iff {f : CommandFields} :
    f.wellFormed = true ↔
      f.upper = 0#32 ∧ f.rsv = 0#23 ∧ f.opcode.toNat ∈ legalOpcodes ∧ (f.form = true → f.opcode.toNat = 0x18) := by
  simp only [CommandFields.wellFormed, CommandFields.upperClear, CommandFields.rsvClear, CommandFields.opcodeListed,
    CommandFields.formAllowed, Bool.and_eq_true, Bool.or_eq_true, Bool.not_eq_true', beq_iff_eq, List.contains_iff_mem,
    BitVec.ofNat_eq_ofNat, ← Bool.not_eq_true, imp_iff_not_or, and_assoc]

/-- What a word that decodes passes: the three checks of `decode`, and a row of the opcode map. -/
theorem decode_eq_ok_iff {v : Word} {i : Instr} :
    decode v = .ok i ↔
      (fieldsOf v).upper = 0#32 ∧ (fieldsOf v).rsv = 0#23 ∧
        instrOfOpcode (fieldsOf v).opcode.toNat (fieldsOf v).form = some i ∧
        ((fieldsOf v).form = true → i.hasForm = true) := by
  by_cases hupper : (fieldsOf v).upper = 0#32
  · by_cases hrsv : (fieldsOf v).rsv = 0#23
    · cases hrow : instrOfOpcode (fieldsOf v).opcode.toNat (fieldsOf v).form with
      | none => simp [decode, hupper, hrsv, hrow]
      | some j =>
        have hlast : decode v = if (fieldsOf v).form && !j.hasForm then .error .formBit else .ok j := by
          simp [decode, hupper, hrsv, hrow]
        grind
    · simp [decode, hupper, hrsv]
  · simp [decode, hupper]

/-- The map lists every legal opcode, and of these GRAYGEN's alone has a FORM. -/
theorem instrOfOpcode_hasForm : ∀ op ∈ legalOpcodes, ∀ form,
    (instrOfOpcode op form).map Instr.hasForm = some (op == 0x18) := by decide

/-- The row of a command names the OPCODE and FORM of its word. -/
theorem fieldsOf_encode_of_instrOfOpcode {op : Nat} {form : Bool} {i : Instr} (hrow : instrOfOpcode op form = some i)
    (hform : form = true → i.hasForm = true) :
    op = (fieldsOf (encode i)).opcode.toNat ∧ form = (fieldsOf (encode i)).form := by
  unfold instrOfOpcode at hrow
  split at hrow <;> cases hrow
  case h_6 => cases form <;> decide
  all_goals
    obtain rfl : form = false := Bool.eq_false_iff.mpr fun h => Bool.false_ne_true (hform h)
    decide

/-! ### Decoding and encoding (R87, R90, R94) -/

open Laws in
theorem legalEncoding : ∀ i : Instr, LegalEncoding.Statement i
  | .nop => LegalEncoding.nop
  | .sreset => LegalEncoding.sreset
  | .bits2sym => LegalEncoding.bits2sym
  | .sym2dec => LegalEncoding.sym2dec
  | .sym2bits => LegalEncoding.sym2bits
  | .graygen form => LegalEncoding.graygen form
  | .lcencNrz => LegalEncoding.lcencNrz
  | .lcencMan => LegalEncoding.lcencMan
  | .lcencAmi => LegalEncoding.lcencAmi
  | .modpAsk => LegalEncoding.modpAsk
  | .modpFsk => LegalEncoding.modpFsk
  | .modpPsk => LegalEncoding.modpPsk
  | .modpQpsk => LegalEncoding.modpQpsk
  | .modpQam16 => LegalEncoding.modpQam16
  | .synLevel => LegalEncoding.synLevel
  | .synPulse => LegalEncoding.synPulse
  | .synCarrier => LegalEncoding.synCarrier
  | .noise => LegalEncoding.noise
  | .tx => LegalEncoding.tx
  | .dictbuild => LegalEncoding.dictbuild
  | .detect => LegalEncoding.detect
  | .rx => LegalEncoding.rx

theorem encode_wellFormed (i : Instr) : (fieldsOf (encode i)).wellFormed = true := (legalEncoding i).1

theorem decode_encode (i : Instr) : decode (encode i) = .ok i := (legalEncoding i).2

theorem eq_encode_of_decode {v : Word} {i : Instr} (h : decode v = .ok i) : v = encode i := by
  obtain ⟨hupper, hrsv, hrow, hhasForm⟩ := decode_eq_ok_iff.mp h
  obtain ⟨hupper', hrsv', -, -⟩ := wellFormed_iff.mp (encode_wellFormed i)
  obtain ⟨hopcode, hform⟩ := fieldsOf_encode_of_instrOfOpcode hrow hhasForm
  exact eq_of_fields_eq hopcode hform (hrsv.trans hrsv'.symm) (hupper.trans hupper'.symm)

/-- Settles O3: a word that decodes has the four fields of its command's word, and these are the whole word. -/
theorem decodeEncodeAgree : Obligations.DecodeEncodeAgree := ⟨decode_encode, fun _ _ => eq_encode_of_decode⟩

/-- The four checks of R87 are what decoding asks for. -/
theorem exists_decode_iff_wellFormed {v : Word} : (∃ i, decode v = .ok i) ↔ (fieldsOf v).wellFormed = true := by
  constructor
  · rintro ⟨i, h⟩
    rw [eq_encode_of_decode h]
    exact encode_wellFormed i
  · intro h
    obtain ⟨hupper, hrsv, hlisted, hallowed⟩ := wellFormed_iff.mp h
    obtain ⟨i, hrow, hhasForm⟩ := Option.map_eq_some_iff.mp (instrOfOpcode_hasForm _ hlisted (fieldsOf v).form)
    exact ⟨i, decode_eq_ok_iff.mpr ⟨hupper, hrsv, hrow, fun hform => by simp [hhasForm, hallowed hform]⟩⟩

/-! ### Illegal words (R87, 60_exceptions.md R208) -/

theorem acceptCommand_of_not_decode {v : Word} (h : ¬ ∃ i, decode v = .ok i) (s : State) :
    acceptCommand v s = raiseError .illegalCmd (latchCommand v s) := by
  unfold acceptCommand
  split
  · next i hdecode => exact absurd ⟨i, hdecode⟩ h
  · rfl

/-- Settles O2: the checks read as numbers; an illegal word is latched and raises ILLEGAL_CMD. -/
theorem illegalCommandWordsRejected : Obligations.IllegalCommandWordsRejected := by
  intro v s hidle
  constructor
  · rw [exists_decode_iff_wellFormed, wellFormed_iff, ← and_assoc, reserved_fields_clear_iff, fieldsOf_opcode_toNat,
      fieldsOf_form_iff]
    rfl
  · intro hillegal
    have haccept : hostWrite 8 RegId.cmd.busAddr v s = (acceptCommand v s).respond .done :=
      hostWrite_register_of_idle hidle .cmd v
    rw [haccept, acceptCommand_of_not_decode hillegal]
    rfl

/-! ### The words of the opcode map, and words of an opcode table (R85, R90, R94) -/

/-- Settles O1: each word is the encoding of its row. -/
theorem opcodeMapDecodes : Obligations.OpcodeMapDecodes :=
  ⟨decode_encode .nop, decode_encode .sreset, decode_encode .bits2sym, decode_encode .sym2dec, decode_encode .sym2bits,
    decode_encode (.graygen false), decode_encode (.graygen true), decode_encode .lcencNrz, decode_encode .lcencMan,
    decode_encode .lcencAmi, decode_encode .modpAsk, decode_encode .modpFsk, decode_encode .modpPsk,
    decode_encode .modpQpsk, decode_encode .modpQam16, decode_encode .synLevel, decode_encode .synPulse,
    decode_encode .synCarrier, decode_encode .noise, decode_encode .tx, decode_encode .dictbuild, decode_encode .detect,
    decode_encode .rx⟩

theorem decode_of_decodeTableWord {nbits w : Nat} {i : Instr} (h : decodeTableWord nbits w = some i) :
    decode (commandValue nbits w) = .ok i := by
  unfold decodeTableWord at h
  split_ifs at h
  split at h
  · next j hdecode =>
    cases h
    exact hdecode
  · cases h

theorem not_early_of_deferHost {host es : List HostEvent} {e : HostEvent} (h : deferHost host = e :: es) :
    e.early = false := by
  cases host with
  | nil => cases h
  | cons first rest =>
    cases h
    rfl

/-- Settles O6: the placed word is running and the host waits, so the step runs the decoded command (O4). -/
theorem fetchedWordRuns : Obligations.FetchedWordRuns := fun s nbits w i h =>
  stepRunsDecodedCommand (s.withFetchWord nbits w) i rfl (fun _ _ hhost => not_early_of_deferHost hhost)
    (decode_of_decodeTableWord h)

end Sys2Proof.Proofs

/-! The statements of 40_symbol_mapper.md: the three commands of the Symbol Mapper complete with the formulas of R100,
R102 and R104, and BITS2SYM and SYM2BITS invert each other (R101). -/

namespace Sys2Proof.Proofs

open Sys2Proof.Machine

/-! ### Lists the mapper builds, as formulas of their index -/

/-- Block `k` of a tabulated list is tabulated from its first item on. -/
theorem chunk_map_range {α : Type} (f : Nat → α) {len n k : Nat} (hk : k < n) :
    chunk len k ((List.range (n * len)).map f) = (List.range len).map (fun i => f (k * len + i)) := by
  have hfit : k * len + len ≤ n * len := Nat.succ_mul k len ▸ Nat.mul_le_mul_right len hk
  apply List.ext_getElem
  · simp only [chunk, List.length_take, List.length_drop, List.length_map, List.length_range]
    omega
  · intro i hi hi'
    simp [chunk]

/-- Grouping gives the weighted sum of each block (40_symbol_mapper.md R100). -/
theorem groupBits_map_range (w n : Nat) (bit : Nat → Bool) :
    groupBits w n ((List.range (n * w)).map bit) = (List.range n).map (groupedSymbol w bit) :=
  List.map_congr_left fun k hk => by
    rw [chunk_map_range bit (List.mem_range.mp hk), bitsValue_map_range, groupedSymbol]

theorem wordOfBit_eq_ofNat (b : Bool) : wordOfBit b = BitVec.ofNat 64 b.toNat := by cases b <;> rfl

/-- The component bits of tabulated symbols in a row, as words (40_symbol_mapper.md R104). -/
theorem flatMap_symbolBits_map_range {w : Nat} (hw : 0 < w) (n : Nat) (sym : Nat → Nat) :
    (((List.range n).map sym).flatMap (symbolBits w)).map wordOfBit =
      (List.range (n * w)).map (fun j => BitVec.ofNat 64 (componentBit w (sym (j / w)) (j % w))) := by
  apply List.ext_getElem?
  intro j
  rw [List.getElem?_map, getElem?_flatMap_const _ _ w hw (length_symbolBits w)]
  by_cases hj : j < n * w
  · rw [getElem?_map_range _ hj, getElem?_map_range _ (Nat.div_lt_of_lt_mul (Nat.mul_comm n w ▸ hj)), Option.bind_some,
      symbolBits, getElem?_map_range _ (Nat.mod_lt j hw), Option.map_some, wordOfBit_eq_ofNat, testBit_eq_componentBit,
      toNat_decide_componentBit]
  · have hblock : ¬ j / w < n := fun h => hj ((Nat.div_lt_iff_lt_mul hw).mp h)
    simp [hj, hblock]

/-! ### A tabulated output -/

/-- Storing tabulated words from entry 0 leaves the memory with just these entries, and every other byte alone. -/
theorem entries_and_kept_of_store {s t : State} {id : MemId} {n : Nat} {f : Nat → Word}
    (ht : t.mem = writeEntries id 0 ((List.range n).map f) s.mem) : t.Entries id n f ∧ Kept s t [(id, n)] :=
  ⟨entries_of_store ht (by simp) fun _ hi => getElem?_map_range f hi,
    kept_of_store (fun _ _ => rfl) ht (by simp) (List.mem_singleton.mpr rfl)⟩

/-! ### The commands on legal inputs -/

theorem except_ok_bind {ε α β : Type} (a : α) (f : α → Except ε β) : (Except.ok a >>= f) = f a := rfl

section
variable {s : State} {sch : Scheme} {w n : Nat}

theorem exec_bits2sym_of_bits {bit : Nat → Bool} (hcfg : s.snap.Configured sch w) (hn : n = s.snap.nBits.toNat / w)
    (hcap : n ≤ Config.symDepth) (hbits : s.Bits (n * w) bit) :
    exec .bits2sym s = .next (complete (storeSyms ((List.range n).map (groupedSymbol w bit)) s)) := by
  obtain ⟨hscheme, hwidth⟩ := cfg_of_configured hcfg
  simp only [exec, execBits2Sym, hscheme, hwidth, ← hn, needCap_of_le hcap, inputBits_of_bits hbits, except_ok_bind,
    groupBits_map_range]
  rfl

theorem exec_sym2dec_of_symbols {sym : Nat → Nat} (hcfg : s.snap.Configured sch w) (hn : n = s.snap.nSym.toNat)
    (hcap : n ≤ Config.decDepth) (hsyms : s.Symbols n w sym) :
    exec .sym2dec s = .next (complete (storeDecs ((List.range n).map (fun k => normalized w (sym k))) s)) := by
  obtain ⟨hscheme, hwidth⟩ := cfg_of_configured hcfg
  simp only [exec, execSym2Dec, hscheme, hwidth, ← hn, inputSyms_of_symbols hsyms hcfg.range.2, needRange_of_lt hsyms.2,
    needCap_of_le hcap, except_ok_bind, List.map_map]
  rfl

theorem exec_sym2bits_of_symbols {sym : Nat → Nat} (hcfg : s.snap.Configured sch w) (hn : n = s.snap.nSym.toNat)
    (hcap : n * w ≤ Config.bitDepth) (hsyms : s.Symbols n w sym) :
    exec .sym2bits s = .next (complete (storeBits (((List.range n).map sym).flatMap (symbolBits w)) s)) := by
  obtain ⟨hscheme, hwidth⟩ := cfg_of_configured hcfg
  simp only [exec, execSym2Bits, hscheme, hwidth, ← hn, inputSyms_of_symbols hsyms hcfg.range.2,
    needRange_of_lt hsyms.2, needCap_of_le hcap, except_ok_bind]
  rfl

end

/-- Settles O18: the input bits are grouped, and the grouped symbols are all that is stored. -/
theorem bitsToSymbolsCompletes : Obligations.BitsToSymbolsCompletes := by
  intro s sch w n bit hcfg hn hcap hbits
  refine ⟨_, exec_bits2sym_of_bits hcfg hn hcap hbits, ?_, entries_and_kept_of_store ?_⟩
  · simp [complete, storeSyms, State.store, countWord]
  · rw [complete_mem, storeSyms_mem, List.map_map]
    rfl

/-- Settles O19: each symbol is divided by the largest of its width. -/
theorem symbolsToDecimalsCompletes : Obligations.SymbolsToDecimalsCompletes := by
  intro s sch w n sym hcfg hn hcap hsyms
  refine ⟨_, exec_sym2dec_of_symbols hcfg hn hcap hsyms, ?_, entries_and_kept_of_store rfl⟩
  simp [complete, storeDecs, State.store, countWord]

/-- Settles O20: the component bits of the symbols, block after block. -/
theorem symbolsToBitsCompletes : Obligations.SymbolsToBitsCompletes := by
  intro s sch w n sym hcfg hn hcap hsyms
  have hlength : (((List.range n).map sym).flatMap (symbolBits w)).length = n * w := by
    rw [length_flatMap_symbolBits, List.length_map, List.length_range]
  refine ⟨_, exec_sym2bits_of_symbols hcfg hn hcap hsyms, ?_, entries_and_kept_of_store ?_⟩
  · rw [← hlength]
    rfl
  · rw [complete_mem, storeBits_mem, flatMap_symbolBits_map_range hcfg.range.1]

/-! ### Round trips (R101) -/

/-- SCHEME and BPS stand in CTRL alone (10_state.md R22), so the next command finds the same configuration. -/
theorem configured_latchCommand {s t : State} {sch : Scheme} {w : Nat} (v : Word)
    (h : (takeSnapshot 0#64 s).Configured sch w) (hctrl : t.ctrl = s.ctrl) :
    (latchCommand v t).snap.Configured sch w := by
  have hcode : (latchCommand v t).snap.schemeCode = (takeSnapshot 0#64 s).schemeCode :=
    congrArg (fun ctrl : Word => (ctrl.extractLsb' 0 4).toNat) hctrl
  have hbps : (latchCommand v t).snap.bps = (takeSnapshot 0#64 s).bps :=
    congrArg (fun ctrl : Word => (ctrl.extractLsb' 8 4).toNat) hctrl
  exact ⟨hcode ▸ h.scheme, hcode ▸ hbps ▸ h.width, h.range⟩

/-- A count within its depth fits a register. -/
theorem toNat_ofNat_of_le_depth {n : Nat} (h : n ≤ Config.bitDepth) : (BitVec.ofNat 64 n).toNat = n := by
  rw [BitVec.toNat_ofNat, Nat.mod_eq_of_lt (h.trans_lt (by decide))]

/-- Bit `j` is component bit `j % w` of the symbol its block is grouped into. -/
theorem componentBit_groupedSymbol {w : Nat} (hw : 0 < w) (bit : Nat → Bool) (j : Nat) :
    componentBit w (groupedSymbol w bit (j / w)) (j % w) = (bit j).toNat := by
  rw [groupedSymbol, componentBit_weightedSum _ (Nat.mod_lt j hw), Nat.div_add_mod']

/-- The component bits of in-range symbols, grouped, are the symbols. -/
theorem groupedSymbol_componentBit {w k : Nat} {sym : Nat → Nat} (h : sym k < 2 ^ w) :
    groupedSymbol w (fun j => decide (componentBit w (sym (j / w)) (j % w) = 1)) k = sym k := by
  have hdiv : ∀ i, i < w → (k * w + i) / w = k := fun i hi => by
    rw [Nat.mul_comm, Nat.mul_add_div (by omega), Nat.div_eq_of_lt hi, Nat.add_zero]
  have hmod : ∀ i, i < w → (k * w + i) % w = i := fun i hi => by rw [Nat.mul_add_mod', Nat.mod_eq_of_lt hi]
  rw [groupedSymbol, weightedSum_congr fun i hi => by rw [hdiv i hi, hmod i hi], weightedSum_componentBit h]

section
variable {s : State} {sch : Scheme} {w n : Nat}

/-- Whole groups of bits come back: SYM2BITS finds in-range symbols whose component bits they are. -/
theorem bits2sym_sym2bits {bit : Nat → Bool} (hcfg : (takeSnapshot 0#64 s).Configured sch w)
    (hn : s.nBits = BitVec.ofNat 64 (n * w)) (hcap : n * w ≤ Config.bitDepth) (hbits : s.Bits (n * w) bit) :
    ∃ t u, exec .bits2sym (latchCommand 0x10#64 s) = .next t ∧ exec .sym2bits (latchCommand 0x12#64 t) = .next u ∧
      u.nBits = s.nBits ∧ u.Bits (n * w) bit := by
  have hw : 0 < w := hcfg.range.1
  have hcapSyms : n ≤ Config.symDepth := (Nat.le_mul_of_pos_right n hw).trans hcap
  have hgroups : n = s.nBits.toNat / w := by
    rw [hn, toNat_ofNat_of_le_depth hcap, Nat.mul_div_cancel n hw]
  obtain ⟨t, hexec, ht, hsyms, -⟩ := bitsToSymbolsCompletes (latchCommand 0x10#64 s) sch w n bit
    (configured_latchCommand _ hcfg rfl) hgroups hcapSyms hbits
  have hcount : n = t.nSym.toNat := by
    rw [congrArg State.nSym ht, toNat_ofNat_of_le_depth hcapSyms]
  obtain ⟨u, hexec', hu, hbits', -⟩ := symbolsToBitsCompletes (latchCommand 0x12#64 t) sch w n (groupedSymbol w bit)
    (configured_latchCommand _ hcfg (congrArg State.ctrl ht :)) hcount hcap ⟨hsyms, fun _ _ => weightedSum_lt w _⟩
  refine ⟨t, u, hexec, hexec', (congrArg State.nBits hu).trans hn.symm, ?_⟩
  simpa only [State.Bits, wordOfBit_eq_ofNat, componentBit_groupedSymbol hw] using hbits'

/-- In-range symbols come back: BITS2SYM finds their component bits, a whole number of groups. -/
theorem sym2bits_bits2sym {sym : Nat → Nat} (hcfg : (takeSnapshot 0#64 s).Configured sch w)
    (hn : s.nSym = BitVec.ofNat 64 n) (hcapSyms : n ≤ Config.symDepth) (hcap : n * w ≤ Config.bitDepth)
    (hsyms : s.Symbols n w sym) :
    ∃ t u, exec .sym2bits (latchCommand 0x12#64 s) = .next t ∧ exec .bits2sym (latchCommand 0x10#64 t) = .next u ∧
      u.nSym = s.nSym ∧ u.Symbols n w sym := by
  have hcount : n = s.nSym.toNat := by rw [hn, toNat_ofNat_of_le_depth hcapSyms]
  obtain ⟨t, hexec, ht, hbits, -⟩ := symbolsToBitsCompletes (latchCommand 0x12#64 s) sch w n sym
    (configured_latchCommand _ hcfg rfl) hcount hcap hsyms
  have hgroups : n = t.nBits.toNat / w := by
    rw [congrArg State.nBits ht, toNat_ofNat_of_le_depth hcap, Nat.mul_div_cancel n hcfg.range.1]
  have hcomponents : t.Bits (n * w) (fun j => decide (componentBit w (sym (j / w)) (j % w) = 1)) := by
    simpa only [State.Bits, wordOfBit_eq_ofNat, toNat_decide_componentBit] using hbits
  obtain ⟨u, hexec', hu, hsyms', -⟩ := bitsToSymbolsCompletes (latchCommand 0x10#64 t) sch w n _
    (configured_latchCommand _ hcfg (congrArg State.ctrl ht :)) hgroups hcapSyms hcomponents
  refine ⟨t, u, hexec, hexec', (congrArg State.nSym hu).trans hn.symm, fun k hk => ?_, hsyms.2⟩
  simp only [hsyms' k hk, groupedSymbol_componentBit (hsyms.2 k hk)]

end

/-- Settles O25: each pair of commands, completed as O18 and O20 say, undoes itself. -/
theorem mapperRoundTrip : Obligations.MapperRoundTrip :=
  ⟨fun _ _ _ _ _ => bits2sym_sym2bits, fun _ _ _ _ _ => sym2bits_bits2sym⟩

end Sys2Proof.Proofs

/-! The statements of 41_gray_table.md: GRAYGEN completes with the entries of R110 and R114, adjacent entries differ in one
bit (R111), and `gidx` inverts `gray` (R112). -/

namespace Sys2Proof.Proofs

open Sys2Proof.Machine

/-! ### The Gray function (R110) -/

theorem gray_zero : gray 0 = 0 := rfl

theorem gray_eq_xor_half (i : Nat) : gray i = i ^^^ (i / 2) := by rw [gray, Nat.shiftRight_one]

theorem gray_xor (a b : Nat) : gray (a ^^^ b) = gray a ^^^ gray b := by
  simp only [gray, Nat.shiftRight_xor_distrib]
  ac_rfl

theorem gray_shiftRight (i j : Nat) : gray (i >>> j) = gray i >>> j := by
  simp only [gray, Nat.shiftRight_xor_distrib, ← Nat.shiftRight_add, Nat.add_comm]

theorem gray_lt_two_pow {w i : Nat} (h : i < 2 ^ w) : gray i < 2 ^ w :=
  Nat.xor_lt_two_pow h ((Nat.shiftRight_le i 1).trans_lt h)

/-! ### Neighbours (R111) -/

/-- Of a run of low ones, `gray` keeps the highest. -/
theorem gray_two_pow_succ_sub_one (b : Nat) : gray (2 ^ (b + 1) - 1) = 2 ^ b := by
  apply Nat.eq_of_testBit_eq
  intro k
  rw [gray, Nat.testBit_xor, Nat.testBit_shiftRight, Nat.testBit_two_pow_sub_one, Nat.testBit_two_pow_sub_one,
    Nat.testBit_two_pow, Bool.eq_iff_iff]
  simp only [bne_iff_ne, ne_eq, decide_eq_decide, decide_eq_true_eq]
  omega

/-- Counting up by one flips a run of low ones, by induction on the carry's way: an even number flips its lowest bit
only, an odd one flips it and carries into its half. -/
theorem xor_succ_eq_two_pow_sub_one {w i : Nat} (h : i + 1 < 2 ^ w) :
    ∃ b, b < w ∧ i ^^^ (i + 1) = 2 ^ (b + 1) - 1 := by
  induction w generalizing i with
  | zero => simp at h
  | succ w ih =>
    rw [pow_succ] at h
    rcases Nat.even_or_odd' i with ⟨k, rfl | rfl⟩
    · refine ⟨0, w.succ_pos, ?_⟩
      rw [← Nat.xor_one_of_even (even_two_mul k), ← Nat.xor_assoc, Nat.xor_self, Nat.zero_xor]
      rfl
    · obtain ⟨b, hb, hxor⟩ := ih (i := k) (by omega)
      refine ⟨b + 1, Nat.succ_lt_succ hb, ?_⟩
      have hbits : (2 * k + 1) ^^^ (2 * k + 1 + 1) = 2 * (k ^^^ (k + 1)) + 1 := Nat.xor_bit true k false (k + 1)
      have hpos : 0 < 2 ^ (b + 1) := Nat.two_pow_pos _
      rw [hbits, hxor, pow_succ 2 (b + 1)]
      omega

/-- Settles O23: `gray` is additive, so neighbours differ in the Gray value of a run of low ones. -/
theorem grayNeighboursDifferInOneBit : Obligations.GrayNeighboursDifferInOneBit := by
  constructor
  · intro w i hi
    obtain ⟨b, hb, hxor⟩ := xor_succ_eq_two_pow_sub_one hi
    exact ⟨b, hb, by rw [← gray_xor, hxor, gray_two_pow_succ_sub_one]⟩
  · intro w hw
    obtain ⟨b, rfl⟩ := Nat.exists_eq_add_of_lt hw
    rw [Nat.zero_add]
    exact ⟨gray_two_pow_succ_sub_one b, gray_zero⟩

/-! ### The Gray index (R112) -/

theorem grayIndex_zero (s : Nat) : grayIndex 0 s = 0 := rfl

theorem grayIndex_succ (w s : Nat) : grayIndex (w + 1) s = grayIndex w s ^^^ (s >>> w) := by
  rw [grayIndex, List.range_succ, List.foldl_append]
  rfl

theorem grayIndex_lt_two_pow {w s : Nat} (h : s < 2 ^ w) (n : Nat) : grayIndex n s < 2 ^ w := by
  induction n with
  | zero => exact Nat.two_pow_pos w
  | succ n ih =>
    rw [grayIndex_succ]
    exact Nat.xor_lt_two_pow ih ((Nat.shiftRight_le s n).trans_lt h)

/-- `gidx` is a XOR of shifts, and `gray` goes through both. -/
theorem gray_grayIndex (w s : Nat) : gray (grayIndex w s) = grayIndex w (gray s) := by
  induction w with
  | zero => rw [grayIndex_zero, grayIndex_zero, gray_zero]
  | succ w ih => rw [grayIndex_succ, grayIndex_succ, gray_xor, gray_shiftRight, ih]

/-- The shifts of a Gray value telescope. -/
theorem grayIndex_gray (w i : Nat) : grayIndex w (gray i) = i ^^^ (i >>> w) := by
  induction w with
  | zero => rw [grayIndex_zero, Nat.shiftRight_zero, Nat.xor_self]
  | succ w ih =>
    rw [grayIndex_succ, ih, ← gray_shiftRight, gray, ← Nat.shiftRight_add, Nat.xor_assoc, Nat.xor_xor_cancel_left]

theorem grayIndex_gray_of_lt {w i : Nat} (h : i < 2 ^ w) : grayIndex w (gray i) = i := by
  rw [grayIndex_gray, Nat.shiftRight_eq_zero i w h, Nat.xor_zero]

/-- Settles O24: `gidx` undoes `gray` below 2^w, and the two commute. -/
theorem grayIndexInvertsGray : Obligations.GrayIndexInvertsGray := by
  intro w s hs
  refine ⟨grayIndex_lt_two_pow hs w, ?_, gray_lt_two_pow hs, ?_⟩
  · rw [gray_grayIndex, grayIndex_gray_of_lt hs]
  · rintro i hi rfl
    exact (grayIndex_gray_of_lt hi).symm

/-! ### GRAYGEN (R114) -/

/-- A legal width fits the table (00_scope.md R11). -/
theorem two_pow_le_grayDepth {c : Snapshot} {sch : Scheme} {w : Nat} (h : c.Configured sch w) :
    2 ^ w ≤ Config.grayDepth :=
  Nat.pow_le_pow_right two_pos h.range.2

theorem grayEntry_eq (form : Bool) (w i : Nat) :
    grayEntry form w i =
      if form then F64.div (F64.ofNat (i ^^^ (i / 2))) (F64.ofNat (2 ^ w - 1)) else BitVec.ofNat 64 (i ^^^ (i / 2)) := by
  rw [grayEntry, normalized, gray_eq_xor_half]

theorem exec_graygen_of_configured {s : State} {sch : Scheme} {w : Nat} (form : Bool) (hcfg : s.snap.Configured sch w) :
    exec (.graygen form) s = .next (complete (storeGray form ((List.range (2 ^ w)).map (grayEntry form w)) s)) := by
  obtain ⟨hscheme, hwidth⟩ := cfg_of_configured hcfg
  simp only [exec, execGraygen, hscheme, hwidth, needCap_of_le (two_pow_le_grayDepth hcfg), except_ok_bind]
  rfl

/-- Settles O21: the checks pass, and the tabulated entries are all that is stored. -/
theorem grayTableCompletes : Obligations.GrayTableCompletes := by
  intro s sch w form hcfg
  refine ⟨_, exec_graygen_of_configured form hcfg, ?_, ?_⟩
  · simp [complete, storeGray, State.store, countWord]
  · simp only [← grayEntry_eq]
    exact entries_and_kept_of_store rfl

end Sys2Proof.Proofs

/-! The statements of 42_line_coder.md: the three line coders complete with the levels of R121, R123 and R127. Each level
is a formula of its index (`slotLevel`, `messageLevel`), for the transceiver's use too. -/

namespace Sys2Proof.Proofs

open Sys2Proof.Machine

/-! ### Blocks as formulas of the index -/

/-- Pairs of neighbours, tabulated in a row. -/
theorem flatMap_pair_range {α : Type} (f : Nat → α) (w : Nat) :
    (List.range w).flatMap (fun i => [f (2 * i), f (2 * i + 1)]) = (List.range (2 * w)).map f := by
  induction w with
  | zero => rfl
  | succ w ih => simp [List.range_succ, Nat.mul_succ, List.flatMap_append, ih]

/-- Tabulated blocks of one length, in a row. -/
theorem flatMap_block_range {α : Type} {len : Nat} (hlen : 0 < len) (n : Nat) (sym : Nat → Nat) (f : Nat → Nat → α) :
    ((List.range n).map sym).flatMap (fun s => (List.range len).map (f s)) =
      (List.range (n * len)).map (fun j => f (sym (j / len)) (j % len)) := by
  apply List.ext_getElem?
  intro j
  rw [getElem?_flatMap_const _ _ len hlen fun _ => by simp]
  by_cases hj : j < n * len
  · rw [getElem?_map_range _ hj, getElem?_map_range _ (Nat.div_lt_of_lt_mul (Nat.mul_comm n len ▸ hj)),
      Option.bind_some, getElem?_map_range _ (Nat.mod_lt j hlen)]
  · have hblock : ¬ j / len < n := fun h => hj ((Nat.div_lt_iff_lt_mul hlen).mp h)
    simp [hj, hblock]

/-! ### The slots of a bit (R120) -/

theorem slotLevel_man_even (w s i : Nat) : slotLevel .man w s (2 * i) = 1 - componentBit w s i := by
  simp [slotLevel]

theorem slotLevel_man_odd (w s i : Nat) : slotLevel .man w s (2 * i + 1) = componentBit w s i := by
  simp [slotLevel, Nat.mul_add_div]

theorem slotLevel_ami_even (w s i : Nat) :
    slotLevel .ami w s (2 * i) = (-1) ^ onesBefore w s i * componentBit w s i := by
  simp [slotLevel]

theorem slotLevel_ami_odd (w s i : Nat) : slotLevel .ami w s (2 * i + 1) = 0 := by simp [slotLevel]

theorem componentBit_eq_zero_or_one (w s i : Nat) : componentBit w s i = 0 ∨ componentBit w s i = 1 :=
  Nat.le_one_iff_eq_zero_or_eq_one.mp (Nat.le_of_lt_succ (componentBit_lt_two w s i))

theorem symbolBits_eq (w s : Nat) :
    symbolBits w s = (List.range w).map (fun i => decide (componentBit w s i = 1)) :=
  List.map_congr_left fun i _ => testBit_eq_componentBit w s i

/-! ### The Bipolar state machine (R125, R126) -/

/-- The alternation sign after `m` ones from +1. -/
def signAfterOnes (m : Nat) : Sign := if m % 2 = 1 then .neg else .pos

theorem signAfterOnes_level (m : Nat) : (signAfterOnes m).level = (-1) ^ m := by
  unfold signAfterOnes
  split
  case isTrue hodd => exact (Odd.neg_one_pow (Nat.odd_iff.mpr hodd)).symm
  case isFalse heven => exact (Even.neg_one_pow (Nat.even_iff.mpr (by omega))).symm

theorem signAfterOnes_succ (m : Nat) : signAfterOnes (m + 1) = (signAfterOnes m).flip := by
  rcases Nat.mod_two_eq_zero_or_one m with h | h <;> simp [signAfterOnes, Nat.add_mod, h, Sign.flip]

/-- One more bit adds its two slots and moves the state. -/
theorem amiRun_concat (sign : Sign) (bits : List Bool) (b : Bool) :
    amiRun sign (bits ++ [b]) =
      ((amiRun sign bits).1 ++ [if b then (amiRun sign bits).2.level else 0, 0],
        if b then (amiRun sign bits).2.flip else (amiRun sign bits).2) := by
  induction bits generalizing sign with
  | nil => rfl
  | cons c bits ih => simp only [List.cons_append, amiRun, ih]

theorem onesBefore_succ (w s i : Nat) : onesBefore w s (i + 1) = onesBefore w s i + componentBit w s i := by
  simp [onesBefore, List.range_succ]

/-- The machine over the first `i` component bits: the slots so far, and the sign by the parity of the ones so far. -/
theorem amiRun_componentBits (w s i : Nat) :
    amiRun .pos ((List.range i).map (fun j => decide (componentBit w s j = 1))) =
      ((List.range (2 * i)).map (slotLevel .ami w s), signAfterOnes (onesBefore w s i)) := by
  induction i with
  | zero => rfl
  | succ i ih =>
    rw [List.range_succ, List.map_append, List.map_singleton, amiRun_concat, ih, onesBefore_succ,
      ← flatMap_pair_range _ (i + 1), List.range_succ, List.flatMap_append, flatMap_pair_range, List.flatMap_singleton,
      slotLevel_ami_even, slotLevel_ami_odd]
    rcases componentBit_eq_zero_or_one w s i with h | h
    · simp [h]
    · simp [h, signAfterOnes_level, signAfterOnes_succ]

/-! ### Levels and sign of symbols and messages -/

/-- The block of a symbol is its slots in order (R120, R129). -/
theorem symbolLevels_eq_slots (code : LineCode) (w s : Nat) :
    symbolLevels code w s = (List.range (levelsPerSymbol (.line code) w)).map (slotLevel code w s) := by
  cases code with
  | nrz => simp [symbolLevels, nrzLevels, symbolBits_eq, levelsPerSymbol, slotLevel]
  | man =>
    rw [levelsPerSymbol, ← flatMap_pair_range, symbolLevels, manLevels, symbolBits_eq, List.flatMap_map]
    congr 1
    funext i
    rw [slotLevel_man_even, slotLevel_man_odd]
    rcases componentBit_eq_zero_or_one w s i with h | h <;> simp [h]
  | ami => rw [symbolLevels, symbolBits_eq, amiRun_componentBits, levelsPerSymbol]

theorem levelsPerSymbol_pos (sch : Scheme) {w : Nat} (hw : 1 ≤ w) : 0 < levelsPerSymbol sch w := by
  unfold levelsPerSymbol
  split <;> omega

theorem lineLevels_map_range (code : LineCode) {w : Nat} (hw : 1 ≤ w) (n : Nat) (sym : Nat → Nat) :
    lineLevels code w ((List.range n).map sym) =
      (List.range (n * levelsPerSymbol (.line code) w)).map (messageLevel code w sym) := by
  rw [lineLevels, funext (symbolLevels_eq_slots code w), flatMap_block_range (levelsPerSymbol_pos _ hw)]
  rfl

/-- The last symbol alone decides the sign (R127). -/
theorem amiSignAfter_map_range (w n : Nat) (sym : Nat → Nat) (before : Sign) :
    amiSignAfter w ((List.range n).map sym) before = messageSign w n sym before := by
  cases n with
  | zero => rfl
  | succ n =>
    rw [amiSignAfter, List.range_succ, List.map_append, List.foldl_append, List.map_singleton, List.foldl_cons,
      List.foldl_nil, symbolBits_eq, amiRun_componentBits]
    rfl

/-- Slot `p` of symbol `k` in a message. -/
theorem messageLevel_block (code : LineCode) {w p : Nat} (sym : Nat → Nat) (k : Nat)
    (hp : p < levelsPerSymbol (.line code) w) :
    messageLevel code w sym (k * levelsPerSymbol (.line code) w + p) = slotLevel code w (sym k) p := by
  rw [messageLevel, Nat.mul_add_mod', Nat.mod_eq_of_lt hp, Nat.mul_comm, Nat.mul_add_div (by omega),
    Nat.div_eq_of_lt hp, Nat.add_zero]

/-! ### Levels as words -/

theorem ofInt_nrz_slot (w s i : Nat) :
    BitVec.ofInt 64 (slotLevel .nrz w s i) = if componentBit w s i = 1 then 1#64 else -1#64 := by
  rw [slotLevel, apply_ite (BitVec.ofInt 64)]
  rfl

theorem ofInt_man_complement (w s i : Nat) :
    BitVec.ofInt 64 (1 - componentBit w s i) = BitVec.ofNat 64 (1 - componentBit w s i) := by
  rcases componentBit_eq_zero_or_one w s i with h | h <;> rw [h] <;> rfl

theorem ofInt_ami_pulse (w s i : Nat) :
    BitVec.ofInt 64 ((-1) ^ onesBefore w s i * componentBit w s i) =
      if componentBit w s i = 0 then 0#64 else if onesBefore w s i % 2 = 0 then 1#64 else -1#64 := by
  rcases componentBit_eq_zero_or_one w s i with h | h
  · simp [h]
  · rcases Nat.mod_two_eq_zero_or_one (onesBefore w s i) with hp | hp
    · simp [h, hp, Even.neg_one_pow (Nat.even_iff.mpr hp)]
    · simp [h, hp, Odd.neg_one_pow (Nat.odd_iff.mpr hp)]

/-! ### The common frame of the line coders (R120) -/

section
variable {s : State} {w n : Nat} {sym : Nat → Nat} (code : LineCode)

/-- With a legal width, in-range symbols and room for the levels, the checks pass. -/
theorem encodeLine_of_symbols (hbps : w = s.snap.bps) (hpos : 1 ≤ w) (hmax : w ≤ 8) (hn : n = s.snap.nSym.toNat)
    (hcap : n * levelsPerSymbol (.line code) w ≤ Config.levelDepth) (hsyms : s.Symbols n w sym) :
    encodeLine code s = .next (complete (storeLineCode code w ((List.range n).map sym) s)) := by
  have hwidth : cfgW s.snap (.line code) = .ok w :=
    hbps ▸ cfgW_of_bps (hbps ▸ hpos) (hbps ▸ hmax) nofun nofun
  simp only [encodeLine, hwidth, ← hn, inputSyms_of_symbols hsyms hmax, needRange_of_lt hsyms.2, needCap_of_le hcap,
    except_ok_bind]
  rfl

/-- What a line coder leaves behind: its levels, their count, and the sign for Bipolar. -/
theorem storeLineCode_of_symbols (hpos : 1 ≤ w) {t : State}
    (ht : t = complete (storeLineCode code w ((List.range n).map sym) s)) :
    t = { s with
          mem := t.mem, nLevel := BitVec.ofNat 64 (n * levelsPerSymbol (.line code) w), busy := false, done := true
          amiSign := if code = .ami then messageSign w n sym s.amiSign else s.amiSign } ∧
      t.Entries .level (n * levelsPerSymbol (.line code) w) (fun j => BitVec.ofInt 64 (messageLevel code w sym j)) ∧
      Kept s t [(.level, n * levelsPerSymbol (.line code) w)] := by
  refine ⟨?_, entries_and_kept_of_store ?_⟩
  · have hcount : (lineLevels code w ((List.range n).map sym)).length = n * levelsPerSymbol (.line code) w := by
      rw [length_lineLevels, List.length_map, List.length_range]
    rw [ht, ← hcount, ← amiSignAfter_map_range]
    cases code <;> rfl
  · rw [ht, complete_mem, storeLineCode_mem, lineLevels_map_range code hpos, List.map_map]
    rfl

/-- The level a line coder stores for slot `p` of symbol `k`. -/
theorem entry_of_messageLevel {t : State} {k p : Nat}
    (ht : t.Entries .level (n * levelsPerSymbol (.line code) w) (fun j => BitVec.ofInt 64 (messageLevel code w sym j)))
    (hk : k < n) (hp : p < levelsPerSymbol (.line code) w) :
    t.entry .level (k * levelsPerSymbol (.line code) w + p) = some (BitVec.ofInt 64 (slotLevel code w (sym k) p)) := by
  have hblock : (k + 1) * levelsPerSymbol (.line code) w ≤ n * levelsPerSymbol (.line code) w :=
    Nat.mul_le_mul_right _ hk
  rw [Nat.succ_mul] at hblock
  simp only [ht _ (show k * levelsPerSymbol (.line code) w + p < _ by omega), messageLevel_block code sym k hp]

end

/-! ### The commands -/

/-- Settles O26: each level is the one slot of a component bit. -/
theorem nrzCoderCompletes : Obligations.NrzCoderCompletes := by
  intro s w n sym hbps hpos hmax hn hcap hsyms
  obtain ⟨hframe, hlevels, hkept⟩ := storeLineCode_of_symbols (n := n) (sym := sym) (s := s) .nrz hpos rfl
  refine ⟨_, encodeLine_of_symbols .nrz hbps hpos hmax hn hcap hsyms, hframe, fun j hj => ?_, hkept⟩
  rw [hlevels j hj]
  exact congrArg some (ofInt_nrz_slot w (sym (j / w)) (j % w))

/-- Settles O27: a component bit's complement and the bit, in the two slots of its place. -/
theorem manchesterCoderCompletes : Obligations.ManchesterCoderCompletes := by
  intro s w n sym hbps hpos hmax hn hcap hsyms
  obtain ⟨hframe, hlevels, hkept⟩ := storeLineCode_of_symbols (n := n) (sym := sym) (s := s) .man hpos rfl
  refine ⟨_, encodeLine_of_symbols .man hbps hpos hmax hn hcap hsyms, hframe, fun k i hk hi => ?_, hkept⟩
  have hfirst := entry_of_messageLevel .man hlevels hk (show 2 * i < 2 * w by omega)
  have hsecond := entry_of_messageLevel .man hlevels hk (show 2 * i + 1 < 2 * w by omega)
  rw [slotLevel_man_even, ofInt_man_complement] at hfirst
  rw [slotLevel_man_odd, BitVec.ofInt_natCast] at hsecond
  exact ⟨hfirst, hsecond⟩

/-- Settles O28: the alternation sign at a bit is the parity of the ones before it in its symbol. -/
theorem bipolarCoderCompletes : Obligations.BipolarCoderCompletes := by
  intro s w n sym hbps hpos hmax hn hcap hsyms
  obtain ⟨hframe, hlevels, hkept⟩ := storeLineCode_of_symbols (n := n) (sym := sym) (s := s) .ami hpos rfl
  refine ⟨_, encodeLine_of_symbols .ami hbps hpos hmax hn hcap hsyms, hframe, fun k i hk hi => ?_, hkept⟩
  have hfirst := entry_of_messageLevel .ami hlevels hk (show 2 * i < 2 * w by omega)
  have hsecond := entry_of_messageLevel .ami hlevels hk (show 2 * i + 1 < 2 * w by omega)
  rw [slotLevel_ami_even, ofInt_ami_pulse] at hfirst
  rw [slotLevel_ami_odd] at hsecond
  exact ⟨hfirst, hsecond⟩

end Sys2Proof.Proofs

/-! The order of finite binary64s and the exactness of their operations: rounding keeps the bounds and the values that
binary64 has (00_scope.md R15, 46_system.md R193). -/

namespace Sys2Proof.Proofs

open Sys2Proof.Machine

/-! ### The order of the patterns is the order of the values -/

theorem abs_value (x : F64) : |F64.value x| = F64.significand x * (2 : ℚ) ^ F64.scale x := by
  have hpos : (0 : ℚ) ≤ F64.significand x * (2 : ℚ) ^ F64.scale x := by positivity
  unfold F64.value
  rw [mul_assoc, abs_mul, abs_of_nonneg hpos]
  cases F64.sign x <;> simp

theorem value_eq_signed_abs (x : F64) : F64.value x = if F64.sign x then -|F64.value x| else |F64.value x| := by
  rw [abs_value]
  unfold F64.value
  cases F64.sign x <;> simp

/-- The magnitude pattern counts the binades (below the normal ones, none) and the units within. -/
theorem exists_binade (x : F64) : ∃ k : Nat, F64.magnitude x = k * 2 ^ 52 + F64.significand x ∧
    F64.scale x = (k : Int) - 1074 ∧ (k = 0 ∨ 2 ^ 52 ≤ F64.significand x) := by
  refine ⟨F64.expField x - 1, ?_⟩
  unfold F64.significand F64.scale F64.magnitude F64.expField F64.fracField
  split <;> omega

theorem abs_value_lt_of_magnitude_lt {x y : F64} (h : F64.magnitude x < F64.magnitude y) :
    |F64.value x| < |F64.value y| := by
  obtain ⟨k, hmag, hscale, hnormal⟩ := exists_binade x
  obtain ⟨l, hmag', hscale', hnormal'⟩ := exists_binade y
  have hx := significand_lt x
  have hy := significand_lt y
  rw [abs_value, abs_value, hscale, hscale']
  rcases (show k ≤ l by omega).eq_or_lt with rfl | hkl
  · have hsig : (F64.significand x : ℚ) < F64.significand y := by exact_mod_cast (by omega)
    exact mul_lt_mul_of_pos_right hsig (by positivity)
  · have hsig : (2 : ℚ) ^ (52 : Int) ≤ F64.significand y := by exact_mod_cast (by omega)
    calc (F64.significand x : ℚ) * (2 : ℚ) ^ ((k : Int) - 1074)
        < (2 : ℚ) ^ (53 : Int) * (2 : ℚ) ^ ((k : Int) - 1074) :=
          mul_lt_mul_of_pos_right (by exact_mod_cast hx) (by positivity)
      _ = (2 : ℚ) ^ (52 : Int) * (2 : ℚ) ^ ((k : Int) + 1 - 1074) := by
          rw [← zpow_add₀ two_ne_zero, ← zpow_add₀ two_ne_zero]
          congr 1
          ring
      _ ≤ F64.significand y * (2 : ℚ) ^ ((l : Int) - 1074) :=
          mul_le_mul hsig (zpow_le_zpow_right₀ one_le_two (by omega)) (by positivity) (by positivity)

theorem abs_value_eq_of_magnitude_eq {x y : F64} (h : F64.magnitude x = F64.magnitude y) :
    |F64.value x| = |F64.value y| := by
  have hexp : F64.expField x = F64.expField y := by unfold F64.expField F64.magnitude at *; omega
  have hfrac : F64.fracField x = F64.fracField y := by unfold F64.fracField F64.magnitude at *; omega
  rw [abs_value, abs_value]
  unfold F64.significand F64.scale
  rw [hexp, hfrac]

theorem abs_value_lt_iff {x y : F64} : |F64.value x| < |F64.value y| ↔ F64.magnitude x < F64.magnitude y := by
  refine ⟨fun h => ?_, abs_value_lt_of_magnitude_lt⟩
  by_contra hge
  rcases (not_lt.mp hge).eq_or_lt with heq | hlt
  · exact h.ne (abs_value_eq_of_magnitude_eq heq.symm)
  · exact h.asymm (abs_value_lt_of_magnitude_lt hlt)

theorem abs_value_eq_zero_iff {x : F64} : |F64.value x| = 0 ↔ F64.magnitude x = 0 := by
  have hzero : |F64.value (0#64 : F64)| = 0 := by simp [abs_value, F64.significand, F64.expField, F64.fracField]
  have hiff := abs_value_lt_iff (x := (0#64 : F64)) (y := x)
  rw [hzero, abs_pos, show F64.magnitude (0#64 : F64) = 0 from rfl] at hiff
  rw [abs_eq_zero]
  have := not_congr hiff
  simpa using this

theorem orderKey_lt_iff {x y : F64} : F64.orderKey x < F64.orderKey y ↔ F64.value x < F64.value y := by
  have hxy := abs_value_lt_iff (x := x) (y := y)
  have hyx := abs_value_lt_iff (x := y) (y := x)
  have hx := abs_value_eq_zero_iff (x := x)
  have hy := abs_value_eq_zero_iff (x := y)
  have hx0 := abs_nonneg (F64.value x)
  have hy0 := abs_nonneg (F64.value y)
  rw [value_eq_signed_abs x, value_eq_signed_abs y]
  unfold F64.orderKey
  generalize |F64.value x| = a at *
  generalize |F64.value y| = b at *
  cases F64.sign x <;> cases F64.sign y
  · simp [hxy]
  · exact iff_of_false (by simp) (by simp; linarith)
  · -- a negative pattern against a positive one: only the two zeros are equal
    have hkey : -(F64.magnitude x : Int) < F64.magnitude y ↔ ¬ (F64.magnitude x = 0 ∧ F64.magnitude y = 0) := by omega
    have hval : -a < b ↔ ¬ (a = 0 ∧ b = 0) :=
      ⟨fun h h0 => by linarith [h0.1, h0.2], fun h => by
        by_contra hge
        exact h ⟨by linarith, by linarith⟩⟩
    simp [hkey, hval, hx, hy]
  · simp [hyx]

/-- `x < y` compares the values (R193). -/
theorem lt_iff_value_lt {x y : F64} (hx : F64.isFinite x = true) (hy : F64.isFinite y = true) :
    F64.lt x y = true ↔ F64.value x < F64.value y := by
  simp [F64.lt, not_nan_of_finite hx, not_nan_of_finite hy, orderKey_lt_iff]

theorem lt_eq_false_of_value_le {x y : F64} (hx : F64.isFinite x = true) (hy : F64.isFinite y = true)
    (h : F64.value y ≤ F64.value x) : F64.lt x y = false :=
  Bool.eq_false_iff.mpr fun hlt => h.not_gt ((lt_iff_value_lt hx hy).mp hlt)

/-! ### Rounding between finite values -/

/-- A finite value is below the overflow threshold. -/
theorem abs_value_lt_threshold {x : F64} (hx : F64.isFinite x = true) :
    |(F64.value x : ℝ)| < 2 ^ 1024 - 2 ^ 970 := by
  have hscale : F64.scale x ≤ 971 := by
    unfold F64.isFinite at hx
    unfold F64.scale F64.expField at *
    simp only [bne_iff_ne, ne_eq] at hx
    omega
  have hsig : F64.significand x ≤ 2 ^ 53 - 1 := Nat.le_sub_one_of_lt (significand_lt x)
  have habs : |(F64.value x : ℝ)| = F64.significand x * (2 : ℝ) ^ F64.scale x := by
    rw [← Rat.cast_abs, abs_value]
    push_cast
    rfl
  calc |(F64.value x : ℝ)| = F64.significand x * (2 : ℝ) ^ F64.scale x := habs
    _ ≤ ((2 ^ 53 - 1 : Nat) : ℝ) * (2 : ℝ) ^ (971 : Int) :=
        mul_le_mul (by exact_mod_cast hsig) (zpow_le_zpow_right₀ one_le_two hscale) (by positivity) (by positivity)
    _ < 2 ^ 1024 - 2 ^ 970 := by
        obtain ⟨Q, hQ, -, h971, -, hthreshold⟩ := threshold_units
        rw [h971, hthreshold]
        norm_num
        linarith only [hQ]

/-- Rounding leaves no finite bound of the exact result behind. -/
theorem value_bounds_of_roundsTo {v : ℝ} {a b r : F64} (h : RoundsTo v r) (ha : F64.isFinite a = true)
    (hb : F64.isFinite b = true) (hav : F64.value a ≤ v) (hvb : v ≤ F64.value b) :
    F64.isFinite r = true ∧ F64.value a ≤ F64.value r ∧ F64.value r ≤ F64.value b := by
  have hsmall : |v| < 2 ^ 1024 - 2 ^ 970 :=
    abs_lt.mpr ⟨(abs_lt.mp (abs_value_lt_threshold ha)).1.trans_le hav,
      hvb.trans_lt (abs_lt.mp (abs_value_lt_threshold hb)).2⟩
  unfold RoundsTo at h
  rw [if_pos hsmall] at h
  obtain ⟨hfin, hnear⟩ := h
  have hlow := (hnear a ha).1
  have hhigh := (hnear b hb).1
  rw [abs_of_nonpos (sub_nonpos.mpr hav)] at hlow
  rw [abs_of_nonneg (sub_nonneg.mpr hvb)] at hhigh
  refine ⟨hfin, ?_, ?_⟩
  · have := (abs_le.mp hlow).1
    exact_mod_cast (show (F64.value a : ℝ) ≤ F64.value r by linarith)
  · have := (abs_le.mp hhigh).2
    exact_mod_cast (show (F64.value r : ℝ) ≤ F64.value b by linarith)

/-! ### Exact results -/

/-- A multiple of a power of two that fits the significand is the value of a binary64. -/
theorem exists_value_eq {m : Nat} {e : Int} (hm : m < 2 ^ 53) (hlow : -1074 ≤ e) (hhigh : e ≤ 971) :
    ∃ y : F64, F64.isFinite y = true ∧ F64.value y = m * (2 : ℚ) ^ e := by
  rcases Nat.eq_zero_or_pos m with rfl | hpos
  · exact ⟨0#64, rfl, by simp [F64.value, F64.significand, F64.expField, F64.fracField]⟩
  obtain ⟨hle, hlt⟩ := log2_bounds hpos
  have hlog : m.log2 ≤ 52 := Nat.lt_succ_iff.mp ((Nat.log2_lt hpos.ne').mpr hm)
  -- shift the significand up, as far as the lowest place allows
  obtain ⟨d, hd⟩ : ∃ d, d = min (52 - m.log2) (e + 1074).toNat := ⟨_, rfl⟩
  obtain ⟨k, hk⟩ : ∃ k : Nat, (k : Int) = e + 1074 - d := ⟨(e + 1074 - d).toNat, by omega⟩
  have hsig : m * 2 ^ d < 2 ^ 53 :=
    calc m * 2 ^ d < 2 ^ (m.log2 + 1) * 2 ^ d := Nat.mul_lt_mul_of_pos_right hlt (Nat.two_pow_pos d)
      _ = 2 ^ (m.log2 + 1 + d) := (pow_add ..).symm
      _ ≤ 2 ^ 53 := Nat.pow_le_pow_right two_pos (by omega)
  have hnormal : k = 0 ∨ 2 ^ 52 ≤ m * 2 ^ d := by
    by_cases hfull : d = 52 - m.log2
    · right
      calc 2 ^ 52 = 2 ^ m.log2 * 2 ^ d := by rw [← pow_add, hfull, Nat.add_sub_cancel' hlog]
        _ ≤ m * 2 ^ d := Nat.mul_le_mul_right _ hle
    · left
      omega
  refine ⟨F64.ofMagnitude false (k * 2 ^ 52 + m * 2 ^ d), finite_ofMagnitude (by omega), ?_⟩
  rw [value_ofMagnitude hsig.le hnormal (by omega)]
  have hplace : (k : Int) - 1074 = e - (d : Nat) := by omega
  rw [hplace, zpow_sub₀ two_ne_zero, zpow_natCast]
  push_cast
  field_simp

/-- An exact result that binary64 has is not changed by rounding. -/
theorem value_of_roundsTo_exact {m : Nat} {e : Int} {r : F64} (hm : m < 2 ^ 53) (hlow : -1074 ≤ e) (hhigh : e ≤ 971)
    (h : RoundsTo (m * (2 : ℝ) ^ e) r) : F64.isFinite r = true ∧ F64.value r = m * (2 : ℚ) ^ e := by
  obtain ⟨y, hfin, hy⟩ := exists_value_eq hm hlow hhigh
  have hcast : (F64.value y : ℝ) = m * (2 : ℝ) ^ e := by rw [hy]; push_cast; rfl
  obtain ⟨hr, hyr, hry⟩ := value_bounds_of_roundsTo h hfin hfin hcast.le hcast.ge
  exact ⟨hr, hy ▸ le_antisymm hry hyr⟩

theorem value_ofNat {n : Nat} (h : n < 2 ^ 53) :
    F64.isFinite (F64.ofNat n) = true ∧ F64.value (F64.ofNat n) = n := by
  have hround : RoundsTo ((n : ℝ) * (2 : ℝ) ^ (0 : Int)) (F64.ofNat n) := by
    simpa [F64.ofNat] using ofInt_roundsTo n
  simpa using value_of_roundsTo_exact h (by norm_num) (by norm_num) hround

end Sys2Proof.Proofs

/-! The statements of 43_modulation.md: the five parameter maps and the carrier synthesizer complete with the formulas
of R136-R141 and R143-R145, and the parameters stay in the ranges of R142. -/

namespace Sys2Proof.Proofs

open Sys2Proof.Machine

/-! ### Triples as words of a buffer (20_memory.md R61) -/

/-- Tabulated triples in a row are words tabulated three by three. -/
theorem flatMap_words_map_range (n : Nat) (p : Nat → Triple) :
    ((List.range n).map p).flatMap Triple.words = (List.range (n * 3)).map (fun j => (p (j / 3)).word (j % 3)) := by
  have hblocks := flatMap_block_range three_pos n id (fun k => (p k).word)
  rw [List.map_id] at hblocks
  rw [List.flatMap_map]
  exact hblocks

theorem triplesOfWords_flatMap_words (ps : List Triple) : triplesOfWords (ps.flatMap Triple.words) = ps := by
  induction ps with
  | nil => rfl
  | cons p ps ih =>
    rw [List.flatMap_cons]
    exact congrArg (p :: ·) ih

theorem inputParams_of_entries {s : State} {n : Nat} {p : Nat → Triple}
    (h : s.Entries .param (3 * n) (fun j => (p (j / 3)).word (j % 3))) :
    inputParams n s = .ok ((List.range n).map p) := by
  rw [inputParams, inputWords, readEntries_of_entries h, Nat.mul_comm 3 n, ← flatMap_words_map_range]
  exact congrArg Except.ok (triplesOfWords_flatMap_words _)

/-! ### The common frame of the MODP commands (R135) -/

/-- PARAM_MEM[k] of `t` is the triple `p` (10_state.md R48). -/
def HoldsTriple (t : State) (k : Nat) (p : Triple) : Prop :=
  t.entry .param (3 * k) = some p.amp ∧ t.entry .param (3 * k + 1) = some p.freq ∧
    t.entry .param (3 * k + 2) = some p.phase

theorem holdsTriple_of_entries {t : State} {n k : Nat} {p : Nat → Triple}
    (h : t.Entries .param (n * 3) (fun j => (p (j / 3)).word (j % 3))) (hk : k < n) : HoldsTriple t k (p k) := by
  have hword : ∀ r, r < 3 → t.entry .param (3 * k + r) = some ((p k).word r) := fun r hr => by
    have hentry := h (3 * k + r) (by omega)
    simp only [Nat.mul_add_mod, Nat.mod_eq_of_lt hr, Nat.mul_add_div three_pos, Nat.div_eq_of_lt hr, Nat.add_zero]
      at hentry
    exact hentry
  exact ⟨hword 0 (by decide), hword 1 (by decide), hword 2 (by decide)⟩

section
variable {s : State} {m : Modulation} {w n : Nat} {sym : Nat → Nat}

/-- With a legal width, in-range symbols and room for the triples, the checks pass. -/
theorem mapParams_of_symbols (hwidth : cfgW s.snap (.carrier m) = .ok w) (hmax : w ≤ 8) (hn : n = s.snap.nSym.toNat)
    (hcap : n ≤ Config.paramDepth) (hsyms : s.Symbols n w sym) :
    mapParams m s = .next (complete (storeParams ((List.range n).map (fun k => symbolTriple m w (sym k))) s)) := by
  simp only [mapParams, hwidth, ← hn, inputSyms_of_symbols hsyms hmax, needRange_of_lt hsyms.2, needCap_of_le hcap,
    except_ok_bind, List.map_map]
  rfl

/-- What a MODP command leaves behind: the triple of each symbol and their count. -/
theorem mapParams_completes (hwidth : cfgW s.snap (.carrier m) = .ok w) (hmax : w ≤ 8) (hn : n = s.snap.nSym.toNat)
    (hcap : n ≤ Config.paramDepth) (hsyms : s.Symbols n w sym) :
    ∃ t, mapParams m s = .next t ∧
      t = { s with mem := t.mem, nParam := BitVec.ofNat 64 n, busy := false, done := true } ∧
      (∀ k, k < n → HoldsTriple t k (symbolTriple m w (sym k))) ∧ Kept s t [(.param, 3 * n)] := by
  refine ⟨_, mapParams_of_symbols hwidth hmax hn hcap hsyms, ?_, ?_⟩
  · simp [complete, storeParams, State.store, countWord]
  · obtain ⟨hentries, hkept⟩ := entries_and_kept_of_store (s := s)
      (t := complete (storeParams ((List.range n).map (fun k => symbolTriple m w (sym k))) s))
      (by rw [complete_mem, storeParams_mem, flatMap_words_map_range])
    exact ⟨fun k hk => holdsTriple_of_entries (p := fun k => symbolTriple m w (sym k)) hentries hk,
      Nat.mul_comm n 3 ▸ hkept⟩

end

/-! ### The maps that read CTRL.BPS (R136-R138) -/

theorem cfgW_carrier_of_bps {c : Snapshot} {m : Modulation} {w : Nat} (hbps : w = c.bps) (hpos : 1 ≤ w) (hmax : w ≤ 8)
    (hq : m ≠ .qpsk) (hq' : m ≠ .qam16) : cfgW c (.carrier m) = .ok w := by
  subst hbps
  exact cfgW_of_bps hpos hmax (fun h => hq (Scheme.carrier.inj h)) (fun h => hq' (Scheme.carrier.inj h))

/-- Settles O29: each symbol's triple is stored, and its amplitude is the symbol's normalized decimal. -/
theorem askMapperCompletes : Obligations.AskMapperCompletes := by
  intro s w n sym hbps hpos hmax hn hcap hsyms
  exact mapParams_completes (m := .ask) (cfgW_carrier_of_bps hbps hpos hmax nofun nofun) hmax hn hcap hsyms

/-- Settles O30: each symbol's triple is stored, and its frequency adds the symbol's normalized decimal to 1.0. -/
theorem fskMapperCompletes : Obligations.FskMapperCompletes := by
  intro s w n sym hbps hpos hmax hn hcap hsyms
  exact mapParams_completes (m := .fsk) (cfgW_carrier_of_bps hbps hpos hmax nofun nofun) hmax hn hcap hsyms

/-- Settles O31: the position of a symbol in the Gray table is its Gray index. -/
theorem pskMapperCompletes : Obligations.PskMapperCompletes := by
  intro s w n sym hbps hpos hmax hn hcap hsyms
  obtain ⟨t, hexec, hframe, htriple, hkept⟩ := mapParams_completes (m := .psk)
    (cfgW_carrier_of_bps hbps hpos hmax nofun nofun) hmax hn hcap hsyms
  refine ⟨t, hexec, hframe, fun k hk => ?_, hkept⟩
  obtain ⟨hamp, hfreq, hphase⟩ := htriple k hk
  refine ⟨hamp, hfreq, fun g hg hgray => ?_⟩
  rw [← gray_eq_xor_half] at hgray
  rw [hphase, ← hgray, symbolTriple, pskTriple, grayIndex_gray_of_lt hg]
  rfl

/-! ### The maps of fixed width (R139-R141) -/

/-- The phases of R139, by symbol. -/
theorem pskTriple_two_phase : ∀ x, x < 4 → (pskTriple 2 x).phase =
    if x = 0 then 0#64 else if x = 1 then 0x4056800000000000#64
      else if x = 2 then 0x4070E00000000000#64 else 0x4066800000000000#64 := by
  decide

/-- Settles O32: the PSK map at width 2, whose four phases are evaluated. -/
theorem qpskMapperCompletes : Obligations.QpskMapperCompletes := by
  intro s n sym hn hcap hsyms
  obtain ⟨t, hexec, hframe, htriple, hkept⟩ := mapParams_completes (m := .qpsk) rfl (by decide) hn hcap hsyms
  refine ⟨t, hexec, hframe, fun k hk => ?_, hkept⟩
  obtain ⟨hamp, hfreq, hphase⟩ := htriple k hk
  exact ⟨hamp, hfreq, hphase.trans (congrArg some (pskTriple_two_phase _ (hsyms.2 k hk)))⟩

/-- The four levels are the patterns of R140; the kernel evaluates the root of 2. -/
theorem qamLevel_eq_component : ∀ i, i < 4 → qamLevel i = qamComponent i := by decide +kernel

/-- The amplitudes are the three patterns of R141; the kernel evaluates the roots. -/
theorem qamAmplitude_eq_sqrt : ∀ r, r < 4 → ∀ c, c < 4 →
    F64.sqrt (F64.add (F64.mul (qamComponent c) (qamComponent c)) (F64.mul (qamComponent r) (qamComponent r))) =
      qamAmplitude r c := by
  decide +kernel

/-- The triple of a cell of the constellation (R140, R141). -/
theorem qamTriple_of_cell {r c : Nat} (hr : r < 4) (hc : c < 4) :
    qamTriple (4 * gray r + gray c) =
      ⟨qamAmplitude r c, F64.one, degreesOf (qamComponent r) (qamComponent c)⟩ := by
  have hgray : gray c < 4 := gray_lt_two_pow (w := 2) hc
  have hrow : grayIndex 2 ((4 * gray r + gray c) / 4) = r := by
    rw [show (4 * gray r + gray c) / 4 = gray r by omega, grayIndex_gray_of_lt hr]
  have hcol : grayIndex 2 ((4 * gray r + gray c) % 4) = c := by
    rw [show (4 * gray r + gray c) % 4 = gray c by omega, grayIndex_gray_of_lt hc]
  rw [qamTriple, hrow, hcol, qamLevel_eq_component r hr, qamLevel_eq_component c hc]
  simp only [qamAmplitude_eq_sqrt r hr c hc]
  rfl

/-- Every 16-QAM symbol stands in a cell: that of the Gray indices of its halves (R140). -/
theorem exists_cell {x : Nat} (hx : x < 16) : ∃ r c, r < 4 ∧ c < 4 ∧ x = 4 * gray r + gray c := by
  obtain ⟨hr, hrow, -⟩ := grayIndexInvertsGray 2 (x / 4) (by omega)
  obtain ⟨hc, hcol, -⟩ := grayIndexInvertsGray 2 (x % 4) (by omega)
  exact ⟨grayIndex 2 (x / 4), grayIndex 2 (x % 4), hr, hc, by omega⟩

/-- Settles O33: the Gray indices of a symbol's halves find its cell. -/
theorem qamMapperCompletes : Obligations.QamMapperCompletes := by
  refine ⟨fun x hx => exists_cell hx, fun s n sym hn hcap hsyms => ?_⟩
  obtain ⟨t, hexec, hframe, htriple, hkept⟩ := mapParams_completes (m := .qam16) rfl (by decide) hn hcap hsyms
  refine ⟨t, hexec, hframe, fun k r c hk hr hc hcell => ?_, hkept⟩
  have hstored := htriple k hk
  rwa [hcell, symbolTriple, qamTriple_of_cell hr hc] at hstored

/-! ### Parameter ranges (R142) -/

/-- `x` is a finite number from `a` to `b`. -/
def Within (a b x : F64) : Prop := F64.lt x a = false ∧ F64.lt b x = false ∧ F64.isFinite x = true

theorem within_of_value_bounds {a b x : F64} (ha : F64.isFinite a = true) (hb : F64.isFinite b = true)
    (h : F64.isFinite x = true ∧ F64.value a ≤ F64.value x ∧ F64.value x ≤ F64.value b) : Within a b x :=
  ⟨lt_eq_false_of_value_le h.1 ha h.2.1, lt_eq_false_of_value_le hb h.1 h.2.2, h.1⟩

theorem value_zero : F64.value F64.zero = 0 := by
  simp [F64.value, show F64.significand F64.zero = 0 by decide]

theorem value_one : F64.value F64.one = 1 := by
  norm_num [F64.value, show F64.sign F64.one = false by decide, show F64.significand F64.one = 2 ^ 52 by decide,
    show F64.scale F64.one = -52 by decide]

theorem value_two : F64.value F64.two = 2 := by
  norm_num [F64.value, show F64.sign F64.two = false by decide, show F64.significand F64.two = 2 ^ 52 by decide,
    show F64.scale F64.two = -51 by decide]

theorem value_deg360 : F64.value F64.deg360 = 360 := by
  norm_num [F64.value, show F64.sign F64.deg360 = false by decide,
    show F64.significand F64.deg360 = 45 * 2 ^ 47 by decide, show F64.scale F64.deg360 = -44 by decide]

theorem isZero_ofNat_of_pos {n : Nat} (hpos : 0 < n) (h : n < 2 ^ 53) : F64.isZero (F64.ofNat n) = false := by
  by_contra hz
  have hmag : F64.magnitude (F64.ofNat n) = 0 := by simpa [F64.isZero] using hz
  rw [← abs_value_eq_zero_iff, (value_ofNat h).2] at hmag
  simp at hmag
  omega

/-- `f64(a) ÷ f64(b)` rounds the quotient of the integers. -/
theorem div_ofNat_roundsTo {a b : Nat} (ha : a < 2 ^ 53) (hpos : 0 < b) (hb : b < 2 ^ 53) :
    RoundsTo ((a : ℝ) / b) (F64.div (F64.ofNat a) (F64.ofNat b)) := by
  have h := div_roundsTo (value_ofNat ha).1 (value_ofNat hb).1 (isZero_ofNat_of_pos hpos hb)
  rwa [(value_ofNat ha).2, (value_ofNat hb).2, Rat.cast_natCast, Rat.cast_natCast] at h

theorem normalized_value_bounds {w s : Nat} (hpos : 0 < w) (hmax : w ≤ 8) (hs : s < 2 ^ w) :
    F64.isFinite (normalized w s) = true ∧ F64.value F64.zero ≤ F64.value (normalized w s) ∧
      F64.value (normalized w s) ≤ F64.value F64.one := by
  have hlow : 2 ^ 1 ≤ 2 ^ w := Nat.pow_le_pow_right two_pos hpos
  have hhigh : 2 ^ w ≤ 2 ^ 8 := Nat.pow_le_pow_right two_pos hmax
  have hround : RoundsTo ((s : ℝ) / (2 ^ w - 1 : Nat)) (normalized w s) :=
    div_ofNat_roundsTo (by omega) (by omega) (by omega)
  refine value_bounds_of_roundsTo hround rfl rfl ?_ ?_
  · rw [value_zero, Rat.cast_zero]
    positivity
  · rw [value_one, Rat.cast_one]
    exact div_le_one_of_le₀ (by exact_mod_cast (by omega)) (Nat.cast_nonneg _)

theorem within_fsk_frequency {w s : Nat} (hpos : 0 < w) (hmax : w ≤ 8) (hs : s < 2 ^ w) :
    Within F64.one F64.two (F64.add F64.one (normalized w s)) := by
  obtain ⟨hfin, hlow, hhigh⟩ := normalized_value_bounds hpos hmax hs
  have hround := addFinite_roundsTo F64.one (normalized w s)
  rw [← add_of_finite rfl hfin] at hround
  rw [value_zero] at hlow
  rw [value_one] at hhigh
  refine within_of_value_bounds rfl rfl (value_bounds_of_roundsTo hround rfl rfl ?_ ?_)
  · exact_mod_cast le_add_of_nonneg_right hlow
  · rw [value_two, value_one]
    exact_mod_cast (by linarith : (1 : ℚ) + F64.value (normalized w s) ≤ 2)

/-- A PSK phase is exact: position `g` of the 2^w gives g·360/2^w = (45·g)·2^(3−w) (R138). -/
theorem psk_phase_exact {w g : Nat} (hmax : w ≤ 8) (hg : g < 2 ^ w) :
    F64.isFinite (F64.mul (F64.ofNat g) (F64.div F64.deg360 (F64.ofNat (2 ^ w)))) = true ∧
      F64.value (F64.mul (F64.ofNat g) (F64.div F64.deg360 (F64.ofNat (2 ^ w)))) =
        (45 * g : Nat) * (2 : ℚ) ^ (3 - (w : Int)) := by
  have hhigh : 2 ^ w ≤ 2 ^ 8 := Nat.pow_le_pow_right two_pos hmax
  have hpow := value_ofNat (n := 2 ^ w) (by omega)
  have hpos := value_ofNat (n := g) (by omega)
  have hstep : F64.isFinite (F64.div F64.deg360 (F64.ofNat (2 ^ w))) = true ∧
      F64.value (F64.div F64.deg360 (F64.ofNat (2 ^ w))) = (45 : Nat) * (2 : ℚ) ^ (3 - (w : Int)) := by
    refine value_of_roundsTo_exact (by norm_num) (by omega) (by omega) ?_
    convert div_roundsTo (x := F64.deg360) rfl hpow.1 (isZero_ofNat_of_pos (Nat.two_pow_pos w) (by omega)) using 1
    rw [value_deg360, hpow.2, zpow_sub₀ two_ne_zero, zpow_natCast]
    push_cast
    field_simp
    norm_num
  refine value_of_roundsTo_exact (by omega) (by omega) (by omega) ?_
  convert mul_roundsTo hpos.1 hstep.1 using 1
  rw [hpos.2, hstep.2]
  push_cast
  ring

/-- The PSK phases are below 360 because the positions are below 2^w. -/
theorem psk_phase_range {w s : Nat} (hmax : w ≤ 8) (hs : s < 2 ^ w) :
    F64.lt (pskTriple w s).phase F64.zero = false ∧ F64.lt (pskTriple w s).phase F64.deg360 = true := by
  have hg : grayIndex w s < 2 ^ w := grayIndex_lt_two_pow hs w
  obtain ⟨hfin, hvalue⟩ : F64.isFinite (pskTriple w s).phase = true ∧
      F64.value (pskTriple w s).phase = (45 * grayIndex w s : Nat) * (2 : ℚ) ^ (3 - (w : Int)) :=
    psk_phase_exact hmax hg
  constructor
  · refine lt_eq_false_of_value_le hfin rfl ?_
    rw [value_zero, hvalue]
    positivity
  · refine (lt_iff_value_lt hfin rfl).mpr ?_
    rw [value_deg360, hvalue, zpow_sub₀ two_ne_zero, zpow_natCast, ← mul_div_assoc,
      div_lt_iff₀ (by positivity)]
    have hlt : (grayIndex w s : ℚ) < 2 ^ w := by exact_mod_cast hg
    push_cast
    linarith

theorem within_one : Within F64.zero F64.one F64.one ∧ Within F64.one F64.two F64.one := by
  unfold Within
  decide

theorem within_qam_amplitude : ∀ r, r < 4 → ∀ c, c < 4 → Within F64.zero F64.one (qamAmplitude r c) := by
  unfold Within
  decide

theorem zero_phase_range : F64.lt F64.zero F64.zero = false ∧ F64.lt F64.zero F64.deg360 = true := by decide

/-- Settles O34: the normalized decimal lies in [0, 1] and rounding keeps such bounds; the PSK phases are exact. -/
theorem parametersInRange : Obligations.ParametersInRange := by
  intro m w s hmax hs hpos
  obtain ⟨hamp, hfreq⟩ := within_one
  suffices h : Within F64.zero F64.one (symbolTriple m w s).amp ∧ Within F64.one F64.two (symbolTriple m w s).freq ∧
      (m ≠ .qam16 → F64.lt (symbolTriple m w s).phase F64.zero = false ∧
        F64.lt (symbolTriple m w s).phase F64.deg360 = true) by
    obtain ⟨⟨ha, ha', ha''⟩, ⟨hf, hf', hf''⟩, hphase⟩ := h
    exact ⟨ha, ha', ha'', hf, hf', hf'', hphase⟩
  cases m with
  | ask =>
    exact ⟨within_of_value_bounds rfl rfl (normalized_value_bounds hpos hmax hs), hfreq, fun _ => zero_phase_range⟩
  | fsk => exact ⟨hamp, within_fsk_frequency hpos hmax hs, fun _ => zero_phase_range⟩
  | psk => exact ⟨hamp, hfreq, fun _ => psk_phase_range hmax hs⟩
  | qpsk => exact ⟨hamp, hfreq, fun _ => psk_phase_range (by decide) hs⟩
  | qam16 =>
    obtain ⟨r, c, hr, hc, rfl⟩ := exists_cell hs
    rw [symbolTriple, qamTriple_of_cell hr hc]
    exact ⟨within_qam_amplitude r hr c hc, hfreq, fun hne => absurd rfl hne⟩

/-! ### The carrier synthesizer (R143-R145) -/

theorem carrierWave_map_range {c : Snapshot} (hsps : c.sps ≠ 0) (n : Nat) (p : Nat → Triple) :
    carrierWave c ((List.range n).map p) =
      (List.range (n * c.sps.toNat)).map (fun x => toneSample c (p (x / c.sps.toNat)) (x % c.sps.toNat)) := by
  have hpos : 0 < c.sps.toNat := Nat.pos_of_ne_zero fun h => hsps (BitVec.eq_of_toNat_eq h)
  have hblocks := flatMap_block_range hpos n id (fun k => toneSample c (p k))
  rw [List.map_id] at hblocks
  rw [carrierWave, List.flatMap_map]
  exact hblocks

theorem exec_synCarrier_of_entries {s : State} {n : Nat} {p : Nat → Triple} (hsps : s.snap.sps ≠ 0)
    (hrate : s.snap.rateLegal = true) (hn : n = s.snap.nParam.toNat) (hcap : n * s.snap.sps.toNat ≤ Config.sampleDepth)
    (hparams : s.Entries .param (3 * n) (fun j => (p (j / 3)).word (j % 3))) :
    exec .synCarrier s = .next (complete (storeSamples ((List.range (n * s.snap.sps.toNat)).map
      (fun x => toneSample s.snap (p (x / s.snap.sps.toNat)) (x % s.snap.sps.toNat))) s)) := by
  have hcheck : needRate s.snap = .ok () := by rw [needRate, if_pos hrate]
  simp only [exec, execSynCarrier, needSps_of_ne hsps, hcheck, ← hn, needCap_of_le hcap, inputParams_of_entries hparams,
    except_ok_bind, carrierWave_map_range hsps]
  rfl

/-- Settles O35: the blocks of the triples, tabulated in a row, are all that is stored. -/
theorem carrierSynthesizerCompletes : Obligations.CarrierSynthesizerCompletes := by
  intro s n p hsps hfinite hpositive hn hcap hparams
  have hrate : s.snap.rateLegal = true := by rw [Snapshot.rateLegal, hfinite, hpositive, Bool.and_self]
  refine ⟨_, exec_synCarrier_of_entries hsps hrate hn hcap hparams, ?_, entries_and_kept_of_store rfl⟩
  simp [complete, storeSamples, State.store, countWord]

end Sys2Proof.Proofs

/-! The statements of 44_pulse_noise.md: level synthesis, Fourier pulse synthesis and noise complete with the samples of
R156, R158 and R163. The three waveforms are formulas of their index (`heldSample`, `shapedSample`, the sample with its
draw), for the transceiver's use too. -/

namespace Sys2Proof.Proofs

open Sys2Proof.Machine

/-! ### Inputs -/

/-- Levels written as two's complement words read back (10_state.md R47). -/
theorem inputLevels_of_entries {s : State} {n : Nat} {level : Nat → Int}
    (hrange : ∀ j, j < n → -2 ^ 63 ≤ level j ∧ level j < 2 ^ 63)
    (h : s.Entries .level n (fun j => BitVec.ofInt 64 (level j))) :
    inputLevels n s = .ok ((List.range n).map level) := by
  rw [inputLevels, inputWords, readEntries_of_entries h]
  simp only [Except.map, List.map_map]
  congr 1
  apply List.map_congr_left
  intro j hj
  obtain ⟨hlow, hhigh⟩ := hrange j (List.mem_range.mp hj)
  exact BitVec.toInt_ofInt_eq_self (by decide) hlow hhigh

theorem inputSamples_of_entries {s : State} {n : Nat} {x : Nat → F64} (h : s.Entries .sample n x) :
    inputSamples n s = .ok ((List.range n).map x) := by
  rw [inputSamples, inputWords, readEntries_of_entries h]

theorem needBlock_of_ne {c : Snapshot} (h : c.pulseBlock ≠ 0) : needBlock c = .ok () := by
  rw [needBlock, if_neg h]

theorem sps_toNat_pos {c : Snapshot} (h : c.sps ≠ 0) : 0 < c.sps.toNat :=
  Nat.pos_of_ne_zero fun h0 => h (BitVec.eq_of_toNat_eq h0)

/-! ### Levels as runs of equal samples (R155, R156) -/

/-- A run of SPS equal samples is tabulated with a formula that does not use the place in the run. -/
theorem levelWave_map_range {c : Snapshot} (hsps : c.sps ≠ 0) (n : Nat) (level : Nat → Int) :
    levelWave c ((List.range n).map level) = (List.range (n * c.sps.toNat)).map (heldSample c level) := by
  have hblocks := flatMap_block_range (sps_toNat_pos hsps) n id (fun k _ => levelVoltage c (level k))
  simp only [List.map_id, List.map_const', List.length_range] at hblocks
  rw [levelWave, List.flatMap_map]
  exact hblocks

/-! ### The partial sum of one block (R158) -/

theorem zipIdx_map_range {α : Type} (f : Nat → α) (n : Nat) :
    ((List.range n).map f).zipIdx = (List.range n).map (fun j => (f j, j)) := by
  apply List.ext_getElem <;> simp

section
variable (v : Nat → F64) (M : Nat)

theorem fourierMean_map_range :
    fourierMean ((List.range M).map v) = F64.mul (F64.div F64.two (F64.ofNat M)) (f64Sum M v) := by
  rw [fourierMean, voltageSum, List.foldl_map, List.length_map, List.length_range, f64Sum]

theorem fourierCos_map_range (h : Nat) : fourierCos ((List.range M).map v) h = blockCos M h v := by
  rw [fourierCos, zipIdx_map_range, List.foldl_map, List.length_map, List.length_range]
  rfl

theorem fourierSin_map_range (h : Nat) : fourierSin ((List.range M).map v) h = blockSin M h v := by
  rw [fourierSin, zipIdx_map_range, List.foldl_map, List.length_map, List.length_range]
  rfl

theorem pulseSample_map_range (total m : Nat) :
    pulseSample ((List.range M).map v) total m = seriesSample M total m v := by
  simp only [pulseSample, harmonicNumbers, List.foldl_map, fourierMean_map_range, fourierCos_map_range,
    fourierSin_map_range]
  rfl

end

theorem pulseBlockWave_map_range (c : Snapshot) (M : Nat) (level : Nat → Int) :
    pulseBlockWave c ((List.range M).map level) =
      (List.range (M * c.sps.toNat)).map
        (fun m => seriesSample M (M * c.sps.toNat) m (fun j => levelVoltage c (level j))) := by
  rw [pulseBlockWave, List.length_map, List.length_range, List.map_map]
  exact List.map_congr_left fun m _ => pulseSample_map_range (levelVoltage c ∘ level) M _ m

/-! ### The blocks in a row (R157) -/

section
variable {c : Snapshot} (n : Nat) (level : Nat → Int)

/-- A sample of the first block belongs to the block that starts at level 0. -/
theorem shapedSample_first {x : Nat} (hx : x < c.pulseBlock * c.sps.toNat) :
    shapedSample c n level x =
      seriesSample (min c.pulseBlock n) (min c.pulseBlock n * c.sps.toNat) x (fun j => levelVoltage c (level j)) := by
  have hstart : blockStart c x = 0 := by rw [blockStart, Nat.div_eq_of_lt hx, Nat.zero_mul]
  have hvoltage : blockVoltage c level x = fun j => levelVoltage c (level j) := by
    funext j
    rw [blockVoltage, hstart, Nat.zero_add, levelVoltage]
  rw [shapedSample, blockLevels, hvoltage, hstart, Nat.sub_zero, Nat.zero_mul, Nat.sub_zero]

/-- The samples after the first block are those of the levels after it. -/
theorem shapedSample_rest (hblock : c.pulseBlock ≠ 0) (hsps : c.sps ≠ 0) (x : Nat) :
    shapedSample c n level (c.pulseBlock * c.sps.toNat + x) =
      shapedSample c (n - c.pulseBlock) (fun j => level (c.pulseBlock + j)) x := by
  have hspan : 0 < c.pulseBlock * c.sps.toNat := Nat.mul_pos (Nat.pos_of_ne_zero hblock) (sps_toNat_pos hsps)
  have hstart : blockStart c (c.pulseBlock * c.sps.toNat + x) = c.pulseBlock + blockStart c x := by
    rw [blockStart, Nat.add_div_left _ hspan, Nat.succ_mul, Nat.add_comm, blockStart]
  have hlevels : blockLevels c n (c.pulseBlock * c.sps.toNat + x) = blockLevels c (n - c.pulseBlock) x := by
    rw [blockLevels, blockLevels, hstart, Nat.sub_add_eq]
  have hvoltage : blockVoltage c level (c.pulseBlock * c.sps.toNat + x) =
      blockVoltage c (fun j => level (c.pulseBlock + j)) x := by
    funext j
    simp only [blockVoltage, hstart, Nat.add_assoc]
  rw [shapedSample, shapedSample, hlevels, hvoltage, hstart, Nat.add_mul, Nat.add_sub_add_left]

end

/-- `n` levels have a first block of min(P, n) levels and a rest of n − P. -/
theorem splitBlocks_map_range {α : Type} {p n fuel : Nat} (hn : n ≠ 0) (f : Nat → α) :
    splitBlocks p (fuel + 1) ((List.range n).map f) =
      (List.range (min p n)).map f :: splitBlocks p fuel ((List.range (n - p)).map (fun j => f (p + j))) := by
  have htake : ((List.range n).map f).take p = (List.range (min p n)).map f := by
    rw [← List.map_take, List.take_range]
  have hdrop : ((List.range n).map f).drop p = (List.range (n - p)).map (fun j => f (p + j)) := by
    apply List.ext_getElem <;> simp
  rw [splitBlocks, if_neg (by simpa using hn), htake, hdrop]

/-- Induction on the blocks: each one is the head of the waveform of the levels still to come. -/
theorem flatMap_splitBlocks_map_range {c : Snapshot} (hsps : c.sps ≠ 0) (hblock : c.pulseBlock ≠ 0) (fuel : Nat)
    {n : Nat} (level : Nat → Int) (hfuel : n ≤ fuel) :
    (splitBlocks c.pulseBlock fuel ((List.range n).map level)).flatMap (pulseBlockWave c) =
      (List.range (n * c.sps.toNat)).map (shapedSample c n level) := by
  induction fuel generalizing n level with
  | zero => simp [splitBlocks, Nat.le_zero.mp hfuel]
  | succ fuel ih =>
    rcases Nat.eq_zero_or_pos n with rfl | hpos
    · simp [splitBlocks]
    have hsplit : n * c.sps.toNat = min c.pulseBlock n * c.sps.toNat + (n - c.pulseBlock) * c.sps.toNat := by
      rw [← Nat.add_mul]
      congr 1
      omega
    rw [splitBlocks_map_range hpos.ne', List.flatMap_cons, ih _ (by omega), pulseBlockWave_map_range, hsplit,
      List.range_add, List.map_append, List.map_map]
    congr 1 <;> refine List.map_congr_left fun x hx => ?_
    · have hx : x < min c.pulseBlock n * c.sps.toNat := List.mem_range.mp hx
      exact (shapedSample_first n level (hx.trans_le (Nat.mul_le_mul_right _ (min_le_left _ _)))).symm
    · -- there is a rest only where the first block is a full one
      have hfull : min c.pulseBlock n = c.pulseBlock := by
        have hrest : n - c.pulseBlock ≠ 0 := by
          intro h0
          simp [h0] at hx
        omega
      rw [Function.comp_apply, hfull, shapedSample_rest n level hblock hsps]

theorem pulseWave_map_range {c : Snapshot} (hsps : c.sps ≠ 0) (hblock : c.pulseBlock ≠ 0) (n : Nat)
    (level : Nat → Int) :
    pulseWave c ((List.range n).map level) = (List.range (n * c.sps.toNat)).map (shapedSample c n level) :=
  flatMap_splitBlocks_map_range hsps hblock _ level (by simp)

/-! ### Noise (R163) -/

theorem noisySamples_map_range (sigma : F64) (n : Nat) (x : Nat → F64) (s : State) :
    noisySamples sigma ((List.range n).map x) (draws n s) =
      (List.range n).map (fun i => F64.add (x i) (F64.mul sigma (drawAt s i))) := by
  rw [noisySamples, draws, List.zipWith_map, List.zipWith_self]

theorem applyNoise_map_range (c : Snapshot) (n : Nat) (x : Nat → F64) (s : State) :
    applyNoise c ((List.range n).map x) s =
      takeDraws n (s.store .sample
        ((List.range n).map (fun i => F64.add (x i) (F64.mul c.noiseSigma (drawAt s i))))) := by
  rw [applyNoise, List.length_map, List.length_range, noisySamples_map_range]

/-! ### The commands on legal inputs -/

section
variable {s : State} {n : Nat} {level : Nat → Int}

theorem exec_synLevel_of_entries (hsps : s.snap.sps ≠ 0) (hn : n = s.snap.nLevel.toNat)
    (hcap : n * s.snap.sps.toNat ≤ Config.sampleDepth) (hrange : ∀ j, j < n → -2 ^ 63 ≤ level j ∧ level j < 2 ^ 63)
    (hlevels : s.Entries .level n (fun j => BitVec.ofInt 64 (level j))) :
    exec .synLevel s = .next (complete (storeSamples
      ((List.range (n * s.snap.sps.toNat)).map (heldSample s.snap level)) s)) := by
  simp only [exec, execSynLevel, needSps_of_ne hsps, ← hn, needCap_of_le hcap, inputLevels_of_entries hrange hlevels,
    except_ok_bind, levelWave_map_range hsps]
  rfl

theorem exec_synPulse_of_entries (hsps : s.snap.sps ≠ 0) (hblock : s.snap.pulseBlock ≠ 0)
    (hn : n = s.snap.nLevel.toNat) (hcap : n * s.snap.sps.toNat ≤ Config.sampleDepth)
    (hrange : ∀ j, j < n → -2 ^ 63 ≤ level j ∧ level j < 2 ^ 63)
    (hlevels : s.Entries .level n (fun j => BitVec.ofInt 64 (level j))) :
    exec .synPulse s = .next (complete (storeSamples
      ((List.range (n * s.snap.sps.toNat)).map (shapedSample s.snap n level)) s)) := by
  simp only [exec, execSynPulse, needSps_of_ne hsps, needBlock_of_ne hblock, ← hn, needCap_of_le hcap,
    inputLevels_of_entries hrange hlevels, except_ok_bind, pulseWave_map_range hsps hblock]
  rfl

end

theorem exec_noise_of_entries {s : State} {n : Nat} {x : Nat → F64} (hn : n = s.snap.nSample.toNat)
    (hsamples : s.Entries .sample n x) :
    exec .noise s = .next (complete (takeDraws n (s.store .sample
      ((List.range n).map (fun i => F64.add (x i) (F64.mul s.snap.noiseSigma (drawAt s i))))))) := by
  simp only [exec, execNoise, ← hn, inputSamples_of_entries hsamples, except_ok_bind, applyNoise_map_range]
  rfl

/-- What a synthesizer leaves behind when it stores tabulated samples: these samples and their count. -/
theorem storeSamples_completes (s : State) (n : Nat) (f : Nat → F64) {t : State}
    (ht : t = complete (storeSamples ((List.range n).map f) s)) :
    t = { s with mem := t.mem, nSample := BitVec.ofNat 64 n, busy := false, done := true } ∧
      t.Entries .sample n f ∧ Kept s t [(.sample, n)] := by
  subst ht
  refine ⟨?_, entries_and_kept_of_store rfl⟩
  simp [complete, storeSamples, State.store, countWord]

/-- Settles O36: the runs of the levels, tabulated in a row, are all that is stored. -/
theorem levelSynthesizerCompletes : Obligations.LevelSynthesizerCompletes := by
  intro s n level hsps hn hcap hrange hlevels
  exact ⟨_, exec_synLevel_of_entries hsps hn hcap hrange hlevels, storeSamples_completes s _ _ rfl⟩

/-- Settles O37: the blocks of the levels, the last one perhaps shorter, are all that is stored. -/
theorem pulseSynthesizerCompletes : Obligations.PulseSynthesizerCompletes := by
  intro s n level hsps hblock hn hcap hrange hlevels
  exact ⟨_, exec_synPulse_of_entries hsps hblock hn hcap hrange hlevels, storeSamples_completes s _ _ rfl⟩

/-- Settles O38: every sample meets the draw of its own index, and the draws taken leave the port. -/
theorem noiseCompletes : Obligations.NoiseCompletes := by
  intro s n x hn _ hsamples
  exact ⟨_, exec_noise_of_entries hn hsamples, rfl, entries_and_kept_of_store rfl⟩

end Sys2Proof.Proofs

/-! The statements of 45_transceiver.md: transmitter, waveform dictionary, detector and receiver complete with the
formulas of R170-R180, only builds write the dictionary (R175), and ideal mode returns the bits (R183). -/

namespace Sys2Proof.Proofs

open Sys2Proof.Machine

/-! ### The detector's choice (R177, 60_exceptions.md R225) -/

theorem distance_map_range (n : Nat) (x e : Nat → F64) :
    distance ((List.range n).map x) ((List.range n).map e) =
      f64Sum n (fun j => F64.mul (F64.sub (x j) (e j)) (F64.sub (x j) (e j))) := by
  rw [distance, List.zip_map', List.foldl_map, f64Sum]

theorem lt_iff_orderKey_lt {x y : F64} :
    F64.lt x y = true ↔ F64.isNaN x = false ∧ F64.isNaN y = false ∧ F64.orderKey x < F64.orderKey y := by
  simp [F64.lt, and_assoc]

theorem lt_eq_false_iff_of_number {x y : F64} (hx : F64.isNaN x = false) (hy : F64.isNaN y = false) :
    F64.lt x y = false ↔ F64.orderKey y ≤ F64.orderKey x := by
  simp [F64.lt, hx, hy]

/-- `best` is the earliest of the smallest numbers among `d 0, …, d (count − 1)`. -/
structure EarliestMinimum (d : Nat → F64) (count best : Nat) : Prop where
  below : best < count
  number : F64.isNaN (d best) = false
  least : ∀ s, s < count → F64.lt (d s) (d best) = false
  earliest : ∀ s, s < best → F64.isNaN (d s) = false → F64.lt (d best) (d s) = true

theorem earliestMinimum_one {d : Nat → F64} (h : F64.isNaN (d 0) = false) : EarliestMinimum d 1 0 where
  below := one_pos
  number := h
  least s hs := by simp [Nat.lt_one_iff.mp hs, F64.lt]
  earliest s hs := absurd hs s.not_lt_zero

/-- One more candidate, taken only when it is strictly smaller. -/
theorem EarliestMinimum.succ {d : Nat → F64} {count best : Nat} (h : EarliestMinimum d count best) :
    EarliestMinimum d (count + 1) (if F64.lt (d count) (d best) then count else best) := by
  obtain ⟨hbelow, hnumber, hleast, hearliest⟩ := h
  split
  case isTrue hlt =>
    obtain ⟨hnew, -, hkey⟩ := lt_iff_orderKey_lt.mp hlt
    refine ⟨count.lt_succ_self, hnew, fun s hs => Bool.eq_false_iff.mpr fun hslt => ?_, fun s hs hsnum => ?_⟩
    · obtain ⟨hsnum, -, hskey⟩ := lt_iff_orderKey_lt.mp hslt
      rcases Nat.lt_succ_iff_lt_or_eq.mp hs with hs | rfl
      · exact Bool.eq_false_iff.mp (hleast s hs) (lt_iff_orderKey_lt.mpr ⟨hsnum, hnumber, hskey.trans hkey⟩)
      · exact lt_irrefl _ hskey
    · have hbest := (lt_eq_false_iff_of_number hsnum hnumber).mp (hleast s hs)
      exact lt_iff_orderKey_lt.mpr ⟨hnew, hsnum, hkey.trans_le hbest⟩
  case isFalse hge =>
    refine ⟨hbelow.trans count.lt_succ_self, hnumber, fun s hs => ?_, hearliest⟩
    rcases Nat.lt_succ_iff_lt_or_eq.mp hs with hs | rfl
    · exact hleast s hs
    · exact Bool.eq_false_iff.mpr hge

/-- The detector's choice among the distances `d 0, …, d m`. -/
def choiceUpTo (d : Nat → F64) : Nat → Nat
  | 0 => 0
  | m + 1 => if F64.lt (d (m + 1)) (d (choiceUpTo d m)) then m + 1 else choiceUpTo d m

/-- The detector carries its choice along with the distance of it. -/
theorem nearest_eq_choiceUpTo (entry : Nat → List F64) (m : Nat) (window : List F64) :
    nearest entry (m + 1) window = choiceUpTo (fun s => distance window (entry s)) m := by
  have hfold : (List.range m).foldl
      (fun best i =>
        let d := distance window (entry (i + 1))
        if F64.lt d best.2 then (i + 1, d) else best)
      (0, distance window (entry 0)) =
        (choiceUpTo (fun s => distance window (entry s)) m,
          distance window (entry (choiceUpTo (fun s => distance window (entry s)) m))) := by
    induction m with
    | zero => rfl
    | succ m ih =>
      rw [List.range_succ, List.foldl_append, ih, List.foldl_cons, List.foldl_nil, choiceUpTo]
      dsimp only
      split <;> rfl
  exact congrArg Prod.fst hfold

theorem choiceUpTo_le (d : Nat → F64) (m : Nat) : choiceUpTo d m ≤ m := by
  induction m with
  | zero => rfl
  | succ m ih =>
    rw [choiceUpTo]
    split <;> omega

theorem choiceUpTo_congr {d d' : Nat → F64} {m : Nat} (h : ∀ s, s ≤ m → d s = d' s) :
    choiceUpTo d m = choiceUpTo d' m := by
  induction m with
  | zero => rfl
  | succ m ih =>
    have hprev := ih fun s hs => h s (by omega)
    rw [choiceUpTo, choiceUpTo, hprev, h _ le_rfl, h _ (by have := choiceUpTo_le d' m; omega)]

theorem choiceUpTo_earliestMinimum {d : Nat → F64} (h : F64.isNaN (d 0) = false) (m : Nat) :
    EarliestMinimum d (m + 1) (choiceUpTo d m) := by
  induction m with
  | zero => exact earliestMinimum_one h
  | succ m ih => exact ih.succ

/-- No distance is smaller than a NaN. -/
theorem choiceUpTo_of_isNaN {d : Nat → F64} (h : F64.isNaN (d 0) = true) (m : Nat) : choiceUpTo d m = 0 := by
  induction m with
  | zero => rfl
  | succ m ih => simp [choiceUpTo, ih, F64.lt, h]

theorem nearest_lt {entry : Nat → List F64} {count : Nat} {window : List F64} (hcount : 0 < count) :
    nearest entry count window < count := by
  obtain ⟨m, rfl⟩ := Nat.exists_eq_add_one.mpr hcount
  rw [nearest_eq_choiceUpTo]
  exact Nat.lt_succ_of_le (choiceUpTo_le _ m)

/-- The detector looks at the entries below the count only. -/
theorem nearest_congr {entry entry' : Nat → List F64} {count : Nat} {window : List F64} (hcount : 0 < count)
    (h : ∀ s, s < count → entry s = entry' s) : nearest entry count window = nearest entry' count window := by
  obtain ⟨m, rfl⟩ := Nat.exists_eq_add_one.mpr hcount
  rw [nearest_eq_choiceUpTo, nearest_eq_choiceUpTo]
  exact choiceUpTo_congr fun s hs => by rw [h s (Nat.lt_succ_of_le hs)]

theorem nearest_earliestMinimum {entry : Nat → List F64} {count : Nat} {window : List F64} (hcount : 0 < count)
    (h : F64.isNaN (distance window (entry 0)) = false) :
    EarliestMinimum (fun s => distance window (entry s)) count (nearest entry count window) := by
  obtain ⟨m, rfl⟩ := Nat.exists_eq_add_one.mpr hcount
  rw [nearest_eq_choiceUpTo]
  exact choiceUpTo_earliestMinimum h m

/-- Settles O44: the scan keeps the earliest minimum of what it has seen, unless it starts at a NaN. -/
theorem nearestIsEarliestMinimum : Obligations.NearestIsEarliestMinimum := by
  refine ⟨distance_map_range, fun entry count window hcount => ⟨nearest_lt hcount, fun hnan => ?_, fun hnumber => ?_⟩⟩
  · obtain ⟨m, rfl⟩ := Nat.exists_eq_add_one.mpr hcount
    rw [nearest_eq_choiceUpTo]
    exact choiceUpTo_of_isNaN hnan m
  · obtain ⟨-, hnum, hleast, hearliest⟩ := nearest_earliestMinimum hcount hnumber
    exact ⟨hnum, hleast, hearliest⟩

/-! ### TX on a legal configuration (R170) -/

theorem whenNeeded_of_imp {b : Bool} {check : Except Stop Unit} (h : b = true → check = .ok ()) :
    whenNeeded b check = .ok () := by
  cases b
  · rfl
  · exact h rfl

theorem needRate_of_legal {c : Snapshot} (h : c.rateLegal = true) : needRate c = .ok () := by
  rw [needRate, if_pos h]

theorem needStageCap_of_fits {sch : Scheme} {n w : Nat} (h : StageFits sch n w) : needStageCap sch n w = .ok () := by
  cases sch with
  | line code => exact needCap_of_le h
  | carrier m => exact needCap_of_le h

/-- What `cfgW` passes is a legal configuration (00_scope.md R17, 60_exceptions.md R203). -/
theorem configured_of_cfg {c : Snapshot} {sch : Scheme} {w : Nat} (hscheme : cfgScheme c = .ok sch)
    (hwidth : cfgW c sch = .ok w) : c.Configured sch w := by
  have hcode := schemeOfCode_of_cfgScheme hscheme
  refine ⟨hcode, (effectiveWidth_of_cfgW hcode hwidth).symm, ?_⟩
  unfold cfgW at hwidth
  split at hwidth
  · cases hwidth
    decide
  · cases hwidth
    decide
  · split_ifs at hwidth with hbps
    cases hwidth
    simpa [Nat.one_le_iff_ne_zero] using hbps

theorem rateLegal_of_carrier {c : Snapshot} {sch : Scheme}
    (h : ∀ m, sch = .carrier m → F64.isFinite c.sampleRate = true ∧ F64.lt F64.zero c.sampleRate = true) :
    (!schemeIsLine sch) = true → c.rateLegal = true := by
  cases sch with
  | line code => nofun
  | carrier m =>
    obtain ⟨hfinite, hpositive⟩ := h m rfl
    simp [Snapshot.rateLegal, hfinite, hpositive]

theorem blockLegal_of_line {c : Snapshot} {sch : Scheme}
    (h : ∀ code, sch = .line code → c.ideal = false → c.pulseBlock ≠ 0) :
    (schemeIsLine sch && !c.ideal) = true → c.pulseBlock ≠ 0 := by
  cases sch with
  | line code => simpa [schemeIsLine] using h code rfl
  | carrier m => nofun

theorem stageFits_of_capacities {sch : Scheme} {n w : Nat}
    (hlevel : ∀ code, sch = .line code → n * levelsPerSymbol sch w ≤ Config.levelDepth)
    (hparam : ∀ m, sch = .carrier m → n ≤ Config.paramDepth) : StageFits sch n w := by
  cases sch with
  | line code => exact hlevel code rfl
  | carrier m => exact hparam m rfl

theorem transmitPlan_of_legal {c : Snapshot} {sch : Scheme} {w n : Nat} (hp : TransmitLegal c sch w n) :
    transmitPlan c = .ok (sch, w, n) := by
  have hblock := whenNeeded_of_imp fun h => needBlock_of_ne (hp.block h)
  have hrate := whenNeeded_of_imp fun h => needRate_of_legal (hp.rate h)
  simp only [transmitPlan, hp.scheme, hp.width, needSps_of_ne hp.sps, hblock, hrate, ← hp.count,
    needCap_of_le hp.symCap, needStageCap_of_fits hp.stageCap, needCap_of_le hp.sampleCap, except_ok_bind]
  rfl

theorem exec_tx_of_legal {s : State} {sch : Scheme} {w n : Nat} {ws : List Word} (hp : TransmitLegal s.snap sch w n)
    (hread : readEntries .bit s.mem (n * w) 0 = .ok ws) :
    exec .tx s = .next (complete (transmitted s sch w n ws)) := by
  simp only [exec, execTx, transmitPlan_of_legal hp, inputBits, inputWords, hread, Except.map, except_ok_bind]
  rfl

/-! ### The stages of TX as formulas of the index -/

/-- The waveform before noise, sample by sample (R171, R172). -/
theorem transmitWave_map_range {c : Snapshot} {sch : Scheme} {w n : Nat} (hp : TransmitLegal c sch w n)
    (sym : Nat → Nat) :
    transmitWave c sch w ((List.range n).map sym) =
      (List.range (n * levelsPerSymbol sch w * c.sps.toNat)).map (messageSample c sch w n sym) := by
  have hw : 1 ≤ w := (configured_of_cfg hp.scheme hp.width).range.1
  cases sch with
  | line code =>
    unfold messageSample
    rw [transmitWave, lineLevels_map_range code hw]
    cases hideal : c.ideal with
    | true => exact levelWave_map_range hp.sps _ _
    | false => exact pulseWave_map_range hp.sps (hp.block (by simp [schemeIsLine, hideal])) _ _
  | carrier m =>
    rw [transmitWave, List.map_map, levelsPerSymbol, Nat.mul_one]
    exact carrierWave_map_range hp.sps n (fun k => symbolTriple m w (sym k))

/-- The buffer between symbols and samples: its memory, how many words it takes, and its words (R170). -/
def stageBuffer : Scheme → MemId
  | .line _ => .level
  | .carrier _ => .param

def stageCount (sch : Scheme) (w n : Nat) : Nat :=
  match sch with
  | .line code => n * levelsPerSymbol (.line code) w
  | .carrier _ => 3 * n

def stageWord (sch : Scheme) (w : Nat) (sym : Nat → Nat) (j : Nat) : Word :=
  match sch with
  | .line code => BitVec.ofInt 64 (messageLevel code w sym j)
  | .carrier m => (symbolTriple m w (sym (j / 3))).word (j % 3)

theorem stageCount_le_words {sch : Scheme} {n w : Nat} (h : StageFits sch n w) :
    stageCount sch w n ≤ (stageBuffer sch).words := by
  cases sch with
  | line code => exact h
  | carrier m => exact Nat.mul_le_mul_left 3 h

theorem storeStage_mem_map_range (sch : Scheme) {w : Nat} (hw : 1 ≤ w) (n : Nat) (sym : Nat → Nat) (s : State) :
    (storeStage sch w ((List.range n).map sym) s).mem =
      writeEntries (stageBuffer sch) 0 ((List.range (stageCount sch w n)).map (stageWord sch w sym)) s.mem := by
  cases sch with
  | line code =>
    rw [storeStage, storeLineCode_mem, lineLevels_map_range code hw, List.map_map]
    rfl
  | carrier m =>
    rw [storeStage, storeParams_mem, List.map_map]
    simp only [stageCount, Nat.mul_comm 3 n]
    exact congrArg (writeEntries .param 0 · s.mem) (flatMap_words_map_range n fun k => symbolTriple m w (sym k))

/-- No stage moves the noise port. -/
theorem storeStage_noisePort (sch : Scheme) (w : Nat) (syms : List Nat) (s : State) :
    (storeStage sch w syms s).noiseQueue = s.noiseQueue ∧ (storeStage sch w syms s).noiseTaken = s.noiseTaken := by
  cases sch with
  | line code => exact ⟨storeLineCode_noiseQueue .., storeLineCode_noiseTaken ..⟩
  | carrier m => exact ⟨rfl, rfl⟩

theorem drawAt_congr {s t : State} (hqueue : t.noiseQueue = s.noiseQueue) (htaken : t.noiseTaken = s.noiseTaken) :
    drawAt t = drawAt s := by
  funext i
  rw [drawAt, drawAt, hqueue, htaken]

/-- As many bytes stored over others leave nothing of these. -/
theorem writeBytes_overwrite (m : Memory) (a : Nat) {bs bs' : List Byte} (h : bs.length = bs'.length) :
    (m.writeBytes a bs).writeBytes a bs' = m.writeBytes a bs' := by
  have hbelow : (cellsFrom a bs).filter (fun c => c.1 < a) = [] :=
    List.filter_eq_nil_iff.mpr fun c hc => by simpa using (mem_cellsFrom hc).1
  have habove : (cellsFrom a bs).filter (fun c => a + bs'.length ≤ c.1) = [] :=
    List.filter_eq_nil_iff.mpr fun c hc => by simpa [h] using (mem_cellsFrom hc).2
  have hapart : ∀ x, (decide (x < a) && decide (a + bs'.length ≤ x)) = false ∧
      (decide (a + bs'.length ≤ x) && decide (x < a)) = false := fun x => by simp; omega
  unfold Memory.writeBytes
  simp [List.filter_append, List.filter_filter, hbelow, habove, hapart, h]

theorem writeEntries_overwrite (id : MemId) (i : Nat) {ws ws' : List Word} (h : ws.length = ws'.length) (m : Memory) :
    writeEntries id i ws' (writeEntries id i ws m) = writeEntries id i ws' m := by
  rw [writeEntries_eq, writeEntries_eq, writeEntries_eq, writeBytes_overwrite m _ (by rw [wordBytes_length,
    wordBytes_length, h])]

/-- Sample `x` as TX leaves it: with its draw outside ideal mode (44_pulse_noise.md R162, R163). -/
def sentSample (s : State) (sch : Scheme) (w n : Nat) (sym : Nat → Nat) (x : Nat) : F64 :=
  if s.snap.ideal then messageSample s.snap sch w n sym x
  else F64.add (messageSample s.snap sch w n sym x) (F64.mul s.snap.noiseSigma (drawAt s x))

/-- The states after the first two stages of TX, by its symbols. -/
abbrev groupedState (s : State) (n : Nat) (sym : Nat → Nat) : State := storeSyms ((List.range n).map sym) s

abbrev mappedState (s : State) (sch : Scheme) (w n : Nat) (sym : Nat → Nat) : State :=
  storeStage sch w ((List.range n).map sym) (groupedState s n sym)

/-- The state TX leaves before its completion, by its symbols. -/
def sentState (s : State) (sch : Scheme) (w n : Nat) (sym : Nat → Nat) : State :=
  let N := n * levelsPerSymbol sch w * s.snap.sps.toNat
  { storeSamples ((List.range N).map (sentSample s sch w n sym)) (mappedState s sch w n sym) with
    noiseQueue := if s.snap.ideal then s.noiseQueue else s.noiseQueue.drop N
    noiseTaken := if s.snap.ideal then s.noiseTaken else s.noiseTaken + N }

/-- NOISE on samples just stored is the noisy samples stored. -/
theorem noiseUnlessIdeal_storeSamples (c : Snapshot) (n : Nat) (f : Nat → F64) (s : State) :
    noiseUnlessIdeal c ((List.range n).map f) (storeSamples ((List.range n).map f) s) =
      { storeSamples ((List.range n).map
          (fun x => if c.ideal then f x else F64.add (f x) (F64.mul c.noiseSigma (drawAt s x)))) s with
        noiseQueue := if c.ideal then s.noiseQueue else s.noiseQueue.drop n
        noiseTaken := if c.ideal then s.noiseTaken else s.noiseTaken + n } := by
  cases hideal : c.ideal with
  | true => simp [noiseUnlessIdeal, hideal, storeSamples, State.store]
  | false =>
    have hdraws : drawAt (storeSamples ((List.range n).map f) s) = drawAt s := drawAt_congr rfl rfl
    rw [noiseUnlessIdeal, hideal, if_neg Bool.false_ne_true, applyNoise_map_range, hdraws]
    simp [takeDraws, storeSamples, State.store, writeEntries_overwrite]

/-- The waveform of TX before noise, by its symbols. -/
def messageWave (c : Snapshot) (sch : Scheme) (w n : Nat) (sym : Nat → Nat) : List F64 :=
  (List.range (n * levelsPerSymbol sch w * c.sps.toNat)).map (messageSample c sch w n sym)

/-- The last two stages of TX, on the state after the first two. -/
theorem transmitted_eq_stages {s : State} {sch : Scheme} {w n : Nat} {ws : List Word} {bit : Nat → Bool}
    (hp : TransmitLegal s.snap sch w n) (hbits : ws.map (fun x => x.getLsbD 0) = (List.range (n * w)).map bit) :
    transmitted s sch w n ws =
      noiseUnlessIdeal s.snap (messageWave s.snap sch w n (groupedSymbol w bit))
        (storeSamples (messageWave s.snap sch w n (groupedSymbol w bit))
          (mappedState s sch w n (groupedSymbol w bit))) := by
  simp only [transmitted, hbits, groupBits_map_range, transmitWave_map_range hp]
  rfl

theorem transmitted_eq_sentState {s : State} {sch : Scheme} {w n : Nat} {ws : List Word} {bit : Nat → Bool}
    (hp : TransmitLegal s.snap sch w n) (hbits : ws.map (fun x => x.getLsbD 0) = (List.range (n * w)).map bit) :
    transmitted s sch w n ws = sentState s sch w n (groupedSymbol w bit) := by
  obtain ⟨hqueue, htaken⟩ := storeStage_noisePort sch w ((List.range n).map (groupedSymbol w bit))
    (groupedState s n (groupedSymbol w bit))
  rw [transmitted_eq_stages hp hbits, messageWave, noiseUnlessIdeal_storeSamples, drawAt_congr hqueue htaken, hqueue,
    htaken]
  rfl

/-! ### Tabulated stores, one after the other -/

section
variable {s t u : State} {id id' : MemId} {n n' : Nat} {f g : Nat → Word}

theorem kept_of_range_store {out : List (MemId × Nat)} (h : Kept s t out)
    (hu : u.mem = writeEntries id 0 ((List.range n).map f) t.mem) (hm : (id, n) ∈ out) : Kept s u out :=
  kept_of_store h hu (by simp) hm

theorem entries_of_other_range_store (h : s.Entries id n f)
    (hu : u.mem = writeEntries id' 0 ((List.range n').map g) s.mem) (hne : id' ≠ id) (hn : n ≤ id.words)
    (hn' : n' ≤ id'.words) : u.Entries id n f :=
  entries_of_other_store h hne hn (by simpa using hn') hu

end

/-! ### The outputs of TX -/

section
variable {s t : State} {sch : Scheme} {w n : Nat} {sym : Nat → Nat}

/-- Three buffers are stored one after the other, in three memories. -/
theorem sentState_buffers (hp : TransmitLegal s.snap sch w n) (ht : t.mem = (sentState s sch w n sym).mem) :
    t.Entries .sym n (fun k => BitVec.ofNat 64 (sym k)) ∧
      t.Entries (stageBuffer sch) (stageCount sch w n) (stageWord sch w sym) ∧
      t.Entries .sample (n * levelsPerSymbol sch w * s.snap.sps.toNat) (sentSample s sch w n sym) ∧
      Kept s t [(.sym, n), (stageBuffer sch, stageCount sch w n),
        (.sample, n * levelsPerSymbol sch w * s.snap.sps.toNat)] := by
  have hw : 1 ≤ w := (configured_of_cfg hp.scheme hp.width).range.1
  have hfit := stageCount_le_words hp.stageCap
  have hsym : stageBuffer sch ≠ .sym := by cases sch <;> nofun
  have hsample : .sample ≠ stageBuffer sch := by cases sch <;> nofun
  have hmem1 : (groupedState s n sym).mem =
      writeEntries .sym 0 ((List.range n).map (fun k => BitVec.ofNat 64 (sym k))) s.mem := by
    rw [storeSyms_mem, List.map_map]
    rfl
  have hmem2 := storeStage_mem_map_range sch hw n sym (groupedState s n sym)
  have hmem3 : t.mem = writeEntries .sample 0
      ((List.range (n * levelsPerSymbol sch w * s.snap.sps.toNat)).map (sentSample s sch w n sym))
      (mappedState s sch w n sym).mem := ht
  obtain ⟨hentries1, -⟩ := entries_and_kept_of_store hmem1
  obtain ⟨hentries2, -⟩ := entries_and_kept_of_store hmem2
  obtain ⟨hentries3, -⟩ := entries_and_kept_of_store hmem3
  refine ⟨?_, entries_of_other_range_store hentries2 hmem3 hsample hfit hp.sampleCap, hentries3, ?_⟩
  · exact entries_of_other_range_store (entries_of_other_range_store hentries1 hmem2 hsym hp.symCap hfit) hmem3 nofun
      hp.symCap hp.sampleCap
  · have hkept : Kept s s [(.sym, n), (stageBuffer sch, stageCount sch w n),
        (.sample, n * levelsPerSymbol sch w * s.snap.sps.toNat)] := fun _ _ => rfl
    exact kept_of_range_store (kept_of_range_store (kept_of_range_store hkept hmem1 (by simp)) hmem2 (by simp)) hmem3
      (by simp)

/-- The registers of TX with a line code. -/
theorem sentState_frame_line (code : LineCode) (ht : t = complete (sentState s (.line code) w n sym)) :
    t = { s with
          mem := t.mem, nSym := BitVec.ofNat 64 n
          nLevel := BitVec.ofNat 64 (n * levelsPerSymbol (.line code) w)
          nSample := BitVec.ofNat 64 (n * levelsPerSymbol (.line code) w * s.snap.sps.toNat)
          amiSign := if code = .ami then messageSign w n sym s.amiSign else s.amiSign
          noiseQueue := if s.snap.ideal then s.noiseQueue
            else s.noiseQueue.drop (n * levelsPerSymbol (.line code) w * s.snap.sps.toNat)
          noiseTaken := if s.snap.ideal then s.noiseTaken
            else s.noiseTaken + n * levelsPerSymbol (.line code) w * s.snap.sps.toNat
          busy := false, done := true } := by
  have hlevels : (lineLevels code w ((List.range n).map sym)).length = n * levelsPerSymbol (.line code) w := by
    rw [length_lineLevels, List.length_map, List.length_range]
  rw [ht, ← amiSignAfter_map_range, ← hlevels]
  cases code <;>
    simp [complete, sentState, storeSamples, State.store, storeStage, storeLineCode, storeLevels, storeSyms, countWord,
      length_lineLevels]

/-- The registers of TX with a carrier. -/
theorem sentState_frame_carrier (m : Modulation) (ht : t = complete (sentState s (.carrier m) w n sym)) :
    t = { s with
          mem := t.mem, nSym := BitVec.ofNat 64 n, nParam := BitVec.ofNat 64 n
          nSample := BitVec.ofNat 64 (n * levelsPerSymbol (.carrier m) w * s.snap.sps.toNat)
          noiseQueue := if s.snap.ideal then s.noiseQueue
            else s.noiseQueue.drop (n * levelsPerSymbol (.carrier m) w * s.snap.sps.toNat)
          noiseTaken := if s.snap.ideal then s.noiseTaken
            else s.noiseTaken + n * levelsPerSymbol (.carrier m) w * s.snap.sps.toNat
          busy := false, done := true } := by
  rw [ht]
  simp [complete, sentState, storeSamples, State.store, storeStage, storeParams, storeSyms, countWord]

end

theorem exec_tx_of_bits {s : State} {sch : Scheme} {w n : Nat} {bit : Nat → Bool} (hp : TransmitLegal s.snap sch w n)
    (hbits : s.Bits (n * w) bit) :
    exec .tx s = .next (complete (sentState s sch w n (groupedSymbol w bit))) := by
  have hread : ((List.range (n * w)).map (fun j => wordOfBit (bit j))).map (fun x => x.getLsbD 0) =
      (List.range (n * w)).map bit := by
    rw [List.map_map]
    exact List.map_congr_left fun j _ => by cases h : bit j <;> simp [wordOfBit, h]
  rw [exec_tx_of_legal hp (readEntries_of_entries hbits), transmitted_eq_sentState hp hread]

/-- Settles O39: the bits are grouped, and the symbols give the middle buffer and the samples. -/
theorem transmitCompletes : Obligations.TransmitCompletes := by
  intro s sch w n L N bit hcfg hsps hblock hrate hn hL hN hsymCap hlevelCap hparamCap hsampleCap hbits sym
  subst hL hN
  obtain ⟨hscheme, hwidth⟩ := cfg_of_configured hcfg
  have hp : TransmitLegal s.snap sch w n :=
    ⟨hscheme, hwidth, hsps, blockLegal_of_line hblock, rateLegal_of_carrier hrate, hn, hsymCap,
      stageFits_of_capacities hlevelCap hparamCap, hsampleCap⟩
  have hexec := exec_tx_of_bits hp hbits
  obtain ⟨hsyms, hstage, hsamples, hkept⟩ := sentState_buffers (sym := sym) hp (complete_mem _)
  refine ⟨_, hexec, hsyms, hsamples, ?_, ?_⟩
  · rintro code rfl
    exact ⟨sentState_frame_line code rfl, hstage, hkept⟩
  · rintro m rfl
    exact ⟨sentState_frame_carrier m rfl, hstage, hkept⟩

/-! ### The commands of TX's stages, one by one (R170-R172) -/

theorem countWord_toNat_of_le {n : Nat} (h : n ≤ Config.sampleDepth) : (countWord n).toNat = n := by
  rw [countWord, BitVec.toNat_ofNat, Nat.mod_eq_of_lt (h.trans_lt (by decide))]

theorem slotLevel_cases (code : LineCode) (w s p : Nat) :
    slotLevel code w s p = -1 ∨ slotLevel code w s p = 0 ∨ slotLevel code w s p = 1 := by
  have hbit := componentBit_eq_zero_or_one w s (p / 2)
  cases code with
  | nrz =>
    rw [slotLevel]
    split <;> simp
  | man =>
    rw [slotLevel]
    split <;> omega
  | ami =>
    rw [slotLevel]
    split
    · rcases neg_one_pow_eq_or Int (onesBefore w s (p / 2)) with hsign | hsign <;> rw [hsign] <;> omega
    · simp

theorem messageLevel_range (code : LineCode) (w : Nat) (sym : Nat → Nat) (j : Nat) :
    -2 ^ 63 ≤ messageLevel code w sym j ∧ messageLevel code w sym j < 2 ^ 63 := by
  have hslot := slotLevel_cases code w (sym (j / levelsPerSymbol (.line code) w)) (j % levelsPerSymbol (.line code) w)
  rw [messageLevel]
  omega

theorem exec_bits2sym_of_read {s : State} {sch : Scheme} {w n : Nat} {ws : List Word}
    (hp : TransmitLegal s.snap sch w n) (hread : readEntries .bit s.mem (n * w) 0 = .ok ws) :
    exec .bits2sym s = .next (complete (storeSyms (groupBits w n (ws.map (fun x => x.getLsbD 0))) s)) := by
  simp only [exec, execBits2Sym, hp.scheme, hp.width, ← hp.count, needCap_of_le hp.symCap, inputBits, inputWords, hread,
    Except.map, except_ok_bind]
  rfl

theorem exec_mapper_line (code : LineCode) (s : State) : exec (mapperOf (.line code)) s = encodeLine code s := by
  cases code <;> rfl

theorem exec_mapper_carrier (m : Modulation) (s : State) : exec (mapperOf (.carrier m)) s = mapParams m s := by
  cases m <;> rfl

section
variable {s : State} {sch : Scheme} {w n : Nat} {sym : Nat → Nat}

/-- The mapper of the scheme stores TX's middle buffer. -/
theorem exec_mapper_of_symbols (hp : TransmitLegal s.snap sch w n) (hn : n = s.snap.nSym.toNat)
    (hsyms : s.Symbols n w sym) :
    exec (mapperOf sch) s = .next (complete (storeStage sch w ((List.range n).map sym) s)) := by
  have hrange := (configured_of_cfg hp.scheme hp.width).range
  cases sch with
  | line code =>
    have hbps := cfgW_eq_bps hp.width nofun nofun
    rw [exec_mapper_line, encodeLine_of_symbols code hbps.symm hrange.1 hrange.2 hn hp.stageCap hsyms, storeStage]
  | carrier m =>
    rw [exec_mapper_carrier, mapParams_of_symbols hp.width hrange.2 hn hp.stageCap hsyms, storeStage, List.map_map]
    rfl

/-- The count register of TX's middle buffer. -/
def stageTally (sch : Scheme) (c : Snapshot) : Word :=
  match sch with
  | .line _ => c.nLevel
  | .carrier _ => c.nParam

/-- The synthesizer of the scheme reads the middle buffer and stores TX's waveform before noise. -/
theorem exec_synthesizer_of_stage (hp : TransmitLegal s.snap sch w n)
    (hcount : (stageTally sch s.snap).toNat = n * levelsPerSymbol sch w)
    (hstage : s.Entries (stageBuffer sch) (stageCount sch w n) (stageWord sch w sym)) :
    exec (synthesizerOf s.snap.ideal sch) s = .next (complete (storeSamples
      ((List.range (n * levelsPerSymbol sch w * s.snap.sps.toNat)).map (messageSample s.snap sch w n sym)) s)) := by
  unfold messageSample
  cases sch with
  | line code =>
    have hrange := fun j (_ : j < n * levelsPerSymbol (.line code) w) => messageLevel_range code w sym j
    cases hideal : s.snap.ideal with
    | true => exact exec_synLevel_of_entries hp.sps hcount.symm hp.sampleCap hrange hstage
    | false =>
      have hblock := hp.block (by simp [schemeIsLine, hideal])
      exact exec_synPulse_of_entries hp.sps hblock hcount.symm hp.sampleCap hrange hstage
  | carrier m =>
    have hcap := hp.sampleCap
    simp only [levelsPerSymbol, Nat.mul_one] at hcount hcap ⊢
    exact exec_synCarrier_of_entries (p := fun k => symbolTriple m w (sym k)) hp.sps (hp.rate rfl) hcount.symm hcap
      hstage

theorem exec_noise_of_read {ws : List Word} (hread : readEntries .sample s.mem s.snap.nSample.toNat 0 = .ok ws) :
    exec .noise s = .next (complete (applyNoise s.snap ws s)) := by
  simp only [exec, execNoise, inputSamples, inputWords, hread, except_ok_bind]
  rfl

end

/-! ### Commands in sequence, each on the registers as the one before left them -/

theorem runCommands_of_exec {i : Instr} {s t : State} (is : List Instr) (h : exec i (nextCommand s) = .next t) :
    runCommands (i :: is) s = runCommands is t := by
  rw [runCommands, h]

/-- Acceptance hides how the command before ended, and takes its snapshot anew. -/
theorem runCommands_of_nextCommand {i : Instr} {s t : State} (is : List Instr) (h : nextCommand t = nextCommand s) :
    runCommands (i :: is) t = runCommands (i :: is) s := by
  rw [runCommands, runCommands, h]

theorem nextCommand_storeSyms (syms : List Nat) (s : State) :
    nextCommand (complete (storeSyms syms (nextCommand s))) = nextCommand (storeSyms syms s) := rfl

theorem nextCommand_storeStage (sch : Scheme) (w : Nat) (syms : List Nat) (s : State) :
    nextCommand (complete (storeStage sch w syms (nextCommand s))) = nextCommand (storeStage sch w syms s) := by
  cases sch with
  | line code => cases code <;> rfl
  | carrier m => rfl

theorem nextCommand_storeSamples (samples : List F64) (s : State) :
    nextCommand (complete (storeSamples samples (nextCommand s))) = nextCommand (storeSamples samples s) := rfl

/-- A configuration with the counts of a state. -/
def recount (c : Snapshot) (s : State) : Snapshot :=
  { c with nSym := s.nSym, nLevel := s.nLevel, nParam := s.nParam, nSample := s.nSample }

theorem transmitLegal_recount {c : Snapshot} {sch : Scheme} {w n : Nat} (h : TransmitLegal c sch w n) (s : State) :
    TransmitLegal (recount c s) sch w n := { h with }

theorem messageSample_recount (c : Snapshot) (s : State) (sch : Scheme) (w n : Nat) (sym : Nat → Nat) :
    messageSample (recount c s) sch w n sym = messageSample c sch w n sym := by
  cases sch <;> rfl

/-- The configuration registers, N_BITS and the engine's copies are the same: TX's stages write none of them. -/
structure SameConfiguration (s t : State) : Prop where
  snap : t.snap = s.snap
  ctrl : t.ctrl = s.ctrl
  sps : t.sps = s.sps
  peakV : t.peakV = s.peakV
  carrierF : t.carrierF = s.carrierF
  sampleRate : t.sampleRate = s.sampleRate
  noiseSigma : t.noiseSigma = s.noiseSigma
  nBits : t.nBits = s.nBits

section
variable {s t : State}

theorem sameConfiguration_storeSyms (syms : List Nat) (s : State) : SameConfiguration s (storeSyms syms s) := by
  constructor <;> rfl

theorem SameConfiguration.storeStage (h : SameConfiguration s t) (sch : Scheme) (w : Nat) (syms : List Nat) :
    SameConfiguration s (storeStage sch w syms t) := by
  cases sch with
  | line code => cases code <;> exact { h with }
  | carrier m => exact { h with }

theorem SameConfiguration.storeSamples (h : SameConfiguration s t) (samples : List F64) :
    SameConfiguration s (storeSamples samples t) := { h with }

/-- The next stage finds TX's snapshot but for the counts. -/
theorem SameConfiguration.snap_nextCommand (h : SameConfiguration s t) (hsnap : s.snap = takeSnapshot s.snap.word s) :
    (nextCommand t).snap = recount s.snap t := by
  obtain ⟨hword, hctrl, hsps, hpeakV, hcarrierF, hrate, hsigma, hbits⟩ := h
  rw [hsnap, nextCommand, recount]
  simp only [takeSnapshot, hword, hctrl, hsps, hpeakV, hcarrierF, hrate, hsigma, hbits]

end

/-- The middle buffer's count after its stage. -/
theorem stageTally_storeStage {sch : Scheme} {w : Nat} {syms : List Nat} (hcap : StageFits sch syms.length w)
    (c : Snapshot) (s : State) :
    (stageTally sch (recount c (storeStage sch w syms s))).toNat = syms.length * levelsPerSymbol sch w := by
  cases sch with
  | line code =>
    have hcap : syms.length * levelsPerSymbol (.line code) w ≤ Config.levelDepth := hcap
    have htally : stageTally (.line code) (recount c (storeStage (.line code) w syms s)) =
        countWord (syms.length * levelsPerSymbol (.line code) w) := by
      rw [← length_lineLevels]
      exact storeLineCode_nLevel code w syms s
    rw [htally, countWord_toNat_of_le (hcap.trans (by decide))]
  | carrier m =>
    have hcap : syms.length ≤ Config.paramDepth := hcap
    have htally : stageTally (.carrier m) (recount c (storeStage (.carrier m) w syms s)) = countWord syms.length := by
      rw [← List.length_map (symbolTriple m w)]
      rfl
    rw [htally, countWord_toNat_of_le (hcap.trans (by decide)), levelsPerSymbol, Nat.mul_one]

/-! ### TX is its stages in sequence (R170) -/

section
variable {s : State} {sch : Scheme} {w n : Nat} {sym : Nat → Nat} {ws : List Word}
  (hsnap : s.snap = takeSnapshot s.snap.word s)
include hsnap

/-- BITS2SYM goes first and leaves its symbols to the mapper. -/
theorem runCommands_bits2sym (hp : TransmitLegal s.snap sch w n)
    (hread : readEntries .bit s.mem (n * w) 0 = .ok ws) (i : Instr) (is : List Instr) :
    runCommands (.bits2sym :: i :: is) s =
      runCommands (i :: is) (storeSyms (groupBits w n (ws.map fun x => x.getLsbD 0)) s) := by
  have hlegal : TransmitLegal (nextCommand s).snap sch w n := by
    rwa [show (nextCommand s).snap = s.snap from hsnap.symm]
  have hexec := exec_bits2sym_of_read (s := nextCommand s) hlegal hread
  rw [runCommands_of_exec _ hexec, runCommands_of_nextCommand _ (nextCommand_storeSyms _ s)]

theorem snap_nextCommand_groupedState (n : Nat) (sym : Nat → Nat) :
    (nextCommand (groupedState s n sym)).snap = recount s.snap (groupedState s n sym) :=
  (sameConfiguration_storeSyms _ s).snap_nextCommand hsnap

/-- The mapper reads the symbols and leaves the middle buffer to the synthesizer. -/
theorem runCommands_mapper (hp : TransmitLegal s.snap sch w n) (hsym : ∀ k, k < n → sym k < 2 ^ w) (i : Instr)
    (is : List Instr) :
    runCommands (mapperOf sch :: i :: is) (groupedState s n sym) =
      runCommands (i :: is) (mappedState s sch w n sym) := by
  have hlegal : TransmitLegal (nextCommand (groupedState s n sym)).snap sch w n :=
    snap_nextCommand_groupedState hsnap n sym ▸ transmitLegal_recount hp _
  have hcount : (nextCommand (groupedState s n sym)).snap.nSym = countWord n := by simp [nextCommand, takeSnapshot]
  have hsyms : (nextCommand (groupedState s n sym)).Symbols n w sym :=
    ⟨entries_of_store (s := s) (storeSyms_mem _ s) (by simp) fun i hi => by simp [hi], hsym⟩
  have hexec := exec_mapper_of_symbols hlegal
    (by rw [hcount, countWord_toNat_of_le (hp.symCap.trans (by decide))]) hsyms
  rw [runCommands_of_exec _ hexec, runCommands_of_nextCommand _ (nextCommand_storeStage ..)]

theorem snap_nextCommand_mappedState (sch : Scheme) (w n : Nat) (sym : Nat → Nat) :
    (nextCommand (mappedState s sch w n sym)).snap = recount s.snap (mappedState s sch w n sym) :=
  ((sameConfiguration_storeSyms _ s).storeStage sch w _).snap_nextCommand hsnap

/-- The synthesizer reads the middle buffer and stores the waveform. -/
theorem exec_synthesizer (hp : TransmitLegal s.snap sch w n) (sym : Nat → Nat) :
    exec (synthesizerOf s.snap.ideal sch) (nextCommand (mappedState s sch w n sym)) =
      .next (complete (storeSamples (messageWave s.snap sch w n sym) (nextCommand (mappedState s sch w n sym)))) := by
  have hw : 1 ≤ w := (configured_of_cfg hp.scheme hp.width).range.1
  have hsnap2 := snap_nextCommand_mappedState hsnap sch w n sym
  have hlegal : TransmitLegal (nextCommand (mappedState s sch w n sym)).snap sch w n :=
    hsnap2 ▸ transmitLegal_recount hp _
  have htally := stageTally_storeStage (syms := (List.range n).map sym) (by simpa using hp.stageCap) s.snap
    (groupedState s n sym)
  rw [List.length_map, List.length_range, ← hsnap2] at htally
  obtain ⟨hstage, -⟩ := entries_and_kept_of_store (storeStage_mem_map_range sch hw n sym (groupedState s n sym))
  have hexec := exec_synthesizer_of_stage (sym := sym) hlegal htally hstage
  rwa [hsnap2, messageSample_recount] at hexec

/-- NOISE reads the waveform. -/
theorem exec_noise_of_wave {wave : List F64} (hwave : wave.length ≤ Config.sampleDepth) (sch : Scheme) (w n : Nat)
    (sym : Nat → Nat) {t : State} (ht : t = storeSamples wave (mappedState s sch w n sym)) :
    exec .noise (nextCommand t) = .next (complete (applyNoise (recount s.snap t) wave (nextCommand t))) := by
  have hsnap3 : (nextCommand t).snap = recount s.snap t :=
    (ht ▸ ((sameConfiguration_storeSyms _ s).storeStage sch w _).storeSamples wave :).snap_nextCommand hsnap
  have hcount : (nextCommand t).snap.nSample.toNat = wave.length := by
    rw [show (nextCommand t).snap.nSample = countWord wave.length by rw [ht]; rfl, countWord_toNat_of_le hwave]
  have hholds : (nextCommand t).Holds .sample wave := fun i hi => by
    have hword := readWord_writeEntries_of_inside .sample 0 wave (mappedState s sch w n sym).mem i hi
    rw [Nat.zero_add] at hword
    rw [ht]
    exact hword
  rw [← hsnap3]
  exact exec_noise_of_read (hcount ▸ readEntries_of_holds hholds)

end

/-- How the last stage ended, and what it found in the count registers, are not TX's. -/
theorem complete_storeSamples_nextCommand (wave : List F64) (s : State) :
    { complete (storeSamples wave (nextCommand s)) with snap := s.snap } = complete (storeSamples wave s) := rfl

theorem complete_applyNoise_nextCommand (wave : List F64) (s : State) :
    { complete (applyNoise (recount s.snap s) wave (nextCommand s)) with snap := s.snap } =
      complete (applyNoise s.snap wave s) := rfl

theorem exists_eq_map_range (l : List Bool) : ∃ f, l = (List.range l.length).map f :=
  ⟨fun j => l[j]?.getD false, List.ext_getElem (by simp) fun i hi _ => by simp [hi]⟩

/-- The stages on TX's bits, and what they leave. -/
theorem runCommands_transmitStages {s : State} {sch : Scheme} {w n : Nat} {ws : List Word}
    (hsnap : s.snap = takeSnapshot s.snap.word s) (hp : TransmitLegal s.snap sch w n)
    (hread : readEntries .bit s.mem (n * w) 0 = .ok ws) :
    ∃ u, runCommands (transmitStages sch s.snap.ideal) s = .next u ∧
      complete (transmitted s sch w n ws) = { u with snap := s.snap } := by
  obtain ⟨bit, hbits⟩ := exists_eq_map_range (ws.map fun x => x.getLsbD 0)
  rw [List.length_map, length_of_readEntries hread] at hbits
  rw [transmitted_eq_stages hp hbits]
  have hsym : ∀ k, k < n → groupedSymbol w bit k < 2 ^ w := fun _ _ => weightedSum_lt w _
  generalize hgroups : groupedSymbol w bit = sym at hsym ⊢
  have hmapped : (mappedState s sch w n sym).snap = s.snap :=
    ((sameConfiguration_storeSyms _ s).storeStage sch w _).snap
  have hrun : ∀ is, runCommands (.bits2sym :: mapperOf sch :: synthesizerOf s.snap.ideal sch :: is) s =
      runCommands is
        (complete (storeSamples (messageWave s.snap sch w n sym) (nextCommand (mappedState s sch w n sym)))) := by
    intro is
    rw [runCommands_bits2sym hsnap hp hread, hbits, groupBits_map_range, hgroups, runCommands_mapper hsnap hp hsym,
      runCommands_of_exec _ (exec_synthesizer hsnap hp sym)]
  cases hideal : s.snap.ideal with
  | true =>
    rw [hideal] at hrun
    refine ⟨_, hrun [], ?_⟩
    rw [noiseUnlessIdeal, hideal, if_pos rfl, ← complete_storeSamples_nextCommand, hmapped]
  | false =>
    rw [hideal] at hrun
    have hwave : (messageWave s.snap sch w n sym).length ≤ Config.sampleDepth := by
      simpa [messageWave] using hp.sampleCap
    have hnoise := exec_noise_of_wave hsnap hwave sch w n sym rfl
    refine ⟨_, (hrun [.noise]).trans ((runCommands_of_nextCommand _ (nextCommand_storeSamples ..)).trans
      (runCommands_of_exec [] hnoise)), ?_⟩
    rw [noiseUnlessIdeal, hideal, if_neg Bool.false_ne_true, ← hmapped]
    exact (complete_applyNoise_nextCommand ..).symm

/-- Settles O40: each stage reads back what the one before stored. -/
theorem transmitRunsItsStages : Obligations.TransmitRunsItsStages := by
  intro s t sch hsnap hcode herr hexec hok
  have hends := exec_ends .tx s
  rw [hexec] at hends
  rcases hends with ⟨code, -, rfl⟩ | ⟨_, ⟨sch', w, n, ws, hp, hread, rfl⟩, rfl⟩
  · cases hok
  · obtain rfl : sch = sch' := Option.some.inj (hcode.symm.trans (schemeOfCode_of_cfgScheme hp.scheme))
    exact runCommands_transmitStages hsnap hp hread

/-! ### The dictionary of a configuration (R173, R174) -/

theorem dictPlanLegal_of_configured {c : Snapshot} {sch : Scheme} {w : Nat} (hcfg : c.Configured sch w)
    (hsps : c.sps ≠ 0)
    (hrate : ∀ m, sch = .carrier m → F64.isFinite c.sampleRate = true ∧ F64.lt F64.zero c.sampleRate = true)
    (hcap : 2 ^ w * windowLength c sch w ≤ Config.dictDepth) : DictPlanLegal c sch w :=
  ⟨(cfg_of_configured hcfg).1, (cfg_of_configured hcfg).2, hsps, rateLegal_of_carrier hrate, hcap⟩

theorem windowLength_pos {c : Snapshot} {sch : Scheme} {w : Nat} (hp : DictPlanLegal c sch w) :
    0 < windowLength c sch w :=
  Nat.mul_pos (levelsPerSymbol_pos sch (configured_of_cfg hp.scheme hp.width).range.1) (sps_toNat_pos hp.sps)

theorem dictEntry_eq_canonical {c : Snapshot} (hsps : c.sps ≠ 0) (sch : Scheme) (w s : Nat) :
    dictEntry c sch w s = (List.range (windowLength c sch w)).map (canonicalSample c sch w s) := by
  cases sch with
  | line code =>
    rw [dictEntry, symbolLevels_eq_slots, levelWave_map_range hsps]
    rfl
  | carrier m =>
    rw [windowLength, levelsPerSymbol, Nat.one_mul]
    rfl

/-- Sample `y` of the dictionary: the entries stand in a row. -/
def dictSample (c : Snapshot) (sch : Scheme) (w y : Nat) : F64 :=
  canonicalSample c sch w (y / windowLength c sch w) (y % windowLength c sch w)

theorem dictionary_map_range {c : Snapshot} {sch : Scheme} {w : Nat} (hp : DictPlanLegal c sch w) :
    dictionary c sch w = (List.range (2 ^ w * windowLength c sch w)).map (dictSample c sch w) := by
  have hblocks := flatMap_block_range (windowLength_pos hp) (2 ^ w) id (canonicalSample c sch w)
  rw [List.map_id] at hblocks
  rw [dictionary, funext (dictEntry_eq_canonical hp.sps sch w), hblocks]
  rfl

theorem dictPlan_of_legal {c : Snapshot} {sch : Scheme} {w : Nat} (hp : DictPlanLegal c sch w) :
    dictPlan c = .ok (sch, w) := by
  have hrate := whenNeeded_of_imp fun h => needRate_of_legal (hp.rate h)
  simp only [dictPlan, hp.scheme, hp.width, needSps_of_ne hp.sps, hrate, needCap_of_le hp.cap, except_ok_bind]
  rfl

/-- `t` is `s` with the dictionary of a configuration in it. -/
structure HoldsDictionary (c : Snapshot) (sch : Scheme) (w : Nat) (s t : State) : Prop where
  frame : t = { s with
    mem := t.mem, dictN := BitVec.ofNat 64 (2 ^ w), dictLen := BitVec.ofNat 64 (windowLength c sch w), dictValid := true
    dictKey := ⟨sch, w, c.sps, c.peakV, c.carrierF, c.sampleRate⟩ }
  entries : t.Entries .dict (2 ^ w * windowLength c sch w) (dictSample c sch w)
  kept : Kept s t [(.dict, 2 ^ w * windowLength c sch w)]

section
variable {c : Snapshot} {sch : Scheme} {w : Nat} {s : State}

theorem buildDict_holdsDictionary (hp : DictPlanLegal c sch w) (s : State) :
    HoldsDictionary c sch w s (buildDict c sch w s) := by
  obtain ⟨hentries, hkept⟩ := entries_and_kept_of_store (s := s) (t := buildDict c sch w s) (id := .dict)
    (by rw [← dictionary_map_range hp]; rfl)
  exact ⟨rfl, hentries, hkept⟩

/-- A current dictionary is the one a build would store (R176, 20_memory.md R79). -/
theorem holdsDictionary_of_current (hp : DictPlanLegal c sch w) (hdict : s.DictionaryLegal)
    (hcurrent : dictCurrent c sch w s = true) : HoldsDictionary c sch w s s := by
  obtain ⟨hvalid, hkey⟩ : s.dictValid = true ∧ s.dictKey = configKey c sch w := by simpa [dictCurrent] using hcurrent
  have hcount := hdict.count hvalid
  have hlength := hdict.length hvalid
  have hsamples := hdict.samples hvalid
  rw [hkey] at hcount hlength hsamples
  rw [samples_configKey, dictionary_map_range hp] at hsamples
  refine ⟨?_, fun y hy => ?_, fun _ _ => rfl⟩
  · rw [← hvalid, show (⟨sch, w, c.sps, c.peakV, c.carrierF, c.sampleRate⟩ : DictKey) = s.dictKey from hkey.symm,
      show BitVec.ofNat 64 (2 ^ w) = s.dictN from hcount.symm,
      show BitVec.ofNat 64 (windowLength c sch w) = s.dictLen from hlength.symm]
  · refine (hsamples y (by simpa using hy)).trans ?_
    simp

theorem ensureDict_holdsDictionary (hp : DictPlanLegal c sch w) (hdict : s.DictionaryLegal) :
    HoldsDictionary c sch w s (ensureDict c sch w s) := by
  rcases ensureDict_eq s c sch w with ⟨hcurrent, heq⟩ | ⟨-, heq⟩ <;> rw [heq]
  · exact holdsDictionary_of_current hp hdict hcurrent
  · exact buildDict_holdsDictionary hp s

end

theorem exec_dictbuild_of_legal {s : State} {sch : Scheme} {w : Nat} (hp : DictPlanLegal s.snap sch w) :
    exec .dictbuild s = .next (complete (buildDict s.snap sch w s)) := by
  simp only [exec, execDictbuild, dictPlan_of_legal hp, except_ok_bind]
  rfl

/-- Settles O41: the entries, tabulated in a row, are all that is stored. -/
theorem dictionaryBuildCompletes : Obligations.DictionaryBuildCompletes := by
  intro s sch w len hcfg hsps hrate hlen hcap
  subst hlen
  have hp := dictPlanLegal_of_configured hcfg hsps hrate hcap
  obtain ⟨-, hentries, hkept⟩ := buildDict_holdsDictionary hp s
  exact ⟨_, exec_dictbuild_of_legal hp, rfl, hentries, hkept⟩

/-! ### Only builds write DICT_MEM (R175) -/

theorem not_early_of_hostGoesFirst {s : State} (h : hostGoesFirst s = false) :
    ∀ e es, s.host = e :: es → e.early = false := by
  intro e es hhost
  simpa [hostGoesFirst, hhost] using h

/-- Of the commands, DICTBUILD has DICT_MEM in its row, and DETECT and RX when they rebuild it (20_memory.md R74). -/
theorem dict_mem_writtenMemories {i : Instr} {s : State} (h : .dict ∈ writtenMemories i s) :
    i = .dictbuild ∨ ((i = .detect ∨ i = .rx) ∧ dictionaryStale s = true) := by
  cases i
  case dictbuild => exact .inl rfl
  case detect =>
    refine .inr ⟨.inl rfl, ?_⟩
    by_contra hstale
    simp [writtenMemories, hstale] at h
  case rx =>
    refine .inr ⟨.inr rfl, ?_⟩
    by_contra hstale
    simp [writtenMemories, hstale] at h
  case tx =>
    by_cases hcode : s.snap.schemeCode ≤ 2 <;> simp [writtenMemories, hcode] at h
  all_goals simp [writtenMemories] at h

/-- While BUSY = 1 the snapshot's counts are the registers'. -/
theorem countsLegal_of_legal {s : State} (h : s.Legal) (hbusy : s.busy = true) : s.snap.CountsLegal := by
  rw [h.engine.snapshot hbusy]
  exact ⟨h.registers.nBits, h.registers.nSym, h.registers.nLevel, h.registers.nParam, h.registers.nSample⟩

theorem engineStep_dict {s t : State} {a : Nat} (h : s.Legal) (hbusy : s.busy = true) (ht : engineStep s = .next t)
    (hlo : MemId.dict.addr 0 ≤ a) (hhi : a < MemId.dict.addr MemId.dict.words)
    (hchange : t.mem.readByte a ≠ s.mem.readByte a) :
    ∃ i, decode s.snap.word = .ok i ∧ exec i s = .next t ∧
      (i = .dictbuild ∨ ((i = .detect ∨ i = .rx) ∧ dictionaryStale s = true)) := by
  unfold engineStep at ht
  split at ht
  · next i hdecode =>
    obtain ⟨-, hmemory, -⟩ := commandsWriteOnlyTheirWriteSet i s t (countsLegal_of_legal h hbusy) ht
    refine ⟨i, hdecode, ht, dict_mem_writtenMemories ?_⟩
    by_contra hrow
    exact hchange (hmemory .dict hrow a hlo hhi)
  · cases ht
    exact absurd rfl hchange

/-- A host write reaches only the memories the host may write, and DICT_MEM is none of them (20_memory.md R66). -/
theorem writeMemory_dict {id : MemId} {i a : Nat} (hi : i < id.words) (v : Word) (s : State)
    (hlo : MemId.dict.addr 0 ≤ a) (hhi : a < MemId.dict.addr MemId.dict.words) :
    (writeMemory id i v s).mem.readByte a = s.mem.readByte a := by
  cases hwritable : id.hostWritable with
  | false => rw [writeMemory_of_readOnly hwritable]
  | true =>
    have hne : id ≠ .dict := by
      rintro rfl
      cases hwritable
    have hwindows := windows_apart hne
    rw [writeMemory_of_writable hwritable]
    refine readByte_writeEntries_of_outside id i _ s.mem a ?_
    simp only [MemId.addr, List.length_singleton] at *
    omega

theorem writeRegister_mem (r : RegId) (v : Word) (s : State) : (writeRegister r v s).mem = s.mem := by
  cases r
  case status => simp only [writeRegister, writeStatus_eq]
  case cmd =>
    simp only [writeRegister, acceptCommand]
    split <;> rfl
  all_goals rfl

theorem writeTarget_dict {target : Target} {a : Nat} (hvalid : ∀ id i, target = .entry id i → i < id.words) (v : Word)
    (s : State) (hlo : MemId.dict.addr 0 ≤ a) (hhi : a < MemId.dict.addr MemId.dict.words) :
    (writeTarget target v s).mem.readByte a = s.mem.readByte a := by
  match target with
  | .register (some r) =>
    by_cases hr : r = .status
    · subst hr
      exact congrArg (·.readByte a) (writeRegister_mem .status v s)
    · rw [writeTarget_register hr]
      split_ifs
      · rfl
      · rw [writeRegister_mem]
  | .register none =>
    rw [writeTarget]
    split_ifs <;> rfl
  | .entry id i =>
    rw [writeTarget]
    split_ifs
    · rfl
    · exact writeMemory_dict (hvalid id i rfl) v s hlo hhi
  | .invalid => rfl

theorem busAccess_dict {e : BusAccess} {s t : State} {a : Nat} (ht : busAccess e s = .next t)
    (hlo : MemId.dict.addr 0 ≤ a) (hhi : a < MemId.dict.addr MemId.dict.words)
    (hchange : t.mem.readByte a ≠ s.mem.readByte a) : e = .hwReset := by
  cases e with
  | hwReset => rfl
  | read size addr =>
    obtain ⟨r, n, rfl⟩ := hostRead_next ht
    exact absurd rfl hchange
  | write size addr v =>
    cases ht
    obtain ⟨r, hwrite⟩ := hostWrite_eq_respond size addr v s
    rw [hwrite] at hchange
    exact absurd (writeTarget_dict (fun id i => lt_words_of_busTarget) v s hlo hhi) hchange

/-- Settles O14: the engine changes its write set only, and of the host's accesses only a reset reaches DICT_MEM. -/
theorem dictionaryWrittenOnlyByBuilds : Obligations.DictionaryWrittenOnlyByBuilds := by
  intro s t a hlegal ht hlo hhi hchange
  unfold step at ht
  split at ht
  · next hengine =>
    obtain ⟨hbusy, hfirst⟩ : s.busy = true ∧ hostGoesFirst s = false := by simpa using hengine
    exact .inl ⟨hbusy, not_early_of_hostGoesFirst hfirst, engineStep_dict hlegal hbusy ht hlo hhi hchange⟩
  · next hhost =>
    right
    unfold hostStep at ht
    split at ht
    · cases ht
      exact absurd rfl hchange
    · next e es heq =>
      have hturn : s.busy = false ∨ e.early = true := by
        cases hbusy : s.busy with
        | false => exact .inl rfl
        | true => simpa [hbusy, hostGoesFirst, heq] using hhost
      exact ⟨e, es, heq, hturn, busAccess_dict ht hlo hhi hchange⟩

/-! ### The detected symbols (R177, R178) -/

/-- Words of a memory that is none of the outputs are kept. -/
theorem readWord_of_kept {s t : State} {out : List (MemId × Nat)} {id : MemId} {k : Nat} (h : Kept s t out)
    (hout : ∀ p ∈ out, p.1 ≠ id ∧ p.2 ≤ p.1.words) (hk : k < id.words) :
    t.mem.readWord (id.addr k) = s.mem.readWord (id.addr k) :=
  readWord_congr fun x hlo hhi => h x fun p hp => by
    obtain ⟨hne, hfit⟩ := hout p hp
    have hwindows := windows_apart hne
    simp only [MemId.addr] at *
    omega

theorem entries_of_kept {s t : State} {out : List (MemId × Nat)} {id : MemId} {n : Nat} {f : Nat → Word}
    (hkept : Kept s t out) (h : s.Entries id n f) (hout : ∀ p ∈ out, p.1 ≠ id ∧ p.2 ≤ p.1.words) (hn : n ≤ id.words) :
    t.Entries id n f := fun k hk => (readWord_of_kept hkept hout (hk.trans_le hn)).trans (h k hk)

/-- Item `j` of block `k`, by its place in the row. -/
theorem block_div_mod {len j : Nat} (hj : j < len) (k : Nat) : (k * len + j) / len = k ∧ (k * len + j) % len = j := by
  refine ⟨?_, by rw [Nat.mul_add_mod', Nat.mod_eq_of_lt hj]⟩
  rw [Nat.mul_comm, Nat.mul_add_div (by omega), Nat.div_eq_of_lt hj, Nat.add_zero]

/-- Block `s` of the dictionary is the canonical waveform of symbol `s`. -/
theorem chunk_dictSample {c : Snapshot} {sch : Scheme} {w s : Nat} (hs : s < 2 ^ w) :
    chunk (windowLength c sch w) s ((List.range (2 ^ w * windowLength c sch w)).map (dictSample c sch w)) =
      (List.range (windowLength c sch w)).map (canonicalSample c sch w s) := by
  rw [chunk_map_range _ hs]
  refine List.map_congr_left fun j hj => ?_
  obtain ⟨hdiv, hmod⟩ := block_div_mod (List.mem_range.mp hj) s
  rw [dictSample, hdiv, hmod]

theorem detectSymbols_map_range (c : Snapshot) (sch : Scheme) (w nW : Nat) (x : Nat → F64) :
    detectSymbols (windowLength c sch w) (2 ^ w) nW ((List.range (nW * windowLength c sch w)).map x)
        ((List.range (2 ^ w * windowLength c sch w)).map (dictSample c sch w)) =
      (List.range nW).map (detectedSymbol c sch w x) :=
  List.map_congr_left fun k hk => by
    rw [chunk_map_range x (List.mem_range.mp hk), detectedSymbol]
    exact nearest_congr (Nat.two_pow_pos w) fun s hs => chunk_dictSample hs

theorem detectedSymbol_lt (c : Snapshot) (sch : Scheme) (w : Nat) (x : Nat → F64) (k : Nat) :
    detectedSymbol c sch w x k < 2 ^ w := nearest_lt (Nat.two_pow_pos w)

theorem detectPlan_of_legal {c : Snapshot} {sch : Scheme} {w nW : Nat} (hp : DictPlanLegal c sch w)
    (hn : nW = c.nSample.toNat / windowLength c sch w) (hcap : nW ≤ Config.symDepth) :
    detectPlan c = .ok (sch, w, nW) := by
  have hwindows : c.nSample.toNat / entryLength c sch w = nW := hn.symm
  simp only [detectPlan, dictPlan_of_legal hp, hwindows, needCap_of_le hcap, except_ok_bind]
  rfl

/-! ### DETECT and RX on a legal configuration (R177-R180) -/

/-- The state after `ensureDict()`, with the detected symbols stored. -/
def detectedState (s : State) (sch : Scheme) (w nW : Nat) (x : Nat → F64) : State :=
  storeSyms ((List.range nW).map (detectedSymbol s.snap sch w x)) (ensureDict s.snap sch w s)

section
variable {s t : State} {sch : Scheme} {w nW : Nat} {x : Nat → F64}

theorem windows_le_sampleDepth (hsample : s.snap.nSample.toNat ≤ Config.sampleDepth)
    (hn : nW = s.snap.nSample.toNat / windowLength s.snap sch w) :
    nW * windowLength s.snap sch w ≤ Config.sampleDepth :=
  hn ▸ (Nat.div_mul_le_self _ _).trans hsample

/-- Whole windows are read, and the dictionary when there is one to compare. -/
theorem detectBody_of_entries (hp : DictPlanLegal s.snap sch w) (hdict : s.DictionaryLegal)
    (hfit : nW * windowLength s.snap sch w ≤ Config.sampleDepth)
    (hx : s.Entries .sample (nW * windowLength s.snap sch w) x) :
    detectBody s.snap sch w nW s =
      .ok (ensureDict s.snap sch w s, (List.range nW).map (detectedSymbol s.snap sch w x)) := by
  obtain ⟨-, hentries, hkept⟩ := ensureDict_holdsDictionary hp hdict
  have hsamples : inputSamples (nW * entryLength s.snap sch w) (ensureDict s.snap sch w s) =
      .ok ((List.range (nW * windowLength s.snap sch w)).map x) :=
    inputSamples_of_entries (entries_of_kept hkept hx (fun p hp' => List.mem_singleton.mp hp' ▸ ⟨nofun, hp.cap⟩) hfit)
  rcases Nat.eq_zero_or_pos nW with rfl | hpos
  · simp only [detectBody, hsamples, detectorEntries, if_true, except_ok_bind]
    rfl
  · have hread : detectorEntries s.snap sch w nW (ensureDict s.snap sch w s) =
        .ok ((List.range (2 ^ w * windowLength s.snap sch w)).map (dictSample s.snap sch w)) := by
      rw [detectorEntries, if_neg hpos.ne', inputDict, inputWords, entryLength]
      rw [windowLength] at hentries
      rw [readEntries_of_entries hentries]
      rfl
    have hdetected := detectSymbols_map_range s.snap sch w nW x
    simp only [detectBody, hsamples, hread, except_ok_bind]
    rw [← hdetected]
    rfl

theorem exec_detect_of_entries (hp : DictPlanLegal s.snap sch w) (hdict : s.DictionaryLegal)
    (hn : nW = s.snap.nSample.toNat / windowLength s.snap sch w) (hcap : nW ≤ Config.symDepth)
    (hfit : nW * windowLength s.snap sch w ≤ Config.sampleDepth)
    (hx : s.Entries .sample (nW * windowLength s.snap sch w) x) :
    exec .detect s = .next (complete (detectedState s sch w nW x)) := by
  simp only [exec, execDetect, detectPlan_of_legal hp hn hcap, detectBody_of_entries hp hdict hfit hx, except_ok_bind]
  rfl

theorem exec_rx_of_entries (hp : DictPlanLegal s.snap sch w) (hdict : s.DictionaryLegal)
    (hn : nW = s.snap.nSample.toNat / windowLength s.snap sch w) (hcap : nW ≤ Config.symDepth)
    (hbits : nW * w ≤ Config.bitDepth) (hfit : nW * windowLength s.snap sch w ≤ Config.sampleDepth)
    (hx : s.Entries .sample (nW * windowLength s.snap sch w) x) :
    exec .rx s =
      .next (complete (storeBits (((List.range nW).map (detectedSymbol s.snap sch w x)).flatMap (symbolBits w))
        (detectedState s sch w nW x))) := by
  simp only [exec, execRx, detectPlan_of_legal hp hn hcap, needCap_of_le hbits,
    detectBody_of_entries hp hdict hfit hx, except_ok_bind]
  rfl

/-- What DETECT leaves, and RX before it renders the bits: the symbols and the dictionary. -/
theorem detectedState_outputs (hp : DictPlanLegal s.snap sch w) (hdict : s.DictionaryLegal)
    (hcap : nW ≤ Config.symDepth) (x : Nat → F64) :
    detectedState s sch w nW x =
        { s with
          mem := (detectedState s sch w nW x).mem, nSym := BitVec.ofNat 64 nW, dictN := BitVec.ofNat 64 (2 ^ w)
          dictLen := BitVec.ofNat 64 (windowLength s.snap sch w), dictValid := true
          dictKey := ⟨sch, w, s.snap.sps, s.snap.peakV, s.snap.carrierF, s.snap.sampleRate⟩ } ∧
      (detectedState s sch w nW x).Entries .sym nW (fun k => BitVec.ofNat 64 (detectedSymbol s.snap sch w x k)) ∧
      (detectedState s sch w nW x).Entries .dict (2 ^ w * windowLength s.snap sch w) (dictSample s.snap sch w) ∧
      ∀ out, (.sym, nW) ∈ out → (.dict, 2 ^ w * windowLength s.snap sch w) ∈ out →
        Kept s (detectedState s sch w nW x) out := by
  obtain ⟨hframe, hentries, hkept⟩ := ensureDict_holdsDictionary hp hdict
  have hmem : (detectedState s sch w nW x).mem = writeEntries .sym 0
      ((List.range nW).map (fun k => BitVec.ofNat 64 (detectedSymbol s.snap sch w x k)))
      (ensureDict s.snap sch w s).mem := by
    rw [detectedState, storeSyms_mem, List.map_map]
    rfl
  refine ⟨?_, (entries_and_kept_of_store hmem).1, entries_of_other_range_store hentries hmem nofun hp.cap hcap,
    fun out hsym hdictOut => kept_of_range_store (fun a ha => hkept a fun p hp => ?_) hmem hsym⟩
  · unfold detectedState
    rw [hframe]
    simp [storeSyms, State.store, countWord]
  · rw [List.mem_singleton.mp hp]
    exact ha _ hdictOut

end

/-- Settles O42: the ensured dictionary is the configuration's, and the symbols are stored beside it. -/
theorem detectionCompletes : Obligations.DetectionCompletes := by
  intro s sch w len nW x hdict hcfg hsps hrate hlen hdictCap hsample hn hcap hx
  subst hlen
  have hp := dictPlanLegal_of_configured hcfg hsps hrate hdictCap
  obtain ⟨hframe, hsyms, hentries, hkept⟩ := detectedState_outputs hp hdict hcap x
  refine ⟨_, exec_detect_of_entries hp hdict hn hcap (windows_le_sampleDepth hsample hn) hx, ?_, hsyms,
    fun k _ => detectedSymbol_lt s.snap sch w x k, hentries, hkept _ (by simp) (by simp)⟩
  exact congrArg complete hframe

/-- Settles O43: RX is DETECT, and SYM2BITS on the detected symbols. -/
theorem receiveCompletes : Obligations.ReceiveCompletes := by
  intro s sch w len nW x hdict hcfg hsps hrate hlen hdictCap hsample hn hcap hbitCap hx
  subst hlen
  have hp := dictPlanLegal_of_configured hcfg hsps hrate hdictCap
  obtain ⟨hframe, hsyms, hentries, hkept⟩ := detectedState_outputs hp hdict hcap x
  have hlength : (((List.range nW).map (detectedSymbol s.snap sch w x)).flatMap (symbolBits w)).length = nW * w := by
    rw [length_flatMap_symbolBits, List.length_map, List.length_range]
  generalize hbitsEq : ((List.range nW).map (detectedSymbol s.snap sch w x)).flatMap (symbolBits w) = bits at hlength
  have hmem : (complete (storeBits bits (detectedState s sch w nW x))).mem = writeEntries .bit 0
      ((List.range (nW * w)).map
        (fun j => BitVec.ofNat 64 (componentBit w (detectedSymbol s.snap sch w x (j / w)) (j % w))))
      (detectedState s sch w nW x).mem := by
    rw [complete_mem, storeBits_mem, ← hbitsEq, flatMap_symbolBits_map_range hcfg.range.1]
  have hexec := exec_rx_of_entries hp hdict hn hcap hbitCap (windows_le_sampleDepth hsample hn) hx
  rw [hbitsEq] at hexec
  refine ⟨_, hexec, ?_, entries_of_other_range_store hsyms hmem nofun hcap hbitCap, (entries_and_kept_of_store hmem).1,
    entries_of_other_range_store hentries hmem nofun hp.cap hbitCap,
    kept_of_range_store (hkept _ (by simp) (by simp)) hmem (by simp)⟩
  rw [← hlength]
  exact congrArg (fun u => complete (storeBits bits u)) hframe

/-! ### The ideal round trip (R183) -/

/-- A finite number less itself is +0.0: its units cancel, and the signs differ. -/
theorem sub_self_of_finite {x : F64} (h : F64.isFinite x = true) : F64.sub x x = F64.zero := by
  obtain ⟨hsign, hexp, hfrac⟩ := negate_fields x
  have hscale : F64.scale (F64.negate x) = F64.scale x := by rw [F64.scale, F64.scale, hexp]
  have hsignificand : F64.significand (F64.negate x) = F64.significand x := by
    rw [F64.significand, F64.significand, hexp, hfrac]
  have hunits : F64.unitsAt x (F64.scale x) + F64.unitsAt (F64.negate x) (F64.scale x) = 0 := by
    simp only [F64.unitsAt, hsign, hscale, hsignificand]
    cases F64.sign x <;> simp
  rw [sub_of_finite h h, F64.addFinite]
  simp only [hscale, min_self, hunits, hsign, Bool.and_not_self, if_true]
  rfl

/-- A finite waveform has distance +0.0 to itself. -/
theorem distance_self_of_finite {n : Nat} {x : Nat → F64} (h : ∀ j, j < n → F64.isFinite (x j) = true) :
    distance ((List.range n).map x) ((List.range n).map x) = F64.zero := by
  rw [distance_map_range, f64Sum]
  induction n with
  | zero => rfl
  | succ n ih =>
    rw [List.range_succ, List.foldl_append, ih fun j hj => h j (by omega), List.foldl_cons, List.foldl_nil,
      sub_self_of_finite (h n n.lt_succ_self)]
    decide

/-- The one entry at distance +0.0 is the nearest. -/
theorem nearest_eq_of_distance_zero {entry : Nat → List F64} {count a : Nat} {window : List F64} (ha : a < count)
    (hzero : distance window (entry a) = F64.zero)
    (hpos : ∀ b, b < count → a ≠ b → F64.lt F64.zero (distance window (entry b)) = true) :
    nearest entry count window = a := by
  have hnumber : F64.isNaN (distance window (entry 0)) = false := by
    by_cases h0 : a = 0
    · rw [← h0, hzero]
      decide
    · obtain ⟨-, hnum, -⟩ := lt_iff_orderKey_lt.mp (hpos 0 (by omega) h0)
      exact hnum
  obtain ⟨hbelow, -, hleast, -⟩ := nearest_earliestMinimum (Nat.zero_lt_of_lt ha) hnumber
  by_contra hne
  have hsmaller := hleast a ha
  rw [hzero, hpos _ hbelow (Ne.symm hne)] at hsmaller
  cases hsmaller

/-- In ideal mode TX sends the canonical waveforms of its symbols in a row (42_line_coder.md R129, 43_modulation.md
R143). -/
theorem messageSample_of_ideal {c : Snapshot} (h : c.ideal = true) (sch : Scheme) (w n : Nat) (sym : Nat → Nat)
    (y : Nat) :
    messageSample c sch w n sym y =
      canonicalSample c sch w (sym (y / windowLength c sch w)) (y % windowLength c sch w) := by
  cases sch with
  | line code =>
    simp only [messageSample, h, if_true, canonicalSample, heldSample, messageLevel, windowLength,
      Nat.div_div_eq_div_mul, Nat.mod_mul_left_div_self]
    rw [Nat.mul_comm c.sps.toNat]
  | carrier m => rw [windowLength, levelsPerSymbol, Nat.one_mul, messageSample, canonicalSample]

/-- A window of the ideal waveform is the canonical waveform of its symbol, which is found. -/
theorem detectedSymbol_of_ideal {c : Snapshot} {sch : Scheme} {w n : Nat} {sym : Nat → Nat} {k : Nat}
    (hideal : c.ideal = true) (hsym : sym k < 2 ^ w)
    (hfinite : ∀ a j, a < 2 ^ w → j < windowLength c sch w → F64.isFinite (canonicalSample c sch w a j) = true)
    (hapart : ∀ a b, a < 2 ^ w → b < 2 ^ w → a ≠ b →
      F64.lt F64.zero
        (distance ((List.range (windowLength c sch w)).map (canonicalSample c sch w a))
          ((List.range (windowLength c sch w)).map (canonicalSample c sch w b))) = true) :
    detectedSymbol c sch w (messageSample c sch w n sym) k = sym k := by
  have hwindow : (List.range (windowLength c sch w)).map
      (fun j => messageSample c sch w n sym (k * windowLength c sch w + j)) =
        (List.range (windowLength c sch w)).map (canonicalSample c sch w (sym k)) :=
    List.map_congr_left fun j hj => by
      obtain ⟨hdiv, hmod⟩ := block_div_mod (List.mem_range.mp hj) k
      rw [messageSample_of_ideal hideal, hdiv, hmod]
  rw [detectedSymbol, hwindow]
  exact nearest_eq_of_distance_zero hsym (distance_self_of_finite fun j => hfinite _ j hsym) fun b => hapart _ b hsym

/-! ### RX after TX -/

section
variable {s : State} {sch : Scheme} {w n : Nat} {sym : Nat → Nat}

theorem sameConfiguration_sentState (s : State) (sch : Scheme) (w n : Nat) (sym : Nat → Nat) :
    SameConfiguration s (complete (sentState s sch w n sym)) := by
  obtain ⟨hsnap, hctrl, hsps, hpeakV, hcarrierF, hrate, hsigma, hbits⟩ :=
    (sameConfiguration_storeSyms ((List.range n).map sym) s).storeStage sch w ((List.range n).map sym)
  constructor <;> simp [sentState, *]

theorem sameRecords_storeStage (sch : Scheme) (w : Nat) (syms : List Nat) (s : State) :
    SameRecords s (storeStage sch w syms s) := by
  cases sch with
  | line code => cases code <;> constructor <;> rfl
  | carrier m => constructor <;> rfl

theorem sameRecords_sentState (s : State) (sch : Scheme) (w n : Nat) (sym : Nat → Nat) :
    SameRecords s (complete (sentState s sch w n sym)) := by
  obtain ⟨hvalid, hkey, hcount, hlength, hcommand, hlastOp⟩ :=
    sameRecords_storeStage sch w ((List.range n).map sym) (groupedState s n sym)
  constructor <;> simp [sentState, *]

/-- TX keeps the dictionary and the registers that describe it. -/
theorem sentState_dictionaryLegal (hp : TransmitLegal s.snap sch w n) (h : s.DictionaryLegal) (sym : Nat → Nat) :
    (complete (sentState s sch w n sym)).DictionaryLegal := by
  obtain ⟨-, -, -, hkept⟩ := sentState_buffers (sym := sym) hp (complete_mem _)
  refine dictionaryLegal_of_same h (sameRecords_sentState s sch w n sym) fun k hk => readWord_of_kept hkept ?_ hk
  have hfit := stageCount_le_words hp.stageCap
  have hstage : stageBuffer sch ≠ .dict := by cases sch <;> nofun
  simpa [MemId.words] using ⟨hp.symCap, ⟨hstage, hfit⟩, hp.sampleCap⟩

/-- A configuration accepted again with another word, after a command that wrote counts only. -/
def reaccept (v : Word) (c : Snapshot) (t : State) : Snapshot := { recount c t with word := v }

theorem snap_latchCommand {t : State} (h : SameConfiguration s t) (hsnap : s.snap = takeSnapshot s.snap.word s)
    (v : Word) : (latchCommand v t).snap = reaccept v s.snap t := by
  rw [reaccept, ← h.snap_nextCommand hsnap]
  rfl

theorem canonicalSample_reaccept (v : Word) (c : Snapshot) (t : State) (sch : Scheme) (w : Nat) :
    canonicalSample (reaccept v c t) sch w = canonicalSample c sch w := by
  cases sch <;> rfl

theorem messageSample_reaccept (v : Word) (c : Snapshot) (t : State) (sch : Scheme) (w n : Nat) (sym : Nat → Nat) :
    messageSample (reaccept v c t) sch w n sym = messageSample c sch w n sym := by
  cases sch <;> rfl

theorem sentSample_of_ideal (h : s.snap.ideal = true) :
    sentSample s sch w n sym = messageSample s.snap sch w n sym := by
  funext y
  rw [sentSample, if_pos h]

end

/-- Different entries are at a distance > 0 and consist of finite samples: the condition of R183. -/
structure Distinguishable (c : Snapshot) (sch : Scheme) (w : Nat) : Prop where
  finite : ∀ a j, a < 2 ^ w → j < windowLength c sch w → F64.isFinite (canonicalSample c sch w a j) = true
  apart : ∀ a b, a < 2 ^ w → b < 2 ^ w → a ≠ b →
    F64.lt F64.zero
      (distance ((List.range (windowLength c sch w)).map (canonicalSample c sch w a))
        ((List.range (windowLength c sch w)).map (canonicalSample c sch w b))) = true

theorem distinguishable_reaccept {c : Snapshot} {sch : Scheme} {w : Nat} (h : Distinguishable c sch w) (v : Word)
    (t : State) : Distinguishable (reaccept v c t) sch w := by
  obtain ⟨hfinite, hapart⟩ := h
  constructor <;> rw [canonicalSample_reaccept]
  exacts [hfinite, hapart]

/-- RX on the ideal waveform of a message renders the message's bits. -/
theorem exec_rx_of_ideal {s : State} {sch : Scheme} {w n : Nat} {bit : Nat → Bool} (hdict : s.DictionaryLegal)
    (hcfg : s.snap.Configured sch w) (hsps : s.snap.sps ≠ 0)
    (hrate : ∀ m, sch = .carrier m →
      F64.isFinite s.snap.sampleRate = true ∧ F64.lt F64.zero s.snap.sampleRate = true)
    (hdictCap : 2 ^ w * windowLength s.snap sch w ≤ Config.dictDepth) (hideal : s.snap.ideal = true)
    (hcond : Distinguishable s.snap sch w) (hcount : s.snap.nSample.toNat = n * windowLength s.snap sch w)
    (hfit : n * windowLength s.snap sch w ≤ Config.sampleDepth) (hcap : n ≤ Config.symDepth)
    (hbitCap : n * w ≤ Config.bitDepth)
    (hx : s.Entries .sample (n * windowLength s.snap sch w) (messageSample s.snap sch w n (groupedSymbol w bit))) :
    ∃ u, exec .rx s = .next u ∧ u.nBits = BitVec.ofNat 64 (n * w) ∧ u.Bits (n * w) bit := by
  have hpos := windowLength_pos (dictPlanLegal_of_configured hcfg hsps hrate hdictCap)
  have hwindows : n = s.snap.nSample.toNat / windowLength s.snap sch w := by rw [hcount, Nat.mul_div_cancel n hpos]
  obtain ⟨u, hexec, hu, -, hbits, -⟩ := receiveCompletes s sch w _ n _ hdict hcfg hsps hrate rfl hdictCap
    (hcount ▸ hfit) hwindows hcap hbitCap hx
  refine ⟨u, hexec, congrArg State.nBits hu, fun j hj => ?_⟩
  have hsym := detectedSymbol_of_ideal (n := n) (sym := groupedSymbol w bit) (k := j / w) hideal (weightedSum_lt w _)
    hcond.finite hcond.apart
  simp only [hbits j hj, hsym, componentBit_groupedSymbol hcfg.range.1, wordOfBit_eq_ofNat]

/-- The samples that TX leaves in ideal mode, counted. -/
theorem sentState_samples_of_ideal {s : State} {sch : Scheme} {w n : Nat} (hp : TransmitLegal s.snap sch w n)
    (hideal : s.snap.ideal = true) (sym : Nat → Nat) :
    (complete (sentState s sch w n sym)).nSample.toNat = n * windowLength s.snap sch w ∧
      (complete (sentState s sch w n sym)).Entries .sample (n * windowLength s.snap sch w)
        (messageSample s.snap sch w n sym) := by
  obtain ⟨-, -, hsamples, -⟩ := sentState_buffers (sym := sym) hp (complete_mem _)
  rw [sentSample_of_ideal hideal, Nat.mul_assoc] at hsamples
  have hcap := hp.sampleCap
  rw [Nat.mul_assoc] at hcap
  refine ⟨?_, hsamples⟩
  have hcount : (complete (sentState s sch w n sym)).nSample = countWord (n * windowLength s.snap sch w) := by
    simp [sentState, windowLength, Nat.mul_assoc]
  rw [hcount]
  exact countWord_toNat_of_le hcap

/-- The conditions of R183 are those under which TX starts; a symbol of one bit or more takes no more room than its
bits. -/
theorem transmitLegal_of_ideal {c : Snapshot} {sch : Scheme} {w n : Nat} (hcfg : c.Configured sch w)
    (hideal : c.ideal = true) (hsps : c.sps ≠ 0)
    (hrate : ∀ m, sch = .carrier m → F64.isFinite c.sampleRate = true ∧ F64.lt F64.zero c.sampleRate = true)
    (hn : c.nBits = BitVec.ofNat 64 (n * w)) (hbitCap : n * w ≤ Config.bitDepth)
    (hlevelCap : n * levelsPerSymbol sch w ≤ Config.levelDepth)
    (hsampleCap : n * windowLength c sch w ≤ Config.sampleDepth) : TransmitLegal c sch w n := by
  obtain ⟨hscheme, hwidth⟩ := cfg_of_configured hcfg
  have hcap : n ≤ Config.symDepth := (Nat.le_mul_of_pos_right n hcfg.range.1).trans hbitCap
  have hcount : n = c.nBits.toNat / w := by
    rw [hn, toNat_ofNat_of_le_depth hbitCap, Nat.mul_div_cancel n hcfg.range.1]
  exact ⟨hscheme, hwidth, hsps, blockLegal_of_line (by simp [hideal]), rateLegal_of_carrier hrate, hcount, hcap,
    stageFits_of_capacities (fun _ _ => hlevelCap) fun _ _ => hcap, by rwa [Nat.mul_assoc]⟩

/-- Settles O45: each window of what TX sends is an entry of the dictionary, at distance +0.0 from that entry only. -/
theorem idealRoundTrip : Obligations.IdealRoundTrip := by
  intro s sch w n bit c hdict hcfg hideal hsps hrate hn hbitCap hbits hlevelCap hsampleCap hdictCap hfinite hapart
  have hp : TransmitLegal (latchCommand 0x50#64 s).snap sch w n :=
    transmitLegal_of_ideal hcfg hideal hsps hrate hn hbitCap hlevelCap hsampleCap
  have hsent := exec_tx_of_bits hp hbits
  have hdict' := sentState_dictionaryLegal hp { hdict with } (groupedSymbol w bit)
  have hsame := sameConfiguration_sentState (latchCommand 0x50#64 s) sch w n (groupedSymbol w bit)
  obtain ⟨hcount, hx⟩ := sentState_samples_of_ideal hp hideal (groupedSymbol w bit)
  generalize complete (sentState (latchCommand 0x50#64 s) sch w n (groupedSymbol w bit)) = t at *
  -- RX is accepted with TX's configuration and the counts that TX left
  have hsnap : (latchCommand 0x53#64 t).snap = reaccept 0x53#64 c t := snap_latchCommand hsame rfl _
  obtain ⟨u, hreceived, hnBits, hbits'⟩ := exec_rx_of_ideal (s := latchCommand 0x53#64 t) (sch := sch) (w := w) (n := n)
    (bit := bit) { hdict' with } (hsnap ▸ ⟨hcfg.scheme, hcfg.width, hcfg.range⟩) (hsnap ▸ hsps) (hsnap ▸ hrate)
    (hsnap ▸ hdictCap) (hsnap ▸ hideal) (hsnap ▸ distinguishable_reaccept ⟨hfinite, hapart⟩ _ t) (hsnap ▸ hcount)
    (hsnap ▸ hsampleCap) hp.symCap hbitCap (by rw [hsnap, messageSample_reaccept]; exact hx)
  exact ⟨t, u, hsent, hreceived, hnBits.trans hn.symm, hbits'⟩

end Sys2Proof.Proofs

/-! The statements of 46_system.md: NOP and SRESET complete with the registers of R190 and R191, and binary64 arithmetic
has the special cases of IEEE 754 (R193), operation by operation along the classes of its operands. -/

namespace Sys2Proof.Proofs

open Sys2Proof.Machine

/-! ### System commands (R190, R191) -/

theorem exec_nop (s : State) : exec .nop s = .next (complete s) := rfl

theorem exec_sreset (s : State) : exec .sreset s = .next (complete (softReset s)) := rfl

/-- Settles O16: NOP hands its own state to the completion of a command. -/
theorem nopCompletes : Obligations.NopCompletes := exec_nop

/-- Settles O17: SRESET hands its resets to the completion of a command. -/
theorem sresetCompletes : Obligations.SresetCompletes := exec_sreset

/-! ### The classes of a binary64 -/

theorem magnitude_of_isInf {x : F64} (h : F64.isInf x = true) : F64.magnitude x = F64.infMagnitude := by
  simp only [F64.isInf, F64.expField, F64.fracField, Bool.and_eq_true, beq_iff_eq] at h
  unfold F64.magnitude F64.infMagnitude
  omega

theorem magnitude_lt_of_isFinite {x : F64} (h : F64.isFinite x = true) : F64.magnitude x < F64.infMagnitude := by
  simp only [F64.isFinite, F64.expField, bne_iff_ne, ne_eq] at h
  unfold F64.magnitude F64.infMagnitude
  omega

/-- An infinity is neither a NaN nor a zero. -/
theorem not_nan_not_zero_of_isInf {x : F64} (h : F64.isInf x = true) : F64.isNaN x = false ∧ F64.isZero x = false := by
  have hmag := magnitude_of_isInf h
  simp only [F64.isInf, Bool.and_eq_true, beq_iff_eq] at h
  simp [F64.isNaN, F64.isZero, h.2, hmag, F64.infMagnitude]

theorem isFinite_of_isZero {x : F64} (h : F64.isZero x = true) : F64.isFinite x = true := by
  have hmag := isZero_iff.mp h
  simp only [F64.isFinite, F64.expField, bne_iff_ne, ne_eq]
  omega

/-- The pattern of an infinity is an infinity of the sign it was built with. -/
theorem isInf_and_sign_ofMagnitude (negative : Bool) : F64.isInf (F64.ofMagnitude negative F64.infMagnitude) = true ∧
    F64.sign (F64.ofMagnitude negative F64.infMagnitude) = negative := by
  cases negative <;> decide

/-- The pattern of a zero is a zero of the sign it was built with. -/
theorem isZero_and_sign_ofMagnitude (negative : Bool) : F64.isZero (F64.ofMagnitude negative 0) = true ∧
    F64.sign (F64.ofMagnitude negative 0) = negative := by
  cases negative <;> decide

theorem isInf_negate (x : F64) : F64.isInf (F64.negate x) = F64.isInf x := by
  obtain ⟨-, hexp, hfrac⟩ := negate_fields x
  rw [F64.isInf, F64.isInf, hexp, hfrac]

/-! ### Comparison: the infinities lie at the ends of the order -/

theorem orderKey_of_isInf {x : F64} (h : F64.isInf x = true) :
    F64.orderKey x = if F64.sign x then -(F64.infMagnitude : Int) else F64.infMagnitude := by
  rw [F64.orderKey, magnitude_of_isInf h]

theorem orderKey_bounds_of_isFinite {x : F64} (h : F64.isFinite x = true) :
    -(F64.infMagnitude : Int) < F64.orderKey x ∧ F64.orderKey x < F64.infMagnitude := by
  have hmag := magnitude_lt_of_isFinite h
  unfold F64.orderKey
  split <;> omega

theorem lt_iff_of_isFinite_isInf {x y : F64} (hx : F64.isFinite x = true) (hy : F64.isInf y = true) :
    (F64.lt x y = true ↔ F64.sign y = false) ∧ (F64.lt y x = true ↔ F64.sign y = true) := by
  obtain ⟨hlow, hhigh⟩ := orderKey_bounds_of_isFinite hx
  simp only [lt_iff_orderKey_lt, not_nan_of_finite hx, not_nan_not_zero_of_isInf hy, true_and,
    orderKey_of_isInf hy]
  cases F64.sign y
  · simp [hhigh, hhigh.le]
  · simp [hlow, hlow.le]

theorem lt_iff_of_isInf {x y : F64} (hx : F64.isInf x = true) (hy : F64.isInf y = true) :
    F64.lt x y = true ↔ F64.sign x = true ∧ F64.sign y = false := by
  simp only [lt_iff_orderKey_lt, not_nan_not_zero_of_isInf hx, not_nan_not_zero_of_isInf hy, true_and,
    orderKey_of_isInf hx, orderKey_of_isInf hy]
  cases F64.sign x <;> cases F64.sign y <;> simp [F64.infMagnitude]

/-! ### NaN operands -/

theorem operations_of_isNaN {x y : F64} (h : F64.isNaN x = true ∨ F64.isNaN y = true) :
    F64.lt x y = false ∧ F64.isNaN (F64.add x y) = true ∧ F64.isNaN (F64.sub x y) = true ∧
      F64.isNaN (F64.mul x y) = true ∧ F64.isNaN (F64.div x y) = true := by
  have hnan : (F64.isNaN x || F64.isNaN y) = true := by rwa [Bool.or_eq_true]
  refine ⟨Bool.eq_false_iff.mpr fun hlt => ?_, ?_, ?_, ?_, ?_⟩
  · obtain ⟨hx, hy, -⟩ := lt_iff_orderKey_lt.mp hlt
    simp [hx, hy] at hnan
  · rw [F64.add, if_pos hnan]
    exact nan_isNaN ..
  · rw [F64.sub, if_pos hnan]
    exact nan_isNaN ..
  · simp only [F64.mul, if_pos hnan]
    exact nan_isNaN ..
  · simp only [F64.div, if_pos hnan]
    exact nan_isNaN ..

/-! ### Sums and differences -/

theorem sums_of_isInf_isFinite {x y : F64} (hx : F64.isInf x = true) (hy : F64.isFinite y = true) :
    F64.add x y = x ∧ F64.add y x = x ∧ F64.sub x y = x ∧ F64.sub y x = F64.negate x := by
  simp [F64.add, F64.sub, hx, not_nan_not_zero_of_isInf hx, not_nan_of_finite hy]

theorem sums_of_isInf_same_sign {x y : F64} (hx : F64.isInf x = true) (hy : F64.isInf y = true)
    (hsign : F64.sign x = F64.sign y) : F64.add x y = x ∧ F64.isNaN (F64.sub x y) = true := by
  simp [F64.add, F64.sub, hx, hy, not_nan_not_zero_of_isInf hx, not_nan_not_zero_of_isInf hy, hsign, nan_isNaN]

theorem sums_of_isInf_opposite_sign {x y : F64} (hx : F64.isInf x = true) (hy : F64.isInf y = true)
    (hsign : F64.sign x ≠ F64.sign y) : F64.isNaN (F64.add x y) = true ∧ F64.sub x y = x := by
  simp [F64.add, F64.sub, hx, hy, not_nan_not_zero_of_isInf hx, not_nan_not_zero_of_isInf hy, hsign, nan_isNaN]

/-- An exact zero sum is recognised in the units of the smaller scale. -/
theorem addFinite_of_value_eq_zero {x y : F64} (h : F64.value x + F64.value y = 0) :
    F64.addFinite x y = F64.ofMagnitude (F64.sign x && F64.sign y) 0 := by
  have hx := value_unitsAt (x := x) (min_le_left (F64.scale x) (F64.scale y))
  have hy := value_unitsAt (x := y) (min_le_right (F64.scale x) (F64.scale y))
  rw [hx, hy, ← add_mul, mul_eq_zero_iff_right (by positivity)] at h
  rw [F64.addFinite]
  exact if_pos (by exact_mod_cast h)

theorem ofMagnitude_zero (negative : Bool) :
    F64.ofMagnitude negative 0 = if negative then 0x8000000000000000#64 else 0#64 := by
  cases negative <;> rfl

theorem add_of_value_eq_zero {x y : F64} (hx : F64.isFinite x = true) (hy : F64.isFinite y = true)
    (h : F64.value x + F64.value y = 0) :
    F64.add x y = if F64.sign x = true ∧ F64.sign y = true then 0x8000000000000000#64 else 0#64 := by
  rw [add_of_finite hx hy, addFinite_of_value_eq_zero h, ofMagnitude_zero]
  simp only [Bool.and_eq_true]

theorem sub_of_value_eq {x y : F64} (hx : F64.isFinite x = true) (hy : F64.isFinite y = true)
    (h : F64.value x = F64.value y) :
    F64.sub x y = if F64.sign x = true ∧ F64.sign y = false then 0x8000000000000000#64 else 0#64 := by
  have hzero : F64.value x + F64.value (F64.negate y) = 0 := by rw [value_negate, h, add_neg_cancel]
  rw [sub_of_finite hx hy, addFinite_of_value_eq_zero hzero, ofMagnitude_zero, (negate_fields y).1]
  simp only [Bool.and_eq_true, Bool.not_eq_true']

/-! ### Products and quotients -/

/-- Rounding keeps the sign, also where it gives a zero or an infinity. -/
theorem sign_round (negative : Bool) (m : Nat) (e : Int) : F64.sign (F64.round negative m e) = negative := by
  unfold F64.round
  split
  · exact (isZero_and_sign_ofMagnitude negative).2
  · have hle : F64.roundMagnitude m e ≤ F64.infMagnitude := min_le_right ..
    exact ofMagnitude_sign (hle.trans_lt (by norm_num [F64.infMagnitude]))

theorem sign_mul_of_isFinite {x y : F64} (hx : F64.isFinite x = true) (hy : F64.isFinite y = true) :
    F64.sign (F64.mul x y) = (F64.sign x != F64.sign y) := by
  rw [mul_of_finite hx hy, sign_round]

theorem sign_div_of_isFinite {x y : F64} (hx : F64.isFinite x = true) (hy : F64.isFinite y = true)
    (hz : F64.isZero y = false) : F64.sign (F64.div x y) = (F64.sign x != F64.sign y) := by
  rw [div_of_finite hx hy hz, sign_round]

theorem mul_of_isInf {x y : F64} (hx : F64.isInf x = true) (hnan : F64.isNaN y = false) (hz : F64.isZero y = false) :
    F64.mul x y = F64.ofMagnitude (F64.sign x != F64.sign y) F64.infMagnitude ∧
      F64.mul y x = F64.ofMagnitude (F64.sign x != F64.sign y) F64.infMagnitude := by
  simp [F64.mul, hx, hnan, hz, not_nan_not_zero_of_isInf hx, bne_comm (a := F64.sign y)]

theorem isNaN_mul_of_isInf_isZero {x y : F64} (hx : F64.isInf x = true) (hz : F64.isZero y = true) :
    F64.isNaN (F64.mul x y) = true ∧ F64.isNaN (F64.mul y x) = true := by
  simp [F64.mul, hx, hz, not_nan_not_zero_of_isInf hx, not_nan_of_finite (isFinite_of_isZero hz), nan_isNaN]

theorem div_of_isInf_isFinite {x y : F64} (hx : F64.isInf x = true) (hy : F64.isFinite y = true) :
    F64.div x y = F64.ofMagnitude (F64.sign x != F64.sign y) F64.infMagnitude ∧
      F64.div y x = F64.ofMagnitude (F64.sign x != F64.sign y) 0 := by
  simp [F64.div, hx, not_nan_not_zero_of_isInf hx, not_nan_of_finite hy, bne_comm (a := F64.sign y)]

theorem isNaN_div_of_isInf {x y : F64} (hx : F64.isInf x = true) (hy : F64.isInf y = true) :
    F64.isNaN (F64.div x y) = true := by
  simp [F64.div, hx, hy, not_nan_not_zero_of_isInf hx, not_nan_not_zero_of_isInf hy, nan_isNaN]

theorem div_of_isZero {x y : F64} (hx : F64.isFinite x = true) (hnonzero : F64.isZero x = false)
    (hz : F64.isZero y = true) : F64.div x y = F64.ofMagnitude (F64.sign x != F64.sign y) F64.infMagnitude := by
  simp [F64.div, not_nan_of_finite hx, not_nan_of_finite (isFinite_of_isZero hz), hnonzero, hz]

theorem isNaN_div_of_isZero {x y : F64} (hx : F64.isZero x = true) (hy : F64.isZero y = true) :
    F64.isNaN (F64.div x y) = true := by
  simp [F64.div, not_nan_of_finite (isFinite_of_isZero hx), not_nan_of_finite (isFinite_of_isZero hy), hx, hy,
    nan_isNaN]

/-! ### Square roots -/

theorem isNaN_sqrt_of_isNaN {x : F64} (h : F64.isNaN x = true) : F64.isNaN (F64.sqrt x) = true := by
  rw [F64.sqrt, if_pos h]
  exact nan_isNaN ..

theorem sqrt_of_isZero {x : F64} (h : F64.isZero x = true) : F64.sqrt x = x := by
  simp [F64.sqrt, not_nan_of_finite (isFinite_of_isZero h), h]

theorem sqrt_of_isInf {x : F64} (h : F64.isInf x = true) (hs : F64.sign x = false) : F64.sqrt x = x := by
  simp [F64.sqrt, not_nan_not_zero_of_isInf h, h, hs]

theorem isNaN_sqrt_of_negative {x : F64} (hs : F64.sign x = true) (hnan : F64.isNaN x = false)
    (hz : F64.isZero x = false) : F64.isNaN (F64.sqrt x) = true := by
  simp [F64.sqrt, hnan, hz, hs, nan_isNaN]

/-! ### The special cases together -/

/-- Settles O47: one law per class of operands. Where the statement asks for an infinity or a zero of a sign, the law
gives its pattern. -/
theorem comparisonAndNaNLaws : Obligations.ComparisonAndNaNLaws := by
  intro x y
  refine ⟨lt_iff_value_lt, lt_iff_of_isFinite_isInf, lt_iff_of_isInf, operations_of_isNaN, isNaN_sqrt_of_isNaN,
    ?infiniteSums, fun hx hy => ⟨sums_of_isInf_same_sign hx hy, sums_of_isInf_opposite_sign hx hy⟩,
    ?infiniteProducts, isNaN_mul_of_isInf_isZero, ?infiniteQuotients, isNaN_div_of_isInf, ?divisionByZero,
    isNaN_div_of_isZero, sqrt_of_isInf, sqrt_of_isZero, isNaN_sqrt_of_negative,
    fun hx hy => ⟨add_of_value_eq_zero hx hy, sub_of_value_eq hx hy, sign_mul_of_isFinite hx hy,
      sign_div_of_isFinite hx hy⟩, rfl⟩
  case infiniteSums =>
    intro hx hy
    obtain ⟨hadd, hadd', hsub, hsub'⟩ := sums_of_isInf_isFinite hx hy
    rw [hsub', isInf_negate]
    exact ⟨hadd, hadd', hsub, hx, (negate_fields x).1⟩
  case infiniteProducts =>
    intro hx hnan hz
    obtain ⟨hmul, hmul'⟩ := mul_of_isInf hx hnan hz
    obtain ⟨hinf, hsign⟩ := isInf_and_sign_ofMagnitude (F64.sign x != F64.sign y)
    rw [hmul, hmul']
    exact ⟨hinf, hsign, hinf, hsign⟩
  case infiniteQuotients =>
    intro hx hy
    obtain ⟨hdiv, hdiv'⟩ := div_of_isInf_isFinite hx hy
    obtain ⟨hinf, hsign⟩ := isInf_and_sign_ofMagnitude (F64.sign x != F64.sign y)
    rw [hdiv, hdiv']
    exact ⟨hinf, hsign, isZero_and_sign_ofMagnitude _⟩
  case divisionByZero =>
    intro hx hnonzero hz
    rw [div_of_isZero hx hnonzero hz]
    exact isInf_and_sign_ofMagnitude _

end Sys2Proof.Proofs

/-! The statements of 60_exceptions.md: acceptance (R208), how a command completes (R201, R209), which error it reports
(R203-R207), the interrupt level (R214) and the noise draws (R220). -/

namespace Sys2Proof.Proofs

open Sys2Proof.Machine

/-! ### What no output of a command touches (20_memory.md R74) -/

/-- A view of the state in which the outputs of a command are not seen: buffers, counts, and the hidden state but for
the noise port. -/
structure BlindToOutputs {α : Type} (f : State → α) : Prop where
  store : ∀ id ws s, f (s.store id ws) = f s
  count : ∀ r v s, f (setCount r v s) = f s
  form : ∀ form s, f { s with grayForm := form } = f s
  sign : ∀ sign s, f { s with amiSign := sign } = f s
  dictionary : ∀ key s, f { s with dictKey := key, dictValid := true } = f s

namespace BlindToOutputs

variable {α : Type} {f : State → α} {s u : State}

theorem buffer (hf : BlindToOutputs f) (id : MemId) (ws : List Word) (r : RegId) (v : Word) (s : State) :
    f (setCount r v (s.store id ws)) = f s :=
  (hf.count r v _).trans (hf.store id ws s)

theorem storeSyms (hf : BlindToOutputs f) (syms : List Nat) (s : State) : f (storeSyms syms s) = f s :=
  hf.buffer .sym _ .nSym _ s

theorem storeBits (hf : BlindToOutputs f) (bits : List Bool) (s : State) : f (storeBits bits s) = f s :=
  hf.buffer .bit _ .nBits _ s

theorem storeDecs (hf : BlindToOutputs f) (decs : List F64) (s : State) : f (storeDecs decs s) = f s :=
  hf.buffer .dec _ .nDec _ s

theorem storeParams (hf : BlindToOutputs f) (params : List Triple) (s : State) : f (storeParams params s) = f s :=
  hf.buffer .param _ .nParam _ s

theorem storeSamples (hf : BlindToOutputs f) (samples : List F64) (s : State) : f (storeSamples samples s) = f s :=
  hf.buffer .sample _ .nSample _ s

theorem storeGray (hf : BlindToOutputs f) (form : Bool) (table : List Word) (s : State) :
    f (storeGray form table s) = f s :=
  (hf.form form _).trans (hf.buffer .gray table .grayN (countWord table.length) s)

theorem storeLineCode (hf : BlindToOutputs f) (code : LineCode) (w : Nat) (syms : List Nat) (s : State) :
    f (storeLineCode code w syms s) = f s := by
  have hlevels : f (storeLevels (lineLevels code w syms) s) = f s := hf.buffer .level _ .nLevel _ s
  cases code with
  | nrz => exact hlevels
  | man => exact hlevels
  | ami => exact (hf.sign _ _).trans hlevels

theorem storeStage (hf : BlindToOutputs f) (sch : Scheme) (w : Nat) (syms : List Nat) (s : State) :
    f (storeStage sch w syms s) = f s := by
  cases sch with
  | line code => exact hf.storeLineCode code w syms s
  | carrier m => exact hf.storeParams _ s

theorem applyNoise (hf : BlindToOutputs f) (hdraws : ∀ n s, f (takeDraws n s) = f s) (c : Snapshot) (samples : List F64)
    (s : State) : f (applyNoise c samples s) = f s :=
  (hdraws _ _).trans (hf.store .sample _ s)

/-- The stages of TX, one after the other (45_transceiver.md R170). -/
theorem stages (hf : BlindToOutputs f) {c : Snapshot} (hdraws : c.ideal = false → ∀ n s, f (takeDraws n s) = f s)
    (sch : Scheme) (w : Nat) (syms : List Nat) (wave : List F64) (s : State) :
    f (noiseUnlessIdeal c wave (Machine.storeSamples wave (Machine.storeStage sch w syms (Machine.storeSyms syms s)))) =
      f s := by
  have hwave := (hf.storeSamples wave (Machine.storeStage sch w syms (Machine.storeSyms syms s))).trans
    ((hf.storeStage sch w syms _).trans (hf.storeSyms syms s))
  unfold noiseUnlessIdeal
  split
  · exact hwave
  · next hideal => exact (hf.applyNoise (hdraws (by simpa using hideal)) ..).trans hwave

theorem buildDict (hf : BlindToOutputs f) (c : Snapshot) (sch : Scheme) (w : Nat) (s : State) :
    f (buildDict c sch w s) = f s := by
  have hlength := (hf.count .dictLen (countWord (entryLength c sch w)) _).trans
    (hf.buffer .dict (Machine.dictionary c sch w) .dictN (countWord (2 ^ w)) s)
  exact (hf.dictionary (configKey c sch w) _).trans hlength

theorem ensureDict (hf : BlindToOutputs f) (c : Snapshot) (sch : Scheme) (w : Nat) (s : State) :
    f (ensureDict c sch w s) = f s := by
  rcases ensureDict_eq s c sch w with ⟨-, heq⟩ | ⟨-, heq⟩ <;> rw [heq]
  exact hf.buildDict c sch w s

theorem lineEffect (hf : BlindToOutputs f) {code : LineCode} (he : LineEffect code s u) : f u = f s := by
  obtain ⟨w, ws, -, -, -, rfl⟩ := he
  exact hf.storeLineCode code w _ s

theorem paramEffect (hf : BlindToOutputs f) {m : Modulation} (he : ParamEffect m s u) : f u = f s := by
  obtain ⟨w, ws, -, -, -, rfl⟩ := he
  exact hf.storeParams _ s

theorem detected (hf : BlindToOutputs f) {sch : Scheme} {w windows : Nat} {p : State × List Nat}
    (hd : Detected s sch w windows p) : f p.1 = f s := by
  obtain ⟨-, -, hstate, -⟩ := hd
  exact hstate ▸ hf.ensureDict s.snap sch w s

/-- Only SRESET writes more than outputs, and only NOISE and TX outside ideal mode move the noise port (46_system.md
R191, 44_pulse_noise.md R162). -/
theorem commandEffect (hf : BlindToOutputs f) {i : Instr} (hreset : i ≠ .sreset)
    (hdraws : i = .noise ∨ (i = .tx ∧ s.snap.ideal = false) → ∀ n s, f (takeDraws n s) = f s)
    (he : CommandEffect i s u) : f u = f s := by
  cases i with
  | nop => exact congrArg f he
  | sreset => exact absurd rfl hreset
  | bits2sym =>
    obtain ⟨sch, w, ws, -, -, -, -, rfl⟩ := he
    exact hf.storeSyms _ s
  | sym2dec =>
    obtain ⟨sch, w, ws, -, -, -, -, rfl⟩ := he
    exact hf.storeDecs _ s
  | sym2bits =>
    obtain ⟨sch, w, ws, -, -, -, -, rfl⟩ := he
    exact hf.storeBits _ s
  | graygen form =>
    obtain ⟨sch, w, -, -, -, rfl⟩ := he
    exact hf.storeGray form _ s
  | lcencNrz | lcencMan | lcencAmi => exact hf.lineEffect he
  | modpAsk | modpFsk | modpPsk | modpQpsk | modpQam16 => exact hf.paramEffect he
  | synLevel =>
    obtain ⟨ws, -, -, -, rfl⟩ := he
    exact hf.storeSamples _ s
  | synPulse =>
    obtain ⟨ws, -, -, -, -, rfl⟩ := he
    exact hf.storeSamples _ s
  | synCarrier =>
    obtain ⟨ws, -, -, -, -, rfl⟩ := he
    exact hf.storeSamples _ s
  | noise =>
    obtain ⟨ws, -, rfl⟩ := he
    exact hf.applyNoise (hdraws (.inl rfl)) s.snap ws s
  | tx =>
    obtain ⟨sch, w, n, ws, -, -, rfl⟩ := he
    exact hf.stages (fun hideal => hdraws (.inr ⟨rfl, hideal⟩)) sch w _ _ s
  | dictbuild =>
    obtain ⟨sch, w, -, rfl⟩ := he
    exact hf.buildDict s.snap sch w s
  | detect =>
    obtain ⟨sch, w, windows, p, -, -, -, hd, rfl⟩ := he
    exact (hf.storeSyms p.2 p.1).trans (hf.detected hd)
  | rx =>
    obtain ⟨sch, w, windows, p, -, -, -, -, hd, rfl⟩ := he
    exact (hf.storeBits _ _).trans ((hf.storeSyms p.2 p.1).trans (hf.detected hd))

end BlindToOutputs

/-- The flags that only acceptance, an error completion and the host write (60_exceptions.md R201, R208). -/
def errorFlags (s : State) : Bool × Byte := (s.err, s.errCode)

theorem errorFlags_blind : BlindToOutputs errorFlags := by
  refine ⟨fun _ _ _ => rfl, fun r v s => ?_, fun _ _ => rfl, fun _ _ => rfl, fun _ _ => rfl⟩
  cases r <;> rfl

theorem ctrl_blind : BlindToOutputs State.ctrl := by
  refine ⟨fun _ _ _ => rfl, fun r v s => ?_, fun _ _ => rfl, fun _ _ => rfl, fun _ _ => rfl⟩
  cases r <;> rfl

theorem noisePort_blind : BlindToOutputs (Hidden.value · .noisePort) := by
  refine ⟨fun _ _ _ => rfl, fun r v s => ?_, fun _ _ => rfl, fun _ _ => rfl, fun _ _ => rfl⟩
  cases r <;> rfl

section
variable {i : Instr} {s t u : State}

/-- A completion without an error leaves ERR and ERRCODE as acceptance left them; SRESET too. -/
theorem errorFlags_of_commandEffect (he : CommandEffect i s u) : u.err = s.err ∧ u.errCode = s.errCode := by
  by_cases hreset : i = .sreset
  · subst hreset
    obtain rfl := he
    exact ⟨rfl, rfl⟩
  · exact Prod.mk.inj (errorFlags_blind.commandEffect hreset (fun _ _ _ => rfl) he)

/-- How a command ends that leaves a state: with one of its codes, or with its effect. -/
theorem exec_next_cases (ht : exec i s = .next t) :
    (∃ c ∈ mayRaise i, t = raiseError c s) ∨ ∃ u, CommandEffect i s u ∧ t = complete u := by
  have hends := exec_ends i s
  rwa [ht] at hends

end

/-- Settles O8: each of the two ways a command ends is one of the two forms. -/
theorem errorsAreAllOrNothing : Obligations.ErrorsAreAllOrNothing := by
  refine fun i s => ⟨fun t ht => ?_, fun r hr => ?_⟩
  · rcases exec_next_cases ht with ⟨c, -, rfl⟩ | ⟨u, heffect, rfl⟩
    · exact .inl ⟨c, rfl⟩
    · obtain ⟨herr, hcode⟩ := errorFlags_of_commandEffect heffect
      exact .inr ⟨rfl, rfl, herr, hcode⟩
  · have hends := exec_ends i s
    rwa [hr] at hends

/-- Settles O9: ERR = 1 at the end of a command that found it 0 is an error completion, with a code of its row. -/
theorem onlyListedErrorsRaised : Obligations.OnlyListedErrorsRaised := by
  intro i s t hclear ht hset
  rcases exec_next_cases ht with ⟨c, hc, rfl⟩ | ⟨u, heffect, rfl⟩
  · exact ⟨c, hc, rfl⟩
  · have herr : u.err = false := (errorFlags_of_commandEffect heffect).1.trans hclear
    exact absurd (herr.symm.trans hset) Bool.false_ne_true

/-! ### Acceptance (R208) -/

/-- Settles O7: the write is an acceptance, whose word the engine's next step decodes. -/
theorem acceptanceOfCommandWord : Obligations.AcceptanceOfCommandWord := by
  intro v s hidle
  have haccept : hostWrite 8 RegId.cmd.busAddr v s = (acceptCommand v s).respond .done :=
    hostWrite_register_of_idle hidle .cmd v
  refine ⟨fun i hdecode => ?_, fun x hdecode => ?_⟩
  · have hlatch : acceptCommand v s = latchCommand v s := by rw [acceptCommand, hdecode]
    rw [haccept, hlatch]
    exact ⟨rfl, fun hwait => stepRunsDecodedCommand _ i rfl hwait hdecode⟩
  · have hillegal : ¬ ∃ i, decode v = .ok i := by rw [hdecode]; nofun
    exact (illegalCommandWordsRejected v s hidle).2 hillegal

/-! ### The interrupt level (R214, R215) -/

theorem irq_eq_false_of_done {s : State} (h : s.done = false) : s.irq = false := by simp [State.irq, h]

/-- Settles O56: acceptance and a STATUS write clear DONE, a CTRL write sets IRQ_EN, and a completion sets DONE and
keeps CTRL. -/
theorem interruptLevel : Obligations.InterruptLevel := by
  intro s v
  refine ⟨by simp [State.irq, State.irqEn], fun i hidle hdecode => ?_, fun hclear => ?_, fun hidle hdisable => ?_,
    fun i t ht hreset => ?_⟩
  · rw [((acceptanceOfCommandWord v s hidle).1 i hdecode).1]
    exact irq_eq_false_of_done rfl
  · rw [statusWriteClearsFlags]
    exact irq_eq_false_of_done (by simp [hclear])
  · rw [(registerWritesStore s v hidle).1]
    have hbit : ((v &&& 0x0000000000FF3F0F#64) : Word).getLsbD 13 = false := by rw [BitVec.getLsbD_and, hdisable]; rfl
    simp only [State.irq, State.irqEn, hbit, Bool.false_and]
  · rcases exec_next_cases ht with ⟨c, -, rfl⟩ | ⟨u, heffect, rfl⟩
    · simp [State.irq, State.irqEn]
    · have hctrl : u.ctrl = s.ctrl := ctrl_blind.commandEffect hreset (fun _ _ _ => rfl) heffect
      simp [State.irq, State.irqEn, hctrl]

/-! ### Noise draws (R220, 44_pulse_noise.md R164) -/

theorem isFinite_toBits (d : Config.FiniteF64) : F64.isFinite d.toBits = true := by
  have hexponent := d.exponent.isLt
  have hfraction := d.fraction.isLt
  have hnat : d.toBits.toNat = d.sign.toNat * 2 ^ 63 + (d.exponent * 2 ^ 52 + d.fraction.toNat) := by
    rw [Config.FiniteF64.toBits, append_toNat, append_toNat, BitVec.toNat_ofNat, BitVec.toNat_ofBool,
      Nat.mod_eq_of_lt (hexponent.trans (by decide))]
  simp only [F64.isFinite, F64.expField, hnat, bne_iff_ne]
  omega

theorem isFinite_drawAt (s : State) (i : Nat) : F64.isFinite (drawAt s i) = true := by
  unfold drawAt
  split <;> exact isFinite_toBits _

section
variable {s u : State}

/-- NOISE takes a draw for each sample that N_SAMPLE counts, and leaves N_SAMPLE alone (44_pulse_noise.md R163). -/
theorem noiseEffect_draws (hsnap : s.snap.nSample = s.nSample) (he : CommandEffect .noise s u) :
    u.noiseTaken = s.noiseTaken + u.nSample.toNat ∧ u.noiseQueue = s.noiseQueue.drop u.nSample.toNat := by
  obtain ⟨ws, hread, rfl⟩ := he
  simp [length_of_readEntries hread, hsnap]

/-- TX outside ideal mode takes a draw for each sample it stores, and N_SAMPLE counts these (45_transceiver.md R170). -/
theorem txEffect_draws (hideal : s.snap.ideal = false) (he : CommandEffect .tx s u) :
    u.noiseTaken = s.noiseTaken + u.nSample.toNat ∧ u.noiseQueue = s.noiseQueue.drop u.nSample.toNat := by
  obtain ⟨sch, w, n, ws, hp, -, rfl⟩ := he
  have hlength : (groupBits w n (ws.map fun x => x.getLsbD 0)).length = n := length_groupBits ..
  simp only [transmitted]
  generalize groupBits w n (ws.map fun x => x.getLsbD 0) = syms at hlength ⊢
  obtain ⟨hqueue, htaken⟩ := storeStage_noisePort sch w syms (storeSyms syms s)
  have hwave : (transmitWave s.snap sch w syms).length ≤ Config.sampleDepth := by
    rw [length_transmitWave hp, hlength]
    exact hp.sampleCap
  simp [noiseUnlessIdeal, hideal, countWord_toNat_of_le hwave, hqueue, htaken]

/-- A completion moves the noise port only for NOISE and for TX outside ideal mode (R162). -/
theorem commandEffect_noisePort {i : Instr} (hnoise : i ≠ .noise) (htx : i = .tx → s.snap.ideal = true)
    (he : CommandEffect i s u) : u.noiseTaken = s.noiseTaken ∧ u.noiseQueue = s.noiseQueue := by
  by_cases hreset : i = .sreset
  · subst hreset
    obtain rfl := he
    exact ⟨rfl, rfl⟩
  · have hidle : ¬ (i = .noise ∨ (i = .tx ∧ s.snap.ideal = false)) := by
      rintro (rfl | ⟨rfl, hideal⟩)
      · exact hnoise rfl
      · exact Bool.false_ne_true (hideal.symm.trans (htx rfl))
    exact (Prod.mk.inj (noisePort_blind.commandEffect hreset (fun h => absurd h hidle) he)).symm

end

/-- Settles O15: a completion takes its command's draws, and an error takes none. -/
theorem noiseDrawsTaken : Obligations.NoiseDrawsTaken := by
  refine ⟨isFinite_drawAt, fun i s t hsnap hclear ht => ?_⟩
  have hcount : s.snap.nSample = s.nSample := congrArg Snapshot.nSample hsnap
  rcases exec_next_cases ht with ⟨c, -, rfl⟩ | ⟨u, heffect, rfl⟩
  · exact ⟨fun h => absurd h.1.symm Bool.false_ne_true, fun _ => ⟨rfl, rfl⟩⟩
  · have herr : u.err = false := (errorFlags_of_commandEffect heffect).1.trans hclear
    constructor
    · rintro ⟨-, rfl | ⟨rfl, hideal⟩⟩
      · exact noiseEffect_draws (u := u) hcount heffect
      · exact txEffect_draws (u := u) hideal heffect
    · rintro (hset | ⟨hnoise, htx⟩)
      · exact absurd (herr.symm.trans hset) Bool.false_ne_true
      · exact commandEffect_noisePort (u := u) hnoise htx heffect

/-! ### Checks in sequence (R203, R207) -/

/-- The code of the first condition that holds. -/
def firstOf (conds : List (ErrCode × Bool)) : Option ErrCode := (conds.find? (·.2)).map (·.1)

/-- A piece of a command raises the first of its conditions that holds, if what stands before that check is there
(`needs`); when none holds and its inputs are there it gives a value with `ok`. -/
def Reports {α : Type} (needs : ErrCode → Prop) (inputs : Prop) (conds : List (ErrCode × Bool)) (r : Except Stop α)
    (ok : α → Prop) : Prop :=
  (∀ c, firstOf conds = some c → needs c → r = .error (.error c)) ∧
    (firstOf conds = none → inputs → ∃ a, r = .ok a ∧ ok a)

/-- A piece that needs nothing of the memory. -/
abbrev Checks {α : Type} (conds : List (ErrCode × Bool)) (r : Except Stop α) (ok : α → Prop) : Prop :=
  Reports (fun _ => True) True conds r ok

theorem firstOf_append (cs cs' : List (ErrCode × Bool)) : firstOf (cs ++ cs') = (firstOf cs).or (firstOf cs') := by
  simp only [firstOf, List.find?_append]
  cases cs.find? (·.2) <;> rfl

section
variable {α β : Type} {needs : ErrCode → Prop} {inputs : Prop} {cs cs' : List (ErrCode × Bool)} {r : Except Stop α}
  {f : α → Except Stop β} {mid : α → Prop} {ok : β → Prop}

theorem reports_pure {a : α} (h : mid a) : Reports needs inputs [] (pure a) mid :=
  ⟨nofun, fun _ _ => ⟨a, rfl, h⟩⟩

/-- One check. -/
theorem checks_of_cases {c : ErrCode} {b : Bool} (hfail : b = true → r = .error (.error c))
    (hpass : b = false → ∃ a, r = .ok a ∧ mid a) : Checks [(c, b)] r mid := by
  cases b with
  | true => exact ⟨fun c' hc _ => by cases hc; exact hfail rfl, nofun⟩
  | false => exact ⟨nofun, fun _ _ => hpass rfl⟩

/-- What comes after checks that pass. -/
theorem reports_bind (hr : Checks cs r mid) (hf : ∀ a, mid a → Reports needs inputs cs' (f a) ok) :
    Reports needs inputs (cs ++ cs') (r >>= f) ok := by
  obtain ⟨hfail, hpass⟩ := hr
  unfold Reports
  rw [firstOf_append]
  cases hfirst : firstOf cs with
  | some c =>
    rw [hfail c hfirst trivial]
    exact ⟨fun c' hc _ => by cases hc; rfl, nofun⟩
  | none =>
    obtain ⟨a, rfl, ha⟩ := hpass hfirst trivial
    exact hf a ha

theorem reports_cons {p : ErrCode × Bool} (hr : Checks [p] r mid)
    (hf : ∀ a, mid a → Reports needs inputs cs' (f a) ok) : Reports needs inputs (p :: cs') (r >>= f) ok :=
  reports_bind hr hf

/-- A read of words that are there, for the inputs of the command or for the checks behind it. -/
theorem reports_read (hread : inputs ∨ (∃ c ∈ cs.map (·.1), needs c) → ∃ a, r = .ok a ∧ mid a)
    (hf : ∀ a, mid a → Reports needs inputs cs (f a) ok) : Reports needs inputs cs (r >>= f) ok := by
  refine ⟨fun c hc hneeds => ?_, fun hnone hinputs => ?_⟩
  · have hmem : c ∈ cs.map (·.1) := by
      obtain ⟨p, hp, rfl⟩ := Option.map_eq_some_iff.mp hc
      exact List.mem_map_of_mem (List.mem_of_find?_eq_some hp)
    obtain ⟨a, rfl, ha⟩ := hread (.inr ⟨c, hmem, hneeds⟩)
    exact (hf a ha).1 c hc hneeds
  · obtain ⟨a, rfl, ha⟩ := hread (.inl hinputs)
    exact (hf a ha).2 hnone hinputs

/-- What the value of passed checks owes to how the piece ends. -/
theorem Reports.of_ends {s : State} {codes : List ErrCode} {post : α → Prop} (hr : Checks cs r mid)
    (hends : Ends s codes r post) : Checks cs r (fun a => mid a ∧ post a) := by
  refine ⟨hr.1, fun hnone hinputs => ?_⟩
  obtain ⟨a, rfl, ha⟩ := hr.2 hnone hinputs
  exact ⟨a, rfl, ha, hends⟩

end

/-! ### The checks (R203) -/

section
variable {c : Snapshot} {sch : Scheme} {w n depth : Nat}

/-- The scheme codes are 0 to 7 (10_state.md R23). -/
theorem schemeOfCode_eq_none_iff {n : Nat} : schemeOfCode n = none ↔ 7 < n := by
  unfold schemeOfCode
  split <;> simp_all
  omega

theorem checks_cfgScheme (c : Snapshot) :
    Checks [(.cfgScheme, decide (7 < c.schemeCode))] (cfgScheme c) (fun sch => cfgScheme c = .ok sch) := by
  refine checks_of_cases (fun hb => ?_) fun hb => ?_
  · rw [cfgScheme, schemeOfCode_eq_none_iff.mpr (of_decide_eq_true hb)]
  · obtain ⟨sch, hsch⟩ := Option.ne_none_iff_exists'.mp (mt schemeOfCode_eq_none_iff.mp (of_decide_eq_false hb))
    exact ⟨sch, by rw [cfgScheme, hsch], by rw [cfgScheme, hsch]⟩

/-- CTRL.BPS is not in 1..8. -/
def bpsIllegal (c : Snapshot) : Bool := decide (c.bps < 1) || decide (Config.maxBps < c.bps)

/-- The width read from CTRL.BPS, for every scheme but QPSK and 16-QAM. -/
theorem checks_cfgW_bps (c : Snapshot) (hqpsk : sch ≠ .carrier .qpsk) (hqam : sch ≠ .carrier .qam16) :
    Checks [(.cfgBps, bpsIllegal c)] (cfgW c sch) (fun w => w = c.bps) := by
  have hwidth : cfgW c sch = if bpsIllegal c then .error (.error .cfgBps) else .ok c.bps := by
    unfold cfgW
    split
    · exact absurd rfl hqpsk
    · exact absurd rfl hqam
    · rfl
  rw [hwidth]
  exact checks_of_cases (fun hb => by rw [hb]; rfl) fun hb => ⟨c.bps, by rw [hb]; rfl, rfl⟩

/-- The codes of QPSK and 16-QAM, whose width is fixed (10_state.md R23, 00_scope.md R17). -/
theorem schemeCode_of_fixed (hcode : schemeOfCode n = some sch) :
    (n = 6 ↔ sch = .carrier .qpsk) ∧ (n = 7 ↔ sch = .carrier .qam16) := by
  unfold schemeOfCode at hcode
  split at hcode <;> cases hcode <;> simp

/-- The width of a scheme that has been checked. -/
theorem checks_cfgW (hscheme : cfgScheme c = .ok sch) :
    Checks [(.cfgBps, decide (c.schemeCode ≠ 6) && decide (c.schemeCode ≠ 7) && bpsIllegal c)] (cfgW c sch)
      (fun w => w = effectiveWidth c.schemeCode c.bps) := by
  obtain ⟨hqpsk, hqam⟩ := schemeCode_of_fixed (schemeOfCode_of_cfgScheme hscheme)
  by_cases h6 : c.schemeCode = 6
  · obtain rfl := hqpsk.mp h6
    exact checks_of_cases (by simp [h6]) fun _ => ⟨2, rfl, by simp [effectiveWidth, h6]⟩
  by_cases h7 : c.schemeCode = 7
  · obtain rfl := hqam.mp h7
    exact checks_of_cases (by simp [h7]) fun _ => ⟨4, rfl, by simp [effectiveWidth, h7]⟩
  simpa [effectiveWidth, h6, h7] using checks_cfgW_bps c (mt hqpsk.mpr h6) (mt hqam.mpr h7)

theorem checks_needSps (c : Snapshot) :
    Checks [(.cfgSps, decide (c.sps = 0))] (needSps c) (fun _ => True) :=
  checks_of_cases (fun hb => by rw [needSps, if_pos (of_decide_eq_true hb)])
    fun hb => ⟨(), needSps_of_ne (of_decide_eq_false hb), trivial⟩

theorem checks_needBlock (c : Snapshot) :
    Checks [(.cfgBlock, decide (c.pulseBlock = 0))] (needBlock c) (fun _ => True) :=
  checks_of_cases (fun hb => by rw [needBlock, if_pos (of_decide_eq_true hb)])
    fun hb => ⟨(), needBlock_of_ne (of_decide_eq_false hb), trivial⟩

theorem checks_needRate (c : Snapshot) : Checks [(.cfgRate, rateIllegal c)] (needRate c) (fun _ => True) := by
  have hlegal : rateIllegal c = !c.rateLegal := rfl
  rw [hlegal]
  exact checks_of_cases (fun hb => by rw [needRate, if_neg (by simpa using hb)])
    fun hb => ⟨(), needRate_of_legal (by simpa using hb), trivial⟩

theorem checks_needCap (n depth : Nat) :
    Checks [(.capacity, decide (depth < n))] (needCap n depth) (fun _ => True) :=
  checks_of_cases (fun hb => by rw [needCap, if_pos (of_decide_eq_true hb)])
    fun hb => ⟨(), needCap_of_le (not_lt.mp (of_decide_eq_false hb)), trivial⟩

/-- A check made only where it is needed. -/
theorem checks_whenNeeded {code : ErrCode} {b fails : Bool} {check : Except Stop Unit} (needed : Bool)
    (hneeded : b = needed) (h : Checks [(code, fails)] check (fun _ => True)) :
    Checks [(code, needed && fails)] (whenNeeded b check) (fun _ => True) := by
  subst hneeded
  cases b with
  | true => exact h
  | false => exact checks_of_cases nofun fun _ => ⟨(), rfl, trivial⟩

/-- The codes of the line codes. -/
theorem schemeIsLine_eq (hscheme : cfgScheme c = .ok sch) : schemeIsLine sch = decide (c.schemeCode ≤ 2) := by
  rw [Bool.eq_iff_iff, decide_eq_true_iff, schemeIsLine_iff (schemeOfCode_of_cfgScheme hscheme)]

theorem not_schemeIsLine_eq (hscheme : cfgScheme c = .ok sch) : (!schemeIsLine sch) = decide (2 < c.schemeCode) := by
  rw [schemeIsLine_eq hscheme, ← decide_not]
  exact decide_eq_decide.mpr not_le

theorem levelsPerSymbol_eq (hscheme : cfgScheme c = .ok sch) (w : Nat) :
    levelsPerSymbol sch w = levelsOfCode c.schemeCode w := by
  have hcode := schemeOfCode_of_cfgScheme hscheme
  unfold schemeOfCode at hcode
  split at hcode <;> cases hcode <;> simp_all [levelsPerSymbol, levelsOfCode]

end

/-! ### The reads (70_reset_and_hazards.md R232) -/

section
variable {s : State}

theorem entries_of_written {id : MemId} {n : Nat} (h : s.Written id n) : ∃ f, s.Entries id n f :=
  ⟨fun k => (s.entry id k).getD 0#64, fun k hk => by
    obtain ⟨v, hv⟩ := Option.isSome_iff_exists.mp (h k hk)
    simp only [hv, Option.getD_some]⟩

theorem inputWords_of_written {id : MemId} {n : Nat} (h : s.Written id n) : ∃ ws, inputWords id n s = .ok ws := by
  obtain ⟨f, hf⟩ := entries_of_written h
  exact ⟨_, by rw [inputWords, readEntries_of_entries hf]⟩

/-- The words of a read, as values of the buffer. -/
theorem map_inputWords_of_written {α : Type} {id : MemId} {n : Nat} (h : s.Written id n) (g : List Word → α) :
    ∃ a, (inputWords id n s).map g = .ok a := by
  obtain ⟨ws, hws⟩ := inputWords_of_written h
  exact ⟨g ws, by rw [hws]; rfl⟩

/-- The symbols a command reads, as its range check looks at them (R205). -/
def SymbolsRead (s : State) (syms : List Nat) : Prop :=
  ∀ w, syms.any (fun x => 2 ^ w - 1 < x) = symbolAbove w s

theorem inputSyms_of_written (h : s.Written .sym s.snap.nSym.toNat) :
    ∃ syms, inputSyms s.snap.nSym.toNat s = .ok syms ∧ SymbolsRead s syms := by
  obtain ⟨f, hf⟩ := entries_of_written h
  refine ⟨((List.range s.snap.nSym.toNat).map f).map BitVec.toNat, ?_, fun w => ?_⟩
  · rw [inputSyms, inputWords, readEntries_of_entries hf]
    rfl
  · rw [List.map_map, List.any_map, symbolAbove, Bool.eq_iff_iff, List.any_eq_true, List.any_eq_true]
    refine exists_congr fun k => and_congr_right fun hk => ?_
    rw [hf k (List.mem_range.mp hk)]
    rfl

theorem checks_needRange {syms : List Nat} (h : SymbolsRead s syms) (w : Nat) :
    Checks [(.dataRange, symbolAbove w s)] (needRange w syms) (fun _ => True) := by
  rw [← h w]
  exact checks_of_cases (fun hb => by rw [needRange, if_pos hb]) fun hb => ⟨(), by rw [needRange, hb]; rfl, trivial⟩

end

/-! ### The commands that read symbols (R205) -/

/-- What must stand in the memory for a command to report an error: the symbols, for an error of the range check or
behind it. -/
def SymbolsNeeded (i : Instr) (s : State) (c : ErrCode) : Prop :=
  c = .dataRange ∨ c = .capacity → readsSymbols i = true → s.Written .sym s.snap.nSym.toNat

/-- What must stand there for it to complete. -/
def InputsReady (i : Instr) (s : State) : Prop := s.DictionaryLegal ∧ s.InputsWritten i

/-- A command's checks are those of its list, and its effect leaves ERR and ERRCODE alone. -/
def CommandReports (i : Instr) (s : State) (conds : List (ErrCode × Bool)) (r : Except Stop State) : Prop :=
  Reports (SymbolsNeeded i s) (InputsReady i s) conds r (fun u => errorFlags u = errorFlags s)

section
variable {i : Instr} {s : State}

theorem inputsOf_of_readsSymbols (hi : readsSymbols i = true) (c : Snapshot) :
    inputsOf i c = [(.sym, c.nSym.toNat)] := by
  cases i <;> simp_all [readsSymbols, inputsOf]

/-- The range check and the capacity check behind the read of the symbols. -/
theorem reports_symbols (hi : readsSymbols i = true) (w n depth : Nat) {effect : List Nat → State}
    (heffect : ∀ syms, errorFlags (effect syms) = errorFlags s) :
    CommandReports i s [(.dataRange, symbolAbove w s), (.capacity, decide (depth < n))] (do
      let syms ← inputSyms s.snap.nSym.toNat s
      needRange w syms
      needCap n depth
      pure (effect syms)) := by
  have hwritten : InputsReady i s ∨ (∃ c ∈ [ErrCode.dataRange, .capacity], SymbolsNeeded i s c) →
      s.Written .sym s.snap.nSym.toNat := by
    rintro (⟨-, hinputs⟩ | ⟨c, hc, hneeded⟩)
    · exact hinputs (.sym, s.snap.nSym.toNat) (by rw [inputsOf_of_readsSymbols hi]; exact List.mem_singleton.mpr rfl)
    · exact hneeded (by simpa using hc) hi
  exact reports_read (fun h => inputSyms_of_written (hwritten h)) fun syms hsyms =>
    reports_cons (checks_needRange hsyms w) fun _ _ => reports_cons (checks_needCap n depth) fun _ _ =>
    reports_pure (heffect syms)

theorem encodeLine_reports (hi : readsSymbols i = true) (code : LineCode) :
    ∃ r, encodeLine code s = finish s r ∧ CommandReports i s
      [(.cfgBps, bpsIllegal s.snap), (.dataRange, symbolAbove s.snap.bps s),
        (.capacity, decide (Config.levelDepth < s.snap.nSym.toNat * levelsPerSymbol (.line code) s.snap.bps))] r := by
  refine ⟨_, rfl, reports_cons (checks_cfgW_bps s.snap nofun nofun) ?_⟩
  rintro _ rfl
  exact reports_symbols hi _ _ _ fun syms => errorFlags_blind.storeLineCode code _ syms s

/-- The parameter generators, by the conditions of their width. -/
theorem mapParams_reports (hi : readsSymbols i = true) {m : Modulation} {w : Nat} {conds : List (ErrCode × Bool)}
    (hwidth : Checks conds (cfgW s.snap (.carrier m)) (fun w' => w' = w)) :
    ∃ r, mapParams m s = finish s r ∧ CommandReports i s
      (conds ++ [(.dataRange, symbolAbove w s), (.capacity, decide (Config.paramDepth < s.snap.nSym.toNat))]) r := by
  refine ⟨_, rfl, reports_bind hwidth ?_⟩
  rintro _ rfl
  exact reports_symbols hi _ _ _ fun syms => errorFlags_blind.storeParams _ s

/-- A scheme and its width, as most commands check them. -/
theorem reports_config {cs : List (ErrCode × Bool)} {f : Scheme → Nat → Except Stop State}
    (hf : ∀ sch w, cfgScheme s.snap = .ok sch → w = effectiveWidth s.snap.schemeCode s.snap.bps →
      CommandReports i s cs (f sch w)) :
    CommandReports i s
      ((.cfgScheme, decide (7 < s.snap.schemeCode)) ::
        (.cfgBps, decide (s.snap.schemeCode ≠ 6) && decide (s.snap.schemeCode ≠ 7) && bpsIllegal s.snap) :: cs)
      (do
        let sch ← cfgScheme s.snap
        let w ← cfgW s.snap sch
        f sch w) :=
  reports_cons (checks_cfgScheme s.snap) fun sch hscheme => reports_cons (checks_cfgW hscheme) fun w hw =>
    hf sch w hscheme hw

/-- The read at the end of a command whose checks have passed. -/
theorem reports_last_read {α : Type} {r : Except Stop α} (hread : InputsReady i s → ∃ a, r = .ok a)
    {effect : α → State} (heffect : ∀ a, errorFlags (effect a) = errorFlags s) :
    CommandReports i s [] (do let a ← r; pure (effect a)) :=
  reports_read (mid := fun _ => True)
    (fun h => (hread (h.elim id fun ⟨_, hc, _⟩ => nomatch hc)).imp fun _ ha => ⟨ha, trivial⟩)
    fun a _ => reports_pure (heffect a)

theorem map_inputWords_of_ready {α : Type} {id : MemId} {n : Nat} (hinputs : inputsOf i s.snap = [(id, n)])
    (g : List Word → α) (h : InputsReady i s) : ∃ a, (inputWords id n s).map g = .ok a :=
  map_inputWords_of_written (h.2 (id, n) (by rw [hinputs]; exact List.mem_singleton.mpr rfl)) g

end

section
variable (s : State)

theorem execBits2Sym_reports :
    ∃ r, execBits2Sym s = finish s r ∧ CommandReports .bits2sym s (errorConditions .bits2sym s) r := by
  refine ⟨_, rfl, reports_config fun sch w _ hw => ?_⟩
  subst hw
  exact reports_cons (checks_needCap _ _) fun _ _ =>
    reports_last_read (map_inputWords_of_ready rfl _) fun bits => errorFlags_blind.storeSyms _ s

theorem execSym2Dec_reports :
    ∃ r, execSym2Dec s = finish s r ∧ CommandReports .sym2dec s (errorConditions .sym2dec s) r := by
  refine ⟨_, rfl, reports_config fun sch w _ hw => ?_⟩
  subst hw
  exact reports_symbols rfl _ _ _ fun syms => errorFlags_blind.storeDecs _ s

theorem execSym2Bits_reports :
    ∃ r, execSym2Bits s = finish s r ∧ CommandReports .sym2bits s (errorConditions .sym2bits s) r := by
  refine ⟨_, rfl, reports_config fun sch w _ hw => ?_⟩
  subst hw
  exact reports_symbols rfl _ _ _ fun syms => errorFlags_blind.storeBits _ s

theorem execGraygen_reports (form : Bool) :
    ∃ r, execGraygen form s = finish s r ∧ CommandReports (.graygen form) s (errorConditions (.graygen form) s) r := by
  refine ⟨_, rfl, reports_config fun sch w _ hw => ?_⟩
  subst hw
  exact reports_cons (checks_needCap _ _) fun _ _ => reports_pure (errorFlags_blind.storeGray form _ s)

theorem execSynLevel_reports :
    ∃ r, execSynLevel s = finish s r ∧ CommandReports .synLevel s (errorConditions .synLevel s) r :=
  ⟨_, rfl, reports_cons (checks_needSps _) fun _ _ => reports_cons (checks_needCap _ _) fun _ _ =>
    reports_last_read (map_inputWords_of_ready rfl _) fun _ => errorFlags_blind.storeSamples _ s⟩

theorem execSynPulse_reports :
    ∃ r, execSynPulse s = finish s r ∧ CommandReports .synPulse s (errorConditions .synPulse s) r :=
  ⟨_, rfl, reports_cons (checks_needSps _) fun _ _ => reports_cons (checks_needBlock _) fun _ _ =>
    reports_cons (checks_needCap _ _) fun _ _ =>
    reports_last_read (map_inputWords_of_ready rfl _) fun _ => errorFlags_blind.storeSamples _ s⟩

theorem execSynCarrier_reports :
    ∃ r, execSynCarrier s = finish s r ∧ CommandReports .synCarrier s (errorConditions .synCarrier s) r :=
  ⟨_, rfl, reports_cons (checks_needSps _) fun _ _ => reports_cons (checks_needRate _) fun _ _ =>
    reports_cons (checks_needCap _ _) fun _ _ =>
    reports_last_read (map_inputWords_of_ready rfl _) fun _ => errorFlags_blind.storeSamples _ s⟩

theorem execNoise_reports :
    ∃ r, execNoise s = finish s r ∧ CommandReports .noise s (errorConditions .noise s) r := by
  exact ⟨_, rfl, reports_last_read
    (fun h => inputWords_of_written (h.2 (.sample, s.snap.nSample.toNat) (List.mem_singleton.mpr rfl)))
    fun samples => errorFlags_blind.applyNoise (fun _ _ => rfl) s.snap samples s⟩

end

/-! ### TX (45_transceiver.md R170) -/

/-- The conditions of TX in one list; the middle stage has one capacity, by the kind of scheme. -/
def transmitConditions (c : Snapshot) : List (ErrCode × Bool) :=
  let w := effectiveWidth c.schemeCode c.bps
  let n := c.nBits.toNat / w
  [(.cfgScheme, decide (7 < c.schemeCode)),
    (.cfgBps, decide (c.schemeCode ≠ 6) && decide (c.schemeCode ≠ 7) && bpsIllegal c),
    (.cfgSps, decide (c.sps = 0)),
    (.cfgBlock, (decide (c.schemeCode ≤ 2) && !c.ideal) && decide (c.pulseBlock = 0)),
    (.cfgRate, decide (2 < c.schemeCode) && rateIllegal c),
    (.capacity, decide (Config.symDepth < n)),
    (.capacity, if c.schemeCode ≤ 2 then decide (Config.levelDepth < n * levelsOfCode c.schemeCode w)
      else decide (Config.paramDepth < n)),
    (.capacity, decide (Config.sampleDepth < n * levelsOfCode c.schemeCode w * c.sps.toNat))]

section
variable {s : State}

theorem errorConditions_tx (s : State) : errorConditions .tx s = transmitConditions s.snap := by
  by_cases hline : s.snap.schemeCode ≤ 2
  · simp only [errorConditions, transmitConditions, if_pos hline]
    rfl
  · simp only [errorConditions, transmitConditions, if_neg hline]
    rfl

theorem checks_needStageCap {c : Snapshot} {sch : Scheme} (hscheme : cfgScheme c = .ok sch) (n w : Nat) :
    Checks [(.capacity, if c.schemeCode ≤ 2 then decide (Config.levelDepth < n * levelsOfCode c.schemeCode w)
      else decide (Config.paramDepth < n))] (needStageCap sch n w) (fun _ => True) := by
  have hline := schemeIsLine_iff (schemeOfCode_of_cfgScheme hscheme)
  cases sch with
  | line code =>
    rw [if_pos (hline.mp rfl), ← levelsPerSymbol_eq hscheme]
    exact checks_needCap _ _
  | carrier m =>
    rw [if_neg (mt hline.mpr Bool.false_ne_true)]
    exact checks_needCap _ _

/-- The plan TX makes: the effective width, and the number of symbols. -/
theorem checks_transmitPlan (c : Snapshot) :
    Checks (transmitConditions c) (transmitPlan c) (fun p => p.2.1 = effectiveWidth c.schemeCode c.bps ∧
      p.2.2 = c.nBits.toNat / effectiveWidth c.schemeCode c.bps) := by
  refine reports_cons (checks_cfgScheme c) fun sch hscheme => reports_cons (checks_cfgW hscheme) fun w hw => ?_
  subst hw
  refine reports_cons (checks_needSps c) fun _ _ =>
    reports_cons (checks_whenNeeded _ (by rw [schemeIsLine_eq hscheme]) (checks_needBlock c)) fun _ _ =>
    reports_cons (checks_whenNeeded _ (not_schemeIsLine_eq hscheme) (checks_needRate c)) fun _ _ =>
    reports_cons (checks_needCap _ _) fun _ _ => reports_cons (checks_needStageCap hscheme _ _) fun _ _ => ?_
  rw [levelsPerSymbol_eq hscheme]
  exact reports_cons (checks_needCap _ _) fun _ _ => reports_pure ⟨rfl, rfl⟩

theorem execTx_reports (s : State) :
    ∃ r, execTx s = finish s r ∧ CommandReports .tx s (errorConditions .tx s) r := by
  rw [errorConditions_tx, ← List.append_nil (transmitConditions _)]
  refine ⟨_, rfl, reports_bind (checks_transmitPlan s.snap) ?_⟩
  rintro ⟨sch, w, n⟩ ⟨hw, hn⟩
  obtain rfl : w = _ := hw
  obtain rfl : n = _ := hn
  refine reports_last_read (map_inputWords_of_ready rfl _) fun bits => ?_
  exact errorFlags_blind.stages (fun _ _ _ => rfl) sch _ _ _ s

/-! ### DICTBUILD, DETECT and RX (45_transceiver.md R174-R180) -/

/-- The conditions the three commands share. -/
def dictConditions (c : Snapshot) : List (ErrCode × Bool) :=
  let w := effectiveWidth c.schemeCode c.bps
  [(.cfgScheme, decide (7 < c.schemeCode)),
    (.cfgBps, decide (c.schemeCode ≠ 6) && decide (c.schemeCode ≠ 7) && bpsIllegal c),
    (.cfgSps, decide (c.sps = 0)),
    (.cfgRate, decide (2 < c.schemeCode) && rateIllegal c),
    (.capacity, decide (Config.dictDepth < 2 ^ w * (levelsOfCode c.schemeCode w * c.sps.toNat)))]

/-- How many windows the samples of a configuration make (R178). -/
def windowCount (c : Snapshot) : Nat :=
  c.nSample.toNat / (levelsOfCode c.schemeCode (effectiveWidth c.schemeCode c.bps) * c.sps.toNat)

theorem errorConditions_dictbuild (s : State) : errorConditions .dictbuild s = dictConditions s.snap := rfl

theorem errorConditions_detect (s : State) :
    errorConditions .detect s =
      dictConditions s.snap ++ [(.capacity, decide (Config.symDepth < windowCount s.snap))] := rfl

theorem errorConditions_rx (s : State) :
    errorConditions .rx s =
      (dictConditions s.snap ++ [(.capacity, decide (Config.symDepth < windowCount s.snap))]) ++
        [(.capacity, decide (Config.bitDepth < windowCount s.snap * effectiveWidth s.snap.schemeCode s.snap.bps))] :=
  rfl

/-- The plan of a dictionary: the effective width, and an entry of Lsym·SPS samples. -/
structure DictPlanned (c : Snapshot) (sch : Scheme) (w : Nat) : Prop where
  width : w = effectiveWidth c.schemeCode c.bps
  length : entryLength c sch w = levelsOfCode c.schemeCode (effectiveWidth c.schemeCode c.bps) * c.sps.toNat

theorem checks_dictPlan (s : State) :
    Checks (dictConditions s.snap) (dictPlan s.snap)
      (fun p => DictPlanned s.snap p.1 p.2 ∧ DictPlanLegal s.snap p.1 p.2) := by
  refine Reports.of_ends ?_ (ends_dictPlan s fun e he => he)
  refine reports_cons (checks_cfgScheme _) fun sch hscheme => reports_cons (checks_cfgW hscheme) fun w hw => ?_
  subst hw
  refine reports_cons (checks_needSps _) fun _ _ =>
    reports_cons (checks_whenNeeded _ (not_schemeIsLine_eq hscheme) (checks_needRate _)) fun _ _ => ?_
  rw [entryLength, levelsPerSymbol_eq hscheme]
  exact reports_cons (checks_needCap _ _) fun _ _ =>
    reports_pure ⟨rfl, by rw [entryLength, levelsPerSymbol_eq hscheme]⟩

theorem execDictbuild_reports (s : State) :
    ∃ r, execDictbuild s = finish s r ∧ CommandReports .dictbuild s (errorConditions .dictbuild s) r := by
  rw [errorConditions_dictbuild, ← List.append_nil (dictConditions _)]
  refine ⟨_, rfl, reports_bind (checks_dictPlan s) ?_⟩
  rintro ⟨sch, w⟩ -
  exact reports_pure (errorFlags_blind.buildDict s.snap sch w s)

theorem checks_detectPlan (s : State) :
    Checks (dictConditions s.snap ++ [(.capacity, decide (Config.symDepth < windowCount s.snap))]) (detectPlan s.snap)
      (fun p => DictPlanned s.snap p.1 p.2.1 ∧ DictPlanLegal s.snap p.1 p.2.1 ∧ p.2.2 = windowCount s.snap) := by
  refine reports_bind (checks_dictPlan s) ?_
  rintro ⟨sch, w⟩ ⟨hplan, hlegal⟩
  have hcount : s.snap.nSample.toNat / entryLength s.snap sch w = windowCount s.snap := by
    rw [hplan.length, windowCount]
  simp only [hcount]
  exact reports_cons (checks_needCap _ _) fun _ _ => reports_pure ⟨hplan, hlegal, rfl⟩

theorem written_ensureDict {id : MemId} {n : Nat} (h : s.Written id n) (c : Snapshot) (sch : Scheme) (w : Nat) :
    (ensureDict c sch w s).Written id n := by
  rcases ensureDict_eq s c sch w with ⟨-, heq⟩ | ⟨-, heq⟩ <;> rw [heq]
  · exact h
  · exact fun k hk => readWord_isSome_writeEntries (h k hk)

/-- With written samples the detector finds its symbols: a current dictionary stands in DICT_MEM, and a new one is
written. -/
theorem detectBody_of_written {sch : Scheme} {w windows : Nat} (hp : DictPlanLegal s.snap sch w)
    (hdict : s.DictionaryLegal) (hwritten : s.Written .sample (windows * entryLength s.snap sch w)) :
    ∃ p, detectBody s.snap sch w windows s = .ok p ∧ errorFlags p.1 = errorFlags s := by
  obtain ⟨samples, hsamples⟩ := inputWords_of_written (written_ensureDict hwritten s.snap sch w)
  obtain ⟨entries, hentries⟩ :
      ∃ entries, detectorEntries s.snap sch w windows (ensureDict s.snap sch w s) = .ok entries := by
    unfold detectorEntries
    split
    · exact ⟨[], rfl⟩
    · have hread := readEntries_of_entries (ensureDict_holdsDictionary hp hdict).entries
      rw [windowLength] at hread
      exact ⟨_, by rw [inputDict, inputWords, entryLength, hread]⟩
  refine ⟨(ensureDict s.snap sch w s, detectSymbols (entryLength s.snap sch w) (2 ^ w) windows samples entries), ?_,
    errorFlags_blind.ensureDict s.snap sch w s⟩
  simp only [detectBody, inputSamples, hsamples, hentries, except_ok_bind]
  rfl

/-- DETECT and RX end alike after their checks. -/
theorem reports_detectBody {i : Instr} {sch : Scheme} {w windows : Nat} (hplan : DictPlanned s.snap sch w)
    (hlegal : DictPlanLegal s.snap sch w) (hwindows : windows = windowCount s.snap)
    (hinputs : inputsOf i s.snap = [(.sample, windowCount s.snap *
      (levelsOfCode s.snap.schemeCode (effectiveWidth s.snap.schemeCode s.snap.bps) * s.snap.sps.toNat))])
    {f : State × List Nat → Except Stop State} (hf : ∀ p, ∃ u, f p = pure u ∧ errorFlags u = errorFlags p.1) :
    CommandReports i s [] (detectBody s.snap sch w windows s >>= f) := by
  refine reports_read (mid := fun p => errorFlags p.1 = errorFlags s) (fun h => ?_) fun p hp => ?_
  · obtain ⟨hdict, hwritten⟩ : InputsReady i s := h.elim id fun ⟨_, hc, _⟩ => nomatch hc
    refine detectBody_of_written hlegal hdict ?_
    rw [hplan.length, hwindows]
    exact hwritten (.sample, _) (by rw [hinputs]; exact List.mem_singleton.mpr rfl)
  · obtain ⟨u, heq, hflags⟩ := hf p
    rw [heq]
    exact reports_pure (hflags.trans hp)

theorem execDetect_reports (s : State) :
    ∃ r, execDetect s = finish s r ∧ CommandReports .detect s (errorConditions .detect s) r := by
  rw [errorConditions_detect, ← List.append_nil (_ ++ _)]
  refine ⟨_, rfl, reports_bind (checks_detectPlan s) ?_⟩
  rintro ⟨sch, w, windows⟩ ⟨hplan, hlegal, hwindows⟩
  exact reports_detectBody hplan hlegal hwindows rfl fun p => ⟨_, rfl, errorFlags_blind.storeSyms p.2 p.1⟩

theorem execRx_reports (s : State) :
    ∃ r, execRx s = finish s r ∧ CommandReports .rx s (errorConditions .rx s) r := by
  rw [errorConditions_rx]
  refine ⟨_, rfl, reports_bind (checks_detectPlan s) ?_⟩
  rintro ⟨sch, w, windows⟩ ⟨hplan, hlegal, hwindows⟩
  obtain rfl : windows = _ := hwindows
  obtain rfl : w = _ := hplan.width
  exact reports_cons (checks_needCap _ _) fun _ _ => reports_detectBody hplan hlegal rfl rfl fun p =>
    ⟨_, rfl, (errorFlags_blind.storeBits _ _).trans (errorFlags_blind.storeSyms p.2 p.1)⟩

end

/-! ### Every command reports the first condition that holds (R207) -/

theorem exec_reports (i : Instr) (s : State) :
    ∃ r, exec i s = finish s r ∧ CommandReports i s (errorConditions i s) r := by
  cases i with
  | nop => exact ⟨.ok s, rfl, reports_pure rfl⟩
  | sreset => exact ⟨.ok (softReset s), rfl, reports_pure rfl⟩
  | bits2sym => exact execBits2Sym_reports s
  | sym2dec => exact execSym2Dec_reports s
  | sym2bits => exact execSym2Bits_reports s
  | graygen form => exact execGraygen_reports s form
  | lcencNrz => exact encodeLine_reports rfl .nrz
  | lcencMan => exact encodeLine_reports rfl .man
  | lcencAmi => exact encodeLine_reports rfl .ami
  | modpAsk => exact mapParams_reports rfl (m := .ask) (checks_cfgW_bps s.snap nofun nofun)
  | modpFsk => exact mapParams_reports rfl (m := .fsk) (checks_cfgW_bps s.snap nofun nofun)
  | modpPsk => exact mapParams_reports rfl (m := .psk) (checks_cfgW_bps s.snap nofun nofun)
  | modpQpsk => exact mapParams_reports rfl (m := .qpsk) (reports_pure rfl)
  | modpQam16 => exact mapParams_reports rfl (m := .qam16) (reports_pure rfl)
  | synLevel => exact execSynLevel_reports s
  | synPulse => exact execSynPulse_reports s
  | synCarrier => exact execSynCarrier_reports s
  | noise => exact execNoise_reports s
  | tx => exact execTx_reports s
  | dictbuild => exact execDictbuild_reports s
  | detect => exact execDetect_reports s
  | rx => exact execRx_reports s

/-- The codes of a command's conditions stand in ascending order. -/
theorem errorConditions_ascending (i : Instr) (s : State) :
    ((errorConditions i s).map (·.1.code.toNat)).Pairwise (· ≤ ·) := by
  cases i
  case tx => rw [errorConditions_tx]; simp [transmitConditions, ErrCode.code]
  all_goals simp [errorConditions, ErrCode.code]

/-- Settles O10: the command's pieces, joined, report the first condition of its list that holds. -/
theorem firstFailingCheckReported : Obligations.FirstFailingCheckReported := by
  intro i s hdict
  obtain ⟨r, hexec, hfail, hpass⟩ := exec_reports i s
  refine ⟨errorConditions_ascending i s, fun c hc hneeded => ?_, fun hnone hinputs => ?_⟩
  · rw [hexec, hfail c hc hneeded]
    rfl
  · obtain ⟨u, rfl, hflags⟩ := hpass hnone ⟨hdict, hinputs⟩
    obtain ⟨herr, hcode⟩ := Prod.mk.inj hflags
    exact ⟨complete u, hexec, rfl, rfl, herr, hcode⟩

end Sys2Proof.Proofs

/-! The statements of 70_reset_and_hazards.md: hardware reset (R230), unwritten entries (R232), AMI_SIGN (R235), and
host accesses while BUSY = 1 (R240, R241). -/

namespace Sys2Proof.Proofs

open Sys2Proof.Machine

/-! ### Hardware reset (R230) -/

/-- Every flag of STATUS is 0 after reset. -/
theorem status_hardwareReset (s : State) : (hardwareReset s).status = 0#64 := by
  have hreset : State.reset.status = 0#64 := by decide
  exact hreset

/-- Settles O57: the registers are those of the reset state, whatever stood before. -/
theorem hardwareResetState : Obligations.HardwareResetState := by
  intro s
  refine ⟨hardwareReset s, rfl, rfl, rfl, rfl, rfl, rfl, rfl, rfl, ?_, rfl, ?_, fun _ => rfl, rfl⟩
  · refine List.forall_mem_cons.mpr ⟨rfl, List.forall_mem_cons.mpr ⟨status_hardwareReset s, fun r hr => ?_⟩⟩
    fin_cases hr <;> rfl
  · exact irq_eq_false_of_done rfl

/-! ### Unwritten entries (R232) -/

/-- A step gives a next state, or the fault of an entry never written. -/
def StepsOrFaults (s : State) (o : Host.Outcome State Fault Refusal) : Prop :=
  (∃ t, o = .next t) ∨ ∃ id k, o = .fault (.unwrittenEntry id k) ∧ s.entry id k = none

section
variable (s : State)

theorem exec_stepsOrFaults (i : Instr) : StepsOrFaults s (exec i s) := by
  have hends := exec_ends i s
  cases ho : exec i s with
  | next t => exact .inl ⟨t, rfl⟩
  | fault f =>
    rw [ho] at hends
    obtain ⟨id, k, rfl, hk⟩ := hends
    exact .inr ⟨id, k, rfl, hk⟩
  | refused r =>
    rw [ho] at hends
    exact hends.elim

theorem hostRead_stepsOrFaults (size : Nat) (addr : Addr) : StepsOrFaults s (hostRead size addr s) := by
  simp only [hostRead]
  split
  · exact .inl ⟨_, rfl⟩
  · split
    case h_4 id k _ =>
      unfold readEntry
      cases hk : s.mem.readWord (id.addr k) with
      | some w => exact .inl ⟨_, rfl⟩
      | none => exact .inr ⟨id, k, rfl, hk⟩
    all_goals exact .inl ⟨_, rfl⟩

/-- Of the host's accesses only a read can fault. -/
theorem busAccess_stepsOrFaults (e : BusAccess) : StepsOrFaults s (busAccess e s) := by
  cases e with
  | read size addr => exact hostRead_stepsOrFaults s size addr
  | write size addr v => exact .inl ⟨_, rfl⟩
  | hwReset => exact .inl ⟨_, rfl⟩

theorem step_stepsOrFaults : StepsOrFaults s (step s) := by
  unfold step
  split
  · unfold engineStep
    split
    · exact exec_stepsOrFaults s _
    · exact .inl ⟨_, rfl⟩
  · unfold hostStep
    split
    · exact .inl ⟨s, rfl⟩
    · next e es _ => exact busAccess_stepsOrFaults { s with host := es } e.access

end

/-- Settles O11: every way of a step is one of the two, and on an idle machine no read is unspecified. -/
theorem faultsAreUnwrittenReads : Obligations.FaultsAreUnwrittenReads := by
  refine ⟨fun s f hf => ?_, fun s r hr => ?_, fun s id k hidle hk hnone => ?_⟩
  · rcases step_stepsOrFaults s with ⟨t, ht⟩ | ⟨id, k, hfault, hk⟩
    · exact nomatch ht.symm.trans hf
    · exact ⟨id, k, Host.Outcome.fault.inj (hf.symm.trans hfault), hk⟩
  · rcases step_stepsOrFaults s with ⟨t, ht⟩ | ⟨id, k, hfault, -⟩
    · exact nomatch ht.symm.trans hr
    · exact nomatch hfault.symm.trans hr
  · have hread : readEntry id k s.mem = .error (.unwrittenEntry id k) := by
      unfold readEntry
      rw [show s.mem.readWord (id.addr k) = none from hnone]
    simp [hostRead, busTarget_entry hk, inWriteSet_of_idle _ hidle, hread]

/-! ### AMI_SIGN is no input (R235) -/

/-- The state with another AMI_SIGN. -/
def withSign (sign : Sign) (s : State) : State := { s with amiSign := sign }

/-- Two runs from states with the signs `before` and `sign` end alike but for AMI_SIGN, which is the same in both, or in
each the one it started with. -/
def SignApart (before sign : Sign) (t t' : State) : Prop :=
  ∃ sign', t' = withSign sign' t ∧ (sign' = t.amiSign ∨ (sign' = sign ∧ t.amiSign = before))

/-- Two pieces of a command end with related values, or with the same error or fault. -/
def EndAlike {α : Type} (rel : α → α → Prop) (r r' : Except Stop α) : Prop :=
  (∃ e, r = .error e ∧ r' = .error e) ∨ ∃ a a', r = .ok a ∧ r' = .ok a' ∧ rel a a'

section
variable {α β : Type} {mid : α → α → Prop} {rel : β → β → Prop}

theorem endAlike_pure {a a' : α} (h : mid a a') : EndAlike mid (pure a) (pure a') := .inr ⟨a, a', rfl, rfl, h⟩

theorem endAlike_bind {r r' : Except Stop α} {f f' : α → Except Stop β} (hr : EndAlike mid r r')
    (hf : ∀ a a', mid a a' → EndAlike rel (f a) (f' a')) : EndAlike rel (r >>= f) (r' >>= f') := by
  rcases hr with ⟨e, rfl, rfl⟩ | ⟨a, a', rfl, rfl, ha⟩
  · exact .inl ⟨e, rfl, rfl⟩
  · exact hf a a' ha

/-- A piece that does not look at AMI_SIGN. -/
theorem endAlike_same (r : Except Stop α) {f f' : α → Except Stop β} (hf : ∀ a, EndAlike rel (f a) (f' a)) :
    EndAlike rel (r >>= f) (r >>= f') := by
  cases r with
  | error e => exact .inl ⟨e, rfl, rfl⟩
  | ok a => exact hf a

end

section
variable {before sign : Sign} {s t t' : State}

/-- A write that leaves AMI_SIGN alone. -/
theorem signApart_withSign (h : t.amiSign = before) : SignApart before sign t (withSign sign t) :=
  ⟨sign, rfl, .inr ⟨rfl, h⟩⟩

/-- What follows without a look at AMI_SIGN, and leaves it alone. -/
theorem SignApart.map (h : SignApart before sign t t') {g : State → State}
    (hg : ∀ sign u, g (withSign sign u) = withSign sign (g u)) (hkept : ∀ u, (g u).amiSign = u.amiSign) :
    SignApart before sign (g t) (g t') := by
  obtain ⟨sign', rfl, hsign⟩ := h
  exact ⟨sign', hg sign' t, by rwa [hkept]⟩

/-- AMI_SIGN after a message is that of its last symbol, or untouched when there is none (42_line_coder.md R127). -/
theorem amiSignAfter_cases (w : Nat) (syms : List Nat) :
    (∃ sign, ∀ before, amiSignAfter w syms before = sign) ∨ ∀ before, amiSignAfter w syms before = before := by
  rcases List.eq_nil_or_concat syms with rfl | ⟨first, last, rfl⟩
  · exact .inr fun _ => rfl
  · exact .inl ⟨(amiRun .pos (symbolBits w last)).2, fun before => by simp [amiSignAfter]⟩

theorem storeLineCode_signApart (code : LineCode) (w : Nat) (syms : List Nat) (sign : Sign) (s : State) :
    SignApart s.amiSign sign (storeLineCode code w syms s) (storeLineCode code w syms (withSign sign s)) := by
  cases code with
  | nrz => exact signApart_withSign rfl
  | man => exact signApart_withSign rfl
  | ami =>
    refine ⟨amiSignAfter w syms sign, rfl, ?_⟩
    rcases amiSignAfter_cases w syms with ⟨last, hlast⟩ | hnone
    · exact .inl ((hlast sign).trans (hlast s.amiSign).symm)
    · exact .inr ⟨hnone sign, hnone s.amiSign⟩

theorem storeStage_signApart (sch : Scheme) (w : Nat) (syms : List Nat) (sign : Sign) (s : State) :
    SignApart s.amiSign sign (storeStage sch w syms s) (storeStage sch w syms (withSign sign s)) := by
  cases sch with
  | line code => exact storeLineCode_signApart code w syms sign s
  | carrier m => exact signApart_withSign rfl

theorem noiseUnlessIdeal_withSign (c : Snapshot) (wave : List F64) (sign : Sign) (s : State) :
    noiseUnlessIdeal c wave (withSign sign s) = withSign sign (noiseUnlessIdeal c wave s) ∧
      (noiseUnlessIdeal c wave s).amiSign = s.amiSign := by
  unfold noiseUnlessIdeal
  split <;> exact ⟨rfl, rfl⟩

theorem ensureDict_withSign (c : Snapshot) (sch : Scheme) (w : Nat) (sign : Sign) (s : State) :
    ensureDict c sch w (withSign sign s) = withSign sign (ensureDict c sch w s) ∧
      (ensureDict c sch w s).amiSign = s.amiSign := by
  have hcurrent : dictCurrent c sch w (withSign sign s) = dictCurrent c sch w s := rfl
  unfold ensureDict
  rw [hcurrent]
  split <;> exact ⟨rfl, rfl⟩

/-- The detector finds the same symbols. -/
theorem endAlike_detectBody (c : Snapshot) (sch : Scheme) (w windows : Nat) (sign : Sign) (s : State) :
    EndAlike (fun p p' => p' = (withSign sign p.1, p.2) ∧ p.1.amiSign = s.amiSign) (detectBody c sch w windows s)
      (detectBody c sch w windows (withSign sign s)) := by
  obtain ⟨hsame, hkept⟩ := ensureDict_withSign c sch w sign s
  unfold detectBody
  rw [hsame]
  exact endAlike_same (inputSamples _ (ensureDict c sch w s)) fun samples =>
    endAlike_same (detectorEntries c sch w windows (ensureDict c sch w s)) fun dict => endAlike_pure ⟨rfl, hkept⟩

end

/-- Two runs of a command end alike. -/
def RunsAlike (i : Instr) (sign : Sign) (s : State) : Prop :=
  ∃ r r', exec i s = finish s r ∧ exec i (withSign sign s) = finish (withSign sign s) r' ∧
    EndAlike (SignApart s.amiSign sign) r r'

section
variable (sign : Sign) (s : State)

theorem encodeLine_runsAlike (code : LineCode) :
    ∃ r r', encodeLine code s = finish s r ∧ encodeLine code (withSign sign s) = finish (withSign sign s) r' ∧
      EndAlike (SignApart s.amiSign sign) r r' :=
  ⟨_, _, rfl, rfl, endAlike_same (cfgW s.snap (.line code)) fun w => endAlike_same (inputSyms _ s) fun syms =>
    endAlike_same (needRange w syms) fun _ => endAlike_same (needCap _ _) fun _ =>
    endAlike_pure (storeLineCode_signApart code w syms sign s)⟩

theorem mapParams_runsAlike (m : Modulation) :
    ∃ r r', mapParams m s = finish s r ∧ mapParams m (withSign sign s) = finish (withSign sign s) r' ∧
      EndAlike (SignApart s.amiSign sign) r r' :=
  ⟨_, _, rfl, rfl, endAlike_same (cfgW s.snap (.carrier m)) fun w => endAlike_same (inputSyms _ s) fun syms =>
    endAlike_same (needRange w syms) fun _ => endAlike_same (needCap _ _) fun _ =>
    endAlike_pure (signApart_withSign rfl)⟩

theorem tx_runsAlike : RunsAlike .tx sign s := by
  refine ⟨_, _, rfl, rfl, endAlike_same (transmitPlan s.snap) ?_⟩
  rintro ⟨sch, w, n⟩
  refine endAlike_same (inputBits (n * w) s) fun bits => endAlike_pure ?_
  have hstage := storeStage_signApart sch w (groupBits w n bits) sign (storeSyms (groupBits w n bits) s)
  have hwave := hstage.map (g := storeSamples (transmitWave s.snap sch w (groupBits w n bits))) (fun _ _ => rfl)
    fun _ => rfl
  exact hwave.map (g := noiseUnlessIdeal s.snap _) (fun sign u => (noiseUnlessIdeal_withSign _ _ sign u).1)
    fun u => (noiseUnlessIdeal_withSign _ _ sign u).2

theorem detect_runsAlike : RunsAlike .detect sign s := by
  refine ⟨_, _, rfl, rfl, endAlike_same (detectPlan s.snap) ?_⟩
  rintro ⟨sch, w, windows⟩
  refine endAlike_bind (endAlike_detectBody s.snap sch w windows sign s) ?_
  rintro ⟨t, syms⟩ _ ⟨rfl, hkept⟩
  exact endAlike_pure (signApart_withSign hkept)

theorem rx_runsAlike : RunsAlike .rx sign s := by
  refine ⟨_, _, rfl, rfl, endAlike_same (detectPlan s.snap) ?_⟩
  rintro ⟨sch, w, windows⟩
  refine endAlike_same (needCap (windows * w) Config.bitDepth) fun _ =>
    endAlike_bind (endAlike_detectBody s.snap sch w windows sign s) ?_
  rintro ⟨t, syms⟩ _ ⟨rfl, hkept⟩
  exact endAlike_pure (signApart_withSign hkept)

theorem exec_runsAlike (i : Instr) : RunsAlike i sign s := by
  have hkept {t : State} (h : t.amiSign = s.amiSign) := endAlike_pure (signApart_withSign (sign := sign) h)
  cases i with
  | nop => exact ⟨.ok s, .ok (withSign sign s), rfl, rfl, hkept rfl⟩
  | sreset =>
    exact ⟨.ok (softReset s), .ok (softReset (withSign sign s)), rfl, rfl, endAlike_pure ⟨.pos, rfl, .inl rfl⟩⟩
  | bits2sym =>
    exact ⟨_, _, rfl, rfl, endAlike_same (cfgScheme s.snap) fun sch => endAlike_same (cfgW s.snap sch) fun w =>
      endAlike_same (needCap _ _) fun _ => endAlike_same (inputBits _ s) fun _ => hkept rfl⟩
  | sym2dec =>
    exact ⟨_, _, rfl, rfl, endAlike_same (cfgScheme s.snap) fun sch => endAlike_same (cfgW s.snap sch) fun w =>
      endAlike_same (inputSyms _ s) fun syms => endAlike_same (needRange w syms) fun _ =>
      endAlike_same (needCap _ _) fun _ => hkept rfl⟩
  | sym2bits =>
    exact ⟨_, _, rfl, rfl, endAlike_same (cfgScheme s.snap) fun sch => endAlike_same (cfgW s.snap sch) fun w =>
      endAlike_same (inputSyms _ s) fun syms => endAlike_same (needRange w syms) fun _ =>
      endAlike_same (needCap _ _) fun _ => hkept rfl⟩
  | graygen form =>
    exact ⟨_, _, rfl, rfl, endAlike_same (cfgScheme s.snap) fun sch => endAlike_same (cfgW s.snap sch) fun w =>
      endAlike_same (needCap _ _) fun _ => hkept rfl⟩
  | lcencNrz => exact encodeLine_runsAlike sign s .nrz
  | lcencMan => exact encodeLine_runsAlike sign s .man
  | lcencAmi => exact encodeLine_runsAlike sign s .ami
  | modpAsk => exact mapParams_runsAlike sign s .ask
  | modpFsk => exact mapParams_runsAlike sign s .fsk
  | modpPsk => exact mapParams_runsAlike sign s .psk
  | modpQpsk => exact mapParams_runsAlike sign s .qpsk
  | modpQam16 => exact mapParams_runsAlike sign s .qam16
  | synLevel =>
    exact ⟨_, _, rfl, rfl, endAlike_same (needSps s.snap) fun _ => endAlike_same (needCap _ _) fun _ =>
      endAlike_same (inputLevels _ s) fun _ => hkept rfl⟩
  | synPulse =>
    exact ⟨_, _, rfl, rfl, endAlike_same (needSps s.snap) fun _ => endAlike_same (needBlock s.snap) fun _ =>
      endAlike_same (needCap _ _) fun _ => endAlike_same (inputLevels _ s) fun _ => hkept rfl⟩
  | synCarrier =>
    exact ⟨_, _, rfl, rfl, endAlike_same (needSps s.snap) fun _ => endAlike_same (needRate s.snap) fun _ =>
      endAlike_same (needCap _ _) fun _ => endAlike_same (inputParams _ s) fun _ => hkept rfl⟩
  | noise => exact ⟨_, _, rfl, rfl, endAlike_same (inputSamples _ s) fun _ => hkept rfl⟩
  | tx => exact tx_runsAlike sign s
  | dictbuild => exact ⟨_, _, rfl, rfl, endAlike_same (dictPlan s.snap) fun _ => hkept rfl⟩
  | detect => exact detect_runsAlike sign s
  | rx => exact rx_runsAlike sign s

end

/-- The end of a command carries over what its pieces have in common. -/
theorem finish_alike {sign : Sign} {s : State} {r r' : Except Stop State}
    (h : EndAlike (SignApart s.amiSign sign) r r') :
    (∀ t, finish s r = .next t → ∃ t', finish (withSign sign s) r' = .next t' ∧ SignApart s.amiSign sign t t') ∧
      ∀ f, finish s r = .fault f → finish (withSign sign s) r' = .fault f := by
  rcases h with ⟨c | f, rfl, rfl⟩ | ⟨u, u', rfl, rfl, hu⟩
  · refine ⟨fun t ht => ?_, fun f hf => by simp [finish] at hf⟩
    obtain rfl : raiseError c s = t := Host.Outcome.next.inj ht
    exact ⟨raiseError c (withSign sign s), rfl, signApart_withSign rfl⟩
  · exact ⟨fun t ht => by simp [finish] at ht, fun g hg => hg⟩
  · refine ⟨fun t ht => ?_, fun f hf => by simp [finish] at hf⟩
    obtain rfl : complete u = t := Host.Outcome.next.inj ht
    exact ⟨complete u', rfl, hu.map (g := complete) (fun _ _ => rfl) fun _ => rfl⟩

/-- Settles O13: a command looks at AMI_SIGN only to leave it as it is. -/
theorem amiSignIsNoInput : Obligations.AmiSignIsNoInput := by
  intro i s sign
  obtain ⟨r, r', hexec, hexec', halike⟩ := exec_runsAlike sign s i
  obtain ⟨hnext, hfault⟩ := finish_alike halike
  refine ⟨fun t ht => ?_, fun f hf => hexec'.trans (hfault f (hexec.symm.trans hf))⟩
  obtain ⟨_, ht', sign', rfl, hsign⟩ := hnext t (hexec.symm.trans ht)
  exact ⟨sign', hexec'.trans ht', hsign⟩

/-! ### Writes while BUSY = 1 (R241) -/

/-- Settles O50: every target but STATUS drops the write of a busy machine. -/
theorem writesDroppedWhileBusy : Obligations.WritesDroppedWhileBusy := by
  intro s v hbusy
  refine ⟨fun r hr => ?_, fun id i hi => ?_, fun a hlo hhi halign => ?_, ?_⟩
  · rw [hostWrite_of_register (busTarget_register r), writeTarget_register hr, if_pos hbusy]
    rfl
  · rw [hostWrite_of_entry (busTarget_entry hi), writeTarget, if_pos hbusy]
    rfl
  · rw [hostWrite_of_register (busTarget_reserved hlo hhi halign), writeTarget, if_pos hbusy]
    rfl
  · exact hostWrite_of_register (busTarget_register .status) v s

/-! ### Reads and the write set (R240) -/

section
variable {s : State}

theorem hostRead_register_of_outside {r : RegId} (h : inWriteSet (.register (some r)) s = false) :
    hostRead 8 r.busAddr s = .next { s with response := .data (readRegister r s) } := by
  simp [hostRead, busTarget_register, h, State.respond]

theorem hostRead_entry_of_outside {id : MemId} {k : Nat} {v : Word} (hk : k < id.words)
    (h : inWriteSet (.entry id k) s = false) (hv : s.entry id k = some v) :
    hostRead 8 (id.busAddr k) s =
      .next { s with response := .data (if id = .bit then v &&& 1#64 else v) } := by
  simp [hostRead, busTarget_entry hk, h, readEntry_eq_ok.mpr hv, loadedValue_eq, State.respond]

theorem hostRead_of_inside {addr : Addr} (h : inWriteSet (busTarget 8 addr) s = true) :
    hostRead 8 addr s =
      .next { s with response := .data (Config.busyRead s.freeReads), freeReads := s.freeReads + 1 } := by
  rw [hostRead, if_pos h]
  rfl

/-- A read of STATUS is never unspecified. -/
theorem status_outside_writeSet (s : State) : inWriteSet (.register (some .status)) s = false := by
  unfold inWriteSet
  cases runningCommand s with
  | none => rfl
  | some i => simp [writesRegister, rowRegister_status]

end

/-! ### The layout of STATUS (10_state.md section 3) -/

theorem getLsbD_flagAt (b : Bool) (i : Nat) {j : Nat} (hj : j < 64) :
    (flagAt b i).getLsbD j = (b && decide (j = i)) := by
  cases b with
  | false => simp [flagAt]
  | true =>
    rw [flagAt, if_pos rfl, BitVec.getLsbD_shiftLeft, BitVec.getLsbD_one]
    grind

theorem getLsbD_byteAt (b : Byte) (i : Nat) {j : Nat} (hj : j < 64) :
    ((b.setWidth 64 : Word) <<< i).getLsbD j = (decide (i ≤ j) && b.getLsbD (j - i)) := by
  rw [BitVec.getLsbD_shiftLeft, BitVec.getLsbD_setWidth]
  grind

/-- A bit of STATUS, by its place. -/
theorem getLsbD_status (s : State) {j : Nat} (hj : j < 64) :
    s.status.getLsbD j = (s.busy && decide (j = 0) || s.done && decide (j = 1) || s.err && decide (j = 2) ||
      s.ovr && decide (j = 3) || s.dictValid && decide (j = 4) || s.amiNeg && decide (j = 5) ||
      s.grayForm && decide (j = 6) || decide (8 ≤ j) && s.errCode.getLsbD (j - 8) ||
      decide (16 ≤ j) && s.lastOp.getLsbD (j - 16)) := by
  simp only [State.status, BitVec.getLsbD_or, getLsbD_flagAt _ _ hj, getLsbD_byteAt _ _ hj]

theorem amiNeg_iff {s : State} : s.amiNeg = true ↔ s.amiSign = .neg := by
  unfold State.amiNeg
  cases s.amiSign <;> simp

/-- A bit of STATUS from bit 8 on belongs to ERRCODE or LAST_OP. -/
theorem getLsbD_status_of_le (s : State) {j : Nat} (hlo : 8 ≤ j) (hj : j < 64) :
    s.status.getLsbD j = (s.errCode.getLsbD (j - 8) || decide (16 ≤ j) && s.lastOp.getLsbD (j - 16)) := by
  rw [getLsbD_status s hj]
  simp [hlo, show j ≠ 0 ∧ j ≠ 1 ∧ j ≠ 2 ∧ j ≠ 3 ∧ j ≠ 4 ∧ j ≠ 5 ∧ j ≠ 6 by omega]

theorem status_flags (s : State) :
    s.status.getLsbD 0 = s.busy ∧ s.status.getLsbD 1 = s.done ∧ s.status.getLsbD 2 = s.err ∧
      s.status.getLsbD 3 = s.ovr ∧ s.status.getLsbD 4 = s.dictValid ∧ s.status.getLsbD 5 = s.amiNeg ∧
      s.status.getLsbD 6 = s.grayForm ∧ s.status.getLsbD 7 = false := by
  refine ⟨?_, ?_, ?_, ?_, ?_, ?_, ?_, ?_⟩ <;> rw [getLsbD_status s (by decide)] <;> simp

theorem status_errCode (s : State) : s.status.extractLsb' 8 8 = s.errCode := by
  refine BitVec.eq_of_getLsbD_eq fun i hi => ?_
  have hbelow : ¬ 16 ≤ 8 + i := by omega
  rw [BitVec.getLsbD_extractLsb', getLsbD_status_of_le s (by omega) (by omega), Nat.add_sub_cancel_left]
  simp [hi, hbelow]

theorem status_lastOp (s : State) : s.status.extractLsb' 16 8 = s.lastOp := by
  refine BitVec.eq_of_getLsbD_eq fun i hi => ?_
  rw [BitVec.getLsbD_extractLsb', getLsbD_status_of_le s (by omega) (by omega), Nat.add_sub_cancel_left,
    BitVec.getLsbD_of_ge s.errCode _ (by omega)]
  simp [hi]

theorem status_above (s : State) : s.status.extractLsb' 24 40 = 0 := by
  refine BitVec.eq_of_getLsbD_eq fun i hi => ?_
  rw [BitVec.getLsbD_extractLsb', getLsbD_status_of_le s (by omega) (by omega),
    BitVec.getLsbD_of_ge s.errCode _ (by omega), BitVec.getLsbD_of_ge s.lastOp _ (by omega)]
  simp

/-- Settles O55: STATUS is read in every state, and each of its bits comes from one flag or one byte. -/
theorem statusReadLayout : Obligations.StatusReadLayout := by
  intro s
  obtain ⟨hbusy, hdone, herr, hovr, hvalid, hneg, hform, hzero⟩ := status_flags s
  exact ⟨hostRead_register_of_outside (status_outside_writeSet s), hbusy, hdone, herr, hovr, hvalid,
    by rw [hneg, amiNeg_iff], hform, hzero, status_errCode s, status_lastOp s, status_above s⟩

/-! ### The running command's row of R74 -/

section
variable {i : Instr} {s : State}

theorem firstOf_eq_none_iff {conds : List (ErrCode × Bool)} : firstOf conds = none ↔ ∀ p ∈ conds, p.2 = false := by
  simp [firstOf, List.find?_eq_none]

/-- A command that reads no symbols and does not end with an error has passed every check: its conditions look at
nothing of the memory. -/
theorem conditions_of_not_endsWithError (hi : readsSymbols i = false) (h : ¬ EndsWithError i s) :
    ∀ p ∈ errorConditions i s, p.2 = false := by
  obtain ⟨r, hexec, hfail, -⟩ := exec_reports i s
  rw [← firstOf_eq_none_iff]
  by_contra hsome
  obtain ⟨c, hc⟩ := Option.ne_none_iff_exists'.mp hsome
  have hr := hfail c hc fun _ hreads => absurd (hi.symm.trans hreads) Bool.false_ne_true
  exact h ⟨raiseError c s, by rw [hexec, hr]; rfl, rfl⟩

/-- A command of the transceiver that does not end with an error has a legal configuration. -/
theorem exists_configuration (hi : i = .tx ∨ i = .detect ∨ i = .rx) (h : ¬ EndsWithError i s) :
    ∃ sch w, cfgScheme s.snap = .ok sch ∧ cfgW s.snap sch = .ok w := by
  have hpassed : ∀ p ∈ errorConditions i s, p.2 = false :=
    conditions_of_not_endsWithError (by rcases hi with rfl | rfl | rfl <;> rfl) h
  have hfirst : (.cfgScheme, decide (7 < s.snap.schemeCode)) ∈ errorConditions i s := by
    rcases hi with rfl | rfl | rfl <;> exact .head _
  have hsecond : (.cfgBps, decide (s.snap.schemeCode ≠ 6) && decide (s.snap.schemeCode ≠ 7) && bpsIllegal s.snap) ∈
      errorConditions i s := by
    rcases hi with rfl | rfl | rfl <;> exact .tail _ (.head _)
  obtain ⟨sch, -, hscheme⟩ := (checks_cfgScheme s.snap).2
    (firstOf_eq_none_iff.mpr fun p hp => List.mem_singleton.mp hp ▸ hpassed _ hfirst) trivial
  obtain ⟨w, hw, -⟩ := (checks_cfgW hscheme).2
    (firstOf_eq_none_iff.mpr fun p hp => List.mem_singleton.mp hp ▸ hpassed _ hsecond) trivial
  exact ⟨sch, w, hscheme, hw⟩

/-- What the model's rows ask of the configuration, on a legal one. -/
theorem row_conditions {sch : Scheme} {w : Nat} (hscheme : cfgScheme s.snap = .ok sch)
    (hwidth : cfgW s.snap sch = .ok w) :
    snapIsLine s.snap = decide (s.snap.schemeCode ≤ 2) ∧ snapIsCarrier s.snap = !decide (s.snap.schemeCode ≤ 2) ∧
      rebuildsDict s = dictionaryStale s := by
  have hcode := schemeOfCode_of_cfgScheme hscheme
  refine ⟨?_, ?_, ?_⟩
  · rw [← schemeIsLine_eq hscheme, snapIsLine, hcode]
  · rw [← schemeIsLine_eq hscheme, snapIsCarrier, hcode]
  · simp [rebuildsDict, configured, hscheme, hwidth, dictCurrent_eq hscheme hwidth]

/-- The rows the model computes are those of R74. -/
theorem row_iff (h : ¬ EndsWithError i s) :
    (∀ r, rowRegister i s r = true ↔ r ∈ writtenRegisters i s) ∧
      ∀ id, rowMemory i s id = true ↔ id ∈ writtenMemories i s := by
  by_cases hi : i = .tx ∨ i = .detect ∨ i = .rx
  · obtain ⟨sch, w, hscheme, hwidth⟩ := exists_configuration hi h
    obtain ⟨hline, hcarrier, hrebuild⟩ := row_conditions hscheme hwidth
    rcases hi with rfl | rfl | rfl
    case inl =>
      by_cases hcode : s.snap.schemeCode ≤ 2 <;>
        simp [rowRegister, rowMemory, writtenRegisters, writtenMemories, hline, hcarrier, hcode, or_left_comm,
          or_comm]
    all_goals
      cases hstale : dictionaryStale s <;>
        simp [rowRegister, rowMemory, writtenRegisters, writtenMemories, hrebuild, hstale, or_assoc]
  · cases i <;> simp_all [rowRegister, rowMemory, writtenRegisters, writtenMemories, or_assoc]

end

/-! ### Reads while BUSY = 1 (R240) -/

/-- The write set of the running command is its row of R74, and nothing when it ends with an error. -/
theorem inWriteSet_eq {s : State} {i : Instr} (hbusy : s.busy = true) (hdecode : decode s.snap.word = .ok i) :
    (∀ r, inWriteSet (.register (some r)) s = writesRegister i s r) ∧
      ∀ id k, inWriteSet (.entry id k) s = writesMemory i s id := by
  have hrunning : runningCommand s = some i := by simp [runningCommand, hbusy, hdecode]
  simp [inWriteSet, hrunning]

theorem writesRegister_iff {i : Instr} {s : State} {r : RegId} :
    writesRegister i s r = true ↔ r ∈ writtenRegisters i s ∧ ¬ EndsWithError i s := by
  by_cases h : EndsWithError i s
  · simp [(not_writes_of_endsWithError h).1, h]
  · simp [(writes_of_not_endsWithError h).1, (row_iff h).1, h]

theorem writesMemory_iff {i : Instr} {s : State} {id : MemId} :
    writesMemory i s id = true ↔ id ∈ writtenMemories i s ∧ ¬ EndsWithError i s := by
  by_cases h : EndsWithError i s
  · simp [(not_writes_of_endsWithError h).2, h]
  · simp [(writes_of_not_endsWithError h).2, (row_iff h).2, h]

/-- Settles O54: a read is unspecified inside the write set only. -/
theorem readsWhileBusy : Obligations.ReadsWhileBusy := by
  intro s i hbusy _ hdecode unspecified
  obtain ⟨hregister, hmemory⟩ := inWriteSet_eq hbusy hdecode
  refine ⟨fun r hr hok => hostRead_of_inside ?_, fun r hr => hostRead_register_of_outside ?_,
    ⟨hostRead_register_of_outside (status_outside_writeSet s), (status_flags s).1.trans hbusy⟩,
    fun id k hk => ⟨fun hid hok => hostRead_of_inside ?_, fun hid v hv => hostRead_entry_of_outside hk ?_ hv⟩⟩
  · rw [busTarget_register, hregister]
    exact writesRegister_iff.mpr ⟨hr, hok⟩
  · rw [hregister, ← Bool.not_eq_true, writesRegister_iff]
    tauto
  · rw [busTarget_entry hk, hmemory]
    exact writesMemory_iff.mpr ⟨hid, hok⟩
  · rw [hmemory, ← Bool.not_eq_true, writesMemory_iff]
    tauto

end Sys2Proof.Proofs
